-- ==== Sys2Proof/Word.lean ====
section
/-! DEFINITION. The bit widths of the fields that travel in link frames and robot bus frames (R213). -/

namespace Sys2Proof

/-- One byte of a link frame or a robot bus frame (R213). -/
abbrev Byte := BitVec 8

/-- A two-byte field: counts, zones, configuration tags, speeds, durations (R213). -/
abbrev Word := BitVec 16

/-- A four-byte serial number (R16, R213). -/
abbrev Serial := BitVec 32

end Sys2Proof
end

