-- ==== Sys2Proof/Syntax.lean ====
section
/-! DEFINITION. The commands of the block: one constructor of Instr for each row of spec/opcode_table.json,
with the operands its rule gives it. The requests of the catalogue (10, Requests and status codes) stand a
second time as Request, the form a payload is read into. -/

namespace Sys2Proof

/-- One entry of ASSIGN_LIST: slot, class, tag, alpha, beta (R47, R213). -/
structure AssignEntry where
  slot  : Byte
  cls   : Byte
  tag   : Word
  alpha : Word
  beta  : Word
  deriving DecidableEq, Repr

/-- One entry of MEASURE_LIST: slot, alpha, beta (R178, R213). -/
structure MeasureEntry where
  slot  : Byte
  alpha : Word
  beta  : Word
  deriving DecidableEq, Repr

/-- A side box as DEFINE_ZONE carries it: alpha low, alpha high, beta low, beta high (R60, R213). -/
structure WireBox where
  alphaLow  : Word
  alphaHigh : Word
  betaLow   : Word
  betaHigh  : Word
  deriving DecidableEq, Repr

/-- The run states a STATE answer names (R144). -/
inductive RunState where
  | idle | running | arrived | stalled
  deriving DecidableEq, Repr, Inhabited

/-- The four answers a robot driver may give (R144). The eight data bytes of a PAGEDATA stand in the
order sent; a page kind is any byte (R213). -/
inductive BusAnswer where
  | taken
  | state (run : RunState) (alpha beta : Word)
  | pageData (kind : Byte) (d0 d1 d2 d3 d4 d5 d6 d7 : Byte)
  | refused (reason : Byte)
  deriving DecidableEq, Repr

/-- The request catalogue (10, Requests and status codes): one constructor for each request, with its
payload fields in the order in which they stand. -/
inductive Request where
  | defineSlot (slot line drop : Byte) (alphaMax betaFold betaMax : Word) (serialGiven : Byte) (serial : Serial)
  | forgetSlot (slot : Byte)
  | retire (slot : Byte)
  | assignList (entries : List AssignEntry)
  | clearTarget (slot : Byte) (cfgTag : Word)
  | dropTargets (cfgTag : Word)
  | defineZone (zone : Word) (slot1 : Byte) (box1 : WireBox) (slot2 : Byte) (box2 : WireBox)
  | forgetZone (zone : Word)
  | execute (cfgTag : Word)
  | awaitBatch
  | probe (slot : Byte)
  | measureList (entries : List MeasureEntry)
  | recover (slot : Byte)
  | readSlot (slot : Byte)
  | readTargets (slot : Byte)
  | readZone (zone : Word)
  | readWaitlist (index : Byte)
  | readLine (line : Byte)
  | readSegment
  | stop
  | resume (slot : Byte)
  | setBudget (units : Byte)
  | release
  | resetLine (line : Byte)
  | setTiming (claimTimeout settle : Word) (faultLimit : Byte)
  | setNotices (mask : Byte)
  | cancel
  | clearHalt
  | flush
  | resetSegment
  deriving DecidableEq, Repr

/-- The commands of the block, one for each row of spec/opcode_table.json. The first operand of a request
is the tag its link frame carries (R213). -/
inductive Instr where
  -- pins (07)
  | pinReset (segment : Fin 32) (hold stop inhibit : Bool)
  | stopAsserted
  | stopNegated
  | inhibitAsserted
  | inhibitNegated
  -- link events (10)
  | linkFrameReceived (bytes : List Byte)
  | planFrameMove
  | outputFrameSent
  | waitingAnswerEntry
  | noticeEntry
  -- plan requests
  | defineSlot (tag slot line drop : Byte) (alphaMax betaFold betaMax : Word) (serialGiven : Byte) (serial : Serial)
  | forgetSlot (tag slot : Byte)
  | retire (tag slot : Byte)
  | assignList (tag : Byte) (entries : List AssignEntry)
  | clearTarget (tag slot : Byte) (cfgTag : Word)
  | dropTargets (tag : Byte) (cfgTag : Word)
  | defineZone (tag : Byte) (zone : Word) (slot1 : Byte) (box1 : WireBox) (slot2 : Byte) (box2 : WireBox)
  | forgetZone (tag : Byte) (zone : Word)
  | execute (tag : Byte) (cfgTag : Word)
  | awaitBatch (tag : Byte)
  | probe (tag slot : Byte)
  | measureList (tag : Byte) (entries : List MeasureEntry)
  | recover (tag slot : Byte)
  -- control requests
  | readSlot (tag slot : Byte)
  | readTargets (tag slot : Byte)
  | readZone (tag : Byte) (zone : Word)
  | readWaitlist (tag index : Byte)
  | readLine (tag line : Byte)
  | readSegment (tag : Byte)
  | stop (tag : Byte)
  | resume (tag slot : Byte)
  | setBudget (tag units : Byte)
  | release (tag : Byte)
  | resetLine (tag line : Byte)
  | setTiming (tag : Byte) (claimTimeout settle : Word) (faultLimit : Byte)
  | setNotices (tag mask : Byte)
  | cancel (tag : Byte)
  | clearHalt (tag : Byte)
  | flush (tag : Byte)
  | resetSegment (tag : Byte)
  -- robot bus events (08)
  | frameSendingEnds (line : Fin 8)
  | haltAllSent (line : Fin 8)
  | validAnswer (line : Fin 8) (drop : Fin 16) (answer : BusAnswer)
  | corruptAnswer (line : Fin 8) (bytes : List Byte)
  | busFrameDiscarded (line : Fin 8) (bytes : List Byte)
  | answerWindowExpiry (line : Fin 8)
  | pollIntervalExpiry (slot : Fin 128)
  | waitingFrameJoin (line : Fin 8)
  -- timers (01)
  | claimTimeoutExpiry (slot : Fin 128)
  | legDeadlineExpiry (slot : Fin 128)
  | heldUnitsExpiry (slot : Fin 128)
  | timeBaseAdvance
  deriving DecidableEq, Repr

end Sys2Proof
end

