-- ==== Sys2Proof/Config.lean ====
section
/-! DEFINITION. What is fixed for the part: the capacities and defaults of spec/, and the two free values
that spec/ leaves open. -/

namespace Sys2Proof.Config

/-- FREE VALUE (log 14): the run state meant by a STATE whose run state byte is 4 to 255. R213 numbers
0 to 3 only, and R143 does not make such a frame corrupt. -/
opaque undefinedRunState : Byte → RunState

/-- FREE VALUE (log 15): the travel time in ms for a travel when no speed of 1 or more is at hand. R108
divides by the speed; R17 and R172 keep speeds at 1 or more, so no run from reset meets it. -/
opaque timeWithoutSpeed : Nat → Nat

/-- The greatest number of frames in the output queue (R194). -/
def outputCapacity : Nat := 16
/-- The greatest number of frames in the control input queue (R193). -/
def controlCapacity : Nat := 8
/-- The greatest number of frames in the plan input queue (R196). -/
def planCapacity : Nat := 32
/-- The greatest number of frames in an assembly (R197). -/
def assemblyCapacity : Nat := 8
/-- The greatest payload of a link request frame (R191). -/
def payloadCapacity : Nat := 256
/-- The greatest number of frames in a line's normal queue (R148). -/
def normalCapacity : Nat := 24
/-- The most zones a slot's zone list holds (R59). -/
def zoneLimit : Nat := 6
/-- The most targets a slot holds (R40). -/
def targetLimit : Nat := 2
/-- The answer window in ms (R152). -/
def answerWindow : Nat := 4
/-- The poll interval in ms (R149). -/
def pollInterval : Nat := 25
/-- The drive budget after either reset (R140, R141). -/
def defaultBudget : Nat := 48
/-- The claim timeout in s after either reset (R93). -/
def defaultClaimTimeout : Nat := 45
/-- The settle allowance in ms after either reset (R122). -/
def defaultSettle : Nat := 1500
/-- The fault limit after either reset (R32, R124). -/
def defaultFaultLimit : Nat := 3

/-- DESIGN CHOICE (log 29): how many internal events one step may take before it leaves the rest to the
next step. No event of spec/ leads to nearly so many. -/
def settleFuel : Nat := 100000

end Sys2Proof.Config
end

