-- ==== Sys2Proof/Machine/State.lean ====
section
/-! DEFINITION. The state of the block: every record, list, queue, setting and pin the spec names, as plain
data, and its value after reset. INVENTORY.md lists each field with its rule. -/

namespace Sys2Proof.Machine

/-- No rule of the spec stops the controller, so nothing raises a fault: refused requests are answers (10),
and a robot's faults are records of the slot (02 R31). Safe: no run is cut short. -/
inductive Fault where
  deriving DecidableEq, Repr

/-- Why a command has no meaning in the model. -/
inductive Refusal where
  /-- Raised by exec for a command the model does not cover yet, named as the table names it. Safe. -/
  | notModelled (mnemonic : String)
  deriving DecidableEq, Repr

/-! ## The Robot Table (02) -/

/-- The nine robot states (02, Robot states). -/
inductive RobotState where
  | vacant | defined | probing | rest | waiting | moving | held | faulted | retired
  deriving DecidableEq, Repr

/-- A slot's bus address: line 0 to 7, drop 0 to 15 (R15). -/
structure BusAddr where
  line : Nat
  drop : Nat
  deriving DecidableEq, Repr

/-- The calibration fields (R2). -/
structure Calibration where
  alphaMax : Nat
  betaFold : Nat
  betaMax  : Nat
  deriving DecidableEq, Repr

/-- What the robot driver says about itself (R17). -/
structure Identity where
  serial     : Serial
  revision   : Nat
  alphaSpeed : Nat
  betaSpeed  : Nat
  pages      : Nat
  deriving DecidableEq, Repr

/-- Where a known position's counts came from (R3). -/
inductive PosSource where
  | reported | loaded | measuredOnly
  deriving DecidableEq, Repr

/-- A known position (R3). -/
structure Position where
  alpha  : Nat
  beta   : Nat
  source : PosSource
  deriving DecidableEq, Repr

/-- A target record (R40). -/
structure Target where
  tag    : Nat
  alpha  : Nat
  beta   : Nat
  cls    : Nat
  pinned : Bool
  deriving DecidableEq, Repr

inductive LegKind where
  | fold | swing | extend | direct | recover
  deriving DecidableEq, Repr

inductive Axes where
  | alpha | beta | both
  deriving DecidableEq, Repr

inductive Speed where
  | normal | slow
  deriving DecidableEq, Repr

/-- The stages of a leg. A leg that reaches ENDED is removed from the slot record in the same event
(R104), so no stored leg is ENDED. -/
inductive Stage where
  | claiming | queued | issued | running | stopping | lapsing
  deriving DecidableEq, Repr

inductive HaltCause where
  | stop | deadline
  deriving DecidableEq, Repr

/-- A pair of counts (R1). -/
structure Counts where
  alpha : Nat
  beta  : Nat
  deriving DecidableEq, Repr

/-- A leg record (R104). id is the model's own number of the leg (log 16). stopTime is the time base when the leg
took halt cause STOP, which a stopped recovery's fault record carries (R34, log 33). -/
structure Leg where
  id        : Nat
  kind      : LegKind
  axes      : Axes
  start     : Option Counts
  finish    : Counts
  speed     : Speed
  units     : Nat
  cls       : Nat
  stage     : Stage
  haltCause : Option HaltCause
  stopTime  : Option Nat
  deadline  : Option Nat
  claimSet  : Option (List Nat)
  deriving DecidableEq, Repr

/-- A leg still to be built: its kind and its end counts (R103). -/
structure RemLeg where
  kind   : LegKind
  finish : Counts
  deriving DecidableEq, Repr

/-- The recovery return state (R19). -/
inductive ReturnState where
  | rest | held | faulted
  deriving DecidableEq, Repr

/-- Why a robot was blocked (R116). -/
inductive BlockReason where
  | fenced | contested | claimTimeout | lineDown
  deriving DecidableEq, Repr

/-- A robot's outcome in the batch (R116). -/
inductive RobotOutcome where
  | none | arrived | blocked (reason : BlockReason) | faulted | stopped
  deriving DecidableEq, Repr

/-- The fault kinds (02, Faults), with NONE for a stopped recovery (R34). -/
inductive FaultKind where
  | none | stall | overdue | noAnswer | refused | lineDown | wrongRobot | badPages
  deriving DecidableEq, Repr

/-- A fault record (R31). -/
structure FaultRec where
  kind : FaultKind
  time : Nat
  deriving DecidableEq, Repr

inductive RetireReason where
  | byRequest | faultLimit
  deriving DecidableEq, Repr

/-- A slot record (02, The slot record). Its number is its place in State.slots. -/
structure SlotRec where
  state          : RobotState
  addr           : Option BusAddr
  cal            : Option Calibration
  expectedSerial : Option Serial
  identity       : Option Identity
  position       : Option Position
  zones          : List Nat
  targets        : List Target
  leg            : Option Leg
  remaining      : List RemLeg
  recoveryReturn : Option ReturnState
  batchFlag      : Bool
  outcome        : RobotOutcome
  fault          : Option FaultRec
  faultCount     : Nat
  retireReason   : Option RetireReason
  deriving DecidableEq, Repr

/-- A VACANT slot record (R14). -/
def SlotRec.vacant : SlotRec where
  state := .vacant
  addr := none
  cal := none
  expectedSerial := none
  identity := none
  position := none
  zones := []
  targets := []
  leg := none
  remaining := []
  recoveryReturn := none
  batchFlag := false
  outcome := .none
  fault := none
  faultCount := 0
  retireReason := none

/-! ## The Zone Table (04) -/

/-- A box of counts: a side box (R4) or a path box (R7). -/
structure Box where
  alphaLow  : Nat
  alphaHigh : Nat
  betaLow   : Nat
  betaHigh  : Nat
  deriving DecidableEq, Repr

/-- One of a zone's two robots (R57). -/
inductive Side where
  | lower | higher
  deriving DecidableEq, Repr

/-- State, holder and intruder of a defined zone, in the combinations R58 allows. In a CONTESTED zone the
intruder is the side that is not the holder; in a FENCED zone the flag says whether that side intrudes. -/
inductive ZoneStatus where
  | free
  | held (holder : Side)
  | contested (holder : Side)
  | fenced (holder : Side) (intruded : Bool)
  deriving DecidableEq, Repr

/-- A defined zone record (R57). Its number is its place in State.zones. -/
structure ZoneRec where
  lower     : Nat
  higher    : Nat
  lowerBox  : Box
  higherBox : Box
  status    : ZoneStatus
  deriving DecidableEq, Repr

/-! ## The Claim Arbiter (05) -/

/-- A wait-list entry (R79). -/
structure WaitEntry where
  slot      : Nat
  cls       : Nat
  entryTime : Nat
  deadline  : Nat
  wanted    : List Nat
  deriving DecidableEq, Repr

/-! ## The Move Planner (06) -/

/-- The fields of a batch record that are present in OPEN and CLOSED (R97). -/
structure BatchRec where
  tag      : Nat
  admitted : Nat
  skipped  : Nat
  arrived  : Nat
  blocked  : Nat
  faulted  : Nat
  stopped  : Nat
  openTime : Nat
  deriving DecidableEq, Repr

/-- The batch record by its state NONE, OPEN, CLOSED (R97). -/
inductive Batch where
  | none
  | opened (rec : BatchRec)
  | closed (rec : BatchRec) (closeTime : Nat)
  deriving DecidableEq, Repr

/-! ## The Start Gate and the Interlock Lines (07) -/

/-- A start queue entry (R128). -/
structure StartEntry where
  slot      : Nat
  kind      : LegKind
  units     : Nat
  line      : Nat
  cls       : Nat
  entryTime : Nat
  deriving DecidableEq, Repr

/-- A held-units entry; a slot has at most one (R126). -/
structure HeldUnits where
  slot     : Nat
  units    : Nat
  deadline : Nat
  deriving DecidableEq, Repr

/-- The Start Gate (R125 to R128). -/
structure Gate where
  budget     : Nat
  unitsInUse : Nat
  startQueue : List StartEntry
  heldUnits  : List HeldUnits
  deriving DecidableEq, Repr

/-- The Interlock Lines: the two input levels and the latched straps (R134, R138, R139). -/
structure Pins where
  stop    : Bool
  inhibit : Bool
  segment : Fin 32
  hold    : Bool
  deriving DecidableEq, Repr

/-- The settings of SET_TIMING (R206): claim timeout in s, settle allowance in ms, fault limit. -/
structure Settings where
  claimTimeout    : Nat
  settleAllowance : Nat
  faultLimit      : Nat
  deriving DecidableEq, Repr

/-- The source of a stop event (R135). -/
inductive StopSource where
  | line | request
  deriving DecidableEq, Repr

/-- The blocks that take a stop event, each as an event of its own (07, Stop events). -/
inductive StopBlock where
  | arbiter | startGate | bus (line : Fin 8) | planner | link
  deriving DecidableEq, Repr

/-! ## The Bus Controllers (08) -/

inductive LineState where
  | up | down | silent
  deriving DecidableEq, Repr

/-- What a frame to one robot asks (R144). A GO keeps its leg's kind for READ_LINE (R166). -/
inductive FrameBody where
  | go (axes : Axes) (alphaEnd betaEnd : Nat) (speed : Speed) (kind : LegKind)
  | ask
  | halt
  | page (n : Nat)
  | setCount (alpha beta : Nat)
  deriving DecidableEq, Repr

/-- Who a frame's answer or failure goes to (R148, R154): a leg by its GO, a leg by a poll, a leg by a
readback, the probe, the measurement list; a HALT's answer changes nothing. -/
inductive FrameOwner where
  | leg (id : Nat)
  | poll (id : Nat)
  | readback (id : Nat)
  | probe
  | measure
  | noOne
  deriving DecidableEq, Repr

/-- A frame to one robot (R142, R148). -/
structure BusFrame where
  slot  : Nat
  drop  : Nat
  body  : FrameBody
  owner : FrameOwner
  deriving DecidableEq, Repr

/-- An urgent queue frame (R147). -/
inductive UrgentFrame where
  | halt (drop : Nat)
  | haltAll
  deriving DecidableEq, Repr

inductive Attempt where
  | first | second
  deriving DecidableEq, Repr

/-- A transaction (R146, R152). window is absent while the frame is being sent and is the answer window's
deadline afterwards. fromNormal says that the frame came from the normal queue (R150). -/
structure Txn where
  frame      : BusFrame
  attempt    : Attempt
  fromNormal : Bool
  window     : Option Nat
  deriving DecidableEq, Repr

/-- The last REFUSED taken on a line: drop, code of the frame refused, reason (R146). -/
structure LastRefusal where
  drop   : Nat
  kind   : Nat
  reason : Nat
  deriving DecidableEq, Repr

/-- When an ASK to a slot was last sent (R149). -/
structure LastAsk where
  slot : Nat
  time : Nat
  deriving DecidableEq, Repr

/-- A line record (R146). -/
structure LineRec where
  state          : LineState
  urgent         : List UrgentFrame
  normal         : List BusFrame
  waiting        : List BusFrame
  txn            : Option Txn
  sendingHaltAll : Bool
  failureRun     : List Nat
  pollTurn       : Bool
  pollCursor     : Option Nat
  lastAsk        : List LastAsk
  lastRefusal    : Option LastRefusal
  deriving DecidableEq, Repr

/-- A line after pin reset in the state given (R167). -/
def LineRec.fresh (st : LineState) : LineRec where
  state := st
  urgent := []
  normal := []
  waiting := []
  txn := none
  sendingHaltAll := false
  failureRun := []
  pollTurn := false
  pollCursor := none
  lastAsk := []
  lastRefusal := none

/-! ## Probe, measurement (09) -/

/-- Why a probe failed a slot: a fault, or a SILENT line (R170, R174). -/
inductive ProbeFailure where
  | fault (kind : FaultKind)
  | silent
  deriving DecidableEq, Repr

/-- The first failure of a probe: the lowest failed slot and its kind (R169). -/
structure FirstFailure where
  slot : Nat
  kind : ProbeFailure
  deriving DecidableEq, Repr

/-- The probe's work on one line (R169): slots still to visit, slot in hand, page asked next, what the
pages read so far gave (R172), and whether the second ASK of R173 is out. -/
structure ProbeLine where
  todo       : List Nat
  inHand     : Option Nat
  page       : Nat
  serial     : Serial
  revision   : Nat
  alphaSpeed : Nat
  betaSpeed  : Nat
  pages      : Nat
  secondAsk  : Bool
  deriving DecidableEq, Repr

/-- A line on which the probe has nothing to visit. -/
def ProbeLine.idle : ProbeLine where
  todo := []
  inHand := none
  page := 0
  serial := 0
  revision := 0
  alphaSpeed := 0
  betaSpeed := 0
  pages := 0
  secondAsk := false

/-- The probe record (R169). all says that the form is "all". -/
structure ProbeRec where
  all          : Bool
  lines        : Vector ProbeLine 8
  ok           : Nat
  failed       : Nat
  skipped      : Nat
  silent       : Nat
  firstFailure : Option FirstFailure
  cancelled    : Bool
  deriving DecidableEq, Repr

/-- A measurement list in progress (R178). -/
structure MeasureRec where
  entries   : List MeasureEntry
  index     : Nat
  applied   : Nat
  cancelled : Bool
  deriving DecidableEq, Repr

/-- The work of the current plan request (R198). -/
inductive Work where
  | awaitBatch
  | probe (rec : ProbeRec)
  | measure (rec : MeasureRec)
  | recover (slot : Nat)
  deriving DecidableEq, Repr

/-- The current request: its code, its tag, its work (R198). -/
structure Current where
  code : Byte
  tag  : Byte
  work : Work
  deriving DecidableEq, Repr

/-! ## The Segment Link Port (10) -/

/-- The link's two inbound channels. -/
inductive Channel where
  | control | plan
  deriving DecidableEq, Repr

/-- A good request frame for this segment (R191, R192). -/
structure LinkFrame where
  channel : Channel
  more    : Bool
  tag     : Byte
  code    : Byte
  payload : List Byte
  deriving DecidableEq, Repr

/-- An outbound frame (R213). planFree is written as sending begins (R194). -/
structure OutFrame where
  isNotice : Bool
  tag      : Byte
  code     : Byte
  status   : Byte
  payload  : List Byte
  planFree : Option Nat
  deriving DecidableEq, Repr

inductive HaltReason where
  | crc | overflow | tooLong
  deriving DecidableEq, Repr

inductive LinkErrorReason where
  | controlOverflow | outputFull
  deriving DecidableEq, Repr

/-- The summary of a pending notice, by kind (R209). Sets of lines, sources and reasons are the bytes they
are sent as (R213). -/
inductive Summary where
  | batchClosed (tag admitted skipped arrived blocked faulted stopped closes : Nat)
  | robotFaulted (count lowest : Nat)
  | robotRetired (count lowest : Nat)
  | zoneContested (count lowest : Nat)
  | lineDown (lost : Byte)
  | stopTaken (count : Nat) (sources : Byte)
  | planHalted (count : Nat) (reason : HaltReason)
  | linkError (count : Nat) (reasons : Byte)
  deriving DecidableEq, Repr

/-- A pending notice: the moment its kind became pending, and its summary (R209). -/
structure Notice where
  since   : Nat
  summary : Summary
  deriving DecidableEq, Repr

/-- The Segment Link Port. halt is absent while the plan channel is OPEN. -/
structure Link where
  rx            : List Byte
  control       : List LinkFrame
  plan          : List LinkFrame
  assembly      : List LinkFrame
  halt          : Option HaltReason
  current       : Option Current
  waitingAnswer : Option OutFrame
  output        : List OutFrame
  mask          : Byte
  notices       : List Notice
  deriving DecidableEq, Repr

/-! ## The whole block -/

/-- An event one block has handed to another inside a step: a leg handed to the Start Gate (R129), an
issue scan due (R131), an arbiter's choice due on a line (R151). -/
inductive Handed where
  | handOn (slot : Nat)
  | scan
  | choose (line : Nat)
  deriving DecidableEq, Repr

/-- The state of the PSC-128. -/
structure State where
  pending     : List Instr
  now         : Nat
  slots       : Vector SlotRec 128
  zones       : Vector (Option ZoneRec) 384
  waitList    : List WaitEntry
  batch       : Batch
  gate        : Gate
  pins        : Pins
  settings    : Settings
  lines       : Vector LineRec 8
  link        : Link
  handed      : List Handed
  stopOrders  : List (List StopBlock)
  stopPassing : Bool
  nextLegId   : Nat
  deriving DecidableEq, Repr

/-- The settings after either reset (R93, R122, R32). -/
def Settings.default : Settings where
  claimTimeout := Config.defaultClaimTimeout
  settleAllowance := Config.defaultSettle
  faultLimit := Config.defaultFaultLimit

/-- The Start Gate after pin reset (R140). -/
def Gate.fresh : Gate where
  budget := Config.defaultBudget
  unitsInUse := 0
  startQueue := []
  heldUnits := []

/-- The Segment Link Port after pin reset (R212). -/
def Link.fresh : Link where
  rx := []
  control := []
  plan := []
  assembly := []
  halt := none
  current := none
  waitingAnswer := none
  output := []
  mask := 255
  notices := []

/-- The block right after a pin reset with the straps at segment 0 and HOLD negated and with STOP and
INHIBIT negated. DESIGN CHOICE (log 7): the spec gives no pin levels. -/
def State.reset : State where
  pending := []
  now := 0
  slots := Vector.replicate 128 SlotRec.vacant
  zones := Vector.replicate 384 none
  waitList := []
  batch := .none
  gate := Gate.fresh
  pins := { stop := false, inhibit := false, segment := 0, hold := false }
  settings := Settings.default
  lines := Vector.replicate 8 (LineRec.fresh .up)
  link := Link.fresh
  handed := []
  stopOrders := []
  stopPassing := false
  nextLegId := 0

end Sys2Proof.Machine
end

