-- ==== Sys2Proof/Machine/Bytes.lean ====
section
/-! DEFINITION. Numbers as bytes (R213), the check values of link frames and robot bus frames, and the byte
layouts of the frames in both directions. -/

namespace Sys2Proof.Machine

/-! ## Fields, most significant byte first (R213) -/

/-- A one-byte field. -/
def b1 (n : Nat) : List Byte := [BitVec.ofNat 8 n]

/-- A two-byte field. -/
def b2 (n : Nat) : List Byte := [BitVec.ofNat 8 (n / 256), BitVec.ofNat 8 n]

/-- A two-byte field from a word. -/
def bw (w : Word) : List Byte := [w.extractLsb' 8 8, w.extractLsb' 0 8]

/-- A four-byte field: a serial. -/
def b4 (v : Serial) : List Byte :=
  [v.extractLsb' 24 8, v.extractLsb' 16 8, v.extractLsb' 8 8, v.extractLsb' 0 8]

/-- A six-byte field: a time. -/
def b6 (n : Nat) : List Byte :=
  [BitVec.ofNat 8 (n / 2 ^ 40), BitVec.ofNat 8 (n / 2 ^ 32), BitVec.ofNat 8 (n / 2 ^ 24),
   BitVec.ofNat 8 (n / 2 ^ 16), BitVec.ofNat 8 (n / 2 ^ 8), BitVec.ofNat 8 n]

/-- Yes or no; the level of a pin. -/
def bBool (b : Bool) : List Byte := if b then [1] else [0]

/-- An optional field of the width given: a presence byte, then the field, sent as zeros when absent. That the presence
byte of a field that is there is 1 is the model's choice, since R213 gives only the 0 of an absent one (log 13). -/
def bOpt (width : Nat) : Option (List Byte) → List Byte
  | none => 0 :: List.replicate width 0
  | some field => 1 :: field

/-- A list: a count byte, then the entries. -/
def bList (entries : List (List Byte)) : List Byte := BitVec.ofNat 8 entries.length :: entries.flatten

/-- The word of two bytes received, most significant first. -/
def word (hi lo : Byte) : Word := hi ++ lo

/-- The serial of four bytes received, most significant first. -/
def serial4 (d0 d1 d2 d3 : Byte) : Serial := (d0 ++ d1 ++ (d2 ++ d3) : BitVec (8 + 8 + (8 + 8)))

/-! ## Check values (R213) -/

/-- One bit step of the CRC-16, generator 1021h. -/
def crc16Bit (c : Word) : Word := if c.msb then (c <<< 1) ^^^ 0x1021#16 else c <<< 1

/-- One byte into the CRC-16, most significant bit first. -/
def crc16Byte (c : Word) (b : Byte) : Word :=
  crc16Bit (crc16Bit (crc16Bit (crc16Bit (crc16Bit (crc16Bit (crc16Bit (crc16Bit
    (c ^^^ (b.zeroExtend 16 <<< 8)))))))))

/-- The check value of a link frame over the bytes given: starting value FFFFh, no final inversion. -/
def crc16 (bytes : List Byte) : Word := bytes.foldl crc16Byte 0xFFFF#16

/-- One bit step of the CRC-8, generator 07h. -/
def crc8Bit (c : Byte) : Byte := if c.msb then (c <<< 1) ^^^ 0x07#8 else c <<< 1

/-- One byte into the CRC-8, most significant bit first. -/
def crc8Byte (c : Byte) (b : Byte) : Byte :=
  crc8Bit (crc8Bit (crc8Bit (crc8Bit (crc8Bit (crc8Bit (crc8Bit (crc8Bit (c ^^^ b))))))))

/-- The check value of a robot bus frame over the bytes given: starting value 00h, no final inversion. -/
def crc8 (bytes : List Byte) : Byte := bytes.foldl crc8Byte 0

/-! ## Named values (R213) -/

def RobotState.code : RobotState → Nat
  | .vacant => 0 | .defined => 1 | .probing => 2 | .rest => 3 | .waiting => 4
  | .moving => 5 | .held => 6 | .faulted => 7 | .retired => 8

/-- The robot state a recovery return state stands for (R19). -/
def ReturnState.toState : ReturnState → RobotState
  | .rest => .rest | .held => .held | .faulted => .faulted

def PosSource.code : PosSource → Nat
  | .reported => 0 | .loaded => 1 | .measuredOnly => 2

def BlockReason.code : BlockReason → Nat
  | .fenced => 0 | .contested => 1 | .claimTimeout => 2 | .lineDown => 3

/-- An outcome, followed by the blocked reason as an optional field. -/
def RobotOutcome.bytes : RobotOutcome → List Byte
  | .none => b1 0 ++ bOpt 1 Option.none
  | .arrived => b1 1 ++ bOpt 1 Option.none
  | .blocked r => b1 2 ++ bOpt 1 (some (b1 r.code))
  | .faulted => b1 3 ++ bOpt 1 Option.none
  | .stopped => b1 4 ++ bOpt 1 Option.none

def FaultKind.code : FaultKind → Nat
  | .none => 0 | .stall => 1 | .overdue => 2 | .noAnswer => 3 | .refused => 4
  | .lineDown => 5 | .wrongRobot => 6 | .badPages => 7

def ProbeFailure.code : ProbeFailure → Nat
  | .fault k => k.code
  | .silent => 8

def RetireReason.code : RetireReason → Nat
  | .byRequest => 0 | .faultLimit => 1

def LegKind.code : LegKind → Nat
  | .fold => 0 | .swing => 1 | .extend => 2 | .direct => 3 | .recover => 4

def Axes.code : Axes → Nat
  | .alpha => 0 | .beta => 1 | .both => 2

def Speed.code : Speed → Nat
  | .normal => 0 | .slow => 1

def Stage.code : Stage → Nat
  | .claiming => 0 | .queued => 1 | .issued => 2 | .running => 3 | .stopping => 4 | .lapsing => 5

def LineState.code : LineState → Nat
  | .up => 0 | .down => 1 | .silent => 2

def HaltReason.code : HaltReason → Nat
  | .crc => 0 | .overflow => 1 | .tooLong => 2

/-- The bit of a stop source in a set of sources. -/
def StopSource.bit : StopSource → Byte
  | .line => 1 | .request => 2

/-- The bit of a LINK_ERROR reason in a set of reasons. -/
def LinkErrorReason.bit : LinkErrorReason → Byte
  | .controlOverflow => 1 | .outputFull => 2

def Attempt.number : Attempt → Nat
  | .first => 1 | .second => 2

def runCode : RunState → Nat
  | .idle => 0 | .running => 1 | .arrived => 2 | .stalled => 3

/-- The run state of a STATE's run state byte. Bytes 4 to 255 are not numbered by R213: a free value
(log 14). -/
def runStateOf (b : Byte) : RunState :=
  match b.toNat with
  | 0 => .idle
  | 1 => .running
  | 2 => .arrived
  | 3 => .stalled
  | _ => Config.undefinedRunState b

/-! ## Status codes (10, Requests and status codes) -/

inductive Status where
  | ok | part | nothing | busy | halted | state | stopped | cancelled | reset | faulted | badRequest
  | wrongSegment | noRobot | inUse | already | inZone | zoneLimit | zoneBounds | duplicate | outOfRange
  | unreachable | pinned | targetsFull | budget
  deriving DecidableEq, Repr

def Status.code : Status → Nat
  | .ok => 0 | .part => 1 | .nothing => 2 | .busy => 3 | .halted => 4 | .state => 5 | .stopped => 6
  | .cancelled => 7 | .reset => 8 | .faulted => 9 | .badRequest => 10 | .wrongSegment => 11
  | .noRobot => 12 | .inUse => 13 | .already => 14 | .inZone => 15 | .zoneLimit => 16
  | .zoneBounds => 17 | .duplicate => 18 | .outOfRange => 19 | .unreachable => 20 | .pinned => 21
  | .targetsFull => 22 | .budget => 23

def Status.byte (st : Status) : Byte := BitVec.ofNat 8 st.code

/-! ## Link frames (R191, R213) -/

/-- The flags byte of a request frame: bit 0 the channel, bit 1 "more". -/
def LinkFrame.flags (f : LinkFrame) : Byte :=
  (if f.channel = .plan then 1 else 0) ||| (if f.more then 2 else 0)

/-- A request frame's bytes from the segment byte to the last payload byte, for the segment byte given. -/
def LinkFrame.body (f : LinkFrame) (segment : Byte) : List Byte :=
  segment :: f.flags :: f.tag :: f.code :: (b2 f.payload.length ++ f.payload)

/-- A request frame as it travels. -/
def LinkFrame.bytes (f : LinkFrame) (segment : Byte) : List Byte :=
  0xC3 :: 0x3C :: (f.body segment ++ bw (crc16 (f.body segment)))

/-- An outbound frame's bytes from the segment byte to the last payload byte. The plan free count is the
one written at sending, 0 before. -/
def OutFrame.body (f : OutFrame) (segment : Byte) : List Byte :=
  segment :: (if f.isNotice then 1 else 0) :: f.tag :: f.code :: f.status ::
    BitVec.ofNat 8 (f.planFree.getD 0) :: (b2 f.payload.length ++ f.payload)

/-- An outbound frame as it travels, for the segment byte given; State.transmitting gives the latched number
(R192). -/
def OutFrame.bytes (f : OutFrame) (segment : Byte) : List Byte :=
  0xC3 :: 0x3C :: (f.body segment ++ bw (crc16 (f.body segment)))

/-- What the receiver finds at the front of the bytes received (R191). -/
inductive Reception where
  /-- No whole frame yet; the bytes to keep. -/
  | wait (keep : List Byte)
  /-- A bad frame; the bytes from the one after its first sync byte. -/
  | bad (rest : List Byte)
  /-- A good frame with its segment byte; the bytes after it. -/
  | good (segment : Byte) (frame : LinkFrame) (rest : List Byte)
  deriving DecidableEq, Repr

/-- Reads a frame whose sync pair has been found: after are the bytes after the pair. The frame is taken in
whole, to its last check byte, whatever length its header gives; then a payload length above 256 or a wrong
check value makes it bad (R191). -/
def receiveFrame (after : List Byte) : Reception :=
  match after with
  | seg :: flags :: tag :: code :: l1 :: l0 :: rest =>
    let len := (word l1 l0).toNat
    if rest.length < len + 2 then .wait (0xC3 :: 0x3C :: after)
    else if Config.payloadCapacity < len then .bad (0x3C :: after)
    else
      let payload := rest.take len
      if crc16 (seg :: flags :: tag :: code :: l1 :: l0 :: payload) =
          (match rest.drop len with
           | c1 :: c0 :: _ => word c1 c0
           | _ => 0) then
        .good seg
          { channel := if flags.getLsbD 0 then .plan else .control
            more := flags.getLsbD 1
            tag := tag, code := code, payload := payload }
          (rest.drop (len + 2))
      else .bad (0x3C :: after)
  | _ => .wait (0xC3 :: 0x3C :: after)

/-- The receiver hunts for the sync pair C3h, 3Ch; bytes before it are discarded (R191). -/
def receive : List Byte → Reception
  | [] => .wait []
  | [b] => .wait (if b = 0xC3 then [b] else [])
  | b :: c :: rest => if b = 0xC3 ∧ c = 0x3C then receiveFrame rest else receive (c :: rest)

/-! ## Robot bus frames (R142 to R144, R213) -/

def FrameBody.code : FrameBody → Nat
  | .go .. => 1 | .ask => 2 | .halt => 3 | .page _ => 5 | .setCount .. => 6

def FrameBody.payload : FrameBody → List Byte
  | .go axes a b speed _ => b1 axes.code ++ b2 a ++ b2 b ++ b1 speed.code
  | .ask => []
  | .halt => []
  | .page n => b1 n
  | .setCount a b => b2 a ++ b2 b

/-- A robot bus frame from its drop byte, kind and payload. -/
def busBytes (dropByte : Byte) (kind : Nat) (payload : List Byte) : List Byte :=
  let body := dropByte :: BitVec.ofNat 8 kind :: BitVec.ofNat 8 payload.length :: payload
  0x96 :: (body ++ [crc8 body])

/-- A frame to one robot as it travels: its drop, the broadcast mark clear (R142). -/
def BusFrame.bytes (f : BusFrame) : List Byte :=
  busBytes (BitVec.ofNat 8 (f.drop % 16)) f.body.code f.body.payload

/-- HALT_ALL as it travels: the broadcast mark set, drop bits 0 (R153, R213). -/
def haltAllBytes : List Byte := busBytes 0x80 4 []

end Sys2Proof.Machine

namespace Sys2Proof

open Sys2Proof.Machine

def BusAnswer.code : BusAnswer → Nat
  | .taken => 0x81 | .state .. => 0x82 | .pageData .. => 0x83 | .refused _ => 0x84

def BusAnswer.payload : BusAnswer → List Byte
  | .taken => []
  | .state run a b => b1 (runCode run) ++ bw a ++ bw b
  | .pageData k d0 d1 d2 d3 d4 d5 d6 d7 => [k, d0, d1, d2, d3, d4, d5, d6, d7]
  | .refused r => [r]

/-- An answer of a driver at a drop as it travels. -/
def BusAnswer.bytes (drop : Nat) (a : BusAnswer) : List Byte :=
  busBytes (BitVec.ofNat 8 (drop % 16)) a.code a.payload

end Sys2Proof

namespace Sys2Proof.Machine

/-- The answer of a kind byte and a payload of that kind's length (R143, R144). -/
def answerOf (kind : Byte) (payload : List Byte) : Option BusAnswer :=
  match kind.toNat, payload with
  | 0x81, [] => some .taken
  | 0x82, [r, a1, a0, c1, c0] => some (.state (runStateOf r) (word a1 a0) (word c1 c0))
  | 0x83, [k, d0, d1, d2, d3, d4, d5, d6, d7] => some (.pageData k d0 d1 d2 d3 d4 d5 d6 d7)
  | 0x84, [r] => some (.refused r)
  | _, _ => none

/-- The answers a frame admits (R144). -/
def FrameBody.admits : FrameBody → BusAnswer → Bool
  | .go .., .taken => true
  | .go .., .refused _ => true
  | .ask, .state .. => true
  | .halt, .taken => true
  | .halt, .refused _ => true
  | .page _, .pageData .. => true
  | .page _, .refused _ => true
  | .setCount .., .taken => true
  | .setCount .., .refused _ => true
  | _, _ => false

/-- The answer a received frame is to the frame in transaction, when it passes every test of R143:
check value, broadcast mark, drop, kind, payload length. Bytes that are no robot bus frame of R213 (another start byte
than 96h, or another number of bytes than the length byte gives) are no answer either, so that in an open window they
end the attempt as a corrupt one: the model's choice, since R143 does not name them (log 34). -/
def validAnswer? (f : BusFrame) (bytes : List Byte) : Option BusAnswer :=
  match bytes with
  | start :: dropByte :: kind :: len :: rest =>
    let payload := rest.take len.toNat
    if start = 0x96 ∧ rest.length = len.toNat + 1 ∧
        rest.drop len.toNat = [crc8 (dropByte :: kind :: len :: payload)] ∧
        dropByte.getLsbD 7 = false ∧ dropByte.toNat % 16 = f.drop then
      match answerOf kind payload with
      | some a => if f.body.admits a then some a else none
      | none => none
    else none
  | _ => none

end Sys2Proof.Machine
end

