-- ==== Sys2Proof/Machine/Ops.lean ====
section
/-! DEFINITION. The named operations through which every rule reads and writes the records: slots, zones,
lines, the Start Gate's units, the events handed between blocks, and the answers of the link. -/

namespace Sys2Proof.Machine

/-! ## Records by number -/

/-- The slot numbers, ascending (R14). -/
def slotNumbers : List Nat := List.range 128

/-- The line numbers, ascending. -/
def lineNumbers : List Nat := List.range 8

/-- The slot record of a slot number; a VACANT record above 127, which no rule reads. -/
def State.slot (s : State) (n : Nat) : SlotRec := (s.slots[n]?).getD SlotRec.vacant

def State.setSlot (s : State) (n : Nat) (r : SlotRec) : State :=
  { s with slots := s.slots.setIfInBounds n r }

def State.modSlot (s : State) (n : Nat) (f : SlotRec → SlotRec) : State := s.setSlot n (f (s.slot n))

/-- One change made to every slot record. -/
def State.mapSlots (s : State) (f : SlotRec → SlotRec) : State :=
  { s with slots := ⟨⟨s.slots.toList.map f⟩, by simp⟩ }

/-- The zone record of a zone number, absent while undefined (R57). -/
def State.zone (s : State) (z : Nat) : Option ZoneRec := (s.zones[z]?).join

def State.setZone (s : State) (z : Nat) (r : Option ZoneRec) : State :=
  { s with zones := s.zones.setIfInBounds z r }

/-- Writes state, holder and intruder of a defined zone together (R58). -/
def State.setStatus (s : State) (z : Nat) (st : ZoneStatus) : State :=
  s.setZone z ((s.zone z).map fun r => { r with status := st })

def State.line (s : State) (l : Nat) : LineRec := (s.lines[l]?).getD (LineRec.fresh .silent)

def State.setLine (s : State) (l : Nat) (r : LineRec) : State :=
  { s with lines := s.lines.setIfInBounds l r }

def State.modLine (s : State) (l : Nat) (f : LineRec → LineRec) : State := s.setLine l (f (s.line l))

def State.modLink (s : State) (f : Link → Link) : State := { s with link := f s.link }

def State.modGate (s : State) (f : Gate → Gate) : State := { s with gate := f s.gate }

/-- Hands an event to another block; it is taken after the events handed before it (log 1). What is taken at once
instead: log 36, log 38. -/
def State.hand (s : State) (e : Handed) : State := { s with handed := s.handed ++ [e] }

/-! ## What the records say -/

/-- Stop is in force exactly while the STOP input is asserted (R134). -/
def State.stopInForce (s : State) : Bool := s.pins.stop

/-- MOTION is asserted exactly while drive units are in use (R127). -/
def State.motion (s : State) : Bool := decide (0 < s.gate.unitsInUse)

/-- The slot is not VACANT and its line field names the line (R146). -/
def SlotRec.onLine (r : SlotRec) (l : Nat) : Bool :=
  decide (r.state ≠ .vacant) && r.addr.any fun a => a.line == l

/-- The line of a slot's bus address (R15). -/
def SlotRec.lineNo (r : SlotRec) : Nat := (r.addr.map BusAddr.line).getD 0

/-- The drop of a slot's bus address (R15). -/
def SlotRec.dropNo (r : SlotRec) : Nat := (r.addr.map BusAddr.drop).getD 0

/-- The slots on a line, ascending (R146). -/
def State.slotsOn (s : State) (l : Nat) : List Nat := slotNumbers.filter fun n => (s.slot n).onLine l

/-- The leg of a slot when it is the leg a frame names (log 16). -/
def State.legOf (s : State) (n id : Nat) : Option Leg := (s.slot n).leg.filter fun g => g.id == id

/-- The slot's leg is LAPSING (R23). -/
def SlotRec.lapsing (r : SlotRec) : Bool := r.leg.any fun g => g.stage == .lapsing

/-- The slot is one of the busy states PROBING, WAITING, MOVING (R22). -/
def SlotRec.busy (r : SlotRec) : Bool :=
  match r.state with
  | .probing => true
  | .waiting => true
  | .moving => true
  | .vacant => false
  | .defined => false
  | .rest => false
  | .held => false
  | .faulted => false
  | .retired => false

/-- Removes the leg from the slot record: it has ENDED (R104). -/
def State.dropLeg (s : State) (n : Nat) : State := s.modSlot n fun r => { r with leg := none }

/-- The leg takes a halt cause. STOP is taken with the time base of the first stop event that reaches the leg
(R34, R119, R121, log 33). -/
def Leg.haltFor (g : Leg) (cause : HaltCause) (now : Nat) : Leg :=
  match cause with
  | .stop => { g with haltCause := some .stop, stopTime := some (g.stopTime.getD now) }
  | .deadline => { g with haltCause := some .deadline }

/-- Changes the slot's leg record. -/
def State.modLeg (s : State) (n : Nat) (f : Leg → Leg) : State :=
  s.modSlot n fun r => { r with leg := r.leg.map f }

/-- Joins an entry to a list ordered by class, class 0 foremost, and within a class by joining (R13). -/
def joinByClass {α : Type} (cls : α → Nat) (e : α) : List α → List α
  | [] => [e]
  | x :: xs => if cls x ≤ cls e then x :: joinByClass cls e xs else e :: x :: xs

/-- Replaces a robot's position by known counts. -/
def SlotRec.at (r : SlotRec) (alpha beta : Nat) (source : PosSource) : SlotRec :=
  { r with position := some { alpha := alpha, beta := beta, source := source } }

/-! ## Drive units (R126) -/

/-- Units returned to the Start Gate: the units in use fall and an issue scan is due. R126 makes the report an event of
its own at the Start Gate and no rule orders it against the hand-ons and scans handed earlier in the step: that the
units fall at once, ahead of those, is the model's choice (log 38). The scan due takes its turn behind them (log 1). -/
def State.returnUnits (s : State) (u : Nat) : State :=
  (s.modGate fun g => { g with unitsInUse := g.unitsInUse - u }).hand .scan

/-! ## The output queue (R194, R199) -/

/-- The number of free places in the plan input queue. -/
def State.planFree (s : State) : Nat := Config.planCapacity - s.link.plan.length

/-- A place is free in the output queue. -/
def State.outputRoom (s : State) : Bool := decide (s.link.output.length < Config.outputCapacity)

/-- The latched segment number, which request frames are tested against and every frame sent carries (R139, R192). -/
def State.segmentByte (s : State) : Byte := BitVec.ofNat 8 s.pins.segment.val

/-- What the transmit line carries: the front frame of the output queue, with the latched segment number in its
segment byte (R192, R194). -/
def State.transmitting (s : State) : List Byte :=
  match s.link.output with
  | [] => []
  | f :: _ => f.bytes s.segmentByte

/-- Writes the plan free count of a frame whose sending begins (R194). -/
def OutFrame.beginSending (f : OutFrame) (free : Nat) : OutFrame := { f with planFree := some free }

/-- A frame enters the output queue; alone in it, its sending begins (log 10). -/
def State.enterOutput (s : State) (f : OutFrame) : State :=
  match s.link.output with
  | [] => s.modLink fun l => { l with output := [f.beginSending s.planFree] }
  | _ :: _ => s.modLink fun l => { l with output := l.output ++ [f] }

/-- An answer frame (R213). -/
def answerFrame (tag code : Byte) (st : Status) (payload : List Byte) : OutFrame where
  isNotice := false
  tag := tag
  code := code
  status := st.byte
  payload := payload
  planFree := none

/-- An answer enters the output queue at once if a place is free and otherwise becomes the waiting answer
(R199). An answer that has a place granted to it finds one free. -/
def State.answer (s : State) (tag code : Byte) (st : Status) (payload : List Byte) : State :=
  if s.outputRoom then s.enterOutput (answerFrame tag code st payload)
  else s.modLink fun l => { l with waitingAnswer := some (answerFrame tag code st payload) }

/-- Forms the deferred answer: the current request becomes absent and its answer carries its tag and code
(R199). With no current request there is nothing to answer. -/
def State.answerCurrent (s : State) (st : Status) (payload : List Byte) : State :=
  match s.link.current with
  | none => s
  | some c => (s.modLink fun l => { l with current := none }).answer c.tag c.code st payload

/-- The current request is the RECOVER of this slot. -/
def State.recovering (s : State) (n : Nat) : Bool :=
  match s.link.current with
  | some c => decide (c.work = .recover n)
  | none => false

/-- Answers the RECOVER of this slot, if it has not been answered (R186 to R189). -/
def State.answerRecover (s : State) (n : Nat) (st : Status) (payload : List Byte) : State :=
  if s.recovering n then s.answerCurrent st payload else s

end Sys2Proof.Machine
end

