-- ==== Sys2Proof/Machine/Flags.lean ====
section
/-! DEFINITION. The notice flags of the Segment Link Port: the mask, raising and merging events, and the frame
a pending notice is sent as (R209 to R211). -/

namespace Sys2Proof.Machine

/-- The number of a notice's kind, which is its bit in the mask and its code (R209, R213). -/
def Summary.kind : Summary → Nat
  | .batchClosed .. => 0
  | .robotFaulted .. => 1
  | .robotRetired .. => 2
  | .zoneContested .. => 3
  | .lineDown _ => 4
  | .stopTaken .. => 5
  | .planHalted .. => 6
  | .linkError .. => 7

/-- A count stops at 65535 (R209). -/
def capped (n : Nat) : Nat := min n 65535

/-- Merges a later event's summary into the pending one of its kind (R209). Summaries of two kinds never
meet; the pending one then stands. -/
def Summary.merge : Summary → Summary → Summary
  | .batchClosed _ _ _ _ _ _ _ c, .batchClosed t a k r b f st d => .batchClosed t a k r b f st (capped (c + d))
  | .robotFaulted c l, .robotFaulted d m => .robotFaulted (capped (c + d)) (min l m)
  | .robotRetired c l, .robotRetired d m => .robotRetired (capped (c + d)) (min l m)
  | .zoneContested c l, .zoneContested d m => .zoneContested (capped (c + d)) (min l m)
  | .lineDown l, .lineDown m => .lineDown (l ||| m)
  | .stopTaken c x, .stopTaken d y => .stopTaken (capped (c + d)) (x ||| y)
  | .planHalted c _, .planHalted d r => .planHalted (capped (c + d)) r
  | .linkError c x, .linkError d y => .linkError (capped (c + d)) (x ||| y)
  | old, _ => old

/-- An event merged into the pending notices: into the notice of its kind, or a new one at the end. -/
def mergeNotice (now : Nat) (e : Summary) : List Notice → List Notice
  | [] => [{ since := now, summary := e }]
  | n :: ns =>
    if n.summary.kind = e.kind then { n with summary := n.summary.merge e } :: ns
    else n :: mergeNotice now e ns

/-- Raises an event, given as the summary it would start. A masked kind raises nothing (R209). -/
def State.raise (s : State) (e : Summary) : State :=
  if s.link.mask.getLsbD e.kind then
    s.modLink fun l => { l with notices := mergeNotice s.now e l.notices }
  else s

/-- The set of lines that are DOWN, as a byte (R210). -/
def State.linesDown (s : State) : Byte :=
  lineNumbers.foldl (fun b l => if (s.line l).state = .down then b ||| (1#8 <<< l) else b) 0

/-- A notice's payload; LINE_DOWN adds the lines DOWN at the moment of entry (R209, R210). R210 says only that the two
sets of lines stand next to each other: that the lines lost come first and the lines DOWN second is the model's choice
(log 13). -/
def Summary.payload (down : Byte) : Summary → List Byte
  | .batchClosed t a k r b f st c => b2 t ++ b2 a ++ b2 k ++ b2 r ++ b2 b ++ b2 f ++ b2 st ++ b2 c
  | .robotFaulted c l => b2 c ++ b1 l
  | .robotRetired c l => b2 c ++ b1 l
  | .zoneContested c z => b2 c ++ b2 z
  | .lineDown lost => [lost, down]
  | .stopTaken c src => b2 c ++ [src]
  | .planHalted c r => b2 c ++ b1 r.code
  | .linkError c rs => b2 c ++ [rs]

/-- The frame of a notice: the kind's code, tag 0, status OK, the summary as payload (R210). -/
def noticeFrame (down : Byte) (e : Summary) : OutFrame where
  isNotice := true
  tag := 0
  code := BitVec.ofNat 8 e.kind
  status := 0
  payload := e.payload down
  planFree := none

/-- The notice that became pending first enters the output queue and its flag is cleared (R210). -/
def State.enterNotice (s : State) : State :=
  match s.link.notices with
  | [] => s
  | n :: rest =>
    (s.modLink fun l => { l with notices := rest }).enterOutput (noticeFrame s.linesDown n.summary)

/-- The kinds pending, as a byte (R207). R213 names a notice mask and not this set; that it has the mask's form,
one byte with bit n for kind n, is the model's choice (log 13). -/
def State.pendingKinds (s : State) : Byte :=
  s.link.notices.foldl (fun b n => b ||| (1#8 <<< n.summary.kind)) 0

end Sys2Proof.Machine
end

