-- ==== Sys2Proof/Machine/Geometry.lean ====
section
/-! DEFINITION. The tests on counts of 01: calibration, range, side boxes, occupancy, path boxes, meeting,
reachability, travel; and the duration of a leg's deadline (R108). -/

namespace Sys2Proof.Machine

/-- A calibration is consistent (R2). -/
def Calibration.consistent (c : Calibration) : Bool :=
  decide (1 ≤ c.alphaMax ∧ c.alphaMax ≤ 65535 ∧ c.betaFold ≤ 65534 ∧ c.betaFold + 1 ≤ c.betaMax ∧ c.betaMax ≤ 65535)

/-- The calibration of a slot; a VACANT slot has none, and no rule asks for it there. -/
def SlotRec.calib (r : SlotRec) : Calibration := r.cal.getD { alphaMax := 0, betaFold := 0, betaMax := 0 }

/-- A position given in a request is in range for the robot (R1). -/
def Calibration.inRange (c : Calibration) (alpha beta : Nat) : Bool :=
  decide (alpha ≤ c.alphaMax ∧ c.betaFold ≤ beta ∧ beta ≤ c.betaMax)

/-- A side box is well formed for its robot (R4). -/
def Box.wellFormedFor (b : Box) (c : Calibration) : Bool :=
  decide (b.alphaLow ≤ b.alphaHigh ∧ b.betaLow ≤ b.betaHigh ∧ b.alphaHigh ≤ c.alphaMax ∧
    c.betaFold < b.betaLow ∧ b.betaHigh ≤ c.betaMax)

/-- The counts lie in the box, bounds included (R5). -/
def Box.holds (b : Box) (alpha beta : Nat) : Bool :=
  decide (b.alphaLow ≤ alpha ∧ alpha ≤ b.alphaHigh ∧ b.betaLow ≤ beta ∧ beta ≤ b.betaHigh)

/-- Two boxes meet: their alpha ranges share a count and their beta ranges share a count (R8). -/
def Box.meets (p q : Box) : Bool :=
  decide (p.alphaLow ≤ q.alphaHigh ∧ q.alphaLow ≤ p.alphaHigh ∧ p.betaLow ≤ q.betaHigh ∧ q.betaLow ≤ p.betaHigh)

/-- The path box from one position to another (R7). -/
def pathBox (a b : Counts) : Box where
  alphaLow := min a.alpha b.alpha
  alphaHigh := max a.alpha b.alpha
  betaLow := min a.beta b.beta
  betaHigh := max a.beta b.beta

/-- The side a slot has in a zone (R57). -/
def ZoneRec.sideOf (z : ZoneRec) (n : Nat) : Side := if z.lower = n then .lower else .higher

/-- The slot on a side of a zone. -/
def ZoneRec.slotOf (z : ZoneRec) : Side → Nat
  | .lower => z.lower
  | .higher => z.higher

/-- The side box of a side of a zone (R4). -/
def ZoneRec.boxOf (z : ZoneRec) : Side → Box
  | .lower => z.lowerBox
  | .higher => z.higherBox

def Side.other : Side → Side
  | .lower => .higher
  | .higher => .lower

/-- The holder of a zone (R58). -/
def ZoneStatus.holder : ZoneStatus → Option Side
  | .free => none
  | .held h => some h
  | .contested h => some h
  | .fenced h _ => some h

/-- The intruder of a zone (R58). -/
def ZoneStatus.intruder : ZoneStatus → Option Side
  | .free => none
  | .held _ => none
  | .contested h => some h.other
  | .fenced h i => if i then some h.other else none

/-- The zone is FENCED (R58). -/
def ZoneStatus.isFenced : ZoneStatus → Bool
  | .fenced _ _ => true
  | .free => false
  | .held _ => false
  | .contested _ => false

/-- The side is holder or intruder: the zone is among the robot's holdings (R59). -/
def ZoneStatus.heldBy (st : ZoneStatus) (me : Side) : Bool :=
  decide (st.holder = some me) || decide (st.intruder = some me)

/-- The number of a zone's state (R213). -/
def ZoneStatus.code : ZoneStatus → Nat
  | .free => 0
  | .held _ => 1
  | .contested _ => 2
  | .fenced _ _ => 3

/-- Holder and intruder as slots, each an optional field (R75; that each has a presence byte is log 13). -/
def ZoneRec.partyBytes (r : ZoneRec) : List Byte :=
  bOpt 1 (r.status.holder.map fun x => b1 (r.slotOf x)) ++ bOpt 1 (r.status.intruder.map fun x => b1 (r.slotOf x))

/-- The robot stands in its own side box of the zone; an unknown position stands in none (R5, R62). -/
def ZoneRec.occupiedBy (z : ZoneRec) (n : Nat) (p : Option Position) : Bool :=
  p.any fun q => (z.boxOf (z.sideOf n)).holds q.alpha q.beta

/-- The zone's status when the zone is defined. -/
def State.status (s : State) (z : Nat) : Option ZoneStatus := (s.zone z).map ZoneRec.status

/-- The zone is FREE (R81, R86). -/
def State.zoneFree (s : State) (z : Nat) : Bool := decide (s.status z = some .free)

/-- The zone is FENCED (R81). -/
def State.zoneFenced (s : State) (z : Nat) : Bool := (s.status z).any ZoneStatus.isFenced

/-- The zone is HELD with this slot as holder (R102). -/
def State.zoneHeldBy (s : State) (n z : Nat) : Bool :=
  (s.zone z).any fun r => decide (r.status = .held (r.sideOf n))

/-- The meet set of a path box: the zones of the robot's zone list whose side box it meets (R8). -/
def State.meetSet (s : State) (n : Nat) (path : Box) : List Nat :=
  (s.slot n).zones.filter fun z => (s.zone z).any fun r => path.meets (r.boxOf (r.sideOf n))

/-- The extension box of a target (R9). -/
def extensionBox (c : Calibration) (alpha beta : Nat) : Box :=
  pathBox { alpha := alpha, beta := c.betaFold } { alpha := alpha, beta := beta }

/-- The target is reachable: its extension box meets no zone FENCED with the other robot as holder
(R9, R51). -/
def State.reachable (s : State) (n alpha beta : Nat) : Bool :=
  (s.meetSet n (extensionBox (s.slot n).calib alpha beta)).all fun z =>
    !((s.zone z).any fun r =>
        r.status.isFenced && decide (r.status.holder = some (r.sideOf n).other))

/-- The robot is at fold: its position is known and its beta count is beta_fold (R3). -/
def SlotRec.atFold (r : SlotRec) : Bool := r.position.any fun p => p.beta == r.calib.betaFold

/-- The difference of two counts, taken as positive or zero (R10). -/
def countDiff (a b : Nat) : Nat := (a - b) + (b - a)

/-- The travels of a leg, alpha and beta. A RECOVER leg from an unknown position is given the whole beta
travel (R10). -/
def Leg.travel (g : Leg) (c : Calibration) : Nat × Nat :=
  match g.start with
  | none => (0, c.betaMax - c.betaFold)
  | some p => (countDiff p.alpha g.finish.alpha, countDiff p.beta g.finish.beta)

/-- Travel time of one axis in whole ms, rounded up: 1000 × travel ÷ speed, with one quarter of the speed
for a SLOW leg (R108). -/
def axisTime (speed : Speed) (travel countsPerSecond : Nat) : Nat :=
  let factor := match speed with
    | .normal => 1000
    | .slow => 4000
  if countsPerSecond = 0 then Config.timeWithoutSpeed travel
  else (factor * travel + countsPerSecond - 1) / countsPerSecond

/-- The travel time of a leg (R108). Rounding up each axis and taking the larger is rounding up the larger. -/
def Leg.travelTime (g : Leg) (r : SlotRec) : Nat :=
  let t := g.travel r.calib
  let va := (r.identity.map Identity.alphaSpeed).getD 0
  let vb := (r.identity.map Identity.betaSpeed).getD 0
  match g.axes with
  | .alpha => axisTime g.speed t.1 va
  | .beta => axisTime g.speed t.2 vb
  | .both => max (axisTime g.speed t.1 va) (axisTime g.speed t.2 vb)

/-- The duration of a leg's deadline: the settle allowance in force plus the travel time (R108). -/
def State.legDuration (s : State) (n : Nat) (g : Leg) : Nat :=
  s.settings.settleAllowance + g.travelTime (s.slot n)

end Sys2Proof.Machine
end

