-- ==== Sys2Proof/Machine/Batches.lean ====
section
/-! DEFINITION. The batch record: its bytes, outcomes, and closing (06 R97, R116 to R118). -/

namespace Sys2Proof.Machine

/-- The sum of the four outcome counts (R97). -/
def BatchRec.settled (b : BatchRec) : Nat := b.arrived + b.blocked + b.faulted + b.stopped

/-- The matching batch count is increased by one (R116, step 4). -/
def BatchRec.count (b : BatchRec) : RobotOutcome → BatchRec
  | .none => b
  | .arrived => { b with arrived := b.arrived + 1 }
  | .blocked _ => { b with blocked := b.blocked + 1 }
  | .faulted => { b with faulted := b.faulted + 1 }
  | .stopped => { b with stopped := b.stopped + 1 }

/-- The counts of a batch record with the widths of R213, each an optional field (R97, log 13). -/
def BatchRec.bytes (b : BatchRec) (state : Nat) (closeTime : Option Nat) : List Byte :=
  bOpt 2 (some (b2 b.tag)) ++ b1 state ++ bOpt 2 (some (b2 b.admitted)) ++ bOpt 2 (some (b2 b.skipped)) ++
    bOpt 2 (some (b2 b.arrived)) ++ bOpt 2 (some (b2 b.blocked)) ++ bOpt 2 (some (b2 b.faulted)) ++
    bOpt 2 (some (b2 b.stopped)) ++ bOpt 6 (some (b6 b.openTime)) ++ bOpt 6 (closeTime.map b6)

/-- The batch record as an answer carries it (R97, R118, R207). -/
def Batch.bytes : Batch → List Byte
  | .none =>
    bOpt 2 Option.none ++ b1 0 ++ bOpt 2 Option.none ++ bOpt 2 Option.none ++ bOpt 2 Option.none ++
      bOpt 2 Option.none ++ bOpt 2 Option.none ++ bOpt 2 Option.none ++ bOpt 6 Option.none ++ bOpt 6 Option.none
  | .opened b => b.bytes 1 Option.none
  | .closed b t => b.bytes 2 (some t)

/-- The batch record is OPEN. -/
def Batch.isOpen : Batch → Bool
  | .none => false
  | .opened _ => true
  | .closed _ _ => false

/-- The tag of the OPEN batch. -/
def Batch.openTag : Batch → Option Nat
  | .none => Option.none
  | .opened b => some b.tag
  | .closed _ _ => Option.none

/-- An AWAIT_BATCH that is current is answered OK with the batch record (R118). -/
def State.answerAwait (s : State) : State :=
  match s.link.current with
  | some c => if c.work = .awaitBatch then s.answerCurrent .ok s.batch.bytes else s
  | none => s

/-- A batch closes: CLOSED with its close time, one BATCH_CLOSED event, AWAIT_BATCH answered (R117). -/
def State.closeBatch (s : State) : State :=
  match s.batch with
  | .opened b =>
    (({ s with batch := .closed b s.now } : State).raise
      (.batchClosed b.tag b.admitted b.skipped b.arrived b.blocked b.faulted b.stopped 1)).answerAwait
  | .none => s
  | .closed _ _ => s

/-- The targets of a robot once an outcome is recorded: the batch's target is consumed for ARRIVED (R44)
and unpinned and kept for any other outcome (R45). -/
def settleTargets (o : RobotOutcome) (tag : Nat) (ts : List Target) : List Target :=
  match o with
  | .arrived => ts.filter fun t => t.tag != tag
  | .none | .blocked _ | .faulted | .stopped =>
    ts.map fun t => if t.tag = tag then { t with pinned := false } else t

/-- The state an outcome gives its robot: FAULTED is set by the fault report itself (R116, step 5). -/
def RobotOutcome.robotState (o : RobotOutcome) (old : RobotState) : RobotState :=
  match o with
  | .none => old
  | .arrived => .rest
  | .blocked _ => .rest
  | .faulted => old
  | .stopped => .held

/-- The slot record with an outcome recorded: steps 1 to 3 and 5 of R116. -/
def SlotRec.withOutcome (r : SlotRec) (o : RobotOutcome) (tag : Nat) : SlotRec :=
  { r with
    outcome := o
    remaining := []
    leg := r.leg.filter fun g => g.stage == .lapsing
    targets := settleTargets o tag r.targets
    state := o.robotState r.state
    faultCount := if o = .arrived then 0 else r.faultCount }

/-- Records an outcome for a robot in the open batch that has none; any other robot is given none
(R116). -/
def State.recordOutcome (s : State) (n : Nat) (o : RobotOutcome) : State :=
  match s.batch with
  | .opened b =>
    if (s.slot n).batchFlag ∧ (s.slot n).outcome = .none then
      let b' := b.count o
      let s' : State := { s.modSlot n fun r => r.withOutcome o b.tag with batch := .opened b' }
      if b'.admitted ≤ b'.settled then s'.closeBatch else s'
    else s
  | .none => s
  | .closed _ _ => s

end Sys2Proof.Machine
end

