-- ==== Sys2Proof/Machine/Arbiter.lean ====
section
/-! DEFINITION. The Claim Arbiter (05): granting, re-examination, taking a claim, the Zone Table's report, and
the stop event at the Arbiter. -/

namespace Sys2Proof.Machine

/-- Every zone of a claim set becomes HELD with the claimant as holder (R69). -/
def State.holdZones (s : State) (n : Nat) (zs : List Nat) : State :=
  zs.foldl (fun s z =>
    match s.zone z with
    | some r => s.setStatus z (.held (r.sideOf n))
    | none => s) s

/-- A grant (R84): the zones become HELD, the entry leaves the list, the leg passes to QUEUED and is
handed to the Start Gate. -/
def State.grant (s : State) (n : Nat) (wanted : List Nat) : State :=
  let s := s.holdZones n wanted
  let s : State := { s with waitList := s.waitList.filter fun e => e.slot != n }
  (s.modLeg n fun g => { g with stage := .queued }).hand (.handOn n)

/-- One pass over the wait list from the front: an entry is granted when every zone it wants is FREE and
no earlier entry still standing wants any of them (R86). wanted collects the zones of the entries passed. -/
def examine (s : State) (wanted : List Nat) : List WaitEntry → State
  | [] => s
  | e :: rest =>
    if e.wanted.all fun z => s.zoneFree z && !wanted.contains z then
      examine (s.grant e.slot e.wanted) wanted rest
    else examine s (wanted ++ e.wanted) rest

/-- A re-examination of the wait list (R86). -/
def State.reexamine (s : State) : State := examine s [] s.waitList

/-- Outcomes handed to the Move Planner in list order (R89, R91). It records them at once, ahead of what stands in
State.handed: the model's choice (log 38). -/
def State.handOutcomes (s : State) (o : RobotOutcome) (es : List WaitEntry) : State :=
  es.foldl (fun s e => s.recordOutcome e.slot o) s

/-- The Zone Table's report of the zones that became FREE and those that became FENCED (R70): entries that
want a newly fenced zone leave with BLOCKED(FENCED) (R89), then the list is re-examined once, if a zone
was freed or an entry removed (R85). The Arbiter takes the report at once, ahead of what stands in State.handed: the
model's choice (log 38). -/
def State.zoneReport (s : State) (freed fenced : List Nat) : State :=
  let wantsFenced := fun e : WaitEntry => e.wanted.any fun z => fenced.contains z
  let gone := s.waitList.filter wantsFenced
  let s : State := { s with waitList := s.waitList.filter fun e => !wantsFenced e }
  let s := s.handOutcomes (.blocked .fenced) gone
  if freed.isEmpty && gone.isEmpty then s else s.reexamine

/-- A claim joins the wait list and the list is re-examined in the same event (R83). -/
def State.joinWaitList (s : State) (n cls : Nat) (wanted : List Nat) : State :=
  let e : WaitEntry :=
    { slot := n, cls := cls, entryTime := s.now
      deadline := s.now + 1000 * s.settings.claimTimeout, wanted := wanted }
  ({ s with waitList := joinByClass WaitEntry.cls e s.waitList } : State).reexamine

/-- The Arbiter takes the claim of a slot's CLAIMING leg (R81). -/
def State.takeClaim (s : State) (n : Nat) : State :=
  match (s.slot n).leg with
  | none => s
  | some g =>
    let wanted := g.claimSet.getD []
    if s.stopInForce then s.recordOutcome n .stopped
    else if wanted.any s.zoneFenced then s.recordOutcome n (.blocked .fenced)
    else if wanted.all fun z => s.zoneFree z && !(s.waitList.any fun e => e.wanted.contains z) then
      s.grant n wanted
    else s.joinWaitList n g.cls wanted

/-- The stop event at the Claim Arbiter: the wait list is emptied and each robot gets outcome STOPPED
(R91). -/
def State.stopArbiter (s : State) : State :=
  ({ s with waitList := [] } : State).handOutcomes .stopped s.waitList

/-- An entry's claim timeout expires: it leaves with BLOCKED(CLAIM_TIMEOUT) and the list is re-examined
(R87). -/
def State.claimExpires (s : State) (n : Nat) : State :=
  (({ s with waitList := s.waitList.filter fun e => e.slot != n } : State).recordOutcome n
    (.blocked .claimTimeout)).reexamine

end Sys2Proof.Machine
end

