-- ==== Sys2Proof/Machine/ZoneTable.lean ====
section
/-! DEFINITION. The Zone Table (04): the occupancy update and the trim (R65 to R68), zones at retirement
(R72, R73), the initial state of a zone (R62). -/

namespace Sys2Proof.Machine

/-- One zone of an occupancy update, by whether the robot on side me stands in it. Kept and untouched
zones do not change; newly occupied zones change as R66 gives, released zones as R67 gives. -/
def ZoneStatus.update (st : ZoneStatus) (me : Side) (occupies : Bool) : ZoneStatus :=
  match st with
  | .free => if occupies then .held me else .free
  | .held h =>
    if occupies then (if h = me then .held h else .contested h)
    else (if h = me then .free else .held h)
  | .contested h => if occupies then .contested h else .held me.other
  | .fenced h i => if h = me then .fenced h i else .fenced h occupies

/-- One zone at the retirement of the robot on side me with its position known (R72). -/
def ZoneStatus.retireKnown (st : ZoneStatus) (me : Side) (occupies : Bool) : ZoneStatus :=
  if occupies then
    match st with
    | .free => .fenced me false
    | .held h => .fenced me (decide (h ≠ me))
    | .contested _ => .fenced me true
    | .fenced h i => if h = me then .fenced h i else .fenced h true
  else st.update me false

/-- One zone at the retirement of the robot on side me with its position unknown (R73). -/
def ZoneStatus.retireUnknown (st : ZoneStatus) (me : Side) : ZoneStatus :=
  match st with
  | .free => .free
  | .held h => if h = me then .fenced me false else .held h
  | .contested _ => .fenced me true
  | .fenced h i => .fenced h i

/-- The changed statuses of the zones of a robot's list under a rule for one zone: zone, before, after. -/
def State.zoneChanges (s : State) (n : Nat) (rule : ZoneStatus → Side → Bool → ZoneStatus) :
    List (Nat × ZoneStatus × ZoneStatus) :=
  (s.slot n).zones.filterMap fun z =>
    (s.zone z).map fun r =>
      (z, r.status, rule r.status (r.sideOf n) (r.occupiedBy n (s.slot n).position))

/-- Writes the zones of one event at the Zone Table. -/
def State.writeZones (s : State) (cs : List (Nat × ZoneStatus × ZoneStatus)) : State :=
  cs.foldl (fun s c => s.setStatus c.1 c.2.2) s

/-- The zones that became FREE (R70). -/
def freedZones (cs : List (Nat × ZoneStatus × ZoneStatus)) : List Nat :=
  (cs.filter fun c => decide (c.2.1 ≠ .free) && decide (c.2.2 = .free)).map Prod.fst

/-- The zones that became FENCED and were not before (R70). -/
def fencedZones (cs : List (Nat × ZoneStatus × ZoneStatus)) : List Nat :=
  (cs.filter fun c => !c.2.1.isFenced && c.2.2.isFenced).map Prod.fst

/-- The zone is CONTESTED (R58). -/
def ZoneStatus.isContested : ZoneStatus → Bool
  | .contested _ => true
  | .free => false
  | .held _ => false
  | .fenced _ _ => false

/-- The zones that became CONTESTED and were not before (R71). -/
def contestedZones (cs : List (Nat × ZoneStatus × ZoneStatus)) : List Nat :=
  (cs.filter fun c => !c.2.1.isContested && c.2.2.isContested).map Prod.fst

/-- One ZONE_CONTESTED event for each zone (R71). -/
def State.raiseContested (s : State) (zs : List Nat) : State :=
  zs.foldl (fun s z => s.raise (.zoneContested 1 z)) s

/-- The occupancy update of a robot, with its report to the Claim Arbiter and its ZONE_CONTESTED events
(R65). It is run only when the position is known and not for a RETIRED robot. The trim is the same update
(R68). -/
def State.updateZones (s : State) (n : Nat) : State :=
  if (s.slot n).position.isSome ∧ (s.slot n).state ≠ .retired then
    let cs := s.zoneChanges n ZoneStatus.update
    ((s.writeZones cs).zoneReport (freedZones cs) []).raiseContested (contestedZones cs)
  else s

/-- The changes of a retiring robot's zones: R72 with its position known, R73 with it unknown. -/
def State.retireChanges (s : State) (n : Nat) : List (Nat × ZoneStatus × ZoneStatus) :=
  if (s.slot n).position.isSome then s.zoneChanges n ZoneStatus.retireKnown
  else s.zoneChanges n fun st me _ => st.retireUnknown me

/-- The initial status of a newly defined zone from the occupancy and retirement of its robots (R62). -/
def initialStatus (lowerOccupies higherOccupies lowerRetired higherRetired : Bool) : ZoneStatus :=
  match lowerOccupies, higherOccupies with
  | false, false => .free
  | true, false => if lowerRetired then .fenced .lower false else .held .lower
  | false, true => if higherRetired then .fenced .higher false else .held .higher
  | true, true =>
    match lowerRetired, higherRetired with
    | false, false => .contested .lower
    | true, false => .fenced .lower true
    | false, true => .fenced .higher true
    | true, true => .fenced .lower true

end Sys2Proof.Machine
end

