-- ==== Sys2Proof/Machine/Robots.lean ====
section
/-! DEFINITION. Faults and retirement (02 R28, R31, R32, R34), and the ends of a recovery at the Robot Table and
the Segment Link Port (09 R186 to R189). -/

namespace Sys2Proof.Machine

/-- What becomes of the position in a fault report (R31). -/
inductive PosChange where
  | unknown
  | unchanged
  | counts (alpha beta : Nat) (source : PosSource)
  deriving DecidableEq, Repr

/-- The position field as a fault report gives it (R31, step 4). -/
def PosChange.apply (c : PosChange) (p : Option Position) : Option Position :=
  match c with
  | .unknown => none
  | .unchanged => p
  | .counts a b src => some { alpha := a, beta := b, source := src }

/-- The slot record of a retiring robot: steps 1 to 3 of R28. A LAPSING leg is ended. -/
def SlotRec.retired (r : SlotRec) (why : RetireReason) : SlotRec :=
  { r with
    state := .retired
    retireReason := some why
    targets := []
    remaining := []
    leg := r.leg.filter fun g => g.stage != .lapsing }

/-- An entry joins the held-units list, which holds at most one entry for each slot (R126). An entry the slot had
from before it was forgotten and defined again leaves, its units returned: the model's choice (log 24). The list keeps
the order of joining, the model's choice too, since R126 and R166 give it none (log 37). -/
def State.holdUnits (s : State) (e : HeldUnits) : State :=
  let old := s.gate.heldUnits.filter fun h => h.slot == e.slot
  (old.foldl (fun s h => s.returnUnits h.units) s).modGate fun t =>
    { t with heldUnits := (t.heldUnits.filter fun h => h.slot != e.slot) ++ [e] }

/-- The units of a LAPSING leg ended by retirement: kept until the leg's deadline, or returned at once when
that has passed (R126). -/
def State.keepUnits (s : State) (n : Nat) (leg : Option Leg) : State :=
  match leg with
  | none => s
  | some g =>
    if g.stage = .lapsing then
      match g.deadline with
      | none => s.returnUnits g.units
      | some d =>
        if d ≤ s.now then s.returnUnits g.units
        else s.holdUnits { slot := n, units := g.units, deadline := d }
    else s

/-- Retirement of a robot (R28). ROBOT_RETIRED is raised before the Claim Arbiter takes the Zone Table's
report (log 12). -/
def State.retire (s : State) (n : Nat) (why : RetireReason) : State :=
  let leg := (s.slot n).leg
  let s := (s.modSlot n fun r => r.retired why).keepUnits n leg
  let cs := s.retireChanges n
  ((s.writeZones cs).raise (.robotRetired 1 n)).zoneReport (freedZones cs) (fencedZones cs)

/-- Automatic retirement when the fault count has reached the fault limit (R32). -/
def State.testFaultLimit (s : State) (n : Nat) : State :=
  if s.settings.faultLimit ≤ (s.slot n).faultCount then s.retire n .faultLimit else s

/-- A fault report (R31), with the outcome FAULTED of a batch robot, the occupancy update or trim, and the
test of the fault limit (R32). ROBOT_FAULTED is raised first (log 12). -/
def State.faultReport (s : State) (n : Nat) (kind : FaultKind) (pos : PosChange) : State :=
  let s := s.raise (.robotFaulted 1 n)
  let s := s.modSlot n fun r =>
    { r with state := .faulted, fault := some { kind := kind, time := s.now }, remaining := [] }
  let s := s.recordOutcome n .faulted
  let s := s.modSlot n fun r =>
    { r with faultCount := r.faultCount + 1, position := pos.apply r.position }
  (s.updateZones n).testFaultLimit n

/-- A leg that is not a RECOVER leg, or is one (R104). -/
def Leg.isRecover (g : Leg) : Bool := g.kind == .recover

/-- A RECOVER leg that ends as arrived: REST, the fault record cleared, the return state removed, RECOVER
answered OK with the position (R186, steps 3 and 4). -/
def State.recoverSucceeds (s : State) (n : Nat) : State :=
  let s := s.modSlot n fun r => { r with state := .rest, fault := none, recoveryReturn := none }
  let pos := match (s.slot n).position with
    | some p => b2 p.alpha ++ b2 p.beta
    | none => b2 0 ++ b2 0
  s.answerRecover n .ok pos

/-- A RECOVER leg settled by a stop event: FAULTED, with its fault record kept or one of kind NONE with the time
the stop was taken (R34, R188, log 33), the return state removed, RECOVER answered STOPPED with the slot
(log 23). -/
def State.recoverStopped (s : State) (n time : Nat) : State :=
  (s.modSlot n fun r =>
    { r with
      state := .faulted
      leg := none
      recoveryReturn := none
      fault := match r.fault with
        | some f => some f
        | none => some { kind := .none, time := time } }).answerRecover n .stopped (b1 n)

/-- A RECOVER leg removed while QUEUED: the robot returns to its recovery return state (R19, R189). -/
def State.recoverReturns (s : State) (n : Nat) : State :=
  s.modSlot n fun r =>
    { r with
      leg := none
      state := match r.recoveryReturn with
        | some t => t.toState
        | none => r.state
      recoveryReturn := none }

/-- A fault of a RECOVER leg: the return state is removed unused and RECOVER is answered, FAULTED with the
kind, or STOPPED when a stop event had reached the leg (R187, R188). -/
def State.recoverFaulted (s : State) (n : Nat) (kind : FaultKind) (stopped : Bool) : State :=
  let s := s.modSlot n fun r => { r with recoveryReturn := none }
  if stopped then s.answerRecover n .stopped (b1 n)
  else s.answerRecover n .faulted (b1 kind.code)

/-- A leg ended by a stop event: outcome STOPPED, or for a RECOVER leg R34. A leg that no stop event had reached
before is ended in the event that takes the stop, at the time base of now (log 33). -/
def State.legStopped (s : State) (n : Nat) (g : Leg) : State :=
  if g.isRecover then s.recoverStopped n (g.stopTime.getD s.now) else s.recordOutcome n .stopped

end Sys2Proof.Machine
end

