-- ==== Sys2Proof/Machine/Lines.lean ====
section
/-! DEFINITION. The queues of a line and the arbiter's choice (08 R147 to R153, R158, R161). -/

namespace Sys2Proof.Machine

/-- A frame joins the urgent queue unless it is queued already (R147). -/
def joinUrgent (f : UrgentFrame) (q : List UrgentFrame) : List UrgentFrame :=
  if q.contains f then q else q ++ [f]

/-- Places a HALT for a drop, or HALT_ALL, in a line's urgent queue; the arbiter may choose (R147, R151). -/
def State.placeUrgent (s : State) (l : Nat) (f : UrgentFrame) : State :=
  (s.modLine l fun r => { r with urgent := joinUrgent f r.urgent }).hand (.choose l)

/-- The normal queue has room (R148). -/
def LineRec.hasRoom (r : LineRec) : Bool := decide (r.normal.length < Config.normalCapacity)

/-- A frame joins the normal queue, or waits for room (R148). Where the queue has room, it joins at once, also ahead
of frames that still wait: the model's choice (log 22). -/
def LineRec.offer (r : LineRec) (f : BusFrame) : LineRec :=
  if r.hasRoom then { r with normal := r.normal ++ [f] } else { r with waiting := r.waiting ++ [f] }

/-- Offers a frame to an UP line's normal queue. On a line that is not UP the frame is turned away: none
(R161). -/
def State.offer? (s : State) (l : Nat) (f : BusFrame) : Option State :=
  match (s.line l).state with
  | .up => some ((s.modLine l fun r => r.offer f).hand (.choose l))
  | .down => none
  | .silent => none

/-- Frames waiting for room join one for each place freed, in the order offered (R148). -/
def fillNormal (normal : List BusFrame) : List BusFrame → List BusFrame × List BusFrame
  | [] => (normal, [])
  | f :: rest =>
    if normal.length < Config.normalCapacity then fillNormal (normal ++ [f]) rest else (normal, f :: rest)

def LineRec.fill (r : LineRec) : LineRec :=
  { r with normal := (fillNormal r.normal r.waiting).1, waiting := (fillNormal r.normal r.waiting).2 }

/-- The last-ASK time of a slot on a line (R149). It stands under the slot's number, also while the slot is forgotten:
the model's choice (log 35). -/
def LineRec.lastAskOf (r : LineRec) (n : Nat) : Option Nat := (r.lastAsk.find? fun a => a.slot == n).map LastAsk.time

/-- Writes the last-ASK time of a slot, the list ascending by slot (R149). -/
def writeLastAsk (n t : Nat) : List LastAsk → List LastAsk
  | [] => [{ slot := n, time := t }]
  | a :: rest =>
    if a.slot = n then { slot := n, time := t } :: rest
    else if n < a.slot then { slot := n, time := t } :: a :: rest
    else a :: writeLastAsk n t rest

/-- A poll is due for the slot: its leg is RUNNING, and its last ASK is absent or 25 ms or more old
(R149). -/
def State.pollDue (s : State) (l n : Nat) : Bool :=
  ((s.slot n).leg.any fun g => g.stage == .running) &&
    (match (s.line l).lastAskOf n with
     | none => true
     | some t => decide (t + Config.pollInterval ≤ s.now))

/-- The slots of a line with a poll due, ascending. -/
def State.pollsDue (s : State) (l : Nat) : List Nat := (s.slotsOn l).filter fun n => s.pollDue l n

/-- The slot a poll goes to: the smallest due slot above the cursor, else the smallest (R150). -/
def nextPoll (cursor : Option Nat) (due : List Nat) : Option Nat :=
  match cursor with
  | none => due.head?
  | some c =>
    match due.find? fun n => decide (c < n) with
    | some n => some n
    | none => due.head?

/-- The transaction of a frame the arbiter takes: attempt 1, its sending begun (R152). -/
def Txn.begin (f : BusFrame) (fromNormal : Bool) : Txn where
  frame := f
  attempt := .first
  fromNormal := fromNormal
  window := none

/-- The arbiter takes a poll: the cursor moves, the poll turn is cleared (R150). -/
def State.takePoll (s : State) (l n : Nat) : State :=
  let id := ((s.slot n).leg.map Leg.id).getD 0
  s.modLine l fun r =>
    { r with
      pollCursor := some n
      pollTurn := false
      txn := some (Txn.begin { slot := n, drop := (s.slot n).dropNo, body := .ask, owner := .poll id } false) }

/-- The arbiter takes the front of the normal queue: the turn is cleared, waiting frames join, and the
Start Gate makes an issue scan (R148, R150, R151). -/
def State.takeNormal (s : State) (l : Nat) (f : BusFrame) (rest : List BusFrame) : State :=
  (s.modLine l fun r =>
    ({ r with normal := rest, pollTurn := false, txn := some (Txn.begin f true) } : LineRec).fill).hand .scan

/-- The arbiter takes the front of the urgent queue: a HALT begins a transaction, HALT_ALL is sent without
one (R153). A HALT's frame needs no slot; its answer changes nothing (R154). -/
def State.takeUrgent (s : State) (l : Nat) (f : UrgentFrame) (rest : List UrgentFrame) : State :=
  match f with
  | .haltAll => s.modLine l fun r => { r with urgent := rest, sendingHaltAll := true }
  | .halt d => s.modLine l fun r =>
      { r with
        urgent := rest
        txn := some (Txn.begin { slot := 0, drop := d, body := .halt, owner := .noOne } false) }

/-- The choice of an UP line that is free, in the order of R151. -/
def State.chooseUp (s : State) (l : Nat) : State :=
  let r := s.line l
  match r.urgent with
  | f :: rest => s.takeUrgent l f rest
  | [] =>
    match (if r.pollTurn then nextPoll r.pollCursor (s.pollsDue l) else none) with
    | some n => s.takePoll l n
    | none =>
      match r.normal with
      | f :: rest => s.takeNormal l f rest
      | [] =>
        match nextPoll r.pollCursor (s.pollsDue l) with
        | some n => s.takePoll l n
        | none => s

/-- The arbiter chooses the next frame of a line (R151): nothing while a frame is being sent or answered;
on a DOWN line only a queued HALT_ALL; on a SILENT line nothing. -/
def State.choose (s : State) (l : Nat) : State :=
  let r := s.line l
  if r.txn.isSome || r.sendingHaltAll then s
  else
    match r.state with
    | .up => s.chooseUp l
    | .down =>
      if r.urgent.contains .haltAll then s.takeUrgent l .haltAll (r.urgent.filter fun f => f != .haltAll) else s
    | .silent => s

/-- A queued readback ASK for the slot takes over the leg of the one that merges with it (R148, log 17). -/
def mergeReadback (n id : Nat) (q : List BusFrame) : List BusFrame :=
  q.map fun f =>
    match f.owner with
    | .readback _ => if f.slot = n then { f with owner := .readback id } else f
    | .leg _ => f
    | .poll _ => f
    | .probe => f
    | .measure => f
    | .noOne => f

/-- The frame is a readback ASK for the slot (R148). -/
def BusFrame.isReadbackOf (f : BusFrame) (n : Nat) : Bool :=
  match f.owner with
  | .readback _ => f.slot == n
  | .leg _ => false
  | .poll _ => false
  | .probe => false
  | .measure => false
  | .noOne => false

/-- Places a readback for a leg on an UP line: it merges with a queued one for the slot, and otherwise
brings a HALT for the drop into the urgent queue and joins the normal queue or waits (R148, R158). -/
def State.placeReadbackUp (s : State) (l n id : Nat) : State :=
  if (s.line l).normal.any fun f => f.isReadbackOf n then
    s.modLine l fun r => { r with normal := mergeReadback n id r.normal }
  else
    let d := (s.slot n).dropNo
    (s.modLine l fun r =>
      ({ r with urgent := joinUrgent (.halt d) r.urgent } : LineRec).offer
        { slot := n, drop := d, body := .ask, owner := .readback id }).hand (.choose l)

end Sys2Proof.Machine
end

