-- ==== Sys2Proof/Machine/Legs.lean ====
section
/-! DEFINITION. The legs at the Move Planner (06 R104 to R115, R119 to R121): building, TAKEN, REFUSED, failures,
STATE answers, deadlines, and the stop event. -/

namespace Sys2Proof.Machine

/-! ## Building a leg -/

/-- The axes of a leg's kind (R102, R103, R185). -/
def LegKind.axes : LegKind → Axes
  | .fold => .beta
  | .swing => .alpha
  | .extend => .beta
  | .direct => .both
  | .recover => .beta

/-- The drive units of a leg: 2 for axes BOTH and 1 otherwise (R104). -/
def Axes.units : Axes → Nat
  | .alpha => 1
  | .beta => 1
  | .both => 2

/-- The speed of a leg's kind: SLOW for RECOVER alone (R104, R185). -/
def LegKind.speed : LegKind → Speed
  | .fold => .normal
  | .swing => .normal
  | .extend => .normal
  | .direct => .normal
  | .recover => .slow

/-- The first stage of a built leg: CLAIMING for an EXTEND leg, QUEUED for every other (R105). -/
def LegKind.firstStage : LegKind → Stage
  | .extend => .claiming
  | .fold => .queued
  | .swing => .queued
  | .direct => .queued
  | .recover => .queued

/-- The counts of a known position. -/
def Position.counts (p : Position) : Counts := { alpha := p.alpha, beta := p.beta }

/-- The claim set of a leg: the meet set of an EXTEND leg's path box, and none for another kind (R78). -/
def State.claimSetOf (s : State) (n : Nat) (kind : LegKind) (start : Option Counts) (finish : Counts) :
    Option (List Nat) :=
  match kind with
  | .extend => start.map fun a => s.meetSet n (pathBox a finish)
  | .fold => none
  | .swing => none
  | .direct => none
  | .recover => none

/-- The leg record built for a slot from its position to the end given (R104). -/
def State.newLeg (s : State) (n : Nat) (kind : LegKind) (finish : Counts) (cls : Nat) : Leg where
  id := s.nextLegId
  kind := kind
  axes := kind.axes
  start := (s.slot n).position.map Position.counts
  finish := finish
  speed := kind.speed
  units := kind.axes.units
  cls := cls
  stage := kind.firstStage
  haltCause := none
  stopTime := none
  deadline := none
  claimSet := s.claimSetOf n kind ((s.slot n).position.map Position.counts) finish

/-- Builds a leg in its first stage; the robot is WAITING (R104, R105). -/
def State.buildLeg (s : State) (n : Nat) (kind : LegKind) (finish : Counts) (cls : Nat) : State :=
  ({ s with nextLegId := s.nextLegId + 1 } : State).modSlot n fun r =>
    { r with leg := some (s.newLeg n kind finish cls), state := .waiting }

/-- Hands a built leg on: a CLAIMING leg's claim to the Claim Arbiter, a QUEUED leg to the Start Gate
(R105). The Arbiter takes the claim at once, ahead of hand-ons and scans handed to the Start Gate earlier in the step:
the model's choice, since R100, R105 and R110 do not order events at two blocks (log 36). -/
def State.handLeg (s : State) (n : Nat) : State :=
  match (s.slot n).leg with
  | none => s
  | some g =>
    match g.stage with
    | .claiming => s.takeClaim n
    | .queued => s.hand (.handOn n)
    | .issued => s
    | .running => s
    | .stopping => s
    | .lapsing => s

/-- The class of the slot's pinned target (R42). -/
def SlotRec.pinnedClass (r : SlotRec) : Nat := ((r.targets.find? Target.pinned).map Target.cls).getD 0

/-- After a leg that arrived: the next leg of the plan is built and handed on, or the outcome is ARRIVED
(R110, step 5). -/
def State.nextLeg (s : State) (n : Nat) : State :=
  match (s.slot n).remaining with
  | [] => s.recordOutcome n .arrived
  | l :: rest =>
    ((s.modSlot n fun r => { r with remaining := rest }).buildLeg n l.kind l.finish
      (s.slot n).pinnedClass).handLeg n

/-! ## The ends of a leg -/

/-- A leg becomes ENDED: it leaves the slot record and its units are returned (R104, R126). -/
def State.endLeg (s : State) (n : Nat) (g : Leg) : State := (s.dropLeg n).returnUnits g.units

/-- Writes a robot's position with counts it reported (R18). -/
def State.reportPosition (s : State) (n alpha beta : Nat) : State :=
  s.modSlot n fun r => r.at alpha beta .reported

/-- A leg ends as arrived (R110); a RECOVER leg ends the recovery successfully (R186). -/
def State.legArrived (s : State) (n : Nat) (g : Leg) (alpha beta : Nat) : State :=
  let s := ((s.endLeg n g).reportPosition n alpha beta).updateZones n
  if g.isRecover then s.recoverSucceeds n else s.nextLeg n

/-- A stop event has reached the leg (R119). -/
def Leg.halted (g : Leg) : Bool := g.haltCause == some .stop

/-- The RECOVER of a leg that took a fault is answered in the event of the fault (R187, R188). -/
def State.answerFault (s : State) (n : Nat) (g : Leg) (kind : FaultKind) : State :=
  if g.isRecover then s.recoverFaulted n kind g.halted else s

/-- A leg ends with a fault: ENDED, units returned, fault reported (R109, R114, R115). -/
def State.legFaulted (s : State) (n : Nat) (g : Leg) (kind : FaultKind) (pos : PosChange) : State :=
  ((s.endLeg n g).faultReport n kind pos).answerFault n g kind

/-- A LAPSING leg whose deadline has been reached ends (R112). -/
def State.endLapsed (s : State) (n : Nat) : State :=
  match (s.slot n).leg with
  | none => s
  | some g => if g.stage = .lapsing ∧ (g.deadline.any fun d => decide (d ≤ s.now)) then s.endLeg n g else s

/-- A leg becomes LAPSING with the fault given and its position unknown; a leg without a deadline is given
one; with its deadline passed it ends in the same event (R111, R112, R115). -/
def State.lapse (s : State) (n : Nat) (g : Leg) (kind : FaultKind) : State :=
  let d := g.deadline.getD (s.now + s.legDuration n g)
  (((s.modLeg n fun g => { g with stage := .lapsing, deadline := some d }).faultReport n kind
    .unknown).answerFault n g kind).endLapsed n

/-- A leg ended by a stop event before it ran: its units are returned, the trim runs on its start
(R119, R120). -/
def State.legAbandoned (s : State) (n : Nat) (g : Leg) : State :=
  ((s.endLeg n g).updateZones n).legStopped n g

/-- A leg with halt cause STOP ended at the counts a STATE reports (R120). -/
def State.legHalted (s : State) (n : Nat) (g : Leg) (alpha beta : Nat) : State :=
  (((s.endLeg n g).reportPosition n alpha beta).updateZones n).legStopped n g

/-- A readback STATE for a LAPSING leg ends it; the robot stays FAULTED (R120, R35). -/
def State.lapsedRead (s : State) (n : Nat) (g : Leg) (alpha beta : Nat) : State :=
  ((s.endLeg n g).reportPosition n alpha beta).updateZones n

/-! ## Readbacks (R158) -/

/-- A failed readback: a STOPPING leg becomes LAPSING with fault NO_ANSWER (R114, R120); a LAPSING leg is not
changed (R112). -/
def State.readbackFailed (s : State) (n id : Nat) : State :=
  match s.legOf n id with
  | none => s
  | some g => if g.stage = .stopping then s.lapse n g .noAnswer else s

/-- Places the readback of a leg on its robot's line. On a line that is not UP it is turned away as a failed
transaction (R161). -/
def State.placeReadback (s : State) (n : Nat) (g : Leg) : State :=
  match (s.line (s.slot n).lineNo).state with
  | .up => s.placeReadbackUp (s.slot n).lineNo n g.id
  | .down => s.readbackFailed n g.id
  | .silent => s.readbackFailed n g.id

/-- The Move Planner places a HALT for a robot's drop on its line (R113). On a line that is not UP it is turned
away, and it has no owner to tell (R161). -/
def State.placeHalt (s : State) (n : Nat) : State :=
  match (s.line (s.slot n).lineNo).state with
  | .up => s.placeUrgent (s.slot n).lineNo (.halt (s.slot n).dropNo)
  | .down => s
  | .silent => s

/-- A running leg becomes STOPPING with a halt cause, and its readback is placed (R113, R119). -/
def State.haltLeg (s : State) (n : Nat) (g : Leg) (cause : HaltCause) : State :=
  (s.modLeg n fun g => { g.haltFor cause s.now with stage := .stopping }).placeReadback n g

/-- A running leg at its deadline: halted with cause DEADLINE, the Move Planner's own HALT placed before the readback,
whose HALT merges with it (R113, R158). -/
def State.deadlineHalt (s : State) (n : Nat) (g : Leg) : State := (s.placeHalt n).haltLeg n g .deadline

/-! ## What the Bus Controllers report -/

/-- TAKEN for the leg's GO: the deadline is set, and the leg becomes RUNNING, or STOPPING with its readback
when a stop event has reached it (R107, R120). -/
def State.legTaken (s : State) (n : Nat) (g : Leg) : State :=
  let d := s.now + s.legDuration n g
  if g.halted then (s.modLeg n fun g => { g with stage := .stopping, deadline := some d }).placeReadback n g
  else s.modLeg n fun g => { g with stage := .running, deadline := some d }

/-- TAKEN for a GO. -/
def State.goTaken (s : State) (n id : Nat) : State :=
  match s.legOf n id with
  | none => s
  | some g => if g.stage = .issued then s.legTaken n g else s

/-- REFUSED for a GO: fault REFUSED with the position unchanged (R115), or no fault when a stop event has
reached the leg (R120). -/
def State.goRefused (s : State) (n id : Nat) : State :=
  match s.legOf n id with
  | none => s
  | some g =>
    if g.stage = .issued then
      if g.halted then s.legAbandoned n g else s.legFaulted n g .refused .unchanged
    else s

/-- A failed transaction for a GO (R111, R120). -/
def State.goFailed (s : State) (n id : Nat) : State :=
  match s.legOf n id with
  | none => s
  | some g => if g.stage = .issued then s.lapse n g .noAnswer else s

/-- A GO that left the normal queue unsent at a stop event (R119, R159). -/
def State.goDiscarded (s : State) (n id : Nat) : State :=
  match s.legOf n id with
  | none => s
  | some g => if g.stage = .issued then s.legAbandoned n g else s

/-- A failed poll: a RUNNING leg becomes LAPSING; a leg that has left RUNNING is passed over (R111, R114,
R120). -/
def State.pollFailed (s : State) (n id : Nat) : State :=
  match s.legOf n id with
  | none => s
  | some g => if g.stage = .running then s.lapse n g .noAnswer else s

/-- The counts are where the leg was sent; a RECOVER leg is compared by beta alone (R109, R186). -/
def Leg.atEnd (g : Leg) (alpha beta : Nat) : Bool :=
  (g.isRecover || alpha == g.finish.alpha) && beta == g.finish.beta

/-- A STATE for a RUNNING leg (R109). -/
def State.runningState (s : State) (n : Nat) (g : Leg) (run : RunState) (alpha beta : Nat) : State :=
  match run with
  | .running => s
  | .stalled => s.legFaulted n g .stall (.counts alpha beta .reported)
  | .arrived | .idle =>
    if g.atEnd alpha beta then s.legArrived n g alpha beta
    else s.legFaulted n g .stall (.counts alpha beta .reported)

/-- A STATE for a STOPPING leg: the answer to an earlier poll with run state RUNNING is passed over; any other
ends the leg by its halt cause (R114, R120). -/
def State.stoppingState (s : State) (n : Nat) (g : Leg) (readback : Bool) (run : RunState) (alpha beta : Nat) :
    State :=
  if readback = false ∧ run = .running then s
  else if g.halted then s.legHalted n g alpha beta
  else if g.atEnd alpha beta then s.legArrived n g alpha beta
  else s.legFaulted n g .overdue (.counts alpha beta .reported)

/-- A STATE taken for a leg, by its stage. readback says that it answers a readback ASK and not a poll. -/
def State.stateTaken (s : State) (n id : Nat) (readback : Bool) (run : RunState) (alpha beta : Nat) : State :=
  match s.legOf n id with
  | none => s
  | some g =>
    match g.stage with
    | .running => s.runningState n g run alpha beta
    | .stopping => s.stoppingState n g readback run alpha beta
    | .lapsing => if readback then s.lapsedRead n g alpha beta else s
    | .claiming => s
    | .queued => s
    | .issued => s

/-- A robot's line has gone DOWN, by the stage of its leg (R115). -/
def State.lineDownLeg (s : State) (n : Nat) : State :=
  match (s.slot n).leg with
  | none => s
  | some g =>
    match g.stage with
    | .issued => s.legFaulted n g .lineDown .unchanged
    | .running => s.lapse n g .lineDown
    | .stopping => s.lapse n g .lineDown
    | .claiming => s
    | .queued => s
    | .lapsing => s

/-! ## Deadlines and the stop event -/

/-- The leg deadline of a slot expires: a RUNNING leg is halted with cause DEADLINE, a LAPSING leg ends, any
other is not changed (R112, R113, R121). -/
def State.legDeadline (s : State) (n : Nat) : State :=
  match (s.slot n).leg with
  | none => s
  | some g =>
    if g.deadline.any fun d => decide (d ≤ s.now) then
      match g.stage with
      | .running => s.deadlineHalt n g
      | .lapsing => s.endLeg n g
      | .claiming => s
      | .queued => s
      | .issued => s
      | .stopping => s
    else s

/-- The stop event for one leg at the Move Planner, by its stage (R119). -/
def State.stopLeg (s : State) (n : Nat) : State :=
  match (s.slot n).leg with
  | none => s
  | some g =>
    match g.stage with
    | .issued => s.modLeg n fun g => g.haltFor .stop s.now
    | .running => s.haltLeg n g .stop
    | .stopping => s.modLeg n fun g => g.haltFor .stop s.now
    | .lapsing =>
      if (s.line (s.slot n).lineNo).state = .up ∧ (g.deadline.any fun d => decide (s.now < d)) then
        s.placeReadback n g
      else s
    | .claiming => s
    | .queued => s

/-- The stop event at the Move Planner: every leg, in slot order (R119, log 19). -/
def State.stopPlanner (s : State) : State := slotNumbers.foldl (fun s n => s.stopLeg n) s

end Sys2Proof.Machine
end

