-- ==== Sys2Proof/Machine/Plans.lean ====
section
/-! DEFINITION. Admission and plan building (06 R99 to R103). -/

namespace Sys2Proof.Machine

/-- What plan building gives a robot: an immediate outcome, or the first leg and the legs that follow it. -/
inductive Plan where
  | outcome (o : RobotOutcome)
  | legs (first : RemLeg) (rest : List RemLeg)
  deriving DecidableEq, Repr

/-- The slot holds a target of the tag (R99). -/
def SlotRec.holdsTag (r : SlotRec) (tag : Nat) : Bool := r.targets.any fun t => t.tag == tag

/-- EXECUTE admits the slot: REST with a target of the tag (R99). -/
def SlotRec.admittedBy (r : SlotRec) (tag : Nat) : Bool := decide (r.state = .rest) && r.holdsTag tag

/-- EXECUTE skips the slot: it holds a target of the tag in another state in service (R99). -/
def SlotRec.skippedBy (r : SlotRec) (tag : Nat) : Bool :=
  r.holdsTag tag &&
    match r.state with
    | .defined => true
    | .probing => true
    | .waiting => true
    | .moving => true
    | .held => true
    | .faulted => true
    | .vacant => false
    | .rest => false
    | .retired => false

/-- The robot is holder or intruder of a CONTESTED zone, or intruder of a FENCED zone (R101, test 2). -/
def State.contested (s : State) (n : Nat) : Bool :=
  (s.slot n).zones.any fun z =>
    (s.zone z).any fun r =>
      r.status.isContested || (r.status.isFenced && decide (r.status.intruder = some (r.sideOf n)))

/-- A leg of a plan, when its condition holds (R103). -/
def legWhen (present : Bool) (kind : LegKind) (finish : Counts) : List RemLeg :=
  if present then [{ kind := kind, finish := finish }] else []

/-- The legs FOLD, SWING and EXTEND of a plan, each when its condition holds (R103). -/
def foldSwingExtend (a b : Counts) (fold : Nat) : List RemLeg :=
  legWhen (a.beta != fold) .fold { alpha := a.alpha, beta := fold } ++
    legWhen (a.alpha != b.alpha) .swing { alpha := b.alpha, beta := fold } ++
    legWhen (b.beta != fold) .extend b

/-- The plan from a position to a target's counts (R101 to R103). -/
def State.planFor (s : State) (n : Nat) (a b : Counts) : Plan :=
  let fold := (s.slot n).calib.betaFold
  if a = b then .outcome .arrived
  else if s.contested n then .outcome (.blocked .contested)
  else if (s.meetSet n (pathBox a b)).all fun z => s.zoneHeldBy n z then .legs { kind := .direct, finish := b } []
  else if b.beta ≠ fold ∧ (s.meetSet n (extensionBox (s.slot n).calib b.alpha b.beta)).any s.zoneFenced then
    .outcome (.blocked .fenced)
  else
    match foldSwingExtend a b fold with
    | [] => .outcome .arrived
    | l :: rest => .legs l rest

/-- Pins the target of a tag (R43). -/
def pinTag (tag : Nat) (ts : List Target) : List Target :=
  ts.map fun t => if t.tag = tag then { t with pinned := true } else t

/-- The plan from the robot's position to its target of the tag (R100, step 3). -/
def State.admissionPlan (s : State) (tag n : Nat) : Plan :=
  let a := ((s.slot n).position.map Position.counts).getD { alpha := 0, beta := 0 }
  let t := ((s.slot n).targets.find? fun t => t.tag == tag).map fun t => ({ alpha := t.alpha, beta := t.beta } : Counts)
  s.planFor n a (t.getD a)

/-- Admits one robot: its batch flag and pin are set, its plan is built, an immediate outcome is recorded or its
first leg is built and held ready (R100, step 3). -/
def State.admitRobot (s : State) (tag n : Nat) : State :=
  let s := s.modSlot n fun r => { r with batchFlag := true, targets := pinTag tag r.targets }
  match s.admissionPlan tag n with
  | .outcome o => s.recordOutcome n o
  | .legs l rest =>
    (s.modSlot n fun r => { r with remaining := rest }).buildLeg n l.kind l.finish (s.slot n).pinnedClass

/-- The slots EXECUTE admits, ascending (R99). -/
def State.admittedSlots (s : State) (tag : Nat) : List Nat := slotNumbers.filter fun n => (s.slot n).admittedBy tag

/-- How many slots EXECUTE skips (R99). -/
def State.skippedCount (s : State) (tag : Nat) : Nat := (slotNumbers.filter fun n => (s.slot n).skippedBy tag).length

/-- The batch record as a batch opens (R100, step 2). -/
def newBatch (tag admitted skipped now : Nat) : BatchRec where
  tag := tag
  admitted := admitted
  skipped := skipped
  arrived := 0
  blocked := 0
  faulted := 0
  stopped := 0
  openTime := now

/-- A batch opens: steps 1 to 3 of R100. -/
def State.openBatch (s : State) (tag : Nat) : State :=
  let admitted := s.admittedSlots tag
  let skipped := s.skippedCount tag
  let s := s.mapSlots fun r => { r with batchFlag := false, outcome := .none }
  let s : State := { s with batch := .opened (newBatch tag admitted.length skipped s.now) }
  admitted.foldl (fun s n => s.admitRobot tag n) s

/-- The first legs are handed on in ascending slot order (R100, step 4). -/
def State.handFirstLegs (s : State) (slots : List Nat) : State := slots.foldl (fun s n => s.handLeg n) s

/-- The record of a batch that has opened. -/
def Batch.record : Batch → BatchRec
  | .none => newBatch 0 0 0 0
  | .opened b => b
  | .closed b _ => b

end Sys2Proof.Machine
end

