-- ==== Sys2Proof/Machine/Reads.lean ====
section
/-! DEFINITION. The payloads of the six read requests: READ_SLOT, READ_TARGETS, READ_ZONE, READ_WAITLIST, READ_LINE,
READ_SEGMENT (R37, R55, R75, R94, R166, R207), with the widths of R213 (log 13). -/

namespace Sys2Proof.Machine

/-! ## READ_SLOT (R37) -/

def Identity.bytes (i : Identity) : List Byte :=
  b4 i.serial ++ b2 i.revision ++ b2 i.alphaSpeed ++ b2 i.betaSpeed ++ b1 i.pages

def Position.bytes (p : Position) : List Byte := b2 p.alpha ++ b2 p.beta ++ b1 p.source.code

def Leg.bytes (g : Leg) : List Byte :=
  b1 g.kind.code ++ b1 g.axes.code ++ b1 g.stage.code ++ b2 g.finish.alpha ++ b2 g.finish.beta ++
    bOpt 6 (g.deadline.map b6)

def FaultRec.bytes (f : FaultRec) : List Byte := b1 f.kind.code ++ b6 f.time

/-- Line, drop and calibration, each absent for a VACANT slot (R37). Line, drop and each of the three counts of the
calibration have a presence byte of their own: the model's choice, since R213 does not say how a group is marked
(log 13). -/
def SlotRec.addressBytes (r : SlotRec) : List Byte :=
  bOpt 1 (r.addr.map fun a => b1 a.line) ++ bOpt 1 (r.addr.map fun a => b1 a.drop) ++
    bOpt 2 (r.cal.map fun c => b2 c.alphaMax) ++ bOpt 2 (r.cal.map fun c => b2 c.betaFold) ++
    bOpt 2 (r.cal.map fun c => b2 c.betaMax)

/-- The answer of READ_SLOT (R37). -/
def SlotRec.bytes (r : SlotRec) (n : Nat) : List Byte :=
  b1 n ++ b1 r.state.code ++ r.addressBytes ++ bOpt 4 (r.expectedSerial.map b4) ++
    bOpt 11 (r.identity.map Identity.bytes) ++ bOpt 5 (r.position.map Position.bytes) ++ bList (r.zones.map b2) ++
    bList (r.targets.map fun t => b2 t.tag) ++ bOpt 14 (r.leg.map Leg.bytes) ++
    bList (r.remaining.map fun l => b1 l.kind.code) ++
    bOpt 1 (r.recoveryReturn.map fun t => b1 t.toState.code) ++ bBool r.batchFlag ++ r.outcome.bytes ++
    bOpt 7 (r.fault.map FaultRec.bytes) ++ b2 r.faultCount ++ bOpt 1 (r.retireReason.map fun x => b1 x.code)

/-! ## READ_TARGETS (R55) -/

def Target.bytes (t : Target) : List Byte :=
  b2 t.tag ++ b2 t.alpha ++ b2 t.beta ++ b1 t.cls ++ bBool t.pinned

/-- The answer of READ_TARGETS (R55). The number of targets held is the count byte of their list: the model's choice,
since R213 gives a count 2 bytes and a list 1 count byte (log 13). -/
def SlotRec.targetBytes (r : SlotRec) : List Byte := bList (r.targets.map Target.bytes)

/-! ## READ_ZONE (R75) -/

def Box.bytes (b : Box) : List Byte := b2 b.alphaLow ++ b2 b.alphaHigh ++ b2 b.betaLow ++ b2 b.betaHigh

/-- Whether a robot occupies its side box: no, yes, or unknown (R75). -/
def State.occupancyCode (s : State) (r : ZoneRec) (n : Nat) : Nat :=
  if (s.slot n).position.isSome then (if r.occupiedBy n (s.slot n).position then 1 else 0) else 2

/-- The slots of the wait-list entries that want a zone, in order (R75). -/
def State.wanting (s : State) (z : Nat) : List Nat :=
  (s.waitList.filter fun e => e.wanted.contains z).map WaitEntry.slot

/-- The answer of READ_ZONE (R75). -/
def State.zoneBytes (s : State) (z : Nat) : List Byte :=
  match s.zone z with
  | none => b2 z ++ b1 4
  | some r =>
    b2 z ++ b1 r.status.code ++ b1 r.lower ++ r.lowerBox.bytes ++ b1 r.higher ++ r.higherBox.bytes ++
      r.partyBytes ++ b1 (s.occupancyCode r r.lower) ++ b1 (s.occupancyCode r r.higher) ++
      bList ((s.wanting z).map b1)

/-! ## READ_WAITLIST (R94) -/

/-- A wanted zone with its state and, where it is HELD, its holder (R94). -/
def State.wantedBytes (s : State) (z : Nat) : List Byte :=
  match s.zone z with
  | none => b2 z ++ b1 4 ++ bOpt 1 none
  | some r =>
    b2 z ++ b1 r.status.code ++
      bOpt 1 (match r.status with
        | .held h => some (b1 (r.slotOf h))
        | .free => none
        | .contested _ => none
        | .fenced _ _ => none)

def State.waitEntryBytes (s : State) (place : Nat) (e : WaitEntry) : List Byte :=
  b2 place ++ b1 e.slot ++ b1 e.cls ++ b6 e.entryTime ++ b6 e.deadline ++ bList (e.wanted.map s.wantedBytes)

/-- Each entry of a list with its place, counted from the number given. -/
def withPlaces {α : Type} (place : Nat) : List α → List (Nat × α)
  | [] => []
  | x :: xs => (place, x) :: withPlaces (place + 1) xs

/-- The answer of READ_WAITLIST: the number of entries, the claim timeout, and up to 30 entries from the index
(R94). -/
def State.waitListBytes (s : State) (index : Nat) : List Byte :=
  b2 s.waitList.length ++ b2 s.settings.claimTimeout ++
    bList ((withPlaces index ((s.waitList.drop index).take 30)).map fun p => s.waitEntryBytes p.1 p.2)

/-! ## READ_LINE (R166) -/

def UrgentFrame.bytes : UrgentFrame → List Byte
  | .halt d => b1 3 ++ bOpt 1 (some (b1 d))
  | .haltAll => b1 4 ++ bOpt 1 none

/-- The leg kind of a GO (R166). -/
def FrameBody.legKind : FrameBody → Option LegKind
  | .go _ _ _ _ kind => some kind
  | .ask => none
  | .halt => none
  | .page _ => none
  | .setCount _ _ => none

def BusFrame.readBytes (f : BusFrame) : List Byte :=
  b1 f.body.code ++ b1 f.drop ++ b1 f.slot ++ bOpt 1 (f.body.legKind.map fun k => b1 k.code)

/-- The transaction as READ_LINE gives it (R166). R213 gives no width for the attempt; that it is 1 byte is the
model's choice (log 13). -/
def Txn.readBytes (t : Txn) : List Byte := b1 t.frame.body.code ++ b1 t.frame.drop ++ b1 t.attempt.number

/-- A slot on a line: its drop, its last-ASK time, and whether a poll is due (R166). -/
def State.lineSlotBytes (s : State) (l n : Nat) : List Byte :=
  b1 (s.slot n).dropNo ++ bOpt 6 (((s.line l).lastAskOf n).map b6) ++ bBool (s.pollDue l n)

def startEntryBytes (place : Nat) (e : StartEntry) : List Byte :=
  b2 place ++ b1 e.slot ++ b1 e.kind.code ++ b1 e.units ++ b1 e.cls ++ b6 e.entryTime

def HeldUnits.bytes (h : HeldUnits) : List Byte := b1 h.slot ++ b1 h.units ++ b6 h.deadline

def LastRefusal.bytes (r : LastRefusal) : List Byte := b1 r.drop ++ b1 r.kind ++ b1 r.reason

/-- The answer of READ_LINE (R166). R213 names no width and no values for the poll turn, which R146 gives as set or
clear; that it is 1 byte, 1 for set and 0 for clear, is the model's choice (log 13). -/
def State.lineBytes (s : State) (l : Nat) : List Byte :=
  let r := s.line l
  let on := s.slotsOn l
  b1 l ++ b1 r.state.code ++ bList (r.urgent.map UrgentFrame.bytes) ++ bList (r.normal.map BusFrame.readBytes) ++
    bOpt 3 (r.txn.map Txn.readBytes) ++ bList (r.failureRun.map b1) ++ bBool r.pollTurn ++
    bOpt 1 (r.pollCursor.map b1) ++ bList (on.map fun n => s.lineSlotBytes l n) ++
    bList (((withPlaces 0 s.gate.startQueue).filter fun p => on.contains p.2.slot).map fun p =>
      startEntryBytes p.1 p.2) ++
    bList ((s.gate.heldUnits.filter fun h => on.contains h.slot).map HeldUnits.bytes) ++
    bOpt 3 (r.lastRefusal.map LastRefusal.bytes)

/-! ## READ_SEGMENT (R207) -/

/-- The number of slots in a robot state. -/
def State.countState (s : State) (st : RobotState) : Nat :=
  (slotNumbers.filter fun n => decide ((s.slot n).state = st)).length

/-- The number of defined zones whose state has the code given. -/
def State.countZones (s : State) (code : Nat) : Nat :=
  (s.zones.toList.filter fun z => z.any fun r => r.status.code == code).length

/-- The units that the held-units list holds. -/
def Gate.heldSum (g : Gate) : Nat := g.heldUnits.foldl (fun n h => n + h.units) 0

/-- Identity, time, interlocks (R207). R213 gives no width for the latched segment number; that it is 1 byte is the
model's choice (log 13). -/
def State.identityBytes (s : State) : List Byte :=
  b1 s.pins.segment.val ++ bBool s.pins.hold ++ b6 s.now ++ bBool s.pins.stop ++ bBool s.pins.inhibit ++
    bBool s.stopInForce ++ bBool s.motion

/-- The Start Gate and the Claim Arbiter (R207). -/
def State.gateBytes (s : State) : List Byte :=
  b1 s.gate.budget ++ b1 s.gate.unitsInUse ++ b2 s.gate.startQueue.length ++ b2 s.gate.heldUnits.length ++
    b1 s.gate.heldSum ++ b2 s.waitList.length

/-- The three settings with their widths (R206, R207). -/
def Settings.bytes (t : Settings) : List Byte := b2 t.claimTimeout ++ b2 t.settleAllowance ++ b1 t.faultLimit

/-- The states of the lines, the counts of the slots and of the zones (R207). Their numbers are fixed at eight, nine
and four, and that they stand without a count byte is the model's choice, since R213 gives lists one (log 13). -/
def State.tableBytes (s : State) : List Byte :=
  (lineNumbers.map fun l => b1 (s.line l).state.code).flatten ++
    (([.vacant, .defined, .probing, .rest, .waiting, .moving, .held, .faulted, .retired] : List RobotState).map
      fun st => b2 (s.countState st)).flatten ++
    (([0, 1, 2, 3] : List Nat).map fun c => b2 (s.countZones c)).flatten

/-- The plan channel, the link and the notices (R207). -/
def State.linkBytes (s : State) : List Byte :=
  b1 (if s.link.halt.isSome then 1 else 0) ++ bOpt 1 (s.link.halt.map fun r => b1 r.code) ++
    b2 s.link.plan.length ++ b2 s.link.assembly.length ++
    bOpt 3 (s.link.current.map fun c => [c.code] ++ b2 c.tag.toNat) ++ bBool s.link.waitingAnswer.isSome ++
    b2 s.link.control.length ++ b2 s.link.output.length ++ [s.link.mask] ++ [s.pendingKinds]

/-- The answer of READ_SEGMENT (R207). -/
def State.segmentBytes (s : State) : List Byte :=
  s.identityBytes ++ s.gateBytes ++ s.batch.bytes ++ s.settings.bytes ++ s.tableBytes ++ s.linkBytes

end Sys2Proof.Machine
end

