-- ==== Sys2Proof/Machine/Measure.lean ====
section
/-! DEFINITION. The measurement list (09 R178 to R183): checking entries, settling them, and its answer. -/

namespace Sys2Proof.Machine

/-- The measurement list in progress, while a MEASURE_LIST is the current request (R178). -/
def State.measureRec (s : State) : Option MeasureRec :=
  match s.link.current with
  | none => none
  | some c =>
    match c.work with
    | .measure m => some m
    | .awaitBatch => none
    | .probe _ => none
    | .recover _ => none

/-- Writes the measurement list in progress. -/
def State.setMeasure (s : State) (m : MeasureRec) : State :=
  s.modLink fun k => { k with current := k.current.map fun c => { c with work := .measure m } }

/-- The list stops: PARTIAL with the number applied, the index and the reason (R183, log 13). -/
def State.measureStops (s : State) (applied index reason : Nat) : State :=
  s.answerCurrent .part (b2 applied ++ b2 index ++ b1 reason)

/-- The SETCOUNT frame of an entry (R179). -/
def State.setCountFrame (s : State) (e : MeasureEntry) : BusFrame where
  slot := e.slot.toNat
  drop := (s.slot e.slot.toNat).dropNo
  body := .setCount e.alpha.toNat e.beta.toNat
  owner := .measure

/-- The slot may be measured: REST, HELD or FAULTED, and no LAPSING leg (R179, check 3). -/
def SlotRec.measurable (r : SlotRec) : Bool :=
  (match r.state with
   | .rest => true
   | .held => true
   | .faulted => true
   | .vacant => false
   | .defined => false
   | .probing => false
   | .waiting => false
   | .moving => false
   | .retired => false) && !r.lapsing

/-- The first check of R179 that an entry fails. -/
def State.measureCheck (s : State) (e : MeasureEntry) : Option Status :=
  let r := s.slot e.slot.toNat
  if 127 < e.slot.toNat then some .badRequest
  else if r.state = .vacant then some .noRobot
  else if !r.measurable then some .state
  else if !r.calib.inRange e.alpha.toNat e.beta.toNat then some .outOfRange
  else none

/-- An entry whose SETCOUNT got no answer (R181). -/
def State.measureUnanswered (s : State) (m : MeasureRec) (e : MeasureEntry) : State :=
  (s.faultReport e.slot.toNat .noAnswer
    (.counts e.alpha.toNat e.beta.toNat .measuredOnly)).measureStops (m.applied + 1) m.index FaultKind.noAnswer.code

/-- Checks the entry in hand and offers its SETCOUNT; past the last entry the list is answered OK (R178, R179,
R183). A SETCOUNT turned away settles the entry by R181. -/
def State.measureEntry (s : State) (m : MeasureRec) : State :=
  match m.entries[m.index]? with
  | none => s.answerCurrent .ok (b2 m.applied)
  | some e =>
    match s.measureCheck e with
    | some st => s.measureStops m.applied m.index st.code
    | none =>
      match s.offer? (s.slot e.slot.toNat).lineNo (s.setCountFrame e) with
      | some s => s
      | none => s.measureUnanswered m e

/-- After an entry settled by R180: the next entry is checked, or the cancelled list is answered. -/
def State.measureNext (s : State) (m : MeasureRec) : State :=
  if m.cancelled ∧ m.index < m.entries.length then
    s.measureStops m.applied m.index Status.cancelled.code
  else (s.setMeasure m).measureEntry m

/-- A SETCOUNT answered TAKEN (R180). -/
def State.measureTaken (s : State) (m : MeasureRec) (e : MeasureEntry) : State :=
  let n := e.slot.toNat
  let s := (s.modSlot n fun r => r.at e.alpha.toNat e.beta.toNat .loaded).updateZones n
  s.measureNext { m with applied := m.applied + 1, index := m.index + 1 }

/-- A SETCOUNT answered REFUSED (R182). -/
def State.measureRefused (s : State) (m : MeasureRec) (e : MeasureEntry) : State :=
  (s.faultReport e.slot.toNat .refused .unchanged).measureStops m.applied m.index FaultKind.refused.code

/-- The entry in hand, when its slot is the one a frame names. -/
def MeasureRec.inHand (m : MeasureRec) (n : Nat) : Option MeasureEntry :=
  (m.entries[m.index]?).filter fun e => e.slot.toNat == n

/-- An answer to the list's SETCOUNT; no change when the list no longer waits for it (R154). -/
def State.measureAnswered (s : State) (f : BusFrame) (a : BusAnswer) : State :=
  match s.measureRec with
  | none => s
  | some m =>
    match m.inHand f.slot with
    | none => s
    | some e =>
      match a with
      | .taken => s.measureTaken m e
      | .refused _ => s.measureRefused m e
      | .state _ _ _ => s
      | .pageData _ _ _ _ _ _ _ _ _ => s

/-- A failed transaction of the list's SETCOUNT (R181). -/
def State.measureFailed (s : State) (f : BusFrame) : State :=
  match s.measureRec with
  | none => s
  | some m =>
    match m.inHand f.slot with
    | none => s
    | some e => s.measureUnanswered m e

/-- A measurement list as it is taken (R178). -/
def newMeasure (entries : List MeasureEntry) : MeasureRec where
  entries := entries
  index := 0
  applied := 0
  cancelled := false

/-- The list becomes current and its entry 0 is checked (R178). -/
def State.startMeasure (s : State) (tag code : Byte) (entries : List MeasureEntry) : State :=
  (s.modLink fun k =>
    { k with current := some { code := code, tag := tag, work := .measure (newMeasure entries) } }).measureEntry
      (newMeasure entries)

end Sys2Proof.Machine
end

