-- ==== Sys2Proof/Machine/Probe.lean ====
section
/-! DEFINITION. The probe (09 R169 to R177): taking up slots, page reading, the closing ASK, failures, and its
answer. -/

namespace Sys2Proof.Machine

/-! ## The probe record -/

/-- The probe record, while a PROBE is the current request (R169). -/
def State.probeRec (s : State) : Option ProbeRec :=
  match s.link.current with
  | none => none
  | some c =>
    match c.work with
    | .probe p => some p
    | .awaitBatch => none
    | .measure _ => none
    | .recover _ => none

/-- Changes the probe record. -/
def State.modProbe (s : State) (f : ProbeRec → ProbeRec) : State :=
  match s.probeRec with
  | none => s
  | some p => s.modLink fun k => { k with current := k.current.map fun c => { c with work := .probe (f p) } }

/-- The probe's work on a line. -/
def ProbeRec.line (p : ProbeRec) (l : Nat) : ProbeLine := (p.lines[l]?).getD ProbeLine.idle

def ProbeRec.setLine (p : ProbeRec) (l : Nat) (q : ProbeLine) : ProbeRec :=
  { p with lines := p.lines.setIfInBounds l q }

/-- A slot counted as failed; the lowest one is the first failure (R169, R174). -/
def ProbeRec.noteFailure (p : ProbeRec) (n : Nat) (k : ProbeFailure) : ProbeRec :=
  { p with
    failed := p.failed + 1
    silent := if k = .silent then p.silent + 1 else p.silent
    firstFailure :=
      match p.firstFailure with
      | none => some { slot := n, kind := k }
      | some f => if n < f.slot then some { slot := n, kind := k } else some f }

/-- The slot may be probed: DEFINED, REST, HELD or FAULTED, and no LAPSING leg (R169, R170). -/
def SlotRec.probeable (r : SlotRec) : Bool :=
  (match r.state with
   | .defined => true
   | .rest => true
   | .held => true
   | .faulted => true
   | .vacant => false
   | .probing => false
   | .waiting => false
   | .moving => false
   | .retired => false) && !r.lapsing

/-- A frame of the probe for a slot (R171). -/
def State.probeFrame (s : State) (n : Nat) (body : FrameBody) : BusFrame where
  slot := n
  drop := (s.slot n).dropNo
  body := body
  owner := .probe

/-! ## Taking up slots (R170, R171) -/

/-- The record of a slot that the probe failed for a fault: FAULTED with its position unknown, one more
failed (R174). -/
def State.probeFault (s : State) (n : Nat) (kind : FaultKind) : State :=
  (s.faultReport n kind .unknown).modProbe fun p => p.noteFailure n (.fault kind)

/-- Begins a slot: the robot is PROBING and PAGE(0) is offered; none when the frame is turned away (R171). -/
def State.probeBegin (s : State) (l n : Nat) (rest : List Nat) : State :=
  (s.modSlot n fun r => { r with state := .probing }).modProbe fun p =>
    p.setLine l { ProbeLine.idle with todo := rest, inHand := some n }

/-- Takes up a line's slots in list order until one is begun or none is left (R170). A PAGE(0) turned away
fails its slot NO_ANSWER (R171, R174). -/
def probeTakeUp (s : State) (l : Nat) : List Nat → State
  | [] => s.modProbe fun p => p.setLine l ProbeLine.idle
  | n :: rest =>
    if s.probeRec.any ProbeRec.cancelled then
      probeTakeUp (s.modProbe fun p => { p with skipped := p.skipped + 1 }) l rest
    else if (s.line l).state = .silent then
      probeTakeUp (s.modProbe fun p => p.noteFailure n .silent) l rest
    else if (s.slot n).probeable then
      match (s.probeBegin l n rest).offer? l (s.probeFrame n (.page 0)) with
      | some s => s
      | none => probeTakeUp ((s.probeBegin l n rest).probeFault n .noAnswer) l rest
    else probeTakeUp (s.modProbe fun p => { p with skipped := p.skipped + 1 }) l rest

/-- The line is done: no slot in hand and none left to visit (R170). -/
def ProbeLine.done (q : ProbeLine) : Bool := q.inHand.isNone && q.todo.isEmpty

/-- The counts and the first failure that either answer of a probe carries (R176). -/
def ProbeRec.payload (p : ProbeRec) : List Byte :=
  b2 p.ok ++ b2 p.failed ++ b2 p.skipped ++ b2 p.silent ++
    bOpt 2 (p.firstFailure.map fun f => b1 f.slot ++ b1 f.kind.code)

/-- The probe is answered when its last line is done (R176, log 28). -/
def State.probeCheck (s : State) : State :=
  match s.probeRec with
  | none => s
  | some p =>
    if p.lines.toList.all ProbeLine.done then
      if p.cancelled then s.answerCurrent .part (b1 Status.cancelled.code ++ p.payload)
      else s.answerCurrent .ok p.payload
    else s

/-- The line's next slot is taken up, in the event that ends the slot before it (R170). -/
def State.probeNext (s : State) (l : Nat) (rest : List Nat) : State := (probeTakeUp s l rest).probeCheck

/-- The probe fails the slot in hand and takes up the next (R174). -/
def State.probeFail (s : State) (l n : Nat) (kind : FaultKind) : State :=
  let rest := (s.probeRec.map fun p => (p.line l).todo).getD []
  (s.probeFault n kind).probeNext l rest

/-- Offers the next frame of the slot in hand; turned away, the slot fails NO_ANSWER (R171, R174). -/
def State.probeOffer (s : State) (l n : Nat) (body : FrameBody) : State :=
  match s.offer? l (s.probeFrame n body) with
  | some s => s
  | none => s.probeFail l n .noAnswer

/-! ## Pages (R172) -/

/-- The identity that a line's pages gave (R172). -/
def ProbeLine.identity (q : ProbeLine) : Identity where
  serial := q.serial
  revision := q.revision
  alphaSpeed := q.alphaSpeed
  betaSpeed := q.betaSpeed
  pages := q.pages

/-- Page reading ends: the identity is written as a whole and the closing ASK is offered (R172, R17). -/
def State.probeIdentify (s : State) (l n : Nat) (q : ProbeLine) : State :=
  (s.modSlot n fun r => { r with identity := some q.identity }).probeOffer l n .ask

/-- A page answered with a kind other than END is kept and the next one is offered (R172). -/
def State.probePageOn (s : State) (l n : Nat) (q : ProbeLine) (page : Nat) : State :=
  (s.modProbe fun p => p.setLine l { q with page := page + 1, pages := q.pages + 1 }).probeOffer l n
    (.page (page + 1))

/-- A PAGEDATA taken for PAGE(page): the first result of R172 that applies. -/
def State.probePage (s : State) (l n : Nat) (q : ProbeLine) (page : Nat) (kind d0 d1 d2 d3 d4 d5 : Byte) : State :=
  match page with
  | 0 =>
    if kind = 1 then
      if (s.slot n).expectedSerial.all fun e => e == serial4 d0 d1 d2 d3 then
        s.probePageOn l n { q with serial := serial4 d0 d1 d2 d3, revision := (word d4 d5).toNat } 0
      else s.probeFail l n .wrongRobot
    else s.probeFail l n .badPages
  | 1 =>
    if kind = 2 ∧ 1 ≤ (word d0 d1).toNat then
      s.probePageOn l n { q with alphaSpeed := (word d0 d1).toNat } 1
    else s.probeFail l n .badPages
  | 2 =>
    if kind = 3 ∧ 1 ≤ (word d0 d1).toNat then
      s.probePageOn l n { q with betaSpeed := (word d0 d1).toNat } 2
    else s.probeFail l n .badPages
  | k + 3 =>
    if kind = 0 then s.probeIdentify l n q
    else if k + 3 < 7 then s.probePageOn l n q (k + 3)
    else s.probeIdentify l n { q with pages := q.pages + 1 }

/-- A REFUSED taken for PAGE(page) (R172). -/
def State.probePageRefused (s : State) (l n : Nat) (q : ProbeLine) (page : Nat) : State :=
  if page < 3 then s.probeFail l n .badPages else s.probeIdentify l n q

/-! ## The closing ASK (R173) -/

/-- The probe ends the slot successfully (R173). -/
def State.probeSucceed (s : State) (l n : Nat) (q : ProbeLine) (alpha beta : Nat) : State :=
  let s := s.modSlot n fun r => r.at alpha beta .reported
  let s := s.modSlot n fun r => { r with state := .rest, fault := none }
  let s := s.updateZones n
  (s.modProbe fun p => { p with ok := p.ok + 1 }).probeNext l q.todo

/-- A STATE taken for the probe's ASK (R173). -/
def State.probeState (s : State) (l n : Nat) (q : ProbeLine) (run : RunState) (alpha beta : Nat) : State :=
  if run = .running ∧ q.secondAsk = false then
    ((s.placeUrgent l (.halt (s.slot n).dropNo)).modProbe fun p =>
      p.setLine l { q with secondAsk := true }).probeOffer l n .ask
  else s.probeSucceed l n q alpha beta

/-! ## What the Bus Controllers report -/

/-- The probe's work on a line while the slot is in hand on it. -/
def State.probeInHand (s : State) (l n : Nat) : Option ProbeLine :=
  (s.probeRec.map fun p => p.line l).filter fun q => q.inHand == some n

/-- An answer to a frame of the probe; no change when the probe no longer waits for it (R154). -/
def State.probeAnswered (s : State) (l : Nat) (f : BusFrame) (a : BusAnswer) : State :=
  match s.probeInHand l f.slot with
  | none => s
  | some q =>
    match f.body, a with
    | .page k, .pageData kind d0 d1 d2 d3 d4 d5 _ _ => s.probePage l f.slot q k kind d0 d1 d2 d3 d4 d5
    | .page k, .refused _ => s.probePageRefused l f.slot q k
    | .ask, .state run a b => s.probeState l f.slot q run a.toNat b.toNat
    | _, _ => s

/-- A failed transaction of the probe: the slot in hand fails NO_ANSWER (R174). -/
def State.probeFailed (s : State) (l : Nat) (f : BusFrame) : State :=
  match s.probeInHand l f.slot with
  | none => s
  | some _ => s.probeFail l f.slot .noAnswer

/-! ## Starting a probe (R169) -/

/-- The slot lists of a probe, formed when it is taken: every line's slots for the form that names all, the one
slot for the other (R169). -/
def State.probeLists (s : State) (only : Option Nat) (l : Nat) : List Nat :=
  match only with
  | none => s.slotsOn l
  | some n => if (s.slot n).lineNo = l then [n] else []

/-- The probe record as it is made (R169). -/
def State.newProbe (s : State) (only : Option Nat) : ProbeRec where
  all := only.isNone
  lines := ⟨⟨lineNumbers.map fun l => { ProbeLine.idle with todo := s.probeLists only l }⟩, by
    simp [lineNumbers]⟩
  ok := 0
  failed := 0
  skipped := 0
  silent := 0
  firstFailure := none
  cancelled := false

/-- The probe becomes current and takes up the first slots of the lines, line 0 first (R170, log 19). -/
def State.startProbe (s : State) (tag code : Byte) (only : Option Nat) : State :=
  let p := s.newProbe only
  let s := s.modLink fun k => { k with current := some { code := code, tag := tag, work := .probe p } }
  (lineNumbers.foldl (fun s l => probeTakeUp s l (p.line l).todo) s).probeCheck

end Sys2Proof.Machine
end

