-- ==== Sys2Proof/Machine/Bus.lean ====
section
/-! DEFINITION. The transactions of a line and its states (08 R143, R149, R152 to R155, R161 to R165). -/

namespace Sys2Proof.Machine

/-! ## Owners (R154, R155) -/

/-- An answer handed to the frame's owner (R154, step 3). -/
def State.ownerAnswered (s : State) (l : Nat) (f : BusFrame) (a : BusAnswer) : State :=
  match f.owner, a with
  | .leg id, .taken => s.goTaken f.slot id
  | .leg id, .refused _ => s.goRefused f.slot id
  | .poll id, .state run x y => s.stateTaken f.slot id false run x.toNat y.toNat
  | .readback id, .state run x y => s.stateTaken f.slot id true run x.toNat y.toNat
  | .probe, a => s.probeAnswered l f a
  | .measure, a => s.measureAnswered f a
  | _, _ => s

/-- A failed transaction handed to the frame's owner (R155, step 3). -/
def State.ownerFailed (s : State) (l : Nat) (f : BusFrame) : State :=
  match f.owner with
  | .leg id => s.goFailed f.slot id
  | .poll id => s.pollFailed f.slot id
  | .readback id => s.readbackFailed f.slot id
  | .probe => s.probeFailed l f
  | .measure => s.measureFailed f
  | .noOne => s

/-! ## A line goes DOWN (R163) -/

/-- A frame that left the normal queue as the line went DOWN: a probe frame or a SETCOUNT is reported as a
failed transaction, any other to no owner (R163, step 3). -/
def State.frameLost (s : State) (l : Nat) (f : BusFrame) : State :=
  match f.owner with
  | .probe => s.probeFailed l f
  | .measure => s.measureFailed f
  | .leg _ => s
  | .poll _ => s
  | .readback _ => s
  | .noOne => s

/-- The line record as the line goes DOWN: steps 1 to 4 of R163. -/
def LineRec.goneDown (r : LineRec) : LineRec :=
  { r with
    state := .down
    urgent := r.urgent.filter fun f => f == .haltAll
    normal := []
    waiting := []
    pollTurn := false }

/-- The bit of a line in a set of lines (R213). -/
def lineBit (l : Nat) : Byte := 1#8 <<< l

/-- A line goes DOWN (R163). Step 5 does not order the legs of the line's robots; the model takes them in ascending
slot order (log 19). -/
def State.lineGoesDown (s : State) (l : Nat) : State :=
  let frames := (s.line l).normal ++ (s.line l).waiting
  let s := s.modLine l LineRec.goneDown
  let s := frames.foldl (fun s f => s.frameLost l f) s
  let s := (s.slotsOn l).foldl (fun s n => s.lineDownLeg n) s
  ((s.raise (.lineDown (lineBit l))).hand (.choose l)).hand .scan

/-! ## Transactions -/

/-- The line record as a transaction ends: it is removed, and the poll turn is set when its frame came from
the normal queue (R150, R154, R155). -/
def LineRec.endTxn (r : LineRec) (t : Txn) : LineRec :=
  { r with txn := none, pollTurn := r.pollTurn || t.fromNormal }

/-- The last refusal as an answer leaves it (R154, step 2). -/
def LineRec.noteRefusal (r : LineRec) (f : BusFrame) (a : BusAnswer) : LineRec :=
  match a with
  | .refused reason =>
    { r with lastRefusal := some { drop := f.drop, kind := f.body.code, reason := reason.toNat } }
  | .taken => r
  | .state _ _ _ => r
  | .pageData _ _ _ _ _ _ _ _ _ => r

/-- A transaction succeeds (R154). -/
def State.txnSucceeds (s : State) (l : Nat) (t : Txn) (a : BusAnswer) : State :=
  ((s.modLine l fun r => ({ r.endTxn t with failureRun := [] } : LineRec).noteRefusal t.frame a).ownerAnswered l
    t.frame a).hand (.choose l)

/-- A drop joins the failure run unless it is there already (R155, step 2). -/
def joinRun (d : Nat) (run : List Nat) : List Nat := if run.contains d then run else run ++ [d]

/-- A transaction fails (R155). -/
def State.txnFails (s : State) (l : Nat) (t : Txn) : State :=
  let s := s.modLine l fun r => { r.endTxn t with failureRun := joinRun t.frame.drop r.failureRun }
  let s := s.ownerFailed l t.frame
  if 3 ≤ (s.line l).failureRun.length then s.lineGoesDown l else s.hand (.choose l)

/-- An attempt ends without a valid answer: the same frame is sent again, or the transaction fails (R152). -/
def State.attemptEnds (s : State) (l : Nat) (t : Txn) : State :=
  match t.attempt with
  | .first => s.modLine l fun r => { r with txn := some { t with attempt := .second, window := none } }
  | .second => s.txnFails l t

/-- A frame received on a line (R143): with no answer window open it is discarded; else it is a valid answer,
or a corrupt one that ends the attempt. -/
def State.receiveBus (s : State) (l : Nat) (bytes : List Byte) : State :=
  match (s.line l).txn with
  | none => s
  | some t =>
    if t.window.isSome then
      match validAnswer? t.frame bytes with
      | some a => s.txnSucceeds l t a
      | none => s.attemptEnds l t
    else s

/-- The answer window of the line's transaction expires, once the time base has reached its deadline (R152,
R12). -/
def State.windowExpires (s : State) (l : Nat) : State :=
  match (s.line l).txn with
  | none => s
  | some t => if t.window.any fun d => decide (d ≤ s.now) then s.attemptEnds l t else s

/-- The last-ASK times of a line once the frame has been sent (R149, log 9). -/
def LineRec.noteAsk (r : LineRec) (f : BusFrame) (now : Nat) : LineRec :=
  match f.body with
  | .ask => { r with lastAsk := writeLastAsk f.slot now r.lastAsk }
  | .go _ _ _ _ _ => r
  | .halt => r
  | .page _ => r
  | .setCount _ _ => r

/-- The sending of the transaction's frame ends and its answer window starts (R152). -/
def State.sendingEnds (s : State) (l : Nat) : State :=
  match (s.line l).txn with
  | none => s
  | some t =>
    if t.window.isNone then
      s.modLine l fun r =>
        ({ r with txn := some { t with window := some (s.now + Config.answerWindow) } } : LineRec).noteAsk t.frame
          s.now
    else s

/-- A HALT_ALL has been sent and the arbiter chooses again (R153). -/
def State.haltAllSent (s : State) (l : Nat) : State :=
  if (s.line l).sendingHaltAll then (s.modLine l fun r => { r with sendingHaltAll := false }).hand (.choose l)
  else s

/-- A frame that waited for room joins the normal queue, when the queue has room (R148, log 22). -/
def State.waitingJoins (s : State) (l : Nat) : State :=
  match (s.line l).waiting with
  | [] => s
  | f :: rest =>
    if (s.line l).hasRoom then
      (s.modLine l fun r => { r with normal := r.normal ++ [f], waiting := rest }).hand (.choose l)
    else s

/-- The poll interval of a slot has expired, so that the arbiter of its line may choose (R149). -/
def State.pollExpires (s : State) (n : Nat) : State :=
  let l := (s.slot n).lineNo
  if (s.slot n).onLine l && s.pollDue l n then s.hand (.choose l) else s

/-- A line becomes UP: its failure run is emptied, the arbiter chooses and an issue scan follows (R162). -/
def State.lineGoesUp (s : State) (l : Nat) : State :=
  ((s.modLine l fun r => { r with state := .up, failureRun := [] }).hand (.choose l)).hand .scan

end Sys2Proof.Machine
end

