-- ==== Sys2Proof/Machine/StartGate.lean ====
section
/-! DEFINITION. The Start Gate (07 R128 to R132, R137): the start queue, hand-ons, the issue scan, blocking, the
stop event; and the events handed between blocks. -/

namespace Sys2Proof.Machine

/-- The entry leaves the start queue. A slot has at most one entry (R128). -/
def State.leaveStart (s : State) (n : Nat) : State :=
  s.modGate fun g => { g with startQueue := g.startQueue.filter fun e => e.slot != n }

/-- The start queue entry of a leg handed on now (R128). -/
def State.startEntry (s : State) (n : Nat) (g : Leg) : StartEntry where
  slot := n
  kind := g.kind
  units := g.units
  line := (s.slot n).lineNo
  cls := g.cls
  entryTime := s.now

/-- A leg joins the start queue (R128, R129). -/
def State.joinStart (s : State) (n : Nat) (g : Leg) : State :=
  s.modGate fun t => { t with startQueue := joinByClass StartEntry.cls (s.startEntry n g) t.startQueue }

/-- The GO frame of a slot's leg (R131, step 3). -/
def State.goFrame (s : State) (n : Nat) (g : Leg) : BusFrame where
  slot := n
  drop := (s.slot n).dropNo
  body := .go g.axes g.finish.alpha g.finish.beta g.speed g.kind
  owner := .leg g.id

/-- Issues an entry (R131). A leg issued between the stop event at the Move Planner and the one at the Start
Gate takes halt cause STOP (R119). -/
def State.issueEntry (s : State) (e : StartEntry) : State :=
  match (s.slot e.slot).leg with
  | none => s.leaveStart e.slot
  | some g =>
    let go := s.goFrame e.slot g
    let s := (s.leaveStart e.slot).modGate fun t => { t with unitsInUse := t.unitsInUse + e.units }
    let s := (s.modLine e.line fun r => { r with normal := r.normal ++ [go] }).hand (.choose e.line)
    s.modSlot e.slot fun r =>
      { r with
        state := .moving
        leg := some { (if s.stopPassing then g.haltFor .stop s.now else g) with stage := .issued } }

/-- Blocks an entry whose line is DOWN (R132); its leaving starts a scan (R131). -/
def State.blockEntry (s : State) (e : StartEntry) : State :=
  let s := s.leaveStart e.slot
  match (s.slot e.slot).leg with
  | none => s.hand .scan
  | some g =>
    let s := (s.dropLeg e.slot).updateZones e.slot
    (if g.isRecover then (s.recoverReturns e.slot).answerRecover e.slot .state []
     else s.recordOutcome e.slot (.blocked .lineDown)).hand .scan

/-- Whether an entry is passed over: its line's normal queue is full, or its line is SILENT, to which no leg is
issued (R130, log 27). -/
def State.passedOver (s : State) (e : StartEntry) : Bool :=
  !(s.line e.line).hasRoom || decide ((s.line e.line).state = .silent)

/-- One pass over the entries of the start queue (R130). -/
def scanEntries (s : State) : List StartEntry → State
  | [] => s
  | e :: rest =>
    if (s.line e.line).state = .down then scanEntries (s.blockEntry e) rest
    else if s.passedOver e then scanEntries s rest
    else if s.gate.budget < s.gate.unitsInUse + e.units then s
    else scanEntries (s.issueEntry e) rest

/-- An issue scan (R130): nothing while stop is in force or INHIBIT is asserted. -/
def State.scan (s : State) : State :=
  if s.stopInForce || s.pins.inhibit then s else scanEntries s s.gate.startQueue

/-- A queued leg ended by a stop event: ENDED without units, the trim on its start, and its outcome (R129,
R137). -/
def State.turnAway (s : State) (n : Nat) (g : Leg) : State :=
  ((s.dropLeg n).updateZones n).legStopped n g

/-- The Start Gate takes a hand-on (R129). A hand-on whose leg is gone makes no entry (R189). -/
def State.takeHandOn (s : State) (n : Nat) : State :=
  match (s.slot n).leg with
  | none => s
  | some g =>
    if g.stage = .queued then
      if s.stopInForce then s.turnAway n g else (s.joinStart n g).scan
    else s

/-- One entry of the start queue at a stop event (R137). -/
def State.stopEntry (s : State) (n : Nat) : State :=
  match (s.slot n).leg with
  | none => s
  | some g => s.turnAway n g

/-- The stop event at the Start Gate: every entry leaves, front to back (R137). -/
def State.stopGate (s : State) : State :=
  (s.gate.startQueue.map StartEntry.slot).foldl (fun s n => s.stopEntry n)
    (s.modGate fun g => { g with startQueue := [] })

/-- The block an event was handed to takes it. -/
def State.takeHanded (s : State) : Handed → State
  | .handOn n => s.takeHandOn n
  | .scan => s.scan
  | .choose l => s.choose l

/-- Takes the events handed on, first in first out, until none is left (log 1). -/
def State.drain : Nat → State → State
  | 0, s => s
  | k + 1, s =>
    match s.handed with
    | [] => s
    | e :: rest => State.drain k (({ s with handed := rest } : State).takeHanded e)

end Sys2Proof.Machine
end

