-- ==== Sys2Proof/Machine/Stop.lean ====
section
/-! DEFINITION. Stop events (07 R134, R135; 08 R159, R160; 10 R205): the delivery of one stop event to the blocks. -/

namespace Sys2Proof.Machine

/-- The legs whose GO stands in a normal queue, front to back: slot and leg number (R159). -/
def queuedGos : List BusFrame → List (Nat × Nat)
  | [] => []
  | f :: rest =>
    match f.owner with
    | .leg id => (f.slot, id) :: queuedGos rest
    | .poll _ => queuedGos rest
    | .readback _ => queuedGos rest
    | .probe => queuedGos rest
    | .measure => queuedGos rest
    | .noOne => queuedGos rest

/-- The frame is a leg's GO. -/
def BusFrame.isGo (f : BusFrame) : Bool :=
  match f.owner with
  | .leg _ => true
  | .poll _ => false
  | .readback _ => false
  | .probe => false
  | .measure => false
  | .noOne => false

/-- The stop event at the Bus Controller of a line, by the line's state (R159). Places freed in the normal queue
are taken by frames waiting for room at the next transaction (R148). -/
def State.stopLine (s : State) (l : Nat) : State :=
  match (s.line l).state with
  | .up =>
    let gos := queuedGos (s.line l).normal
    let s := s.modLine l fun r => { r with normal := r.normal.filter fun f => !f.isGo }
    let s := s.placeUrgent l .haltAll
    gos.foldl (fun s p => s.goDiscarded p.1 p.2) s
  | .down => s.placeUrgent l .haltAll
  | .silent => s

/-- The stop event at the Segment Link Port: a current RECOVER is answered STOPPED with its slot (R205). -/
def State.stopLink (s : State) : State :=
  match s.link.current with
  | none => s
  | some c =>
    match c.work with
    | .recover n => s.answerCurrent .stopped (b1 n)
    | .awaitBatch => s
    | .probe _ => s
    | .measure _ => s

/-- A block takes the stop event under its own rule (07, Stop events). stopPassing marks that the Move Planner
has taken it and the Start Gate has not (R119). -/
def State.stopBlock (s : State) : StopBlock → State
  | .arbiter => s.stopArbiter
  | .startGate => ({ s with stopPassing := false } : State).stopGate
  | .bus l => s.stopLine l
  | .planner => s.stopPlanner
  | .link => s.stopLink

/-- The order of the blocks that the model takes where none is chosen (log 6). -/
def stopOrderDefault : List StopBlock :=
  [.arbiter, .startGate, .bus 0, .bus 1, .bus 2, .bus 3, .bus 4, .bus 5, .bus 6, .bus 7, .planner, .link]

/-- Each block of the order chosen once, and behind them the blocks it leaves out (log 6). -/
def fullOrder (chosen : List StopBlock) : List StopBlock :=
  (chosen ++ stopOrderDefault).foldl (fun done b => if done.contains b then done else done ++ [b]) []

/-- The blocks of a stop event in an order; the events each of them hands on are taken before the next block
takes the stop event (log 6). -/
def stopBlocks (s : State) : List StopBlock → State
  | [] => s
  | b :: rest =>
    let passing := (b == .planner && rest.contains .startGate) || s.stopPassing
    stopBlocks ((({ s with stopPassing := passing } : State).stopBlock b).drain Config.settleFuel) rest

/-- A stop event: STOP_TAKEN is raised and the event is delivered to every block (R135). R135 does not order the two;
that STOP_TAKEN is raised first, and so ahead of a BATCH_CLOSED of the same stop event, is the model's choice
(log 12). -/
def State.stopEvent (s : State) (source : StopSource) : State :=
  let order := fullOrder (s.stopOrders.head?.getD [])
  stopBlocks (({ s with stopOrders := s.stopOrders.tail } : State).raise (.stopTaken 1 source.bit)) order

end Sys2Proof.Machine
end

