-- ==== Sys2Proof/Machine/Operands.lean ====
section
/-! DEFINITION. The operand forms of the requests: the catalogue's codes and channels, the payload a request is
sent with, and the request a payload is read as (10, Requests and status codes; R213). -/

namespace Sys2Proof

open Sys2Proof.Machine

/-- The request code of the catalogue. -/
def Request.code : Request → Byte
  | .defineSlot .. => 0x10
  | .forgetSlot _ => 0x11
  | .retire _ => 0x12
  | .assignList _ => 0x18
  | .clearTarget .. => 0x19
  | .dropTargets _ => 0x1A
  | .defineZone .. => 0x20
  | .forgetZone _ => 0x21
  | .execute _ => 0x28
  | .awaitBatch => 0x29
  | .probe _ => 0x30
  | .measureList _ => 0x31
  | .recover _ => 0x32
  | .readSlot _ => 0x40
  | .readTargets _ => 0x41
  | .readZone _ => 0x42
  | .readWaitlist _ => 0x43
  | .readLine _ => 0x44
  | .readSegment => 0x45
  | .stop => 0x50
  | .resume _ => 0x51
  | .setBudget _ => 0x52
  | .release => 0x53
  | .resetLine _ => 0x54
  | .setTiming .. => 0x58
  | .setNotices _ => 0x59
  | .cancel => 0x5A
  | .clearHalt => 0x5B
  | .flush => 0x5C
  | .resetSegment => 0x5F

/-- The channel the catalogue lists a request for: codes 10h to 32h are plan requests. -/
def Request.channel (r : Request) : Channel := if r.code.toNat < 0x40 then .plan else .control

def WireBox.bytes (b : WireBox) : List Byte :=
  bw b.alphaLow ++ bw b.alphaHigh ++ bw b.betaLow ++ bw b.betaHigh

def AssignEntry.bytes (e : AssignEntry) : List Byte :=
  [e.slot, e.cls] ++ bw e.tag ++ bw e.alpha ++ bw e.beta

def MeasureEntry.bytes (e : MeasureEntry) : List Byte :=
  [e.slot] ++ bw e.alpha ++ bw e.beta

/-- The payload a request is sent with: its fields in the order of the catalogue. -/
def Request.payload : Request → List Byte
  | .defineSlot sl ln dr a f m g e => [sl, ln, dr] ++ bw a ++ bw f ++ bw m ++ [g] ++ b4 e
  | .forgetSlot sl => [sl]
  | .retire sl => [sl]
  | .assignList es => (es.map AssignEntry.bytes).flatten
  | .clearTarget sl t => [sl] ++ bw t
  | .dropTargets t => bw t
  | .defineZone z s1 x1 s2 x2 => bw z ++ [s1] ++ x1.bytes ++ [s2] ++ x2.bytes
  | .forgetZone z => bw z
  | .execute t => bw t
  | .awaitBatch => []
  | .probe sl => [sl]
  | .measureList es => (es.map MeasureEntry.bytes).flatten
  | .recover sl => [sl]
  | .readSlot sl => [sl]
  | .readTargets sl => [sl]
  | .readZone z => bw z
  | .readWaitlist i => [i]
  | .readLine l => [l]
  | .readSegment => []
  | .stop => []
  | .resume sl => [sl]
  | .setBudget u => [u]
  | .release => []
  | .resetLine l => [l]
  | .setTiming c s f => bw c ++ bw s ++ [f]
  | .setNotices m => [m]
  | .cancel => []
  | .clearHalt => []
  | .flush => []
  | .resetSegment => []

/-- The entries of an ASSIGN_LIST payload; none when it does not divide into whole entries (R47). -/
def assignEntries : List Byte → Option (List AssignEntry)
  | [] => some []
  | sl :: c :: t1 :: t0 :: a1 :: a0 :: z1 :: z0 :: rest =>
    (assignEntries rest).map
      ({ slot := sl, cls := c, tag := word t1 t0, alpha := word a1 a0, beta := word z1 z0 } :: ·)
  | _ => none

/-- The entries of a MEASURE_LIST payload; none when it does not divide into whole entries (R178). -/
def measureEntries : List Byte → Option (List MeasureEntry)
  | [] => some []
  | sl :: a1 :: a0 :: z1 :: z0 :: rest =>
    (measureEntries rest).map ({ slot := sl, alpha := word a1 a0, beta := word z1 z0 } :: ·)
  | _ => none

/-- The request a code and a payload are read as. None when the code is not in the catalogue or the
payload does not have the catalogue's length for it: the common tests 1 and 4 of R193, and the length
tests of R47 and R178. -/
def Request.read (code : Byte) (payload : List Byte) : Option Request :=
  match code.toNat with
  | 0x10 =>
    match payload with
    | [sl, ln, dr, a1, a0, f1, f0, m1, m0, g, e3, e2, e1, e0] =>
      some (.defineSlot sl ln dr (word a1 a0) (word f1 f0) (word m1 m0) g (serial4 e3 e2 e1 e0))
    | _ => none
  | 0x11 => match payload with | [sl] => some (.forgetSlot sl) | _ => none
  | 0x12 => match payload with | [sl] => some (.retire sl) | _ => none
  | 0x18 => (assignEntries payload).map .assignList
  | 0x19 => match payload with | [sl, t1, t0] => some (.clearTarget sl (word t1 t0)) | _ => none
  | 0x1A => match payload with | [t1, t0] => some (.dropTargets (word t1 t0)) | _ => none
  | 0x20 =>
    match payload with
    | [z1, z0, s1, a1, a0, c1, c0, d1, d0, e1, e0, s2, f1, f0, g1, g0, h1, h0, i1, i0] =>
      some (.defineZone (word z1 z0)
        s1 { alphaLow := word a1 a0, alphaHigh := word c1 c0, betaLow := word d1 d0, betaHigh := word e1 e0 }
        s2 { alphaLow := word f1 f0, alphaHigh := word g1 g0, betaLow := word h1 h0, betaHigh := word i1 i0 })
    | _ => none
  | 0x21 => match payload with | [z1, z0] => some (.forgetZone (word z1 z0)) | _ => none
  | 0x28 => match payload with | [t1, t0] => some (.execute (word t1 t0)) | _ => none
  | 0x29 => match payload with | [] => some .awaitBatch | _ => none
  | 0x30 => match payload with | [sl] => some (.probe sl) | _ => none
  | 0x31 => (measureEntries payload).map .measureList
  | 0x32 => match payload with | [sl] => some (.recover sl) | _ => none
  | 0x40 => match payload with | [sl] => some (.readSlot sl) | _ => none
  | 0x41 => match payload with | [sl] => some (.readTargets sl) | _ => none
  | 0x42 => match payload with | [z1, z0] => some (.readZone (word z1 z0)) | _ => none
  | 0x43 => match payload with | [i] => some (.readWaitlist i) | _ => none
  | 0x44 => match payload with | [l] => some (.readLine l) | _ => none
  | 0x45 => match payload with | [] => some .readSegment | _ => none
  | 0x50 => match payload with | [] => some .stop | _ => none
  | 0x51 => match payload with | [sl] => some (.resume sl) | _ => none
  | 0x52 => match payload with | [u] => some (.setBudget u) | _ => none
  | 0x53 => match payload with | [] => some .release | _ => none
  | 0x54 => match payload with | [l] => some (.resetLine l) | _ => none
  | 0x58 =>
    match payload with
    | [c1, c0, s1, s0, f] => some (.setTiming (word c1 c0) (word s1 s0) f)
    | _ => none
  | 0x59 => match payload with | [m] => some (.setNotices m) | _ => none
  | 0x5A => match payload with | [] => some .cancel | _ => none
  | 0x5B => match payload with | [] => some .clearHalt | _ => none
  | 0x5C => match payload with | [] => some .flush | _ => none
  | 0x5F => match payload with | [] => some .resetSegment | _ => none
  | _ => none

/-- The request a frame or an assembly is taken as on the channel it came on: none when it fails a
common test of R193, which is then answered BAD_REQUEST. -/
def Request.taken (channel : Channel) (more : Bool) (code : Byte) (payload : List Byte) : Option Request :=
  match Request.read code payload with
  | some r => if r.channel = channel ∧ (channel = .control → more = false) then some r else none
  | none => none

end Sys2Proof
end

