-- ==== Sys2Proof/Machine/TablesTaken.lean ====
section
/-! DEFINITION. The plan requests that change the tables, as they are taken: DEFINE_SLOT, FORGET_SLOT, RETIRE (02),
ASSIGN_LIST, CLEAR_TARGET, DROP_TARGETS (03), DEFINE_ZONE, FORGET_ZONE (04). -/

namespace Sys2Proof.Machine

/-- Answers a request that has been taken, with its link frame's tag (R193, R198). -/
def State.reply (s : State) (tag : Byte) (q : Request) (st : Status) (payload : List Byte) : State :=
  s.answer tag q.code st payload

/-! ## DEFINE_SLOT, FORGET_SLOT, RETIRE -/

/-- Another slot that is not VACANT carries the line and drop (R15, R25). -/
def State.addressInUse (s : State) (n line drop : Nat) : Bool :=
  slotNumbers.any fun m =>
    m != n && decide ((s.slot m).state ≠ .vacant) && decide ((s.slot m).addr = some { line := line, drop := drop })

/-- The slot record that DEFINE_SLOT makes (R26). -/
def SlotRec.defined (line drop : Nat) (cal : Calibration) (expected : Option Serial) : SlotRec :=
  { SlotRec.vacant with
    state := .defined
    addr := some { line := line, drop := drop }
    cal := some cal
    expectedSerial := expected }

/-- The first check of R25 that a DEFINE_SLOT fails. -/
def State.defineSlotCheck (s : State) (slot line drop : Nat) (cal : Calibration) : Option Status :=
  if 127 < slot ∨ 7 < line ∨ 15 < drop then some .badRequest
  else if cal.consistent = false then some .badRequest
  else if (s.slot slot).state ≠ .vacant then some .already
  else if s.addressInUse slot line drop then some .inUse
  else none

/-- DEFINE_SLOT (R25, R26). -/
def State.takeDefineSlot (s : State) (tag slot line drop : Byte) (alphaMax betaFold betaMax : Word)
    (serialGiven : Byte) (serial : Serial) : State :=
  let q : Request := .defineSlot slot line drop alphaMax betaFold betaMax serialGiven serial
  let cal : Calibration := { alphaMax := alphaMax.toNat, betaFold := betaFold.toNat, betaMax := betaMax.toNat }
  match s.defineSlotCheck slot.toNat line.toNat drop.toNat cal with
  | some st => s.reply tag q st []
  | none =>
    (s.setSlot slot.toNat (SlotRec.defined line.toNat drop.toNat cal
      (if serialGiven = 0 then none else some serial))).reply tag q .ok []

/-- The first check of R27 that a FORGET_SLOT fails. -/
def State.forgetSlotCheck (s : State) (slot : Nat) : Option Status :=
  let r := s.slot slot
  if 127 < slot then some .badRequest
  else if r.state = .vacant then some .noRobot
  else if r.state ≠ .defined ∧ r.state ≠ .retired then some .state
  else if r.zones ≠ [] then some .inZone
  else none

/-- FORGET_SLOT (R27). No line record changes: that the slot's last-ASK time stands there is the model's choice
(log 35). -/
def State.takeForgetSlot (s : State) (tag slot : Byte) : State :=
  match s.forgetSlotCheck slot.toNat with
  | some st => s.reply tag (.forgetSlot slot) st []
  | none => (s.setSlot slot.toNat SlotRec.vacant).reply tag (.forgetSlot slot) .ok []

/-- RETIRE may be taken for the slot (R29, check 3). -/
def RobotState.retirable : RobotState → Bool
  | .rest => true
  | .held => true
  | .faulted => true
  | .defined => true
  | .vacant => false
  | .probing => false
  | .waiting => false
  | .moving => false
  | .retired => false

/-- The first check of R29 that a RETIRE fails. -/
def State.retireCheck (s : State) (slot : Nat) : Option Status :=
  if 127 < slot then some .badRequest
  else if (s.slot slot).state = .vacant then some .noRobot
  else if (s.slot slot).state.retirable = false then some .state
  else none

/-- RETIRE (R29). -/
def State.takeRetire (s : State) (tag slot : Byte) : State :=
  match s.retireCheck slot.toNat with
  | some st => s.reply tag (.retire slot) st []
  | none => (s.reply tag (.retire slot) .ok []).retire slot.toNat .byRequest

/-! ## ASSIGN_LIST, CLEAR_TARGET, DROP_TARGETS -/

/-- The first check of R48 that an entry fails. -/
def State.assignCheck (s : State) (e : AssignEntry) : Option Status :=
  let r := s.slot e.slot.toNat
  let tag := e.tag.toNat
  if 127 < e.slot.toNat then some .badRequest
  else if r.state = .vacant ∨ r.state = .retired then some .noRobot
  else if tag < 1 ∨ 4095 < tag ∨ 3 < e.cls.toNat then some .badRequest
  else if r.calib.inRange e.alpha.toNat e.beta.toNat = false then some .outOfRange
  else if r.targets.any fun t => t.tag == tag && t.pinned then some .pinned
  else if (!r.targets.any fun t => t.tag == tag) ∧ Config.targetLimit ≤ r.targets.length then some .targetsFull
  else if s.reachable e.slot.toNat e.alpha.toNat e.beta.toNat = false then some .unreachable
  else none

/-- The target record that an entry gives (R49). -/
def targetOf (e : AssignEntry) : Target where
  tag := e.tag.toNat
  alpha := e.alpha.toNat
  beta := e.beta.toNat
  cls := e.cls.toNat
  pinned := false

/-- An entry's target replaces the one of its tag in place, or stands after those held (R49). -/
def putTarget (t : Target) (ts : List Target) : List Target :=
  if ts.any fun u => u.tag == t.tag then ts.map fun u => if u.tag = t.tag then t else u else ts ++ [t]

/-- An entry that passes its checks is applied (R49). -/
def State.assign (s : State) (e : AssignEntry) : State :=
  s.modSlot e.slot.toNat fun r => { r with targets := putTarget (targetOf e) r.targets }

/-- Applies the entries in order and stops at the first that fails; the records, the number applied, and the
failed check (R47, R50). -/
def assignAll (s : State) (applied : Nat) : List AssignEntry → State × Nat × Option Status
  | [] => (s, applied, none)
  | e :: rest =>
    match s.assignCheck e with
    | some st => (s, applied, some st)
    | none => assignAll (s.assign e) (applied + 1) rest

/-- The whole-request check of a list (R47, R178): 1 to 128 entries. -/
def listSized {α : Type} (entries : List α) : Bool := decide (1 ≤ entries.length ∧ entries.length ≤ 128)

/-- ASSIGN_LIST (R47 to R50). -/
def State.takeAssignList (s : State) (tag : Byte) (entries : List AssignEntry) : State :=
  if listSized entries then
    match assignAll s 0 entries with
    | (s, applied, none) => s.reply tag (.assignList entries) .ok (b2 applied)
    | (s, applied, some st) => s.reply tag (.assignList entries) .part (b2 applied ++ b2 applied ++ b1 st.code)
  else s.reply tag (.assignList entries) .badRequest []

/-- The first check of R52 that a CLEAR_TARGET fails. -/
def State.clearTargetCheck (s : State) (slot tag : Nat) : Option Status :=
  let r := s.slot slot
  if 127 < slot ∨ tag < 1 ∨ 4095 < tag then some .badRequest
  else if r.state = .vacant then some .noRobot
  else if (r.targets.any fun t => t.tag == tag) = false then some .nothing
  else if r.targets.any fun t => t.tag == tag && t.pinned then some .pinned
  else none

/-- CLEAR_TARGET (R52). -/
def State.takeClearTarget (s : State) (tag slot : Byte) (cfgTag : Word) : State :=
  match s.clearTargetCheck slot.toNat cfgTag.toNat with
  | some st => s.reply tag (.clearTarget slot cfgTag) st []
  | none =>
    (s.modSlot slot.toNat fun r => { r with targets := r.targets.filter fun t => t.tag != cfgTag.toNat }).reply tag
      (.clearTarget slot cfgTag) .ok []

/-- DROP_TARGETS removes the target: an unpinned one for tag 0, one of the tag for any other (R53). -/
def Target.dropped (t : Target) (tag : Nat) : Bool := if tag = 0 then !t.pinned else t.tag == tag

/-- How many targets DROP_TARGETS removes (R53). -/
def State.dropCount (s : State) (tag : Nat) : Nat :=
  slotNumbers.foldl (fun k n => k + ((s.slot n).targets.filter fun t => t.dropped tag).length) 0

/-- DROP_TARGETS (R53). -/
def State.takeDropTargets (s : State) (tag : Byte) (cfgTag : Word) : State :=
  let t := cfgTag.toNat
  if 4095 < t then s.reply tag (.dropTargets cfgTag) .badRequest []
  else if s.batch.openTag = some t then s.reply tag (.dropTargets cfgTag) .busy []
  else
    let k := s.dropCount t
    (s.mapSlots fun r => { r with targets := r.targets.filter fun x => !x.dropped t }).reply tag
      (.dropTargets cfgTag) (if k = 0 then .nothing else .ok) (b2 k)

/-! ## DEFINE_ZONE, FORGET_ZONE -/

/-- A side box as the Zone Table holds it. -/
def boxOfWire (b : WireBox) : Box where
  alphaLow := b.alphaLow.toNat
  alphaHigh := b.alphaHigh.toNat
  betaLow := b.betaLow.toNat
  betaHigh := b.betaHigh.toNat

/-- A defined zone names the two slots (R60, check 5). -/
def State.zoneShared (s : State) (m n : Nat) : Bool :=
  s.zones.toList.any fun z => z.any fun r => r.lower == min m n && r.higher == max m n

/-- The first check of R60 that a DEFINE_ZONE fails. -/
def State.defineZoneCheck (s : State) (zone m : Nat) (boxM : Box) (n : Nat) (boxN : Box) : Option Status :=
  if 383 < zone ∨ 127 < m ∨ 127 < n then some .badRequest
  else if (s.zone zone).isSome then some .already
  else if m = n ∨ (s.slot m).state = .vacant ∨ (s.slot n).state = .vacant then some .badRequest
  else if Config.zoneLimit ≤ (s.slot m).zones.length ∨ Config.zoneLimit ≤ (s.slot n).zones.length then
    some .zoneLimit
  else if s.zoneShared m n then some .duplicate
  else if boxM.wellFormedFor (s.slot m).calib = false ∨ boxN.wellFormedFor (s.slot n).calib = false then
    some .zoneBounds
  else if (s.slot m).busy || (s.slot n).busy then some .busy
  else none

/-- Inserts a zone number at its place in ascending order (R59). -/
def insertZone (z : Nat) : List Nat → List Nat
  | [] => [z]
  | x :: xs => if z < x then z :: x :: xs else x :: insertZone z xs

/-- The zone record of two slots with their boxes, the smaller slot the lower (R61), FREE until R62 is applied. -/
def newZone (m : Nat) (boxM : Box) (n : Nat) (boxN : Box) : ZoneRec where
  lower := min m n
  higher := max m n
  lowerBox := if m < n then boxM else boxN
  higherBox := if m < n then boxN else boxM
  status := .free

/-- The initial status of a zone from its robots' positions and retirement (R62). -/
def State.initialStatusOf (s : State) (r : ZoneRec) : ZoneStatus :=
  initialStatus (r.occupiedBy r.lower (s.slot r.lower).position) (r.occupiedBy r.higher (s.slot r.higher).position)
    (decide ((s.slot r.lower).state = .retired)) (decide ((s.slot r.higher).state = .retired))

/-- State, holder and intruder as DEFINE_ZONE and FORGET_ZONE answer them (R61, R64). -/
def ZoneRec.answerBytes (r : ZoneRec) : List Byte := b1 r.status.code ++ r.partyBytes

/-- The zone becomes defined, in the lists of both robots, with its initial status (R61, R62, R71). -/
def State.putZone (s : State) (z : Nat) (r : ZoneRec) : State :=
  let r := { r with status := s.initialStatusOf r }
  let s := s.modSlot r.lower fun x => { x with zones := insertZone z x.zones }
  let s := s.modSlot r.higher fun x => { x with zones := insertZone z x.zones }
  let s := s.setZone z (some r)
  if r.status.isContested then s.raise (.zoneContested 1 z) else s

/-- DEFINE_ZONE (R60 to R62). -/
def State.takeDefineZone (s : State) (tag : Byte) (zone : Word) (slot1 : Byte) (box1 : WireBox) (slot2 : Byte)
    (box2 : WireBox) : State :=
  let q : Request := .defineZone zone slot1 box1 slot2 box2
  match s.defineZoneCheck zone.toNat slot1.toNat (boxOfWire box1) slot2.toNat (boxOfWire box2) with
  | some st => s.reply tag q st []
  | none =>
    let r := newZone slot1.toNat (boxOfWire box1) slot2.toNat (boxOfWire box2)
    (s.reply tag q .ok ({ r with status := s.initialStatusOf r } : ZoneRec).answerBytes).putZone zone.toNat r

/-- The robot is WAITING or MOVING (R63, check 3). -/
def State.underLeg (s : State) (n : Nat) : Bool :=
  decide ((s.slot n).state = .waiting) || decide ((s.slot n).state = .moving)

/-- The zone becomes undefined and leaves the lists of both robots (R64). -/
def State.dropZone (s : State) (z : Nat) (r : ZoneRec) : State :=
  let s := s.modSlot r.lower fun x => { x with zones := x.zones.filter fun y => y != z }
  let s := s.modSlot r.higher fun x => { x with zones := x.zones.filter fun y => y != z }
  s.setZone z none

/-- FORGET_ZONE (R63, R64). -/
def State.takeForgetZone (s : State) (tag : Byte) (zone : Word) : State :=
  let z := zone.toNat
  if 383 < z then s.reply tag (.forgetZone zone) .badRequest []
  else
    match s.zone z with
    | none => s.reply tag (.forgetZone zone) .nothing []
    | some r =>
      if (s.waitList.any fun e => e.wanted.contains z) || s.underLeg r.lower || s.underLeg r.higher then
        s.reply tag (.forgetZone zone) .busy []
      else (s.dropZone z r).reply tag (.forgetZone zone) .ok r.answerBytes

end Sys2Proof.Machine
end

