-- ==== Sys2Proof/Machine/ControlTaken.lean ====
section
/-! DEFINITION. The control requests as they are taken (02 R30, R37; 03 R55; 04 R75; 05 R94; 07 R133, R135, R139;
08 R164, R166; 10 R202 to R208, R211). -/

namespace Sys2Proof.Machine

/-! ## Reads -/

/-- READ_SLOT (R37). -/
def State.takeReadSlot (s : State) (tag slot : Byte) : State :=
  if 127 < slot.toNat then s.reply tag (.readSlot slot) .badRequest []
  else s.reply tag (.readSlot slot) .ok ((s.slot slot.toNat).bytes slot.toNat)

/-- READ_TARGETS (R55). -/
def State.takeReadTargets (s : State) (tag slot : Byte) : State :=
  if 127 < slot.toNat then s.reply tag (.readTargets slot) .badRequest []
  else s.reply tag (.readTargets slot) .ok (s.slot slot.toNat).targetBytes

/-- READ_ZONE (R75). -/
def State.takeReadZone (s : State) (tag : Byte) (zone : Word) : State :=
  if 383 < zone.toNat then s.reply tag (.readZone zone) .badRequest []
  else s.reply tag (.readZone zone) .ok (s.zoneBytes zone.toNat)

/-- READ_WAITLIST (R94). -/
def State.takeReadWaitlist (s : State) (tag index : Byte) : State :=
  if 127 < index.toNat then s.reply tag (.readWaitlist index) .badRequest []
  else s.reply tag (.readWaitlist index) .ok (s.waitListBytes index.toNat)

/-- READ_LINE (R166). -/
def State.takeReadLine (s : State) (tag line : Byte) : State :=
  if 7 < line.toNat then s.reply tag (.readLine line) .badRequest []
  else s.reply tag (.readLine line) .ok (s.lineBytes line.toNat)

/-- READ_SEGMENT (R207). -/
def State.takeReadSegment (s : State) (tag : Byte) : State := s.reply tag .readSegment .ok s.segmentBytes

/-! ## Stop and resume -/

/-- STOP: answered OK, and a stop event with source REQUEST (R135). -/
def State.takeStop (s : State) (tag : Byte) : State := (s.reply tag .stop .ok []).stopEvent .request

/-- A HELD robot becomes REST; no other field changes (R30). -/
def SlotRec.resumed (r : SlotRec) : SlotRec := if r.state = .held then { r with state := .rest } else r

/-- The number of HELD robots. -/
def State.heldCount (s : State) : Nat := s.countState .held

/-- RESUME; a slot byte of 255 names all (R30, log 20). -/
def State.takeResume (s : State) (tag slot : Byte) : State :=
  let q : Request := .resume slot
  let n := slot.toNat
  if s.stopInForce then s.reply tag q .stopped []
  else if slot = 255 then
    if s.heldCount = 0 then s.reply tag q .nothing []
    else (s.mapSlots SlotRec.resumed).reply tag q .ok (b2 s.heldCount)
  else if 127 < n then s.reply tag q .badRequest []
  else if (s.slot n).state = .vacant then s.reply tag q .noRobot []
  else if (s.slot n).state ≠ .held then s.reply tag q .state []
  else (s.modSlot n SlotRec.resumed).reply tag q .ok []

/-! ## Budget and lines -/

/-- SET_BUDGET (R133). A raised budget starts an issue scan. -/
def State.takeSetBudget (s : State) (tag units : Byte) : State :=
  let q : Request := .setBudget units
  let u := units.toNat
  if u < 2 ∨ 128 < u then s.reply tag q .badRequest []
  else if u < s.gate.unitsInUse then s.reply tag q .budget []
  else
    let t := (s.modGate fun g => { g with budget := u }).reply tag q .ok (b1 u ++ b1 s.gate.unitsInUse)
    if s.gate.budget < u then t.hand .scan else t

/-- The SILENT lines, ascending. -/
def State.silentLines (s : State) : List Nat := lineNumbers.filter fun l => decide ((s.line l).state = .silent)

/-- A set of lines as a byte (R213). -/
def lineSet (ls : List Nat) : Byte := ls.foldl (fun b l => b ||| lineBit l) 0

/-- The record of a line that RELEASE makes UP: empty queues, no transaction, an empty failure run (R139). -/
def LineRec.released (r : LineRec) : LineRec :=
  { r with urgent := [], normal := [], waiting := [], txn := none, sendingHaltAll := false }

/-- RELEASE (R139). -/
def State.takeRelease (s : State) (tag : Byte) : State :=
  match s.silentLines with
  | [] => s.reply tag .release .nothing []
  | ls =>
    ls.foldl (fun s l => (s.modLine l LineRec.released).lineGoesUp l) (s.reply tag .release .ok [lineSet ls])

/-- RESET_LINE (R164). -/
def State.takeResetLine (s : State) (tag line : Byte) : State :=
  let q : Request := .resetLine line
  let l := line.toNat
  if 7 < l then s.reply tag q .badRequest []
  else
    match (s.line l).state with
    | .silent => s.reply tag q .state []
    | .up => (s.modLine l fun r => { r with failureRun := [] }).reply tag q .ok (b1 LineState.up.code)
    | .down => (s.reply tag q .ok (b1 LineState.down.code)).lineGoesUp l

/-! ## Settings and notices -/

/-- A field of SET_TIMING is 0, which leaves its setting, or lies in its range (R206). -/
def timingOk (v low high : Nat) : Bool := v == 0 || decide (low ≤ v ∧ v ≤ high)

/-- A setting after SET_TIMING (R206). -/
def timingNew (v old : Nat) : Nat := if v = 0 then old else v

/-- SET_TIMING (R206). -/
def State.takeSetTiming (s : State) (tag : Byte) (claimTimeout settle : Word) (faultLimit : Byte) : State :=
  let q : Request := .setTiming claimTimeout settle faultLimit
  if timingOk claimTimeout.toNat 1 600 && timingOk settle.toNat 100 10000 && timingOk faultLimit.toNat 1 7 then
    let t : Settings :=
      { claimTimeout := timingNew claimTimeout.toNat s.settings.claimTimeout
        settleAllowance := timingNew settle.toNat s.settings.settleAllowance
        faultLimit := timingNew faultLimit.toNat s.settings.faultLimit }
    ({ s with settings := t } : State).reply tag q .ok t.bytes
  else s.reply tag q .badRequest []

/-- SET_NOTICES (R211): the mask is written and the pending notices of masked kinds are cleared. -/
def State.takeSetNotices (s : State) (tag mask : Byte) : State :=
  (s.modLink fun k =>
    { k with mask := mask, notices := k.notices.filter fun n => mask.getLsbD n.summary.kind }).reply tag
      (.setNotices mask) .ok [s.link.mask, mask]

/-! ## The plan channel -/

/-- The three effects of CANCEL (R204, R213). -/
inductive CancelEffect where
  | none | marked | answered
  deriving DecidableEq, Repr

def CancelEffect.code : CancelEffect → Nat
  | .none => 0
  | .marked => 1
  | .answered => 2

/-- CANCEL's own answer: the current request's code and tag with the effect (R204). -/
def State.replyCancel (s : State) (tag : Byte) (c : Current) (e : CancelEffect) : State :=
  s.reply tag .cancel .ok ([c.code] ++ b2 c.tag.toNat ++ b1 e.code)

/-- The leg of the slot is a QUEUED one (R189). -/
def State.queuedLeg (s : State) (n : Nat) : Bool := (s.slot n).leg.any fun g => decide (g.stage = .queued)

/-- A QUEUED RECOVER leg is removed by CANCEL (R189). -/
def State.cancelRecover (s : State) (n : Nat) : State :=
  (((s.leaveStart n).recoverReturns n).answerCurrent .cancelled []).hand .scan

/-- CANCEL (R204). -/
def State.takeCancel (s : State) (tag : Byte) : State :=
  match s.link.current with
  | none => s.reply tag .cancel .nothing []
  | some c =>
    match c.work with
    | .awaitBatch => (s.replyCancel tag c .answered).answerCurrent .cancelled []
    | .probe _ => (s.replyCancel tag c .marked).modProbe fun p => { p with cancelled := true }
    | .measure m => (s.replyCancel tag c .marked).setMeasure { m with cancelled := true }
    | .recover n =>
      if s.queuedLeg n then (s.replyCancel tag c .answered).cancelRecover n else s.replyCancel tag c .none

/-- CLEAR_HALT (R202). -/
def State.takeClearHalt (s : State) (tag : Byte) : State :=
  match s.link.halt with
  | none => s.reply tag .clearHalt .nothing []
  | some r => (s.modLink fun k => { k with halt := none }).reply tag .clearHalt .ok (b1 r.code)

/-- FLUSH (R203). -/
def State.takeFlush (s : State) (tag : Byte) : State :=
  let k := s.link.plan.length + s.link.assembly.length
  (s.modLink fun k => { k with plan := [], assembly := [] }).reply tag .flush (if k = 0 then .nothing else .ok) (b2 k)

/-! ## RESET_SEGMENT -/

/-- RESET_SEGMENT is refused: a deferred plan request is current, or a robot is busy (R208). -/
def State.segmentBusy (s : State) : Bool := s.link.current.isSome || slotNumbers.any fun n => (s.slot n).busy

/-- A slot record after the segment reset (R39, R56). -/
def SlotRec.segmentReset (r : SlotRec) : SlotRec :=
  { r with
    state := if r.state = .held then .rest else r.state
    faultCount := 0
    targets := []
    batchFlag := false
    outcome := .none }

/-- The budget the segment reset leaves (R141). -/
def Gate.resetBudget (g : Gate) : Nat := max Config.defaultBudget g.unitsInUse

/-- A line record after the segment reset (R168). -/
def LineRec.segmentReset (r : LineRec) : LineRec :=
  { r with urgent := [], normal := [], waiting := [], failureRun := [], pollTurn := false }

/-- The lines that are DOWN, ascending. -/
def State.downLines (s : State) : List Nat := lineNumbers.filter fun l => decide ((s.line l).state = .down)

/-- The segment reset at every block (R39, R56, R96, R124, R141, R168, R208). -/
def State.resetSegment (s : State) : State :=
  let down := s.downLines
  let s := s.mapSlots SlotRec.segmentReset
  let s : State := { s with batch := .none, settings := Settings.default }
  let s := s.modGate fun g => { g with budget := g.resetBudget }
  let s := lineNumbers.foldl (fun s l => s.modLine l LineRec.segmentReset) s
  let s := s.modLink fun k => { k with plan := [], assembly := [], halt := none, mask := 255, notices := [] }
  down.foldl (fun s l => s.lineGoesUp l) s

/-- RESET_SEGMENT (R208). -/
def State.takeResetSegment (s : State) (tag : Byte) : State :=
  if s.segmentBusy then s.reply tag .resetSegment .busy []
  else (s.resetSegment).reply tag .resetSegment .reset (b1 s.gate.resetBudget)

end Sys2Proof.Machine
end

