-- ==== Sys2Proof/Machine/WorkTaken.lean ====
section
/-! DEFINITION. The plan requests that start work, as they are taken: EXECUTE, AWAIT_BATCH (06), PROBE,
MEASURE_LIST, RECOVER (09). -/

namespace Sys2Proof.Machine

/-- The request becomes the current one (R198). -/
def State.makeCurrent (s : State) (tag : Byte) (q : Request) (w : Work) : State :=
  s.modLink fun k => { k with current := some { code := q.code, tag := tag, work := w } }

/-! ## EXECUTE, AWAIT_BATCH -/

/-- The first check of R98 that an EXECUTE fails. -/
def State.executeCheck (s : State) (tag : Nat) : Option Status :=
  if tag < 1 ∨ 4095 < tag then some .badRequest
  else if s.batch.isOpen then some .busy
  else if s.stopInForce then some .stopped
  else none

/-- The number of the batch record's state (R213). -/
def Batch.code : Batch → Nat
  | .none => 0
  | .opened _ => 1
  | .closed _ _ => 2

/-- The answer of an EXECUTE that opened a batch, as the admission event left it (R100). -/
def Batch.executeBytes (b : Batch) : List Byte :=
  b2 b.record.tag ++ b2 b.record.admitted ++ b2 b.record.skipped ++ b2 b.record.arrived ++ b2 b.record.blocked ++
    b1 b.code

/-- EXECUTE (R98 to R100). The answer is formed before the first legs are handed on (log 11). -/
def State.takeExecute (s : State) (tag : Byte) (cfgTag : Word) : State :=
  let t := cfgTag.toNat
  match s.executeCheck t with
  | some st => s.reply tag (.execute cfgTag) st []
  | none =>
    match s.admittedSlots t with
    | [] => s.reply tag (.execute cfgTag) .nothing (b2 (s.skippedCount t))
    | slots =>
      let o := s.openBatch t
      (o.reply tag (.execute cfgTag) .ok o.batch.executeBytes).handFirstLegs slots

/-- AWAIT_BATCH (R118). -/
def State.takeAwaitBatch (s : State) (tag : Byte) : State :=
  if s.batch.isOpen then s.makeCurrent tag .awaitBatch .awaitBatch
  else s.reply tag .awaitBatch .ok s.batch.bytes

/-! ## PROBE -/

/-- The first check of R169 that a PROBE naming a slot fails. -/
def State.probeRequestCheck (s : State) (slot : Nat) : Option Status :=
  if 127 < slot then some .badRequest
  else if (s.slot slot).state = .vacant then some .noRobot
  else if (s.slot slot).probeable = false then some .state
  else none

/-- Every slot is VACANT (R169). -/
def State.allVacant (s : State) : Bool := slotNumbers.all fun n => decide ((s.slot n).state = .vacant)

/-- PROBE; a slot byte of 255 names all (R169). -/
def State.takeProbe (s : State) (tag slot : Byte) : State :=
  let q : Request := .probe slot
  if slot = 255 then
    if s.allVacant then s.reply tag q .nothing [] else s.startProbe tag q.code none
  else
    match s.probeRequestCheck slot.toNat with
    | some st => s.reply tag q st []
    | none => s.startProbe tag q.code (some slot.toNat)

/-! ## MEASURE_LIST -/

/-- MEASURE_LIST (R178). -/
def State.takeMeasureList (s : State) (tag : Byte) (entries : List MeasureEntry) : State :=
  let q : Request := .measureList entries
  if listSized entries then s.startMeasure tag q.code entries else s.reply tag q .badRequest []

/-! ## RECOVER -/

/-- The recovery return state written for a robot state: RECOVER is taken in FAULTED, HELD or REST (R19, R184). -/
def RobotState.returnState : RobotState → Option ReturnState
  | .rest => some .rest
  | .held => some .held
  | .faulted => some .faulted
  | .vacant => none
  | .defined => none
  | .probing => none
  | .waiting => none
  | .moving => none
  | .retired => none

/-- The first check of R184 that a RECOVER fails. -/
def State.recoverCheck (s : State) (slot : Nat) : Option Status :=
  let r := s.slot slot
  if 127 < slot then some .badRequest
  else if r.state = .vacant then some .noRobot
  else if r.state.returnState = none ∨ r.leg ≠ none then some .state
  else if r.identity = none then some .state
  else if s.stopInForce then some .stopped
  else if (s.line r.lineNo).state ≠ .up then some .state
  else none

/-- The end counts of a RECOVER leg (R185). -/
def SlotRec.recoverEnd (r : SlotRec) : Counts where
  alpha := (r.position.map Position.alpha).getD 0
  beta := r.calib.betaFold

/-- The RECOVER leg is built and handed to the Start Gate (R185). -/
def State.startRecover (s : State) (n : Nat) : State :=
  ((s.modSlot n fun r => { r with recoveryReturn := r.state.returnState }).buildLeg n .recover
    (s.slot n).recoverEnd 0).handLeg n

/-- RECOVER (R184, R185). -/
def State.takeRecover (s : State) (tag slot : Byte) : State :=
  let n := slot.toNat
  match s.recoverCheck n with
  | some st => s.reply tag (.recover slot) st []
  | none =>
    let s := s.makeCurrent tag (.recover slot) (.recover n)
    if (s.slot n).atFold then (s.updateZones n).recoverSucceeds n else s.startRecover n

end Sys2Proof.Machine
end

