-- ==== Sys2Proof/Machine/LinkPort.lean ====
section
/-! DEFINITION. The Segment Link Port (10 R191 to R201): arrival, halts, the assembly, the granting of output places,
and the running of a step's internal events to rest. -/

namespace Sys2Proof.Machine

/-- A request that has passed the common tests is taken under its own rule (R193, R198). -/
def State.take (s : State) (tag : Byte) (q : Request) : State :=
  match q with
  | .defineSlot sl ln dr a f m g e => s.takeDefineSlot tag sl ln dr a f m g e
  | .forgetSlot sl => s.takeForgetSlot tag sl
  | .retire sl => s.takeRetire tag sl
  | .assignList es => s.takeAssignList tag es
  | .clearTarget sl t => s.takeClearTarget tag sl t
  | .dropTargets t => s.takeDropTargets tag t
  | .defineZone z s1 x1 s2 x2 => s.takeDefineZone tag z s1 x1 s2 x2
  | .forgetZone z => s.takeForgetZone tag z
  | .execute t => s.takeExecute tag t
  | .awaitBatch => s.takeAwaitBatch tag
  | .probe sl => s.takeProbe tag sl
  | .measureList es => s.takeMeasureList tag es
  | .recover sl => s.takeRecover tag sl
  | .readSlot sl => s.takeReadSlot tag sl
  | .readTargets sl => s.takeReadTargets tag sl
  | .readZone z => s.takeReadZone tag z
  | .readWaitlist i => s.takeReadWaitlist tag i
  | .readLine l => s.takeReadLine tag l
  | .readSegment => s.takeReadSegment tag
  | .stop => s.takeStop tag
  | .resume sl => s.takeResume tag sl
  | .setBudget u => s.takeSetBudget tag u
  | .release => s.takeRelease tag
  | .resetLine l => s.takeResetLine tag l
  | .setTiming c e f => s.takeSetTiming tag c e f
  | .setNotices m => s.takeSetNotices tag m
  | .cancel => s.takeCancel tag
  | .clearHalt => s.takeClearHalt tag
  | .flush => s.takeFlush tag
  | .resetSegment => s.takeResetSegment tag

/-- A frame or an assembly is taken as a request; one that fails a common test is answered BAD_REQUEST
(R193, R198). -/
def State.takeFrame (s : State) (channel : Channel) (more : Bool) (tag code : Byte) (payload : List Byte) : State :=
  match Request.taken channel more code payload with
  | some q => s.take tag q
  | none => s.answer tag code .badRequest []

/-! ## Halting the plan channel (R200) -/

/-- The plan channel halts. A cause taken while it is HALTED changes nothing (R200). -/
def State.haltPlan (s : State) (reason : HaltReason) : State :=
  match s.link.halt with
  | some _ => s
  | none => (s.modLink fun k => { k with halt := some reason, assembly := [] }).raise (.planHalted 1 reason)

/-! ## Arrival (R192, R193, R195, R196, R201) -/

/-- An answer formed when a frame arrives: it enters the output queue if a place is free, and otherwise is not
formed, with LINK_ERROR reason OUTPUT_FULL (R195). -/
def State.answerArrival (s : State) (f : LinkFrame) (st : Status) (payload : List Byte) : State :=
  if s.outputRoom then s.enterOutput (answerFrame f.tag f.code st payload)
  else s.raise (.linkError 1 LinkErrorReason.outputFull.bit)

/-- The frame's segment byte names this controller (R192). -/
def State.forThisSegment (s : State) (segment : Byte) : Bool :=
  segment == s.segmentByte || segment == 255

/-- A good control frame joins the control input queue, or is discarded (R193). -/
def State.controlArrives (s : State) (f : LinkFrame) : State :=
  if s.link.control.length < Config.controlCapacity then s.modLink fun k => { k with control := k.control ++ [f] }
  else s.raise (.linkError 1 LinkErrorReason.controlOverflow.bit)

/-- A good plan frame joins the plan input queue, is answered HALTED, or overflows (R196, R201). -/
def State.planArrives (s : State) (f : LinkFrame) : State :=
  match s.link.halt with
  | some r => s.answerArrival f .halted (b1 r.code)
  | none =>
    if s.link.plan.length < Config.planCapacity then s.modLink fun k => { k with plan := k.plan ++ [f] }
    else s.haltPlan .overflow

/-- A good request frame arrives with its segment byte (R192). -/
def State.frameArrives (s : State) (segment : Byte) (f : LinkFrame) : State :=
  if s.forThisSegment segment then
    match f.channel with
    | .control => s.controlArrives f
    | .plan => s.planArrives f
  else s.answerArrival f .wrongSegment []

/-! ## The assembly (R197, R198) -/

/-- The payload of an assembly: the joining of its frames' payloads (R197). -/
def joinedPayload (fs : List LinkFrame) : List Byte := (fs.map LinkFrame.payload).flatten

/-- A complete assembly is taken as a request with its first frame's tag and code (R198). -/
def State.takeAssembly (s : State) (fs : List LinkFrame) : State :=
  match fs with
  | [] => s
  | f :: _ => s.takeFrame .plan false f.tag f.code (joinedPayload fs)

/-- The front plan frame moves into the assembly; a ninth frame halts the channel, and a frame without "more"
completes the request (R197). -/
def State.moveFrame (s : State) (f : LinkFrame) (rest : List LinkFrame) : State :=
  let fs := s.link.assembly ++ [f]
  if Config.assemblyCapacity ≤ s.link.assembly.length then
    (s.modLink fun k => { k with plan := rest }).haltPlan .tooLong
  else if f.more then s.modLink fun k => { k with plan := rest, assembly := fs }
  else (s.modLink fun k => { k with plan := rest, assembly := [] }).takeAssembly fs

/-- The plan channel may move a frame: OPEN, no current request, no waiting answer (R197). -/
def State.planMoves (s : State) : Bool :=
  s.link.halt.isNone && s.link.current.isNone && s.link.waitingAnswer.isNone

/-! ## Granting (R194, R197) -/

/-- What R194 and R197 let the port do next. -/
inductive Grant where
  | waitingAnswer (f : OutFrame)
  | notice
  | control (f : LinkFrame) (rest : List LinkFrame)
  | plan (f : LinkFrame) (rest : List LinkFrame)
  deriving DecidableEq, Repr

/-- The front plan frame when the channel may move it and its "more" mark is as given (R197). -/
def State.planFront (s : State) (more : Bool) : Option (LinkFrame × List LinkFrame) :=
  if s.planMoves then
    match s.link.plan with
    | [] => none
    | f :: rest => if f.more = more then some (f, rest) else none
  else none

/-- The first of R194's rows that applies to a free place. -/
def State.placeGranted (s : State) : Option Grant :=
  match s.link.waitingAnswer, s.link.notices, s.link.control, s.planFront false with
  | some f, _, _, _ => some (.waitingAnswer f)
  | none, _ :: _, _, _ => some .notice
  | none, [], f :: rest, _ => some (.control f rest)
  | none, [], [], some (f, rest) => some (.plan f rest)
  | none, [], [], none => none

/-- The next grant: a plan frame with "more" needs no place (R197); any other needs a free one (R194). -/
def State.nextGrant (s : State) : Option Grant :=
  match s.planFront true with
  | some (f, rest) => some (.plan f rest)
  | none => if s.outputRoom then s.placeGranted else none

/-- A grant is carried out. -/
def State.carryOut (s : State) : Grant → State
  | .waitingAnswer f => (s.modLink fun k => { k with waitingAnswer := none }).enterOutput f
  | .notice => s.enterNotice
  | .control f rest =>
    (s.modLink fun k => { k with control := rest }).takeFrame .control f.more f.tag f.code f.payload
  | .plan f rest => s.moveFrame f rest

/-- Runs the events that follow from an event until none is left: events handed between blocks first, then
grants (R194 "Granting goes on, place by place, in the same event"; log 1, log 29). -/
def State.settle : Nat → State → State
  | 0, s => s
  | k + 1, s =>
    match s.handed with
    | e :: rest => State.settle k (({ s with handed := rest } : State).takeHanded e)
    | [] =>
      match s.nextGrant with
      | some g => State.settle k (s.carryOut g)
      | none => s

/-- The state at rest after an event. -/
def State.rest (s : State) : State := s.settle Config.settleFuel

/-! ## Receiving (R191) -/

/-- A bad frame is discarded and halts the plan channel with reason CRC (R191, R200). -/
def State.badFrame (s : State) : State := (s.haltPlan .crc).rest

/-- A good frame arrives, and what follows from it runs to rest. -/
def State.goodFrame (s : State) (segment : Byte) (f : LinkFrame) : State := (s.frameArrives segment f).rest

/-- The receiver reads the bytes it holds: good frames arrive, bad ones halt the channel, the bytes of an
incomplete frame are kept (R191). Each frame takes at least one byte. -/
def receiveAll : Nat → State → List Byte → State
  | 0, s, bytes => s.modLink fun k => { k with rx := bytes }
  | k + 1, s, bytes =>
    match receive bytes with
    | .wait keep => s.modLink fun l => { l with rx := keep }
    | .bad rest => receiveAll k s.badFrame rest
    | .good segment f rest => receiveAll k (s.goodFrame segment f) rest

/-- Bytes arrive on the receive line (R191, log 25). -/
def State.bytesArrive (s : State) (bytes : List Byte) : State :=
  receiveAll (s.link.rx.length + bytes.length + 1) s (s.link.rx ++ bytes)

/-! ## A request sent in its own frames (log 2) -/

/-- A payload cut into pieces of 256 bytes, at least one piece (R191, R197). -/
def framePayloads : Nat → List Byte → List (List Byte)
  | 0, p => [p]
  | k + 1, p =>
    if p.length ≤ Config.payloadCapacity then [p]
    else p.take Config.payloadCapacity :: framePayloads k (p.drop Config.payloadCapacity)

/-- The frames of a request, the "more" mark on all but the last (R197). -/
def requestFrames (tag : Byte) (q : Request) : List (List Byte) → List LinkFrame
  | [] => []
  | [p] => [{ channel := q.channel, more := false, tag := tag, code := q.code, payload := p }]
  | p :: rest =>
    { channel := q.channel, more := true, tag := tag, code := q.code, payload := p } :: requestFrames tag q rest

/-- A request of the instrument computer arrives as good frames for this segment on its own channel (log 2). -/
def State.sendRequest (s : State) (tag : Byte) (q : Request) : State :=
  (requestFrames tag q (framePayloads q.payload.length q.payload)).foldl
    (fun s f => s.goodFrame s.segmentByte f) s

end Sys2Proof.Machine
end

