-- ==== Sys2Proof/Machine/BusEvents.lean ====
section
/-! DEFINITION. The robot bus commands (08): FRAME_SENDING_ENDS, HALT_ALL_SENT, VALID_ANSWER, CORRUPT_ANSWER,
BUS_FRAME_DISCARDED, ANSWER_WINDOW_EXPIRY, POLL_INTERVAL_EXPIRY, WAITING_FRAME_JOIN. -/

namespace Sys2Proof.Machine

/-- FRAME_SENDING_ENDS: the answer window starts (R152). -/
def execFrameSendingEnds (line : Fin 8) (s : State) : Host.Outcome State Fault Refusal :=
  .next (s.sendingEnds line.val)

/-- HALT_ALL_SENT: the arbiter chooses again (R153). -/
def execHaltAllSent (line : Fin 8) (s : State) : Host.Outcome State Fault Refusal :=
  .next (s.haltAllSent line.val).rest

/-- VALID_ANSWER: a driver's answer arrives from a drop; R143 says whether it is valid, corrupt or discarded
(R154, log 26). -/
def execValidAnswer (line : Fin 8) (drop : Fin 16) (answer : BusAnswer) (s : State) :
    Host.Outcome State Fault Refusal :=
  .next (s.receiveBus line.val (answer.bytes drop.val)).rest

/-- CORRUPT_ANSWER: a frame arrives; R143 says whether it is valid, corrupt or discarded (R152, log 26). -/
def execCorruptAnswer (line : Fin 8) (bytes : List Byte) (s : State) : Host.Outcome State Fault Refusal :=
  .next (s.receiveBus line.val bytes).rest

/-- BUS_FRAME_DISCARDED: a frame arrives; with no answer window open it is discarded (R143, log 26). -/
def execBusFrameDiscarded (line : Fin 8) (bytes : List Byte) (s : State) : Host.Outcome State Fault Refusal :=
  .next (s.receiveBus line.val bytes).rest

/-- ANSWER_WINDOW_EXPIRY: the attempt ends (R152). -/
def execAnswerWindowExpiry (line : Fin 8) (s : State) : Host.Outcome State Fault Refusal :=
  .next (s.windowExpires line.val).rest

/-- POLL_INTERVAL_EXPIRY: a poll is due and the arbiter may choose (R149). -/
def execPollIntervalExpiry (slot : Fin 128) (s : State) : Host.Outcome State Fault Refusal :=
  .next (s.pollExpires slot.val).rest

/-- WAITING_FRAME_JOIN: a frame that waited for room joins the normal queue (R148). -/
def execWaitingFrameJoin (line : Fin 8) (s : State) : Host.Outcome State Fault Refusal :=
  .next (s.waitingJoins line.val).rest

end Sys2Proof.Machine
end

