-- ==== Sys2Proof/Machine/ControlRequests.lean ====
section
/-! DEFINITION. The control request commands. Each arrives in its own frames on
the control channel (log 2) and is taken, under its own rule, in the event that grants it (10 R193, R194, R198). -/

namespace Sys2Proof.Machine

/-- READ_SLOT (R37); taken by State.takeReadSlot. -/
def execReadSlot (tag slot : Byte) (s : State) : Host.Outcome State Fault Refusal :=
  .next (s.sendRequest tag (.readSlot slot))

/-- READ_TARGETS (R55); taken by State.takeReadTargets. -/
def execReadTargets (tag slot : Byte) (s : State) : Host.Outcome State Fault Refusal :=
  .next (s.sendRequest tag (.readTargets slot))

/-- READ_ZONE (R75); taken by State.takeReadZone. -/
def execReadZone (tag : Byte) (zone : Word) (s : State) : Host.Outcome State Fault Refusal :=
  .next (s.sendRequest tag (.readZone zone))

/-- READ_WAITLIST (R94); taken by State.takeReadWaitlist. -/
def execReadWaitlist (tag index : Byte) (s : State) : Host.Outcome State Fault Refusal :=
  .next (s.sendRequest tag (.readWaitlist index))

/-- READ_LINE (R166); taken by State.takeReadLine. -/
def execReadLine (tag line : Byte) (s : State) : Host.Outcome State Fault Refusal :=
  .next (s.sendRequest tag (.readLine line))

/-- READ_SEGMENT (R207); taken by State.takeReadSegment. -/
def execReadSegment (tag : Byte) (s : State) : Host.Outcome State Fault Refusal :=
  .next (s.sendRequest tag .readSegment)

/-- STOP (R135); taken by State.takeStop. -/
def execStop (tag : Byte) (s : State) : Host.Outcome State Fault Refusal :=
  .next (s.sendRequest tag .stop)

/-- RESUME (R30); taken by State.takeResume. -/
def execResume (tag slot : Byte) (s : State) : Host.Outcome State Fault Refusal :=
  .next (s.sendRequest tag (.resume slot))

/-- SET_BUDGET (R133); taken by State.takeSetBudget. -/
def execSetBudget (tag units : Byte) (s : State) : Host.Outcome State Fault Refusal :=
  .next (s.sendRequest tag (.setBudget units))

/-- RELEASE (R139); taken by State.takeRelease. -/
def execRelease (tag : Byte) (s : State) : Host.Outcome State Fault Refusal :=
  .next (s.sendRequest tag .release)

/-- RESET_LINE (R164); taken by State.takeResetLine. -/
def execResetLine (tag line : Byte) (s : State) : Host.Outcome State Fault Refusal :=
  .next (s.sendRequest tag (.resetLine line))

/-- SET_TIMING (R206); taken by State.takeSetTiming. -/
def execSetTiming (tag : Byte) (claimTimeout settle : Word) (faultLimit : Byte) (s : State) : Host.Outcome State Fault Refusal :=
  .next (s.sendRequest tag (.setTiming claimTimeout settle faultLimit))

/-- SET_NOTICES (R211); taken by State.takeSetNotices. -/
def execSetNotices (tag mask : Byte) (s : State) : Host.Outcome State Fault Refusal :=
  .next (s.sendRequest tag (.setNotices mask))

/-- CANCEL (R204); taken by State.takeCancel. -/
def execCancel (tag : Byte) (s : State) : Host.Outcome State Fault Refusal :=
  .next (s.sendRequest tag .cancel)

/-- CLEAR_HALT (R202); taken by State.takeClearHalt. -/
def execClearHalt (tag : Byte) (s : State) : Host.Outcome State Fault Refusal :=
  .next (s.sendRequest tag .clearHalt)

/-- FLUSH (R203); taken by State.takeFlush. -/
def execFlush (tag : Byte) (s : State) : Host.Outcome State Fault Refusal :=
  .next (s.sendRequest tag .flush)

/-- RESET_SEGMENT (R208); taken by State.takeResetSegment. -/
def execResetSegment (tag : Byte) (s : State) : Host.Outcome State Fault Refusal :=
  .next (s.sendRequest tag .resetSegment)

end Sys2Proof.Machine
end

