-- ==== Sys2Proof/Machine/LinkEvents.lean ====
section
/-! DEFINITION. The link commands: LINK_FRAME_RECEIVED, PLAN_FRAME_MOVE, OUTPUT_FRAME_SENT, WAITING_ANSWER_ENTRY,
NOTICE_ENTRY (10). -/

namespace Sys2Proof.Machine

/-- LINK_FRAME_RECEIVED: bytes arrive and the frames in them are checked and taken onward (R191, R192). -/
def execLinkFrameReceived (bytes : List Byte) (s : State) : Host.Outcome State Fault Refusal :=
  .next (s.bytesArrive bytes)

/-- PLAN_FRAME_MOVE: the front plan frame moves into the assembly when R197 lets it and R194 grants it; otherwise
there is nothing to do (log 3). -/
def execPlanFrameMove (s : State) : Host.Outcome State Fault Refusal :=
  .next (match s.nextGrant with
    | some (.plan f rest) => (s.moveFrame f rest).rest
    | some (.waitingAnswer _) => s
    | some .notice => s
    | some (.control _ _) => s
    | none => s)

/-- The front outbound frame leaves the output queue and the next one begins to be sent (R194, log 10). Its plan free
count is written before the grants of the place it leaves, which may move plan frames: the model's choice
(log 10). -/
def State.frontSent (s : State) : State :=
  match s.link.output with
  | [] => s
  | [_] => s.modLink fun k => { k with output := [] }
  | _ :: f :: rest => s.modLink fun k => { k with output := f.beginSending s.planFree :: rest }

/-- OUTPUT_FRAME_SENT: the front frame has been sent, and the place it leaves is granted (R194). -/
def execOutputFrameSent (s : State) : Host.Outcome State Fault Refusal := .next s.frontSent.rest

/-- WAITING_ANSWER_ENTRY: the waiting answer enters the output queue when a place is free (R194, R199). -/
def execWaitingAnswerEntry (s : State) : Host.Outcome State Fault Refusal :=
  .next (match s.nextGrant with
    | some (.waitingAnswer f) => (s.carryOut (.waitingAnswer f)).rest
    | some .notice => s
    | some (.control _ _) => s
    | some (.plan _ _) => s
    | none => s)

/-- NOTICE_ENTRY: the notice that became pending first enters the output queue when a place is granted to it, and
its pending flag is cleared (R210). -/
def execNoticeEntry (s : State) : Host.Outcome State Fault Refusal :=
  .next (match s.nextGrant with
    | some .notice => s.enterNotice.rest
    | some (.waitingAnswer _) => s
    | some (.control _ _) => s
    | some (.plan _ _) => s
    | none => s)

end Sys2Proof.Machine
end

