-- ==== Sys2Proof/Machine/Pins.lean ====
section
/-! DEFINITION. The pin commands: PIN_RESET, STOP_ASSERTED, STOP_NEGATED, INHIBIT_ASSERTED, INHIBIT_NEGATED (07). -/

namespace Sys2Proof.Machine

/-- The state of the lines when a pin reset ends (R139, R167). -/
def resetLineState (hold : Bool) : LineState := if hold then .silent else .up

/-- The records after a pin reset with the levels of the strap, STOP and INHIBIT pins as it ends (R140). The
queue of commands and the choice of stop orders are the model's own and are kept (log 6, log 31). -/
def State.pinReset (s : State) (segment : Fin 32) (hold stop inhibit : Bool) : State :=
  { State.reset with
    pending := s.pending
    stopOrders := s.stopOrders
    pins := { stop := stop, inhibit := inhibit, segment := segment, hold := hold }
    lines := Vector.replicate 8 (LineRec.fresh (resetLineState hold)) }

/-- PIN_RESET (R140). A STOP input asserted as the reset ends raises STOP_TAKEN with source LINE and finds
nothing to act on (R134, log 8). -/
def execPinReset (segment : Fin 32) (hold stop inhibit : Bool) (s : State) : Host.Outcome State Fault Refusal :=
  let t := s.pinReset segment hold stop inhibit
  .next (if stop then t.raise (.stopTaken 1 StopSource.line.bit) else t).rest

/-- The level of the STOP input. -/
def State.setStop (s : State) (level : Bool) : State := { s with pins := { s.pins with stop := level } }

/-- The level of the INHIBIT input. -/
def State.setInhibit (s : State) (level : Bool) : State := { s with pins := { s.pins with inhibit := level } }

/-- STOP_ASSERTED: stop is in force, and a stop event with source LINE is taken (R134). A level that stands
already is no change (log 3). -/
def execStopAsserted (s : State) : Host.Outcome State Fault Refusal :=
  .next (if s.pins.stop then s else ((s.setStop true).stopEvent .line).rest)

/-- STOP_NEGATED: stop ceases to be in force and the Start Gate makes an issue scan (R136). -/
def execStopNegated (s : State) : Host.Outcome State Fault Refusal :=
  .next (if s.pins.stop then ((s.setStop false).hand .scan).rest else s)

/-- INHIBIT_ASSERTED: no leg is issued from now on (R138). -/
def execInhibitAsserted (s : State) : Host.Outcome State Fault Refusal := .next (s.setInhibit true)

/-- INHIBIT_NEGATED: an issue scan from the front of the queue (R138). -/
def execInhibitNegated (s : State) : Host.Outcome State Fault Refusal :=
  .next (if s.pins.inhibit then ((s.setInhibit false).hand .scan).rest else s)

end Sys2Proof.Machine
end

