-- ==== Sys2Proof/Machine/PlanRequests.lean ====
section
/-! DEFINITION. The plan request commands. Each arrives in its own frames on
the plan channel (log 2) and is taken, under its own rule, in the event that grants it (10 R193, R194, R198). -/

namespace Sys2Proof.Machine

/-- DEFINE_SLOT (R25, R26); taken by State.takeDefineSlot. -/
def execDefineSlot (tag slot line drop : Byte) (alphaMax betaFold betaMax : Word) (serialGiven : Byte)
    (serial : Serial) (s : State) : Host.Outcome State Fault Refusal :=
  .next (s.sendRequest tag (.defineSlot slot line drop alphaMax betaFold betaMax serialGiven serial))

/-- FORGET_SLOT (R27); taken by State.takeForgetSlot. -/
def execForgetSlot (tag slot : Byte) (s : State) : Host.Outcome State Fault Refusal :=
  .next (s.sendRequest tag (.forgetSlot slot))

/-- RETIRE (R29); taken by State.takeRetire. -/
def execRetire (tag slot : Byte) (s : State) : Host.Outcome State Fault Refusal :=
  .next (s.sendRequest tag (.retire slot))

/-- ASSIGN_LIST (R47); taken by State.takeAssignList. -/
def execAssignList (tag : Byte) (entries : List AssignEntry) (s : State) : Host.Outcome State Fault Refusal :=
  .next (s.sendRequest tag (.assignList entries))

/-- CLEAR_TARGET (R52); taken by State.takeClearTarget. -/
def execClearTarget (tag slot : Byte) (cfgTag : Word) (s : State) : Host.Outcome State Fault Refusal :=
  .next (s.sendRequest tag (.clearTarget slot cfgTag))

/-- DROP_TARGETS (R53); taken by State.takeDropTargets. -/
def execDropTargets (tag : Byte) (cfgTag : Word) (s : State) : Host.Outcome State Fault Refusal :=
  .next (s.sendRequest tag (.dropTargets cfgTag))

/-- DEFINE_ZONE (R60); taken by State.takeDefineZone. -/
def execDefineZone (tag : Byte) (zone : Word) (slot1 : Byte) (box1 : WireBox) (slot2 : Byte) (box2 : WireBox) (s : State) : Host.Outcome State Fault Refusal :=
  .next (s.sendRequest tag (.defineZone zone slot1 box1 slot2 box2))

/-- FORGET_ZONE (R63); taken by State.takeForgetZone. -/
def execForgetZone (tag : Byte) (zone : Word) (s : State) : Host.Outcome State Fault Refusal :=
  .next (s.sendRequest tag (.forgetZone zone))

/-- EXECUTE (R98); taken by State.takeExecute. -/
def execExecute (tag : Byte) (cfgTag : Word) (s : State) : Host.Outcome State Fault Refusal :=
  .next (s.sendRequest tag (.execute cfgTag))

/-- AWAIT_BATCH (R118); taken by State.takeAwaitBatch. -/
def execAwaitBatch (tag : Byte) (s : State) : Host.Outcome State Fault Refusal :=
  .next (s.sendRequest tag .awaitBatch)

/-- PROBE (R169); taken by State.takeProbe. -/
def execProbe (tag slot : Byte) (s : State) : Host.Outcome State Fault Refusal :=
  .next (s.sendRequest tag (.probe slot))

/-- MEASURE_LIST (R178); taken by State.takeMeasureList. -/
def execMeasureList (tag : Byte) (entries : List MeasureEntry) (s : State) : Host.Outcome State Fault Refusal :=
  .next (s.sendRequest tag (.measureList entries))

/-- RECOVER (R184); taken by State.takeRecover. -/
def execRecover (tag slot : Byte) (s : State) : Host.Outcome State Fault Refusal :=
  .next (s.sendRequest tag (.recover slot))

end Sys2Proof.Machine
end

