-- ==== Sys2Proof/Machine/Timers.lean ====
section
/-! DEFINITION. The timer commands (01): CLAIM_TIMEOUT_EXPIRY, LEG_DEADLINE_EXPIRY, HELD_UNITS_EXPIRY,
TIME_BASE_ADVANCE. A timer expires only once the time base has reached its deadline (R12, log 5). -/

namespace Sys2Proof.Machine

/-- The slot's wait-list entry has reached its deadline (R87). -/
def State.claimDue (s : State) (n : Nat) : Bool := s.waitList.any fun e => e.slot == n && decide (e.deadline ≤ s.now)

/-- CLAIM_TIMEOUT_EXPIRY (R87). -/
def execClaimTimeoutExpiry (slot : Fin 128) (s : State) : Host.Outcome State Fault Refusal :=
  .next (if s.claimDue slot.val then s.claimExpires slot.val else s).rest

/-- LEG_DEADLINE_EXPIRY (R112, R113). -/
def execLegDeadlineExpiry (slot : Fin 128) (s : State) : Host.Outcome State Fault Refusal :=
  .next (s.legDeadline slot.val).rest

/-- The held-units entry of a slot, when its deadline has been reached (R126). -/
def State.heldDue (s : State) (n : Nat) : Option HeldUnits :=
  s.gate.heldUnits.find? fun h => h.slot == n && decide (h.deadline ≤ s.now)

/-- A held-units entry leaves the list and its units are returned (R126). -/
def State.heldExpires (s : State) (n : Nat) : State :=
  match s.heldDue n with
  | none => s
  | some h => (s.modGate fun g => { g with heldUnits := g.heldUnits.erase h }).returnUnits h.units

/-- HELD_UNITS_EXPIRY (R126). -/
def execHeldUnitsExpiry (slot : Fin 128) (s : State) : Host.Outcome State Fault Refusal :=
  .next (s.heldExpires slot.val).rest

/-- TIME_BASE_ADVANCE: the time base advances by one (R11). -/
def execTimeBaseAdvance (s : State) : Host.Outcome State Fault Refusal := .next { s with now := s.now + 1 }

end Sys2Proof.Machine
end

