-- ==== Sys2Proof/Machine/Dispatch.lean ====
section
/-! DEFINITION. One arm for each command: a direct call of its meaning. -/

namespace Sys2Proof.Machine

/-- The effect of a command on everything but the queue of commands. -/
def exec (i : Instr) (s : State) : Host.Outcome State Fault Refusal :=
  match i with
  | .pinReset segment hold stop inhibit => Sys2Proof.Machine.execPinReset segment hold stop inhibit s
  | .stopAsserted => Sys2Proof.Machine.execStopAsserted s
  | .stopNegated => Sys2Proof.Machine.execStopNegated s
  | .inhibitAsserted => Sys2Proof.Machine.execInhibitAsserted s
  | .inhibitNegated => Sys2Proof.Machine.execInhibitNegated s
  | .linkFrameReceived bytes => Sys2Proof.Machine.execLinkFrameReceived bytes s
  | .planFrameMove => Sys2Proof.Machine.execPlanFrameMove s
  | .outputFrameSent => Sys2Proof.Machine.execOutputFrameSent s
  | .waitingAnswerEntry => Sys2Proof.Machine.execWaitingAnswerEntry s
  | .noticeEntry => Sys2Proof.Machine.execNoticeEntry s
  | .defineSlot tag slot line drop alphaMax betaFold betaMax serialGiven serial => Sys2Proof.Machine.execDefineSlot tag slot line drop alphaMax betaFold betaMax serialGiven serial s
  | .forgetSlot tag slot => Sys2Proof.Machine.execForgetSlot tag slot s
  | .retire tag slot => Sys2Proof.Machine.execRetire tag slot s
  | .assignList tag entries => Sys2Proof.Machine.execAssignList tag entries s
  | .clearTarget tag slot cfgTag => Sys2Proof.Machine.execClearTarget tag slot cfgTag s
  | .dropTargets tag cfgTag => Sys2Proof.Machine.execDropTargets tag cfgTag s
  | .defineZone tag zone slot1 box1 slot2 box2 => Sys2Proof.Machine.execDefineZone tag zone slot1 box1 slot2 box2 s
  | .forgetZone tag zone => Sys2Proof.Machine.execForgetZone tag zone s
  | .execute tag cfgTag => Sys2Proof.Machine.execExecute tag cfgTag s
  | .awaitBatch tag => Sys2Proof.Machine.execAwaitBatch tag s
  | .probe tag slot => Sys2Proof.Machine.execProbe tag slot s
  | .measureList tag entries => Sys2Proof.Machine.execMeasureList tag entries s
  | .recover tag slot => Sys2Proof.Machine.execRecover tag slot s
  | .readSlot tag slot => Sys2Proof.Machine.execReadSlot tag slot s
  | .readTargets tag slot => Sys2Proof.Machine.execReadTargets tag slot s
  | .readZone tag zone => Sys2Proof.Machine.execReadZone tag zone s
  | .readWaitlist tag index => Sys2Proof.Machine.execReadWaitlist tag index s
  | .readLine tag line => Sys2Proof.Machine.execReadLine tag line s
  | .readSegment tag => Sys2Proof.Machine.execReadSegment tag s
  | .stop tag => Sys2Proof.Machine.execStop tag s
  | .resume tag slot => Sys2Proof.Machine.execResume tag slot s
  | .setBudget tag units => Sys2Proof.Machine.execSetBudget tag units s
  | .release tag => Sys2Proof.Machine.execRelease tag s
  | .resetLine tag line => Sys2Proof.Machine.execResetLine tag line s
  | .setTiming tag claimTimeout settle faultLimit => Sys2Proof.Machine.execSetTiming tag claimTimeout settle faultLimit s
  | .setNotices tag mask => Sys2Proof.Machine.execSetNotices tag mask s
  | .cancel tag => Sys2Proof.Machine.execCancel tag s
  | .clearHalt tag => Sys2Proof.Machine.execClearHalt tag s
  | .flush tag => Sys2Proof.Machine.execFlush tag s
  | .resetSegment tag => Sys2Proof.Machine.execResetSegment tag s
  | .frameSendingEnds line => Sys2Proof.Machine.execFrameSendingEnds line s
  | .haltAllSent line => Sys2Proof.Machine.execHaltAllSent line s
  | .validAnswer line drop answer => Sys2Proof.Machine.execValidAnswer line drop answer s
  | .corruptAnswer line bytes => Sys2Proof.Machine.execCorruptAnswer line bytes s
  | .busFrameDiscarded line bytes => Sys2Proof.Machine.execBusFrameDiscarded line bytes s
  | .answerWindowExpiry line => Sys2Proof.Machine.execAnswerWindowExpiry line s
  | .pollIntervalExpiry slot => Sys2Proof.Machine.execPollIntervalExpiry slot s
  | .waitingFrameJoin line => Sys2Proof.Machine.execWaitingFrameJoin line s
  | .claimTimeoutExpiry slot => Sys2Proof.Machine.execClaimTimeoutExpiry slot s
  | .legDeadlineExpiry slot => Sys2Proof.Machine.execLegDeadlineExpiry slot s
  | .heldUnitsExpiry slot => Sys2Proof.Machine.execHeldUnitsExpiry slot s
  | .timeBaseAdvance => Sys2Proof.Machine.execTimeBaseAdvance s

end Sys2Proof.Machine
end

