-- ==== Sys2Proof/Safety.lean ====
section
/-! DEFINITION. What a state must keep (the laws of the budget and the settings, the capacities), when the block is
at rest, and the command of a request. -/

namespace Sys2Proof

/-- The command by which a request is sent with a tag (log 2). -/
def Request.command (tag : Byte) : Request → Instr
  | .defineSlot sl ln dr a f m g e => .defineSlot tag sl ln dr a f m g e
  | .forgetSlot sl => .forgetSlot tag sl
  | .retire sl => .retire tag sl
  | .assignList es => .assignList tag es
  | .clearTarget sl t => .clearTarget tag sl t
  | .dropTargets t => .dropTargets tag t
  | .defineZone z s1 x1 s2 x2 => .defineZone tag z s1 x1 s2 x2
  | .forgetZone z => .forgetZone tag z
  | .execute t => .execute tag t
  | .awaitBatch => .awaitBatch tag
  | .probe sl => .probe tag sl
  | .measureList es => .measureList tag es
  | .recover sl => .recover tag sl
  | .readSlot sl => .readSlot tag sl
  | .readTargets sl => .readTargets tag sl
  | .readZone z => .readZone tag z
  | .readWaitlist i => .readWaitlist tag i
  | .readLine l => .readLine tag l
  | .readSegment => .readSegment tag
  | .stop => .stop tag
  | .resume sl => .resume tag sl
  | .setBudget u => .setBudget tag u
  | .release => .release tag
  | .resetLine l => .resetLine tag l
  | .setTiming c e f => .setTiming tag c e f
  | .setNotices m => .setNotices tag m
  | .cancel => .cancel tag
  | .clearHalt => .clearHalt tag
  | .flush => .flush tag
  | .resetSegment => .resetSegment tag

end Sys2Proof

namespace Sys2Proof.Machine

/-- The budget's law (R125) and the ranges of the settings (R93, R122, R32). -/
def State.Lawful (s : State) : Prop :=
  (2 ≤ s.gate.budget ∧ s.gate.budget ≤ 128 ∧ s.gate.unitsInUse ≤ s.gate.budget) ∧
  (1 ≤ s.settings.claimTimeout ∧ s.settings.claimTimeout ≤ 600) ∧
  (100 ≤ s.settings.settleAllowance ∧ s.settings.settleAllowance ≤ 10000) ∧
  (1 ≤ s.settings.faultLimit ∧ s.settings.faultLimit ≤ 7)

/-- A line's normal queue holds at most 24 frames (R148), its urgent queue no frame twice (R147), its failure run
no drop twice (R146). -/
def LineRec.Ordered (r : LineRec) : Prop :=
  r.normal.length ≤ Config.normalCapacity ∧ r.urgent.Nodup ∧ r.failureRun.Nodup

/-- The link's queues and the assembly are within their capacities (R193, R194, R196, R197). -/
def Link.Within (k : Link) : Prop :=
  k.control.length ≤ Config.controlCapacity ∧ k.plan.length ≤ Config.planCapacity ∧
  k.assembly.length ≤ Config.assemblyCapacity ∧ k.output.length ≤ Config.outputCapacity

/-- The held-units list holds at most one entry for each slot (R126). -/
def Gate.HoldsOnce (g : Gate) : Prop := (g.heldUnits.map HeldUnits.slot).Nodup

/-- The queues of the link and of the lines keep their capacities, and no slot has two held-units entries. -/
def State.Within (s : State) : Prop := s.link.Within ∧ (∀ l, (s.line l).Ordered) ∧ s.gate.HoldsOnce

/-- While stop is in force, no claim waits and no leg is queued (R81, R91, R129, R137). -/
def State.Stopped (s : State) : Prop := s.pins.stop = true → s.waitList = [] ∧ s.gate.startQueue = []

/-- Nothing is left to follow from events past: none is handed on, and R194 and R197 grant nothing. -/
def State.quiet (s : State) : Bool := s.handed.isEmpty && s.nextGrant.isNone

/-- A control request that arrives is taken at once: the block is at rest and a place is free in the output
queue (R193, R194). -/
def State.ready (s : State) : Bool := s.quiet && s.outputRoom

/-- A plan request that arrives is taken at once: besides, the channel is OPEN with no current request, no waiting
answer and no assembly begun (R197, R198). -/
def State.planReady (s : State) : Bool := s.ready && s.planMoves && s.link.assembly.isEmpty

/-- The state after an answer that finds a place: the frame stands at the back of the output queue. -/
def State.answered (s : State) (tag code : Byte) (st : Status) (payload : List Byte) : State :=
  s.enterOutput (answerFrame tag code st payload)

/-- The link with a current request. -/
def Link.doing (k : Link) (c : Current) : Link := { k with current := some c }

/-- Nothing but the Segment Link Port differs. -/
def State.SameRecords (s t : State) : Prop := t = { s with link := t.link }

/-- Nothing but the link's output queue differs, and the frames of s still stand at its front. -/
def State.OnlySends (s t : State) : Prop :=
  t = { s with link := { s.link with output := t.link.output } } ∧ s.link.output <+: t.link.output

/-- No frame is in flight on a line and none is waiting for it, and no poll is due there. -/
def State.lineIdle (s : State) (l : Nat) : Prop :=
  (s.line l).txn = none ∧ (s.line l).sendingHaltAll = false ∧ (s.line l).urgent = [] ∧ (s.line l).normal = [] ∧
    (s.line l).waiting = [] ∧ s.pollsDue l = []

end Sys2Proof.Machine
end

