-- ==== Sys2Proof/Certificates/Slice0/Obligations.lean ====
section
/-! DEFINITION. The statements for the provers. A statement that a command is answered with some state is its
completion; an equality with that state is its frame as well, since it names every record that changes. -/

open Sys2Proof Sys2Proof.Machine

/-! ## The queue of commands -/

/-- One step takes the command at the front of the queue and runs it on the queue's rest. No command ends in a fault or
a refusal, in any state.
With no command waiting the block idles: the model's choice (log 4). -/
def Obligations.StepRunsFront : Prop :=
  (∀ (s : State) (c : Instr) (rest : List Instr), s.pending = c :: rest →
    step s = exec c { s with pending := rest }) ∧
  (∀ (c : Instr) (s : State), ∃ t, exec c s = .next t) ∧
  (∀ s : State, s.pending = [] → step s = .next s)

/-- Every request sent to a block at rest is taken at once under its own rule, and what follows runs to rest (R193,
R197, R198; that a request command is its frames' arrival is log 2). A control request needs a free place; a plan
request of up to eight frames needs the plan channel free besides. Running to rest is the model's (log 1, log 29): the
events that blocks have handed to each other are taken first in first out, and with none left the next grant is
carried out, until neither is left. A grant enters the waiting answer or the notice in the output queue, takes the
control frame, or moves the plan frame into the assembly, a ninth halting the channel and one without "more"
completing the request (R194, R197, R198, R200). What is handed on stands behind what was (log 1). -/
def Obligations.RequestTakenAtRest : Prop :=
  (∀ (s : State) (tag : Byte) (q : Request),
    (q.channel = .control → s.ready = true) → (q.channel = .plan → s.planReady = true ∧ q.payload.length ≤ 2048) →
      exec (q.command tag) s = .next ((s.take tag q).settle (Config.settleFuel - 1))) ∧
  (∀ s : State, s.rest = s.settle Config.settleFuel ∧ s.settle 0 = s) ∧
  (∀ (s : State) (k : Nat),
    (∀ e rest, s.handed = e :: rest →
      s.settle (k + 1) = (({ s with handed := rest } : State).takeHanded e).settle k) ∧
    (∀ g, s.handed = [] → s.nextGrant = some g → s.settle (k + 1) = (s.carryOut g).settle k) ∧
    (s.handed = [] → s.nextGrant = none → s.settle (k + 1) = s)) ∧
  (∀ (s : State) (n l : Nat),
    s.takeHanded (.handOn n) = s.takeHandOn n ∧ s.takeHanded .scan = s.scan ∧ s.takeHanded (.choose l) = s.choose l) ∧
  (∀ s : State,
    (∀ f, s.carryOut (.waitingAnswer f) =
      ({ s with link := { s.link with waitingAnswer := none } } : State).enterOutput f) ∧
    (∀ n rest, s.link.notices = n :: rest →
      s.carryOut .notice = ({ s with link := { s.link with notices := rest } } : State).enterOutput
        (noticeFrame s.linesDown n.summary)) ∧
    (∀ f rest, s.carryOut (.control f rest) =
      ({ s with link := { s.link with control := rest } } : State).takeFrame .control f.more f.tag f.code f.payload) ∧
    (∀ f rest,
      (8 ≤ s.link.assembly.length → s.carryOut (.plan f rest) =
        ({ s with link := { s.link with plan := rest } } : State).haltPlan .tooLong) ∧
      (s.link.assembly.length < 8 → f.more = true → s.carryOut (.plan f rest) =
        { s with link := { s.link with plan := rest, assembly := s.link.assembly ++ [f] } }) ∧
      (∀ front back, s.link.assembly.length < 8 → f.more = false → s.link.assembly ++ [f] = front :: back →
        s.carryOut (.plan f rest) =
          ({ s with link := { s.link with plan := rest, assembly := [] } } : State).takeFrame .plan false front.tag
            front.code ((front :: back).map LinkFrame.payload).flatten))) ∧
  (∀ (s : State) (e : Handed), s.hand e = { s with handed := s.handed ++ [e] })

/-! ## Invariants of every step -/

/-- At reset the budget's law and the ranges of the settings hold, the queues are within their capacities, no slot has
two held-units entries, and no claim waits and no leg is queued under stop. -/
def Obligations.ResetKeepsLaws : Prop := State.reset.Lawful ∧ State.reset.Within ∧ State.reset.Stopped

/-- Every step keeps the budget's law (R125) and the ranges of the three settings (R93, R122, R32). -/
def Obligations.StepKeepsLawful : Prop := ∀ s t : State, s.Lawful → step s = .next t → t.Lawful

/-- Every step keeps the capacities of the link's queues and of the assembly (R193, R194, R196, R197), of every
line's normal queue (R148), keeps every urgent queue and failure run free of doubles (R147, R155), and keeps at most
one held-units entry for each slot (R126; what a second one would do: log 24). -/
def Obligations.StepKeepsCapacities : Prop := ∀ s t : State, s.Within → step s = .next t → t.Within

/-- Every step keeps the wait list and the start queue empty while stop is in force (R81, R91, R129, R137). -/
def Obligations.StepKeepsStopped : Prop := ∀ s t : State, s.Stopped → step s = .next t → t.Stopped

/-! ## Pins (07) -/

/-- PIN_RESET, whatever the state before: every record stands as after reset, the straps and the levels are the
pins', every line is SILENT with HOLD and UP without. An asserted STOP puts its notice in the output queue. The
model's own queue of commands and of stop orders is kept (log 6, log 31); that a STOP at pin reset queues no HALT_ALL
is log 8. -/
def Obligations.PinResetRecords : Prop :=
  ∀ (s : State) (segment : Fin 32) (hold inhibit : Bool),
    (∀ stop, s.pinReset segment hold stop inhibit =
      { State.reset with
        pending := s.pending
        stopOrders := s.stopOrders
        pins := { stop := stop, inhibit := inhibit, segment := segment, hold := hold }
        lines := Vector.replicate 8 (LineRec.fresh (if hold then .silent else .up)) }) ∧
    exec (.pinReset segment hold false inhibit) s = .next (s.pinReset segment hold false inhibit) ∧
    exec (.pinReset segment hold true inhibit) s =
      .next ((s.pinReset segment hold true inhibit).enterOutput (noticeFrame 0 (.stopTaken 1 1)))

/-- R123, whole: after pin reset the batch record is NONE with every other field absent, no slot has a leg, remaining
legs or a batch flag, the settle allowance is 1500 ms, and no deadline is running: no leg's, no claim's, no
held-units entry's and no answer window. -/
def Obligations.PlannerAfterPinReset : Prop :=
  ∀ (s : State) (segment : Fin 32) (hold stop inhibit : Bool),
    ∃ t, exec (.pinReset segment hold stop inhibit) s = .next t ∧ t.batch = .none ∧
      (∀ n, (t.slot n).leg = none ∧ (t.slot n).remaining = [] ∧ (t.slot n).batchFlag = false) ∧
      t.settings.settleAllowance = 1500 ∧ t.waitList = [] ∧ t.gate.heldUnits = [] ∧ ∀ l, (t.line l).txn = none

/-- STOP_ASSERTED on a negated input is a stop event with source LINE: stop is in force, the wait list and the start
queue are empty, the other pins stand, and the frames in the output queue stand (R134). On an asserted input it is no
change of level (log 3). STOP is answered OK and is a stop event with source REQUEST: it does not put stop in force, and
it changes no budget, setting, line state or failure run (R135, R137, R159). What the stop event then does at the blocks
is Obligations.StopAtBlocks; that what follows runs to rest in the step is log 1. -/
def Obligations.StopRaised : Prop :=
  ((∀ s : State, s.pins.stop = false →
     ∃ t, exec .stopAsserted s = .next t ∧ t.pins = { s.pins with stop := true } ∧ t.waitList = [] ∧
       t.gate.startQueue = [] ∧ s.link.output <+: t.link.output ∧ t.now = s.now ∧
       t = (({ s with pins := { s.pins with stop := true } } : State).stopEvent .line).rest) ∧
   (∀ s : State, s.pins.stop = true → exec .stopAsserted s = .next s)) ∧
  (∀ (s : State) (tag : Byte), s.ready = true →
     ∃ t, exec (.stop tag) s = .next t ∧ (s.answered tag 0x50 .ok []).link.output <+: t.link.output ∧
       t.pins = s.pins ∧ t.now = s.now ∧ t.settings = s.settings ∧ t.gate.budget = s.gate.budget ∧
       t = ((s.answered tag 0x50 .ok []).stopEvent .request).settle (Config.settleFuel - 1) ∧
       ∀ l, (t.line l).state = (s.line l).state ∧ (t.line l).failureRun = (s.line l).failureRun)

/-- INHIBIT_NEGATED issues the leg at the front of the start queue when stop is not in force, its line is UP with
nothing to send and the budget allows it: the leg is ISSUED and its robot MOVING, its units are in use, its GO is the
line's transaction, and no other slot changes (R130, R131, R138, R151). -/
def Obligations.InhibitNegatedIssues : Prop :=
  ∀ (s : State) (e : StartEntry) (g : Leg), s.quiet = true → s.pins.inhibit = true → s.pins.stop = false →
    s.stopPassing = false → s.gate.startQueue = [e] → e.slot < 128 → e.line < 8 →
    (s.slot e.slot).leg = some g → g.stage = .queued → (s.line e.line).state = .up → s.lineIdle e.line →
    (s.line e.line).pollTurn = false → s.gate.unitsInUse + e.units ≤ s.gate.budget →
      ∃ t, exec .inhibitNegated s = .next t ∧
        t.gate = { s.gate with startQueue := [], unitsInUse := s.gate.unitsInUse + e.units } ∧
        t.slot e.slot = { s.slot e.slot with state := .moving, leg := some { g with stage := .issued } } ∧
        (∀ n, n ≠ e.slot → t.slot n = s.slot n) ∧
        (t.line e.line).txn = some
          { frame := { slot := e.slot, drop := (s.slot e.slot).dropNo
                       body := .go g.axes g.finish.alpha g.finish.beta g.speed g.kind, owner := .leg g.id }
            attempt := .first, fromNormal := true, window := none } ∧
        (t.line e.line).normal = [] ∧ t.link = s.link ∧ t.zones = s.zones

/-- STOP_NEGATED ends stop in force and changes nothing else when no leg is queued, as none is under stop (R136;
Obligations.StepKeepsStopped).
INHIBIT_ASSERTED writes the level and nothing else; INHIBIT_NEGATED writes the level, and with nothing in the start
queue nothing else; with no change of level there is no change (R138; log 3).
MOTION is asserted exactly while units are in use (R127; that returned units fall at once is log 38).
TIME_BASE_ADVANCE adds one to the time base and changes nothing else (R11; log 5). -/
def Obligations.PinsAndClock : Prop :=
  ((∀ s : State, s.quiet = true → s.pins.stop = true → s.gate.startQueue = [] →
     exec .stopNegated s = .next { s with pins := { s.pins with stop := false } }) ∧
   (∀ s : State, s.pins.stop = false → exec .stopNegated s = .next s)) ∧
  ((∀ s : State, exec .inhibitAsserted s = .next { s with pins := { s.pins with inhibit := true } }) ∧
   (∀ s : State, s.quiet = true → s.pins.inhibit = true → s.gate.startQueue = [] →
     exec .inhibitNegated s = .next { s with pins := { s.pins with inhibit := false } }) ∧
   (∀ s : State, s.pins.inhibit = false → exec .inhibitNegated s = .next s)) ∧
  (∀ s : State, (s.motion = true ↔ 0 < s.gate.unitsInUse) ∧
     (∀ e, (∃ g, (s.slot e.slot).leg = some g) → 0 < e.units → (s.issueEntry e).motion = true) ∧
     (∀ u, s.gate.unitsInUse ≤ u → (s.returnUnits u).motion = false)) ∧
  (∀ s : State, exec .timeBaseAdvance s = .next { s with now := s.now + 1 })

/-! ## Timers (01) -/

/-- CLAIM_TIMEOUT_EXPIRY for the only entry of the wait list, when its deadline is reached and its robot is not the
batch's last without an outcome: the entry leaves, and the robot's outcome is BLOCKED(CLAIM_TIMEOUT), its leg and
remaining legs removed, its target unpinned and kept, its state REST, the blocked count one more (R87, R116, R45).
That an expiry before the deadline changes nothing is the model's choice (log 3), as is that
one comes at any time at the deadline or past it (log 5). -/
def Obligations.ClaimTimeout : Prop :=
  (∀ (s : State) (n : Fin 128) (e : WaitEntry) (b : BatchRec), s.quiet = true → s.waitList = [e] → e.slot = n.val →
    e.deadline ≤ s.now → s.batch = .opened b → (s.slot n.val).batchFlag = true → (s.slot n.val).outcome = .none →
    b.arrived + b.blocked + b.faulted + b.stopped + 1 < b.admitted →
    (∀ g, (s.slot n.val).leg = some g → g.stage = .claiming) →
      exec (.claimTimeoutExpiry n) s =
        .next { s.modSlot n.val fun r =>
            { r with
              outcome := .blocked .claimTimeout, remaining := [], leg := none, state := .rest
              targets := r.targets.map fun t => if t.tag = b.tag then { t with pinned := false } else t } with
          waitList := [], batch := .opened { b with blocked := b.blocked + 1 } }) ∧
  (∀ (s : State) (n : Fin 128), s.quiet = true → (∀ e ∈ s.waitList, e.slot = n.val → s.now < e.deadline) →
    exec (.claimTimeoutExpiry n) s = .next s)

/-- LEG_DEADLINE_EXPIRY. A LAPSING leg at its deadline leaves the slot and its units come back, nothing else changing
while no leg is queued (R112). A RUNNING leg at its deadline becomes STOPPING with halt cause DEADLINE, a HALT for its
drop joins the line's urgent queue and a readback its normal queue (R113, R158): on a line with a transaction in
flight the readback joins or waits, or merges with one queued for the slot, which then serves this leg (log 17), the
HALT joining all the same; on a free line with nothing queued the HALT is in transaction at once (R151). That the
readback joins at once also where frames wait for room behind a queue that has some is the model's choice (log 22). A
STOPPING leg's deadline changes nothing, whatever its halt cause (R113, R121). That an expiry before the deadline
changes nothing is the model's choice (log 3), as is that one comes at any time at the deadline or past it (log 5). -/
def Obligations.LegDeadline : Prop :=
  (∀ (s : State) (n : Fin 128) (g : Leg) (d : Nat), s.quiet = true → s.gate.startQueue = [] →
    (s.slot n.val).leg = some g → g.stage = .lapsing → g.deadline = some d → d ≤ s.now →
      exec (.legDeadlineExpiry n) s =
        .next { s.modSlot n.val fun r => { r with leg := none } with
          gate := { s.gate with unitsInUse := s.gate.unitsInUse - g.units } }) ∧
  (∀ (s : State) (n : Fin 128) (g : Leg) (d : Nat), s.quiet = true →
    (s.slot n.val).leg = some g → g.stage = .running → g.deadline = some d → d ≤ s.now →
    (s.line (s.slot n.val).lineNo).state = .up →
    let l := (s.slot n.val).lineNo
    let drop := (s.slot n.val).dropNo
    let t := s.modSlot n.val fun r => { r with leg := some { g with stage := .stopping, haltCause := some .deadline } }
    let ask : BusFrame := { slot := n.val, drop := drop, body := .ask, owner := .readback g.id }
    ((s.line l).txn.isSome = true → ((s.line l).normal.any fun f => f.isReadbackOf n.val) = false →
      exec (.legDeadlineExpiry n) s =
        .next (t.modLine l fun r => ({ r with urgent := joinUrgent (.halt drop) r.urgent } : LineRec).offer ask)) ∧
    ((s.line l).txn.isSome = true → ((s.line l).normal.any fun f => f.isReadbackOf n.val) = true →
      exec (.legDeadlineExpiry n) s =
        .next (t.modLine l fun r =>
          { r with
            urgent := joinUrgent (.halt drop) r.urgent
            normal := r.normal.map fun f =>
              if f.isReadbackOf n.val then { f with owner := .readback g.id } else f })) ∧
    (l < 8 → (s.line l).txn = none → (s.line l).sendingHaltAll = false → (s.line l).urgent = [] →
      (s.line l).normal = [] →
      exec (.legDeadlineExpiry n) s =
        .next (t.modLine l fun r =>
          { r with
            normal := [ask]
            txn := some
              { frame := { slot := 0, drop := drop, body := .halt, owner := .noOne }
                attempt := .first, fromNormal := false, window := none } }))) ∧
  (∀ (s : State) (n : Fin 128) (g : Leg), s.quiet = true → (s.slot n.val).leg = some g → g.stage = .stopping →
    exec (.legDeadlineExpiry n) s = .next s) ∧
  (∀ (s : State) (n : Fin 128), s.quiet = true →
    (∀ g d, (s.slot n.val).leg = some g → g.deadline = some d → s.now < d) →
      exec (.legDeadlineExpiry n) s = .next s) ∧
  (∀ (r : LineRec) (f : BusFrame) (n : Nat),
    r.offer f =
      (if r.normal.length < 24 then { r with normal := r.normal ++ [f] } else { r with waiting := r.waiting ++ [f] }) ∧
    (f.isReadbackOf n = true ↔ (∃ id, f.owner = .readback id) ∧ f.slot = n)) ∧
  (∀ (f : UrgentFrame) (q : List UrgentFrame), joinUrgent f q = if f ∈ q then q else q ++ [f])

/-- HELD_UNITS_EXPIRY: the entry of the slot, its deadline reached, leaves the list and its units come back; with no
leg queued nothing else changes (R126; that the list has one entry of a slot is Obligations.StepKeepsCapacities). That
an expiry with no entry at its deadline changes nothing is the model's choice (log 3), as is that one comes at any time
at the deadline or past it (log 5). -/
def Obligations.HeldUnitsExpire : Prop :=
  (∀ (s : State) (n : Fin 128) (front back : List HeldUnits) (h : HeldUnits), s.quiet = true →
    s.gate.startQueue = [] → s.gate.heldUnits = front ++ h :: back →
    (∀ x ∈ front, x.slot = n.val → s.now < x.deadline) → h ∉ front → h.slot = n.val → h.deadline ≤ s.now →
      exec (.heldUnitsExpiry n) s =
        .next { s with gate :=
          { s.gate with heldUnits := front ++ back, unitsInUse := s.gate.unitsInUse - h.units } }) ∧
  (∀ (s : State) (n : Fin 128), s.quiet = true → (∀ x ∈ s.gate.heldUnits, x.slot = n.val → s.now < x.deadline) →
    exec (.heldUnitsExpiry n) s = .next s)

/-! ## The segment link (10) -/

/-- Reading a link frame gives back the frame, for every channel, mark, tag, code and payload of up to 256 bytes and
every segment byte; a payload length above 256 makes the frame bad, with the hunt going on after its first sync byte;
so does a wrong check value. A frame of which bytes are still to come is taken in further, whatever its length field
says (R191, R213; that its bytes are held is log 25). The frame's layout and its check value, bit by bit with the
generator 1021h and the starting value FFFFh, are those of R213. -/
def Obligations.LinkFrameReadBack : Prop :=
  (∀ (f : LinkFrame) (segment : Byte) (rest : List Byte),
     (f.payload.length ≤ 256 → receive (f.bytes segment ++ rest) = .good segment f rest) ∧
     (∀ c : Word, f.payload.length ≤ 256 → c ≠ crc16 (f.body segment) →
       receive (0xC3 :: 0x3C :: (f.body segment ++ bw c ++ rest)) = .bad (0x3C :: (f.body segment ++ bw c ++ rest))) ∧
     (256 < f.payload.length → f.payload.length < 65536 →
       receive (f.bytes segment ++ rest) = .bad (f.bytes segment ++ rest).tail) ∧
     (∀ k, f.payload.length < 65536 → k < (f.bytes segment).length →
       receive ((f.bytes segment).take k) = .wait ((f.bytes segment).take k))) ∧
  (∀ (f : LinkFrame) (segment : Byte),
    f.bytes segment = 0xC3 :: 0x3C :: (f.body segment ++ bw (crc16 (f.body segment))) ∧
    f.body segment =
      [segment, (if f.channel = .plan then 1#8 else 0#8) ||| (if f.more = true then 2#8 else 0#8), f.tag, f.code] ++
        b2 f.payload.length ++ f.payload) ∧
  (crc16 [] = 0xFFFF ∧
    ∀ (bytes : List Byte) (b : Byte),
      let bit : Word → Word := fun c => if c.getLsbD 15 = true then (c <<< 1) ^^^ 0x1021#16 else c <<< 1
      crc16 (bytes ++ [b]) = Nat.repeat bit 8 (crc16 bytes ^^^ (b.zeroExtend 16 <<< 8)))

/-- LINK_FRAME_RECEIVED of the bytes of a request's one frame, with the latched segment number or 255 in its segment
byte and no bytes held from before, is exactly the request's command with the frame's tag (R191, R192, R213; log 2).
It holds for every request of up to 256 payload bytes and every state. The codes, channels and payloads of the thirty
requests are those of the catalogue, fields in its order (R213). A frame or an assembly is taken as the request whose
code, payload and channel it has, a control frame without "more", and as BAD_REQUEST when there is none (R193, R198). -/
def Obligations.LinkFrameIsCommand : Prop :=
  (∀ (s : State) (tag : Byte) (q : Request) (segment : Byte), s.link.rx = [] → q.payload.length ≤ 256 →
     segment = BitVec.ofNat 8 s.pins.segment.val ∨ segment = 255 →
       exec (.linkFrameReceived
           (({ channel := q.channel, more := false, tag := tag, code := q.code, payload := q.payload } :
             LinkFrame).bytes segment)) s = exec (q.command tag) s) ∧
  (∀ (sl ln dr g : Byte) (a b c : Word) (e : Serial) (es : List AssignEntry) (ms : List MeasureEntry) (x y : WireBox),
    let plan : List Request :=
      [Request.defineSlot sl ln dr a b c g e, .forgetSlot sl, .retire sl, .assignList es, .clearTarget sl a,
        .dropTargets a, .defineZone a sl x dr y, .forgetZone a, .execute a, .awaitBatch, .probe sl, .measureList ms,
        .recover sl]
    let control : List Request :=
      [Request.readSlot sl, .readTargets sl, .readZone a, .readWaitlist sl, .readLine sl, .readSegment, .stop,
        .resume sl, .setBudget sl, .release, .resetLine sl, .setTiming a b sl, .setNotices sl, .cancel, .clearHalt,
        .flush, .resetSegment]
    let box : WireBox → List Byte := fun z => bw z.alphaLow ++ bw z.alphaHigh ++ bw z.betaLow ++ bw z.betaHigh
    plan.map Request.code =
      [0x10, 0x11, 0x12, 0x18, 0x19, 0x1A, 0x20, 0x21, 0x28, 0x29, 0x30, 0x31, 0x32] ∧
    (∀ q ∈ plan, q.channel = .plan) ∧
    control.map Request.code =
      [0x40, 0x41, 0x42, 0x43, 0x44, 0x45, 0x50, 0x51, 0x52, 0x53, 0x54, 0x58, 0x59, 0x5A, 0x5B, 0x5C, 0x5F] ∧
    (∀ q ∈ control, q.channel = .control) ∧
    plan.map Request.payload =
      [[sl, ln, dr] ++ bw a ++ bw b ++ bw c ++ [g] ++ b4 e, [sl], [sl],
        (es.map fun i => [i.slot, i.cls] ++ bw i.tag ++ bw i.alpha ++ bw i.beta).flatten, [sl] ++ bw a, bw a,
        bw a ++ [sl] ++ box x ++ [dr] ++ box y, bw a, bw a, [], [sl],
        (ms.map fun i => [i.slot] ++ bw i.alpha ++ bw i.beta).flatten, [sl]] ∧
    control.map Request.payload =
      [[sl], [sl], bw a, [sl], [sl], [], [], [sl], [sl], [], [sl], bw a ++ bw b ++ [sl], [sl], [], [], [], []] ∧
    bw a = [a.extractLsb' 8 8, a.extractLsb' 0 8]) ∧
  (∀ (s : State) (channel : Channel) (more : Bool) (tag code : Byte) (payload : List Byte),
    let common : Request → Prop := fun q =>
      q.code = code ∧ q.payload = payload ∧ q.channel = channel ∧ (channel = .control → more = false)
    (∀ q, common q → s.takeFrame channel more tag code payload = s.take tag q) ∧
    ((∀ q, ¬ common q) → s.takeFrame channel more tag code payload = s.answer tag code .badRequest []))

/-- What a good frame does on arrival: a frame for another segment is answered WRONG_SEGMENT if a place is free
(R192, R195); a control frame joins its queue, or with the queue full is discarded with a LINK_ERROR (R193); a plan
frame joins its queue, halts the channel with OVERFLOW when the queue is full (R196), and is answered HALTED while the
channel is halted (R201); an answer without a place is not formed, with a LINK_ERROR (R195).
A cause of a halt taken while the channel is OPEN halts it, discards the assembly and raises PLAN_HALTED; taken
while it is HALTED it changes nothing (R200). -/
def Obligations.FrameArrival : Prop :=
  (∀ (s : State) (segment : Byte) (f : LinkFrame),
     (segment ≠ BitVec.ofNat 8 s.pins.segment.val → segment ≠ 255 → s.link.output.length < 16 →
       s.frameArrives segment f = s.answered f.tag f.code .wrongSegment []) ∧
     (segment ≠ BitVec.ofNat 8 s.pins.segment.val → segment ≠ 255 → 16 ≤ s.link.output.length →
       s.frameArrives segment f = s.raise (.linkError 1 2)) ∧
     (segment ≠ BitVec.ofNat 8 s.pins.segment.val → segment ≠ 255 → s.ready = true → s.link.rx = [] →
       f.payload.length ≤ 256 →
         exec (.linkFrameReceived (f.bytes segment)) s = .next (s.answered f.tag f.code .wrongSegment [])) ∧
     (segment = BitVec.ofNat 8 s.pins.segment.val ∨ segment = 255 → f.channel = .control →
       s.frameArrives segment f =
         if s.link.control.length < 8 then { s with link := { s.link with control := s.link.control ++ [f] } }
         else s.raise (.linkError 1 1)) ∧
     (segment = BitVec.ofNat 8 s.pins.segment.val ∨ segment = 255 → f.channel = .plan → s.link.halt = none →
       s.frameArrives segment f =
         if s.link.plan.length < 32 then { s with link := { s.link with plan := s.link.plan ++ [f] } }
         else ({ s with link := { s.link with halt := some .overflow, assembly := [] } } : State).raise
           (.planHalted 1 .overflow)) ∧
     (∀ r, segment = BitVec.ofNat 8 s.pins.segment.val ∨ segment = 255 → f.channel = .plan → s.link.halt = some r →
       s.frameArrives segment f =
         if s.link.output.length < 16 then s.answered f.tag f.code .halted [BitVec.ofNat 8 r.code]
         else s.raise (.linkError 1 2))) ∧
  (∀ (s : State) (reason : HaltReason),
     (s.link.halt = none → s.haltPlan reason =
       ({ s with link := { s.link with halt := some reason, assembly := [] } } : State).raise (.planHalted 1 reason)) ∧
     (∀ r, s.link.halt = some r → s.haltPlan reason = s))

/-- A free place goes first to the waiting answer, then to the notice pending longest, then to the front control
frame, then to a plan frame that completes an assembly; a plan frame with "more" needs no place (R194, R197). The plan
channel lets a frame move while it is OPEN with no current request and no answer waiting (R197).
PLAN_FRAME_MOVE. A front frame with "more" joins the assembly, here with no frame behind it and no place free (R197);
a ninth frame halts the channel with TOO_LONG and is discarded with the eight (R197, R200), here with that notice
masked. A frame without "more" that is granted the place moves and completes the assembly, whose request is taken with
its first frame's tag and code and the joined payload (R197, R198). With no front frame, or one that R194 or R197 does
not let move, nothing changes: the channel is not OPEN and free, or a frame without "more" finds no place, a notice or
a control frame ahead (log 3). -/
def Obligations.PlanFrameMoves : Prop :=
  (∀ s : State,
     (∀ f, s.link.waitingAnswer = some f → s.outputRoom = true → s.nextGrant = some (.waitingAnswer f)) ∧
     (∀ f rest, s.planMoves = true → s.link.plan = f :: rest → f.more = true → s.nextGrant = some (.plan f rest)) ∧
     (s.link.waitingAnswer = none → s.planFront true = none → s.outputRoom = true →
       (s.link.notices ≠ [] → s.nextGrant = some .notice) ∧
       (∀ f rest, s.link.notices = [] → s.link.control = f :: rest → s.nextGrant = some (.control f rest)) ∧
       (∀ f rest, s.link.notices = [] → s.link.control = [] → s.planMoves = true → s.link.plan = f :: rest →
         s.nextGrant = some (.plan f rest))) ∧
     (s.outputRoom = false → s.planFront true = none → s.nextGrant = none)) ∧
  ((∀ (s : State) (f : LinkFrame), s.handed = [] → s.planMoves = true → s.link.plan = [f] → f.more = true →
     s.outputRoom = false → s.link.assembly.length < 8 →
       exec .planFrameMove s =
         .next { s with link := { s.link with plan := [], assembly := s.link.assembly ++ [f] } }) ∧
   (∀ (s : State) (f : LinkFrame), s.handed = [] → s.planMoves = true → s.link.plan = [f] → f.more = true →
     s.outputRoom = false → 8 ≤ s.link.assembly.length → s.link.mask.getLsbD 6 = false →
       exec .planFrameMove s =
         .next { s with link := { s.link with plan := [], assembly := [], halt := some .tooLong } }) ∧
   (∀ (s : State) (f : LinkFrame) (rest : List LinkFrame), s.planMoves = true → s.link.plan = f :: rest →
     f.more = false →
     (s.outputRoom = true → s.link.notices = [] → s.link.control = [] → s.link.assembly.length < 8 →
       ∀ front back, s.link.assembly ++ [f] = front :: back →
         exec .planFrameMove s =
           .next (({ s with link := { s.link with plan := rest, assembly := [] } } : State).takeFrame .plan false
             front.tag front.code ((front :: back).map LinkFrame.payload).flatten).rest) ∧
     (s.outputRoom = false ∨ s.link.notices ≠ [] ∨ s.link.control ≠ [] → exec .planFrameMove s = .next s)) ∧
   (∀ s : State, s.planMoves = false ∨ s.link.plan = [] → exec .planFrameMove s = .next s)) ∧
  (∀ (s : State) (more : Bool) (f : LinkFrame) (rest : List LinkFrame),
    (s.planMoves = true ↔ s.link.halt = none ∧ s.link.current = none ∧ s.link.waitingAnswer = none) ∧
    (s.planFront more = some (f, rest) ↔ s.planMoves = true ∧ s.link.plan = f :: rest ∧ f.more = more) ∧
    (s.outputRoom = true ↔ s.link.output.length < 16))

/-- OUTPUT_FRAME_SENT: the front frame leaves and the next begins to be sent with the plan free count of that moment,
here with nothing waiting for the place (R194; that its sending begins in this event, before the grants, is the
model's choice, log 10). WAITING_ANSWER_ENTRY: the waiting answer enters the queue (R194, R199). NOTICE_ENTRY: the
notice pending longest enters as its frame and is pending no longer (R210). Each is shown with nothing else waiting.
Each does nothing when its turn has not come (log 3): OUTPUT_FRAME_SENT on an empty queue; the entries with no place
free; WAITING_ANSWER_ENTRY with no answer waiting; NOTICE_ENTRY with no notice pending, with an answer waiting, or
with a plan frame with "more" to move first.
The frame sent at the front of the output queue leaves whatever waits for its place, and what waits is granted it in
the order of R194: here a notice that waited enters behind the frames left (R194, R210).
The front frame is sent with the latched segment number in its segment byte, which its check value covers; an empty
queue sends nothing (R192, R139, R213). An outbound frame is laid out as R213 gives. A notice is sent with its kind's
code, tag 0, status OK and its summary (R209, R210); a LINE_DOWN carries the lines lost first and the lines DOWN at
its entry second, which is the model's choice of an order (log 13). -/
def Obligations.OutputQueueMoves : Prop :=
  ((∀ (s : State) (f : OutFrame) (rest : List OutFrame), s.quiet = true → s.link.waitingAnswer = none →
     s.link.notices = [] → s.link.control = [] → (s.planMoves = true → s.link.plan = []) →
     s.link.output = f :: rest →
       exec .outputFrameSent s =
         .next { s with link := { s.link with output :=
           match rest with
           | [] => []
           | r :: rs => { r with planFree := some (32 - s.link.plan.length) } :: rs } }) ∧
   (∀ (s : State) (f : OutFrame), s.handed = [] → s.link.waitingAnswer = some f → s.outputRoom = true →
     s.link.notices = [] → s.link.control = [] → (s.link.halt = none → s.link.current = none → s.link.plan = []) →
       exec .waitingAnswerEntry s =
         .next (({ s with link := { s.link with waitingAnswer := none } } : State).enterOutput f)) ∧
   (∀ (s : State) (n : Notice), s.handed = [] → s.link.waitingAnswer = none → s.outputRoom = true →
     s.link.notices = [n] → s.link.control = [] → (s.planMoves = true → s.link.plan = []) →
       exec .noticeEntry s =
         .next (({ s with link := { s.link with notices := [] } } : State).enterOutput
           (noticeFrame s.linesDown n.summary))) ∧
   (∀ s : State, s.quiet = true → s.link.output = [] → exec .outputFrameSent s = .next s) ∧
   (∀ s : State, s.outputRoom = false ∨ s.link.waitingAnswer = none → exec .waitingAnswerEntry s = .next s) ∧
   (∀ s : State,
     s.outputRoom = false ∨ s.link.notices = [] ∨ s.link.waitingAnswer ≠ none ∨ s.planFront true ≠ none →
       exec .noticeEntry s = .next s)) ∧
  (∀ (s : State) (f g : OutFrame) (rest : List OutFrame) (n : Notice), s.handed = [] →
     s.link.waitingAnswer = none → s.link.notices = [n] → s.link.control = [] →
     (s.planMoves = true → s.link.plan = []) → s.link.output = f :: g :: rest → rest.length ≤ 14 →
       exec .outputFrameSent s =
         .next { s with link := { s.link with
           notices := []
           output := { g with planFree := some (32 - s.link.plan.length) } ::
             (rest ++ [noticeFrame s.linesDown n.summary]) } }) ∧
  (∀ s : State,
     (s.link.output = [] → s.transmitting = []) ∧
     (∀ f rest, s.link.output = f :: rest →
       s.transmitting = 0xC3 :: 0x3C ::
         (f.body (BitVec.ofNat 8 s.pins.segment.val) ++ bw (crc16 (f.body (BitVec.ofNat 8 s.pins.segment.val)))) ∧
       (f.body (BitVec.ofNat 8 s.pins.segment.val)).head? = some (BitVec.ofNat 8 s.pins.segment.val))) ∧
  (∀ (down : Byte) (e : Summary),
    noticeFrame down e =
      { isNotice := true, tag := 0, code := BitVec.ofNat 8 e.kind, status := 0, payload := e.payload down
        planFree := none } ∧
    (∀ t a k r b f st c, e = .batchClosed t a k r b f st c →
      e.payload down = b2 t ++ b2 a ++ b2 k ++ b2 r ++ b2 b ++ b2 f ++ b2 st ++ b2 c) ∧
    (∀ c n, e = .robotFaulted c n ∨ e = .robotRetired c n → e.payload down = b2 c ++ b1 n) ∧
    (∀ c z, e = .zoneContested c z → e.payload down = b2 c ++ b2 z) ∧
    (∀ lost, e = .lineDown lost → e.payload down = [lost, down]) ∧
    (∀ c x, e = .stopTaken c x ∨ e = .linkError c x → e.payload down = b2 c ++ [x]) ∧
    (∀ c reason, e = .planHalted c reason → e.payload down = b2 c ++ b1 reason.code)) ∧
  (∀ (s : State) (f : OutFrame) (segment : Byte) (l : Nat),
    (l < 8 → (s.linesDown.getLsbD l = true ↔ (s.line l).state = .down)) ∧
    f.body segment =
      [segment, (if f.isNotice = true then 1#8 else 0#8), f.tag, f.code, f.status,
        BitVec.ofNat 8 (f.planFree.getD 0)] ++ b2 f.payload.length ++ f.payload)

/-- An event of a masked kind raises nothing. An event of an enabled kind with none pending starts a notice with the
time base of now, behind those pending; with one of its kind pending the two merge in its place and its moment stays.
The merges of the eight kinds: counts added up to 65535, the smaller of two lowest numbers, sets joined, and the tag
and counts of a batch and the reason of a halt replaced (R209). The kinds are numbered as R213 gives. -/
def Obligations.NoticesMerge : Prop :=
  ∀ (s : State) (e : Summary),
    (s.link.mask.getLsbD e.kind = false → s.raise e = s) ∧
    (s.link.mask.getLsbD e.kind = true → (∀ n ∈ s.link.notices, n.summary.kind ≠ e.kind) →
      s.raise e = { s with link := { s.link with notices := s.link.notices ++ [{ since := s.now, summary := e }] } }) ∧
    (∀ (front back : List Notice) (n : Notice), s.link.mask.getLsbD e.kind = true →
      s.link.notices = front ++ n :: back → (∀ m ∈ front, m.summary.kind ≠ e.kind) → n.summary.kind = e.kind →
        s.raise e = { s with link := { s.link with
          notices := front ++ { since := n.since, summary := n.summary.merge e } :: back } }) ∧
    (∀ tag admitted skipped arrived blocked faulted stopped c t a k r b f p d : Nat,
      Summary.merge (.batchClosed tag admitted skipped arrived blocked faulted stopped c)
        (.batchClosed t a k r b f p d) = .batchClosed t a k r b f p (min (c + d) 65535)) ∧
    (∀ c d l m : Nat,
      Summary.merge (.robotFaulted c l) (.robotFaulted d m) = .robotFaulted (min (c + d) 65535) (min l m) ∧
      Summary.merge (.robotRetired c l) (.robotRetired d m) = .robotRetired (min (c + d) 65535) (min l m) ∧
      Summary.merge (.zoneContested c l) (.zoneContested d m) = .zoneContested (min (c + d) 65535) (min l m)) ∧
    (∀ (c d : Nat) (x y : Byte) (old new : HaltReason),
      Summary.merge (.lineDown x) (.lineDown y) = .lineDown (x ||| y) ∧
      Summary.merge (.stopTaken c x) (.stopTaken d y) = .stopTaken (min (c + d) 65535) (x ||| y) ∧
      Summary.merge (.planHalted c old) (.planHalted d new) = .planHalted (min (c + d) 65535) new ∧
      Summary.merge (.linkError c x) (.linkError d y) = .linkError (min (c + d) 65535) (x ||| y)) ∧
    (∀ (t a k r b f st c n : Nat) (x : Byte) (reason : HaltReason),
      [Summary.batchClosed t a k r b f st c, .robotFaulted c n, .robotRetired c n, .zoneContested c n, .lineDown x,
        .stopTaken c x, .planHalted c reason, .linkError c x].map Summary.kind = List.range 8)

/-! ## Control requests -/

/-- An answer that finds a place changes nothing but the output queue: its frame stands at the back, and with the
queue empty before, its sending begins with the plan free count of that moment (R194, R199; log 10).
The six reads, on a block at rest with a place free, change nothing but the output queue: OK with the record, or
BAD_REQUEST for a number out of range (R37, R55, R75, R94, R166, R207).
What each read's payload is, field by field in the order of its rule: READ_SLOT (R37), READ_TARGETS (R55), READ_ZONE
with the occupancy of each robot's own side box at its present position (R75), READ_WAITLIST with up to 30 entries
from the index (R94), READ_LINE (R166), READ_SEGMENT (R207) with the batch record (R97). That the held-units entries
of READ_LINE keep the order of joining and its slots stand ascending is the model's choice (log 37).
How a field is sent: a number most significant byte first in one, two, four or six bytes, a time in its low six bytes
(log 5), an optional field and a list, and the number of each named value and status (R213). The presence bytes of
fields and groups, the presence byte 1, and the widths and forms that R213 does not give, are the model's reading (log
13). -/
def Obligations.ReadsAnswered : Prop :=
  (∀ (s : State) (tag code : Byte) (st : Status) (p : List Byte),
     s.OnlySends (s.answered tag code st p) ∧
       (s.answered tag code st p).link.output =
         if s.link.output = [] then
           [{ isNotice := false, tag := tag, code := code, status := st.byte, payload := p,
              planFree := some (32 - s.link.plan.length) }]
         else s.link.output ++
           [{ isNotice := false, tag := tag, code := code, status := st.byte, payload := p, planFree := none }]) ∧
  (∀ (s : State) (tag : Byte), s.ready = true →
     (∀ slot : Byte, exec (.readSlot tag slot) s =
       .next (if slot.toNat ≤ 127 then s.answered tag 0x40 .ok ((s.slot slot.toNat).bytes slot.toNat)
         else s.answered tag 0x40 .badRequest [])) ∧
     (∀ slot : Byte, exec (.readTargets tag slot) s =
       .next (if slot.toNat ≤ 127 then s.answered tag 0x41 .ok (s.slot slot.toNat).targetBytes
         else s.answered tag 0x41 .badRequest [])) ∧
     (∀ zone : Word, exec (.readZone tag zone) s =
       .next (if zone.toNat ≤ 383 then s.answered tag 0x42 .ok (s.zoneBytes zone.toNat)
         else s.answered tag 0x42 .badRequest [])) ∧
     (∀ index : Byte, exec (.readWaitlist tag index) s =
       .next (if index.toNat ≤ 127 then s.answered tag 0x43 .ok (s.waitListBytes index.toNat)
         else s.answered tag 0x43 .badRequest [])) ∧
     (∀ line : Byte, exec (.readLine tag line) s =
       .next (if line.toNat ≤ 7 then s.answered tag 0x44 .ok (s.lineBytes line.toNat)
         else s.answered tag 0x44 .badRequest [])) ∧
     exec (.readSegment tag) s = .next (s.answered tag 0x45 .ok s.segmentBytes)) ∧
  (∀ (r : SlotRec) (n : Nat), r.bytes n =
     b1 n ++ b1 r.state.code ++
       (bOpt 1 (r.addr.map fun a => b1 a.line) ++ bOpt 1 (r.addr.map fun a => b1 a.drop) ++
         bOpt 2 (r.cal.map fun c => b2 c.alphaMax) ++ bOpt 2 (r.cal.map fun c => b2 c.betaFold) ++
         bOpt 2 (r.cal.map fun c => b2 c.betaMax)) ++
       bOpt 4 (r.expectedSerial.map b4) ++
       bOpt 11 (r.identity.map fun i =>
         b4 i.serial ++ b2 i.revision ++ b2 i.alphaSpeed ++ b2 i.betaSpeed ++ b1 i.pages) ++
       bOpt 5 (r.position.map fun p => b2 p.alpha ++ b2 p.beta ++ b1 p.source.code) ++
       bList (r.zones.map b2) ++ bList (r.targets.map fun t => b2 t.tag) ++
       bOpt 14 (r.leg.map fun g =>
         b1 g.kind.code ++ b1 g.axes.code ++ b1 g.stage.code ++ b2 g.finish.alpha ++ b2 g.finish.beta ++
           bOpt 6 (g.deadline.map b6)) ++
       bList (r.remaining.map fun l => b1 l.kind.code) ++
       bOpt 1 (r.recoveryReturn.map fun t => b1 t.toState.code) ++ bBool r.batchFlag ++ r.outcome.bytes ++
       bOpt 7 (r.fault.map fun f => b1 f.kind.code ++ b6 f.time) ++ b2 r.faultCount ++
       bOpt 1 (r.retireReason.map fun x => b1 x.code)) ∧
  (∀ r : SlotRec, r.targetBytes =
     bList (r.targets.map fun t => b2 t.tag ++ b2 t.alpha ++ b2 t.beta ++ b1 t.cls ++ bBool t.pinned)) ∧
  ((∀ (s : State) (z : Nat),
      (s.zone z = none → s.zoneBytes z = b2 z ++ b1 4) ∧
      ∀ r, s.zone z = some r →
        let box : Box → List Byte := fun x => b2 x.alphaLow ++ b2 x.alphaHigh ++ b2 x.betaLow ++ b2 x.betaHigh
        let occupies : Nat → Nat := fun n =>
          let own := if r.lower = n then r.lowerBox else r.higherBox
          match (s.slot n).position with
          | none => 2
          | some p =>
            if own.alphaLow ≤ p.alpha ∧ p.alpha ≤ own.alphaHigh ∧ own.betaLow ≤ p.beta ∧ p.beta ≤ own.betaHigh then 1
            else 0
        s.zoneBytes z =
          b2 z ++ b1 r.status.code ++ b1 r.lower ++ box r.lowerBox ++ b1 r.higher ++ box r.higherBox ++
            r.partyBytes ++ b1 (occupies r.lower) ++ b1 (occupies r.higher) ++
            bList (((s.waitList.filter fun e => decide (z ∈ e.wanted)).map fun e => b1 e.slot))) ∧
   (∀ r : ZoneRec,
      let slot : Side → Nat := fun x => if x = .lower then r.lower else r.higher
      let other : Side → Nat := fun x => if x = .lower then r.higher else r.lower
      let shows : Nat → List Byte → List Byte → Prop := fun code holder intruder =>
        b1 r.status.code = b1 code ∧ r.partyBytes = holder ++ intruder
      (r.status = .free → shows 0 [0, 0] [0, 0]) ∧
      (∀ h, r.status = .held h → shows 1 (1 :: b1 (slot h)) [0, 0]) ∧
      (∀ h, r.status = .contested h → shows 2 (1 :: b1 (slot h)) (1 :: b1 (other h))) ∧
      (∀ h, r.status = .fenced h false → shows 3 (1 :: b1 (slot h)) [0, 0]) ∧
      (∀ h, r.status = .fenced h true → shows 3 (1 :: b1 (slot h)) (1 :: b1 (other h))))) ∧
  (∀ (s : State) (index z : Nat),
     s.waitListBytes index =
       b2 s.waitList.length ++ b2 s.settings.claimTimeout ++
         bList ((((s.waitList.drop index).take 30).zipIdx index).map fun x =>
           b2 x.2 ++ b1 x.1.slot ++ b1 x.1.cls ++ b6 x.1.entryTime ++ b6 x.1.deadline ++
             bList (x.1.wanted.map s.wantedBytes)) ∧
     s.wantedBytes z =
       match s.zone z with
       | none => b2 z ++ b1 4 ++ [0, 0]
       | some r =>
         b2 z ++ b1 r.status.code ++
           match r.status with
           | .held h => 1 :: b1 (if h = .lower then r.lower else r.higher)
           | .free => [0, 0]
           | .contested _ => [0, 0]
           | .fenced _ _ => [0, 0]) ∧
  (∀ (s : State) (l : Nat),
     let r := s.line l
     let on := (List.range 128).filter fun n =>
       decide ((s.slot n).state ≠ .vacant ∧ (s.slot n).addr.map BusAddr.line = some l)
     s.lineBytes l =
       b1 l ++ b1 r.state.code ++
         bList (r.urgent.map fun f =>
           match f with
           | .halt d => [3, 1] ++ b1 d
           | .haltAll => [4, 0, 0]) ++
         bList (r.normal.map fun f =>
           b1 f.body.code ++ b1 f.drop ++ b1 f.slot ++
             match f.body with
             | .go _ _ _ _ kind => 1 :: b1 kind.code
             | .ask => [0, 0]
             | .halt => [0, 0]
             | .page _ => [0, 0]
             | .setCount _ _ => [0, 0]) ++
         bOpt 3 (r.txn.map fun t => b1 t.frame.body.code ++ b1 t.frame.drop ++ b1 t.attempt.number) ++
         bList (r.failureRun.map b1) ++ bBool r.pollTurn ++ bOpt 1 (r.pollCursor.map b1) ++
         bList (on.map fun n =>
           b1 (s.slot n).dropNo ++ bOpt 6 ((r.lastAskOf n).map b6) ++ bBool (s.pollDue l n)) ++
         bList ((s.gate.startQueue.zipIdx.filter fun x => decide (x.1.slot ∈ on)).map fun x =>
           b2 x.2 ++ b1 x.1.slot ++ b1 x.1.kind.code ++ b1 x.1.units ++ b1 x.1.cls ++ b6 x.1.entryTime) ++
         bList ((s.gate.heldUnits.filter fun h => decide (h.slot ∈ on)).map fun h =>
           b1 h.slot ++ b1 h.units ++ b6 h.deadline) ++
         bOpt 3 (r.lastRefusal.map fun x => b1 x.drop ++ b1 x.kind ++ b1 x.reason)) ∧
  (∀ s : State,
     let slots : RobotState → Nat := fun st => ((List.range 128).filter fun n => decide ((s.slot n).state = st)).length
     let zones : Nat → Nat := fun code =>
       ((List.range 384).filter fun z => decide ((s.zone z).map (fun r => r.status.code) = some code)).length
     s.segmentBytes =
       (b1 s.pins.segment.val ++ bBool s.pins.hold ++ b6 s.now ++ bBool s.pins.stop ++ bBool s.pins.inhibit ++
         bBool s.pins.stop ++ bBool (decide (0 < s.gate.unitsInUse))) ++
       (b1 s.gate.budget ++ b1 s.gate.unitsInUse ++ b2 s.gate.startQueue.length ++ b2 s.gate.heldUnits.length ++
         b1 (s.gate.heldUnits.map HeldUnits.units).sum ++ b2 s.waitList.length) ++
       s.batch.bytes ++
       (b2 s.settings.claimTimeout ++ b2 s.settings.settleAllowance ++ b1 s.settings.faultLimit) ++
       (((List.range 8).map fun l => b1 (s.line l).state.code).flatten ++
         (b2 (slots .vacant) ++ b2 (slots .defined) ++ b2 (slots .probing) ++ b2 (slots .rest) ++
           b2 (slots .waiting) ++ b2 (slots .moving) ++ b2 (slots .held) ++ b2 (slots .faulted) ++
           b2 (slots .retired)) ++
         (b2 (zones 0) ++ b2 (zones 1) ++ b2 (zones 2) ++ b2 (zones 3))) ++
       (b1 (if s.link.halt = none then 0 else 1) ++ bOpt 1 (s.link.halt.map fun x => b1 x.code) ++
         b2 s.link.plan.length ++ b2 s.link.assembly.length ++
         bOpt 3 (s.link.current.map fun c => [c.code] ++ b2 c.tag.toNat) ++
         bBool (decide (s.link.waitingAnswer ≠ none)) ++ b2 s.link.control.length ++ b2 s.link.output.length ++
         [s.link.mask] ++ [s.pendingKinds]) ∧
     ∀ k, k < 8 → (s.pendingKinds.getLsbD k = true ↔ ∃ m ∈ s.link.notices, m.summary.kind = k)) ∧
  (∀ (b : BatchRec) (close : Nat),
     let record : Nat → List Byte → List Byte := fun state closed =>
       (1 :: b2 b.tag) ++ b1 state ++ (1 :: b2 b.admitted) ++ (1 :: b2 b.skipped) ++ (1 :: b2 b.arrived) ++
         (1 :: b2 b.blocked) ++ (1 :: b2 b.faulted) ++ (1 :: b2 b.stopped) ++ (1 :: b6 b.openTime) ++ closed
     Batch.none.bytes = List.replicate 3 0 ++ b1 0 ++ List.replicate 32 0 ∧
     (Batch.opened b).bytes = record 1 (List.replicate 7 0) ∧ (Batch.closed b close).bytes = record 2 (1 :: b6 close)) ∧
  ((∀ n : Nat, b1 n = [BitVec.ofNat 8 n] ∧ b2 n = [BitVec.ofNat 8 (n / 256), BitVec.ofNat 8 n] ∧
      b6 n = [BitVec.ofNat 8 (n / 2 ^ 40), BitVec.ofNat 8 (n / 2 ^ 32), BitVec.ofNat 8 (n / 2 ^ 24),
        BitVec.ofNat 8 (n / 2 ^ 16), BitVec.ofNat 8 (n / 2 ^ 8), BitVec.ofNat 8 n]) ∧
   (∀ v : Serial, b4 v = [v.extractLsb' 24 8, v.extractLsb' 16 8, v.extractLsb' 8 8, v.extractLsb' 0 8]) ∧
   (bBool false = [0] ∧ bBool true = [1]) ∧
   (∀ (width : Nat) (field : List Byte),
      bOpt width none = 0 :: List.replicate width 0 ∧ bOpt width (some field) = 1 :: field) ∧
   (∀ entries : List (List Byte), bList entries = BitVec.ofNat 8 entries.length :: entries.flatten)) ∧
  ([RobotState.vacant, .defined, .probing, .rest, .waiting, .moving, .held, .faulted, .retired].map RobotState.code =
     [0, 1, 2, 3, 4, 5, 6, 7, 8] ∧
   [ReturnState.rest, .held, .faulted].map ReturnState.toState = [.rest, .held, .faulted] ∧
   [PosSource.reported, .loaded, .measuredOnly].map PosSource.code = [0, 1, 2] ∧
   [RobotOutcome.none, .arrived, .blocked .fenced, .blocked .contested, .blocked .claimTimeout, .blocked .lineDown,
     .faulted, .stopped].map RobotOutcome.bytes =
       [[0, 0, 0], [1, 0, 0], [2, 1, 0], [2, 1, 1], [2, 1, 2], [2, 1, 3], [3, 0, 0], [4, 0, 0]] ∧
   [FaultKind.none, .stall, .overdue, .noAnswer, .refused, .lineDown, .wrongRobot, .badPages].map FaultKind.code =
     [0, 1, 2, 3, 4, 5, 6, 7] ∧
   (ProbeFailure.silent.code = 8 ∧ ∀ k, (ProbeFailure.fault k).code = k.code) ∧
   [RetireReason.byRequest, .faultLimit].map RetireReason.code = [0, 1] ∧
   [LegKind.fold, .swing, .extend, .direct, .recover].map LegKind.code = [0, 1, 2, 3, 4] ∧
   [Axes.alpha, .beta, .both].map Axes.code = [0, 1, 2] ∧
   [Stage.claiming, .queued, .issued, .running, .stopping, .lapsing].map Stage.code = [0, 1, 2, 3, 4, 5] ∧
   [LineState.up, .down, .silent].map LineState.code = [0, 1, 2] ∧
   [HaltReason.crc, .overflow, .tooLong].map HaltReason.code = [0, 1, 2] ∧
   [Attempt.first, .second].map Attempt.number = [1, 2] ∧
   [FrameBody.ask, .halt, .page 0, .setCount 0 0].map FrameBody.code = [2, 3, 5, 6] ∧
   (∀ axes a b speed kind, (FrameBody.go axes a b speed kind).code = 1) ∧
   (∀ n a b, (FrameBody.page n).code = 5 ∧ (FrameBody.setCount a b).code = 6) ∧
   (∀ st : Status, st.byte = BitVec.ofNat 8 st.code) ∧
   [Status.ok, .part, .nothing, .busy, .halted, .state, .stopped, .cancelled, .reset, .faulted, .badRequest,
     .wrongSegment, .noRobot, .inUse, .already, .inZone, .zoneLimit, .zoneBounds, .duplicate, .outOfRange,
     .unreachable, .pinned, .targetsFull, .budget].map Status.code = List.range 24)

/-- RESUME, in both forms: STOPPED while stop is in force; for all, NOTHING with no robot HELD and otherwise every
HELD robot to REST with their number; for one slot the checks in order, and the HELD slot to REST. No field but the
state changes (R30; that STOPPED is tested first is log 20). -/
def Obligations.Resume : Prop :=
  (∀ (s : State) (tag slot : Byte), s.ready = true →
     exec (.resume tag slot) s = .next (
       if s.pins.stop = true then s.answered tag 0x51 .stopped []
       else if slot = 255 then
         if s.countState .held = 0 then s.answered tag 0x51 .nothing []
         else (s.mapSlots fun r => { r with state := if r.state = .held then .rest else r.state }).answered tag 0x51 .ok
           (b2 (s.countState .held))
       else if 127 < slot.toNat then s.answered tag 0x51 .badRequest []
       else if (s.slot slot.toNat).state = .vacant then s.answered tag 0x51 .noRobot []
       else if (s.slot slot.toNat).state ≠ .held then s.answered tag 0x51 .state []
       else (s.modSlot slot.toNat fun r => { r with state := .rest }).answered tag 0x51 .ok [])) ∧
  (∀ (s : State) (st : RobotState),
     s.countState st = ((List.range 128).filter fun n => decide ((s.slot n).state = st)).length)

/-- SET_BUDGET: the two refusals in order; accepted, the budget is written and answered with the units in use. With
no leg queued nothing else changes; with legs queued a raised budget's scan keeps the new budget, and the units in use
stay within it (R133, R131, R125). That the answer gives the units in use of before that scan is the model's choice
(log 11). -/
def Obligations.SetBudget : Prop :=
  ∀ (s : State) (tag units : Byte), s.ready = true →
    (units.toNat < 2 ∨ 128 < units.toNat → exec (.setBudget tag units) s = .next (s.answered tag 0x52 .badRequest [])) ∧
    (2 ≤ units.toNat → units.toNat ≤ 128 → units.toNat < s.gate.unitsInUse →
      exec (.setBudget tag units) s = .next (s.answered tag 0x52 .budget [])) ∧
    (2 ≤ units.toNat → units.toNat ≤ 128 → s.gate.unitsInUse ≤ units.toNat →
      (s.gate.startQueue = [] ∨ units.toNat ≤ s.gate.budget →
        exec (.setBudget tag units) s =
          .next (({ s with gate := { s.gate with budget := units.toNat } } : State).answered tag 0x52 .ok
            [units, BitVec.ofNat 8 s.gate.unitsInUse])) ∧
      ∃ t, exec (.setBudget tag units) s = .next t ∧ t.gate.budget = units.toNat ∧
        t.gate.unitsInUse ≤ units.toNat ∧
        (s.answered tag 0x52 .ok [units, BitVec.ofNat 8 s.gate.unitsInUse]).link.output <+: t.link.output)

/-- RELEASE: NOTHING with no line SILENT, and then nothing else changes; otherwise every SILENT line is UP with an
empty failure run, no other line's state changes, and the answer is OK with the set of lines released (R139).
RESET_LINE: BAD_REQUEST above 7; STATE on a SILENT line; on an UP line the failure run is emptied and nothing else
changes; a DOWN line becomes UP with an empty failure run, no other line's state or failure run changing, and the
answer gives the state the line had (R164, R162). -/
def Obligations.LinesReleased : Prop :=
  (∀ (s : State) (tag : Byte), s.ready = true →
     ((∀ l, l < 8 → (s.line l).state ≠ .silent) → exec (.release tag) s = .next (s.answered tag 0x53 .nothing [])) ∧
     ((∃ l, l < 8 ∧ (s.line l).state = .silent) →
       ∃ t, exec (.release tag) s = .next t ∧
         (s.answered tag 0x53 .ok [lineSet s.silentLines]).link.output <+: t.link.output ∧
         t.pins = s.pins ∧ t.gate.budget = s.gate.budget ∧
         ∀ l, l < 8 →
           ((s.line l).state = .silent → (t.line l).state = .up ∧ (t.line l).failureRun = []) ∧
           ((s.line l).state ≠ .silent →
             (t.line l).state = (s.line l).state ∧ (t.line l).failureRun = (s.line l).failureRun))) ∧
  (∀ (s : State) (tag line : Byte), s.ready = true →
     (7 < line.toNat → exec (.resetLine tag line) s = .next (s.answered tag 0x54 .badRequest [])) ∧
     (line.toNat ≤ 7 → (s.line line.toNat).state = .silent →
       exec (.resetLine tag line) s = .next (s.answered tag 0x54 .state [])) ∧
     (line.toNat ≤ 7 → (s.line line.toNat).state = .up →
       exec (.resetLine tag line) s =
         .next ((s.modLine line.toNat fun r => { r with failureRun := [] }).answered tag 0x54 .ok [0])) ∧
     (line.toNat ≤ 7 → (s.line line.toNat).state = .down →
       ∃ t, exec (.resetLine tag line) s = .next t ∧
         (s.answered tag 0x54 .ok [1]).link.output <+: t.link.output ∧
         (t.line line.toNat).state = .up ∧ (t.line line.toNat).failureRun = [] ∧ t.gate.budget = s.gate.budget ∧
         ∀ l, l ≠ line.toNat →
           (t.line l).state = (s.line l).state ∧ (t.line l).failureRun = (s.line l).failureRun)) ∧
  (∀ (s : State) (l : Nat), l < 8 → ((lineSet s.silentLines).getLsbD l = true ↔ (s.line l).state = .silent))

/-- SET_TIMING: a field out of range refuses the whole request; otherwise each field that is not 0 replaces its
setting, each 0 leaves it, and the answer gives the three settings. Nothing else changes, deadlines that run included
(R206, R93, R122, R12).
SET_NOTICES writes the mask and answers with the mask replaced and the mask now in force; taken under its own
rule it clears the pending notices of the masked kinds and keeps the others (R211). -/
def Obligations.SettingsWritten : Prop :=
  (∀ (s : State) (tag : Byte) (c e : Word) (f : Byte), s.ready = true →
     exec (.setTiming tag c e f) s = .next (
       if (c.toNat = 0 ∨ c.toNat ≤ 600) ∧ (e.toNat = 0 ∨ (100 ≤ e.toNat ∧ e.toNat ≤ 10000)) ∧
           (f.toNat = 0 ∨ f.toNat ≤ 7) then
         ({ s with settings :=
           { claimTimeout := if c.toNat = 0 then s.settings.claimTimeout else c.toNat
             settleAllowance := if e.toNat = 0 then s.settings.settleAllowance else e.toNat
             faultLimit := if f.toNat = 0 then s.settings.faultLimit else f.toNat } } : State).answered tag 0x58 .ok
           (b2 (if c.toNat = 0 then s.settings.claimTimeout else c.toNat) ++
             b2 (if e.toNat = 0 then s.settings.settleAllowance else e.toNat) ++
             b1 (if f.toNat = 0 then s.settings.faultLimit else f.toNat))
       else s.answered tag 0x58 .badRequest [])) ∧
  (∀ (s : State) (tag mask : Byte),
     (s.ready = true → exec (.setNotices tag mask) s =
       .next (({ s with link := { s.link with mask := mask } } : State).answered tag 0x59 .ok [s.link.mask, mask])) ∧
     (s.takeSetNotices tag mask).link.mask = mask ∧
     (s.takeSetNotices tag mask).link.notices = s.link.notices.filter fun n => mask.getLsbD n.summary.kind)

/-- CANCEL by the current request: NOTHING with none; AWAIT_BATCH is answered CANCELLED and ends; PROBE and
MEASURE_LIST are marked; a RECOVER whose leg is not QUEUED is not reached; a RECOVER whose leg is QUEUED, here the
only one in the start queue, loses it, and its robot goes back to its recovery return state (R204, R118, R189, R19).
CANCEL's answer comes first (log 11); that it gives the current request's tag in two bytes is the model's reading of
R213 (log 13). -/
def Obligations.Cancel : Prop :=
  (∀ (s : State) (tag : Byte), s.ready = true →
     (s.link.current = none → exec (.cancel tag) s = .next (s.answered tag 0x5A .nothing [])) ∧
     (∀ c : Current, s.link.current = some c →
       (c.work = .awaitBatch → s.link.output.length + 2 ≤ 16 → s.link.plan = [] →
         exec (.cancel tag) s =
           .next ((({ s with link := { s.link with current := none } } : State).answered tag 0x5A .ok
             ([c.code] ++ b2 c.tag.toNat ++ [2])).answered c.tag c.code .cancelled [])) ∧
       (∀ p, c.work = .probe p →
         exec (.cancel tag) s =
           .next (({ s with link := s.link.doing { c with work := .probe { p with cancelled := true } } } :
             State).answered tag 0x5A .ok ([c.code] ++ b2 c.tag.toNat ++ [1]))) ∧
       (∀ m, c.work = .measure m →
         exec (.cancel tag) s =
           .next (({ s with link := s.link.doing { c with work := .measure { m with cancelled := true } } } :
             State).answered tag 0x5A .ok ([c.code] ++ b2 c.tag.toNat ++ [1]))) ∧
       (∀ n, c.work = .recover n → s.queuedLeg n = false →
         exec (.cancel tag) s = .next (s.answered tag 0x5A .ok ([c.code] ++ b2 c.tag.toNat ++ [0]))) ∧
       (∀ n t, c.work = .recover n → s.queuedLeg n = true → (s.slot n).recoveryReturn = some t →
         (∀ e ∈ s.gate.startQueue, e.slot = n) → s.link.output.length + 2 ≤ 16 → s.link.plan = [] →
         exec (.cancel tag) s =
           .next (((((s.modSlot n fun r => { r with leg := none, recoveryReturn := none, state := t.toState }).modGate
             fun g => { g with startQueue := [] }).modLink fun k => { k with current := none }).answered tag 0x5A .ok
               ([c.code] ++ b2 c.tag.toNat ++ [2])).answered c.tag c.code .cancelled [])))) ∧
  (∀ (s : State) (n : Nat), s.queuedLeg n = true ↔ ∃ g, (s.slot n).leg = some g ∧ g.stage = .queued) ∧
  [ReturnState.rest, .held, .faulted].map ReturnState.toState = [.rest, .held, .faulted]

/-- CLEAR_HALT: NOTHING on an OPEN channel; on a HALTED one the channel is OPEN and the answer gives the reason. With
the plan queue empty nothing else changes; with frames in it the answer still comes first (R202).
FLUSH discards the plan queue and the assembly and answers with their number, NOTHING for none; nothing else
changes. With the output queue empty the answer begins to be sent in this event, its plan free count that of the
plan queue already empty (R203, R194; that its sending begins then is the model's choice, log 10). -/
def Obligations.PlanChannelCleared : Prop :=
  (∀ (s : State) (tag : Byte), s.ready = true →
     (s.link.halt = none → exec (.clearHalt tag) s = .next (s.answered tag 0x5B .nothing [])) ∧
     (∀ r, s.link.halt = some r →
       (s.link.plan = [] →
         exec (.clearHalt tag) s =
           .next (({ s with link := { s.link with halt := none } } : State).answered tag 0x5B .ok
             [BitVec.ofNat 8 r.code])) ∧
       ∃ t, exec (.clearHalt tag) s = .next t ∧
         (s.answered tag 0x5B .ok [BitVec.ofNat 8 r.code]).link.output <+: t.link.output ∧ t.settings = s.settings ∧
         t.pins = s.pins)) ∧
  (∀ (s : State) (tag : Byte), s.ready = true →
     exec (.flush tag) s =
       .next (({ s with link := { s.link with plan := [], assembly := [] } } : State).answered tag 0x5C
         (if s.link.plan.length + s.link.assembly.length = 0 then .nothing else .ok)
         (b2 (s.link.plan.length + s.link.assembly.length))))

/-- RESET_SEGMENT: BUSY with a current request or a busy robot, one PROBING, WAITING or MOVING, and then nothing else
changes (R208, R22). Otherwise answered RESET with the budget it leaves: HELD becomes REST, targets, batch flags,
outcomes and fault counts are cleared (R39, R56), the batch is NONE (R124), the settings are the defaults (R96, R124),
the budget is 48 or the units in use (R141), the line queues, failure runs and poll turns are emptied (R168; that the
frames waiting for room go too is the model's choice, log 21), the plan queue, the assembly, the halt and the notices
are cleared and the mask enables all (R208); zones, pins, units and held units stay (R77, R141). Stated whole for a
segment with no line DOWN; with lines DOWN, they become UP and these hold as named. -/
def Obligations.ResetSegment : Prop :=
  (∀ (s : State) (tag : Byte), s.ready = true →
     ((s.link.current ≠ none ∨ ∃ n, n < 128 ∧ (s.slot n).busy = true) →
       exec (.resetSegment tag) s = .next (s.answered tag 0x5F .busy [])) ∧
     (s.link.current = none → (∀ n, n < 128 → (s.slot n).busy = false) →
       ((∀ l, l < 8 → (s.line l).state ≠ .down) →
         ∃ t : State, exec (.resetSegment tag) s =
             .next (t.answered tag 0x5F .reset (b1 (max 48 s.gate.unitsInUse))) ∧
           (∀ n, n < 128 → t.slot n =
             { s.slot n with
               state := if (s.slot n).state = .held then .rest else (s.slot n).state
               faultCount := 0, targets := [], batchFlag := false, outcome := .none }) ∧
           (∀ l, l < 8 → t.line l =
             { s.line l with urgent := [], normal := [], waiting := [], failureRun := [], pollTurn := false }) ∧
           t.batch = .none ∧ t.settings = { claimTimeout := 45, settleAllowance := 1500, faultLimit := 3 } ∧
           t.gate = { s.gate with budget := max 48 s.gate.unitsInUse } ∧
           t.link = { s.link with plan := [], assembly := [], halt := none, mask := 255, notices := [] } ∧
           t.zones = s.zones ∧ t.pins = s.pins ∧ t.waitList = s.waitList ∧ t.now = s.now) ∧
       ∃ t, exec (.resetSegment tag) s = .next t ∧ t.batch = .none ∧
         t.settings = { claimTimeout := 45, settleAllowance := 1500, faultLimit := 3 } ∧
         t.gate.budget = max 48 s.gate.unitsInUse ∧ t.link.mask = 255 ∧ t.link.halt = none ∧ t.pins = s.pins ∧
         ∀ l, l < 8 → (t.line l).failureRun = [] ∧
           (t.line l).state = if (s.line l).state = .down then .up else (s.line l).state)) ∧
  (∀ r : SlotRec, r.busy = true ↔ r.state ∈ [RobotState.probing, .waiting, .moving])

/-! ## Plan requests on the tables (02, 03, 04) -/

/-- The checks of DEFINE_SLOT in the order of R25, the first that fails refusing it with no record changed; and the
record of R26 written when all pass, nothing else changing. That the slot's last-ASK times stand in the line records is
the model's choice (log 35). -/
def Obligations.DefineSlot : Prop :=
  ∀ (s : State) (tag slot line drop : Byte) (alphaMax betaFold betaMax : Word) (given : Byte) (serial : Serial),
    s.planReady = true →
    exec (.defineSlot tag slot line drop alphaMax betaFold betaMax given serial) s = .next (
      if 127 < slot.toNat ∨ 7 < line.toNat ∨ 15 < drop.toNat then s.answered tag 0x10 .badRequest []
      else if alphaMax.toNat = 0 ∨ betaMax.toNat ≤ betaFold.toNat then s.answered tag 0x10 .badRequest []
      else if (s.slot slot.toNat).state ≠ .vacant then s.answered tag 0x10 .already []
      else if ∃ m ∈ slotNumbers, m ≠ slot.toNat ∧ (s.slot m).state ≠ .vacant ∧
          (s.slot m).addr = some { line := line.toNat, drop := drop.toNat } then s.answered tag 0x10 .inUse []
      else (s.setSlot slot.toNat
        { SlotRec.vacant with
          state := .defined
          addr := some { line := line.toNat, drop := drop.toNat }
          cal := some { alphaMax := alphaMax.toNat, betaFold := betaFold.toNat, betaMax := betaMax.toNat }
          expectedSerial := if given = 0 then none else some serial }).answered tag 0x10 .ok [])

/-- FORGET_SLOT: the checks of R27 in order, and otherwise every field of the slot as R14 gives for a VACANT one;
nothing else changes. That the slot's last-ASK time stands in its line's record is the model's choice (log 35). -/
def Obligations.ForgetSlot : Prop :=
  ∀ (s : State) (tag slot : Byte), s.planReady = true →
    exec (.forgetSlot tag slot) s = .next (
      if 127 < slot.toNat then s.answered tag 0x11 .badRequest []
      else if (s.slot slot.toNat).state = .vacant then s.answered tag 0x11 .noRobot []
      else if (s.slot slot.toNat).state ≠ .defined ∧ (s.slot slot.toNat).state ≠ .retired then
        s.answered tag 0x11 .state []
      else if (s.slot slot.toNat).zones ≠ [] then s.answered tag 0x11 .inZone []
      else (s.setSlot slot.toNat
        { state := .vacant, addr := none, cal := none, expectedSerial := none, identity := none, position := none
          zones := [], targets := [], leg := none, remaining := [], recoveryReturn := none, batchFlag := false
          outcome := .none, fault := none, faultCount := 0, retireReason := none }).answered tag 0x11 .ok [])

/-- RETIRE: the refusals of R29 in order; otherwise answered OK, and with no claim waiting and no leg in the slot, the
slot is RETIRED by request with no targets and no remaining legs, its zones change as R72 and R73 give, and no other
record changes but the link's (R28, R29). A LAPSING leg, here with no claim waiting and no leg queued, is ended
besides: its units go to the held-units list with its deadline, or come back at once (log 38) when that has passed
(R28, R126). That the new entry joins at the back of the list is the model's choice (log 37), as is that an entry the
slot still had there leaves in the same event, its units coming back (log 24). -/
def Obligations.Retire : Prop :=
  ∀ (s : State) (tag slot : Byte), s.planReady = true →
    (127 < slot.toNat → exec (.retire tag slot) s = .next (s.answered tag 0x12 .badRequest [])) ∧
    (slot.toNat ≤ 127 → (s.slot slot.toNat).state = .vacant →
      exec (.retire tag slot) s = .next (s.answered tag 0x12 .noRobot [])) ∧
    (slot.toNat ≤ 127 → (s.slot slot.toNat).state ∈ [RobotState.probing, .waiting, .moving, .retired] →
      exec (.retire tag slot) s = .next (s.answered tag 0x12 .state [])) ∧
    (slot.toNat ≤ 127 → (s.slot slot.toNat).state ∈ [RobotState.rest, .held, .faulted, .defined] →
      s.waitList = [] → (s.slot slot.toNat).leg = none →
      ∃ t, exec (.retire tag slot) s = .next t ∧
        (s.answered tag 0x12 .ok []).link.output <+: t.link.output ∧
        State.SameRecords ((s.modSlot slot.toNat fun r =>
            { r with state := .retired, retireReason := some .byRequest, targets := [], remaining := [] }).writeZones
          (s.retireChanges slot.toNat)) t) ∧
    (∀ g d, slot.toNat ≤ 127 → (s.slot slot.toNat).state = .faulted → s.waitList = [] → s.gate.startQueue = [] →
      (s.slot slot.toNat).leg = some g → g.stage = .lapsing → g.deadline = some d →
      ∃ t, exec (.retire tag slot) s = .next t ∧
        (s.answered tag 0x12 .ok []).link.output <+: t.link.output ∧
        State.SameRecords { (s.modSlot slot.toNat fun r =>
            { r with state := .retired, retireReason := some .byRequest, targets := [], remaining := []
                     leg := none }).writeZones (s.retireChanges slot.toNat) with
          gate :=
            if s.now < d then
              { s.gate with
                heldUnits := (s.gate.heldUnits.filter fun h => decide (h.slot ≠ slot.toNat)) ++
                  [{ slot := slot.toNat, units := g.units, deadline := d }]
                unitsInUse := (s.gate.heldUnits.filter fun h => decide (h.slot = slot.toNat)).foldl
                  (fun u h => u - h.units) s.gate.unitsInUse }
            else { s.gate with unitsInUse := s.gate.unitsInUse - g.units } } t)

/-- The entries of an ASSIGN_LIST are applied in order up to the first that fails a check; an entry that passes is
written before the next one is checked, so each is checked against the records its predecessors left; the first that
fails and those behind it are not applied (R47, R50).
ASSIGN_LIST of up to 256 entries: BAD_REQUEST for none or more than 128; OK with the number when every entry was
applied; PARTIAL with the number applied, the index and the reason otherwise (R47, R50; that the reason is the status
code is log 13). Nothing but the targets of the slots named changes.
The checks of an entry in the order of R48, and what an entry that passes writes: in place of the target of its tag,
or behind those held, unpinned (R48, R49). A target of a beta count not below beta_fold is unreachable exactly when
its extension box, from beta_fold to its beta count at its alpha count, shares a count in both ranges, bounds
included, with the robot's own side box of a zone in its zone list that is FENCED with the other robot as holder (R8,
R9, R51). -/
def Obligations.AssignList : Prop :=
  (∀ (s : State) (k : Nat) (entries : List AssignEntry),
     (∀ t m, assignAll s k entries = (t, m, none) → m = k + entries.length) ∧
     (∀ t m st, assignAll s k entries = (t, m, some st) →
       k ≤ m ∧ m < k + entries.length ∧ assignAll s k (entries.take (m - k)) = (t, m, none) ∧
         ∃ e, entries[m - k]? = some e ∧ t.assignCheck e = some st) ∧
     assignAll s k [] = (s, k, none) ∧
     ∀ e rest,
       (s.assignCheck e = none → assignAll s k (e :: rest) = assignAll (s.assign e) (k + 1) rest) ∧
       ∀ st, s.assignCheck e = some st → assignAll s k (e :: rest) = (s, k, some st)) ∧
  (∀ (s : State) (tag : Byte) (entries : List AssignEntry), s.planReady = true → entries.length ≤ 256 →
     exec (.assignList tag entries) s = .next (
       if entries = [] ∨ 128 < entries.length then s.answered tag 0x18 .badRequest []
       else match assignAll s 0 entries with
         | (t, m, none) => t.answered tag 0x18 .ok (b2 m)
         | (t, m, some st) => t.answered tag 0x18 .part (b2 m ++ b2 m ++ b1 st.code)) ∧
     (∀ k t m o, assignAll s k entries = (t, m, o) →
       (∃ v, t = { s with slots := v }) ∧
         ∀ n, (∃ ts, t.slot n = { s.slot n with targets := ts }) ∧
           ((∀ e ∈ entries, e.slot.toNat ≠ n) → t.slot n = s.slot n))) ∧
  (∀ (s : State) (e : AssignEntry),
     s.assignCheck e = (
       if 127 < e.slot.toNat then some .badRequest
       else if (s.slot e.slot.toNat).state = .vacant ∨ (s.slot e.slot.toNat).state = .retired then some .noRobot
       else if e.tag.toNat = 0 ∨ 4095 < e.tag.toNat ∨ 3 < e.cls.toNat then some .badRequest
       else if ¬ (e.alpha.toNat ≤ (s.slot e.slot.toNat).calib.alphaMax ∧
           (s.slot e.slot.toNat).calib.betaFold ≤ e.beta.toNat ∧
           e.beta.toNat ≤ (s.slot e.slot.toNat).calib.betaMax) then some .outOfRange
       else if ∃ t ∈ (s.slot e.slot.toNat).targets, t.tag = e.tag.toNat ∧ t.pinned = true then some .pinned
       else if (∀ t ∈ (s.slot e.slot.toNat).targets, t.tag ≠ e.tag.toNat) ∧
           2 ≤ (s.slot e.slot.toNat).targets.length then some .targetsFull
       else if s.reachable e.slot.toNat e.alpha.toNat e.beta.toNat = false then some .unreachable
       else none) ∧
     (s.assignCheck e = none →
       (s.assign e).slot e.slot.toNat =
         { s.slot e.slot.toNat with targets :=
           if ∃ t ∈ (s.slot e.slot.toNat).targets, t.tag = e.tag.toNat then
             (s.slot e.slot.toNat).targets.map fun t => if t.tag = e.tag.toNat then targetOf e else t
           else (s.slot e.slot.toNat).targets ++ [targetOf e] } ∧
       targetOf e =
         { tag := e.tag.toNat, alpha := e.alpha.toNat, beta := e.beta.toNat, cls := e.cls.toNat, pinned := false } ∧
       ∀ n, n ≠ e.slot.toNat → (s.assign e).slot n = s.slot n)) ∧
  (∀ (s : State) (n alpha beta : Nat), (s.slot n).calib.betaFold ≤ beta →
     (s.reachable n alpha beta = false ↔
       ∃ z ∈ (s.slot n).zones, ∃ r i, s.zone z = some r ∧
         r.status = .fenced (if r.lower = n then .higher else .lower) i ∧
         let own := if r.lower = n then r.lowerBox else r.higherBox
         own.alphaLow ≤ alpha ∧ alpha ≤ own.alphaHigh ∧ own.betaLow ≤ beta ∧ (s.slot n).calib.betaFold ≤ own.betaHigh))

/-- CLEAR_TARGET: the checks of R52 in order, and otherwise the one target leaves the slot; nothing else changes.
DROP_TARGETS: BAD_REQUEST above 4095, BUSY for the OPEN batch's tag, otherwise every target of the tag leaves every
slot, or for tag 0 every unpinned one, and the answer counts those removed over all slots (R53). -/
def Obligations.TargetsRemoved : Prop :=
  (∀ (s : State) (tag : Byte), s.planReady = true →
     (∀ (slot : Byte) (cfgTag : Word),
       exec (.clearTarget tag slot cfgTag) s = .next (
         if 127 < slot.toNat ∨ cfgTag.toNat = 0 ∨ 4095 < cfgTag.toNat then s.answered tag 0x19 .badRequest []
         else if (s.slot slot.toNat).state = .vacant then s.answered tag 0x19 .noRobot []
         else if ∀ t ∈ (s.slot slot.toNat).targets, t.tag ≠ cfgTag.toNat then s.answered tag 0x19 .nothing []
         else if ∃ t ∈ (s.slot slot.toNat).targets, t.tag = cfgTag.toNat ∧ t.pinned = true then
           s.answered tag 0x19 .pinned []
         else (s.modSlot slot.toNat fun r =>
           { r with targets := r.targets.filter fun t => decide (t.tag ≠ cfgTag.toNat) }).answered tag 0x19 .ok [])) ∧
     (∀ cfgTag : Word,
       exec (.dropTargets tag cfgTag) s = .next (
         if 4095 < cfgTag.toNat then s.answered tag 0x1A .badRequest []
         else if s.batch.openTag = some cfgTag.toNat then s.answered tag 0x1A .busy []
         else (s.mapSlots fun r =>
             { r with targets := r.targets.filter fun t =>
               if cfgTag.toNat = 0 then t.pinned else decide (t.tag ≠ cfgTag.toNat) }).answered tag 0x1A
           (if s.dropCount cfgTag.toNat = 0 then .nothing else .ok) (b2 (s.dropCount cfgTag.toNat))))) ∧
  (∀ (s : State) (tag : Nat),
     s.dropCount tag =
       ((List.range 128).map fun n =>
         ((s.slot n).targets.filter fun t => if tag = 0 then !t.pinned else decide (t.tag = tag)).length).sum ∧
     (s.batch.openTag = some tag ↔ ∃ b, s.batch = .opened b ∧ b.tag = tag))

/-- The checks of DEFINE_ZONE in the order of R60. A failed one is answered and changes nothing else; otherwise the
zone stands in the table with the smaller slot lower and each box with its slot, its number stands in both zone lists,
which it leaves ascending as they were (R59), its status is the one R62 gives, the answer is OK with it, and no other
record changes but the link's (R60 to R62, R71). FORGET_ZONE: BAD_REQUEST above 383, NOTHING for an undefined zone,
BUSY while an entry wants it or one of its robots is WAITING or MOVING; otherwise the record is undefined, its number
leaves both zone lists, and the answer gives what the zone had (R63, R64). Nothing else changes. How a zone's state,
holder and intruder are sent is stated in Obligations.ReadsAnswered, the tables of R62 and when a robot stands in its
box in Obligations.ZoneTables. -/
def Obligations.ZoneRequests : Prop :=
  (∀ (s : State) (z m : Nat) (boxM : Box) (n : Nat) (boxN : Box),
     s.defineZoneCheck z m boxM n boxN = (
       if 383 < z ∨ 127 < m ∨ 127 < n then some .badRequest
       else if s.zone z ≠ none then some .already
       else if m = n ∨ (s.slot m).state = .vacant ∨ (s.slot n).state = .vacant then some .badRequest
       else if 6 ≤ (s.slot m).zones.length ∨ 6 ≤ (s.slot n).zones.length then some .zoneLimit
       else if ∃ y ∈ List.range 384, ∃ r ∈ s.zone y, r.lower = min m n ∧ r.higher = max m n then some .duplicate
       else if ¬ ((boxM.alphaLow ≤ boxM.alphaHigh ∧ boxM.betaLow ≤ boxM.betaHigh ∧
            boxM.alphaHigh ≤ (s.slot m).calib.alphaMax ∧ (s.slot m).calib.betaFold < boxM.betaLow ∧
            boxM.betaHigh ≤ (s.slot m).calib.betaMax) ∧
          (boxN.alphaLow ≤ boxN.alphaHigh ∧ boxN.betaLow ≤ boxN.betaHigh ∧
            boxN.alphaHigh ≤ (s.slot n).calib.alphaMax ∧ (s.slot n).calib.betaFold < boxN.betaLow ∧
            boxN.betaHigh ≤ (s.slot n).calib.betaMax)) then some .zoneBounds
       else if (s.slot m).state ∈ [RobotState.probing, .waiting, .moving] ∨
          (s.slot n).state ∈ [RobotState.probing, .waiting, .moving] then some .busy
       else none)) ∧
  (∀ (s : State) (tag : Byte) (zone : Word) (slot1 : Byte) (box1 : WireBox) (slot2 : Byte) (box2 : WireBox),
     s.planReady = true →
     (∀ st, s.defineZoneCheck zone.toNat slot1.toNat (boxOfWire box1) slot2.toNat (boxOfWire box2) = some st →
       exec (.defineZone tag zone slot1 box1 slot2 box2) s = .next (s.answered tag 0x20 st [])) ∧
     (s.defineZoneCheck zone.toNat slot1.toNat (boxOfWire box1) slot2.toNat (boxOfWire box2) = none →
       ∃ (t : State) (r : ZoneRec), exec (.defineZone tag zone slot1 box1 slot2 box2) s = .next t ∧
         r.lower = min slot1.toNat slot2.toNat ∧ r.higher = max slot1.toNat slot2.toNat ∧
         r.boxOf (r.sideOf slot1.toNat) = boxOfWire box1 ∧ r.boxOf (r.sideOf slot2.toNat) = boxOfWire box2 ∧
         r.status = initialStatus (r.occupiedBy r.lower (s.slot r.lower).position)
           (r.occupiedBy r.higher (s.slot r.higher).position) (decide ((s.slot r.lower).state = .retired))
           (decide ((s.slot r.higher).state = .retired)) ∧
         (s.answered tag 0x20 .ok (b1 r.status.code ++ r.partyBytes)).link.output <+: t.link.output ∧
         State.SameRecords (((s.modSlot r.lower fun x => { x with zones := insertZone zone.toNat x.zones }).modSlot
           r.higher fun x => { x with zones := insertZone zone.toNat x.zones }).setZone zone.toNat (some r)) t)) ∧
  (∀ (s : State) (tag : Byte) (zone : Word), s.planReady = true →
     (383 < zone.toNat → exec (.forgetZone tag zone) s = .next (s.answered tag 0x21 .badRequest [])) ∧
     (zone.toNat ≤ 383 → s.zone zone.toNat = none →
       exec (.forgetZone tag zone) s = .next (s.answered tag 0x21 .nothing [])) ∧
     (∀ r, zone.toNat ≤ 383 → s.zone zone.toNat = some r →
       exec (.forgetZone tag zone) s = .next (
         if (∃ e ∈ s.waitList, zone.toNat ∈ e.wanted) ∨
             (s.slot r.lower).state = .waiting ∨ (s.slot r.lower).state = .moving ∨
             (s.slot r.higher).state = .waiting ∨ (s.slot r.higher).state = .moving then
           s.answered tag 0x21 .busy []
         else (((s.modSlot r.lower fun x => { x with zones := x.zones.filter fun y => y != zone.toNat }).modSlot
             r.higher fun x => { x with zones := x.zones.filter fun y => y != zone.toNat }).setZone zone.toNat
               none).answered tag 0x21 .ok (b1 r.status.code ++ r.partyBytes)))) ∧
  (∀ (z : Nat) (zs : List Nat),
     (∀ y, y ∈ insertZone z zs ↔ y = z ∨ y ∈ zs) ∧ (insertZone z zs).length = zs.length + 1 ∧
     (zs.Pairwise (· < ·) → z ∉ zs → (insertZone z zs).Pairwise (· < ·))) ∧
  (∀ b : WireBox, boxOfWire b =
     { alphaLow := b.alphaLow.toNat, alphaHigh := b.alphaHigh.toNat, betaLow := b.betaLow.toNat
       betaHigh := b.betaHigh.toNat })

/-- The tables of R66, R67, R72 and R73 for one zone and the robot on one of its sides, and the table of R62 for the
initial status.
Applied to a robot, a table changes together the zones of its zone list, each by the robot's side and by whether its
position, when known, lies in its own side box, bounds included, and no other record (R65, R5, R57). The zones freed,
fenced and contested are those whose status the table changes to that one, in the order of the zone list (R70, R71).
The occupancy update, and the trim, does nothing with the position unknown or for a RETIRED robot; otherwise it
applies R66 and R67, reports the zones freed, none fenced, to the Claim Arbiter, which takes the report at once (log
38), and raises one ZONE_CONTESTED for each zone newly contested (R65, R68, R70, R71). Retirement applies R72 with the
position known and R73 with it unknown, after the robot is RETIRED with its targets and remaining legs gone and a
LAPSING leg ended with its units kept or returned; it raises ROBOT_RETIRED, before the report by log 12, and reports
the zones freed and those fenced (R28, R36, R70).
With no claim waiting the zones then stand as the table leaves them, and the update changes nothing besides but the
notices. What the Arbiter does with a report is Obligations.ClaimsServed. -/
def Obligations.ZoneTables : Prop :=
  (∀ me : Side,
    ZoneStatus.update .free me true = .held me ∧ ZoneStatus.update (.held me.other) me true = .contested me.other ∧
    ZoneStatus.update (.fenced me.other false) me true = .fenced me.other true ∧
    ZoneStatus.update (.held me) me false = .free ∧ ZoneStatus.update (.contested me) me false = .held me.other ∧
    ZoneStatus.update (.contested me.other) me false = .held me.other ∧
    ZoneStatus.update (.fenced me.other true) me false = .fenced me.other false) ∧
  (∀ (st : ZoneStatus) (me : Side), st.heldBy me = true → (∀ i, st ≠ .fenced me i) → st.update me true = st) ∧
  (∀ (st : ZoneStatus) (me : Side), st.heldBy me = false → st.update me false = st) ∧
  (∀ me : Side,
    ZoneStatus.retireKnown .free me true = .fenced me false ∧
    ZoneStatus.retireKnown (.held me) me true = .fenced me false ∧
    ZoneStatus.retireKnown (.held me.other) me true = .fenced me true ∧
    (∀ h, ZoneStatus.retireKnown (.contested h) me true = .fenced me true) ∧
    (∀ i, ZoneStatus.retireKnown (.fenced me.other i) me true = .fenced me.other true) ∧
    (∀ st, ZoneStatus.retireKnown st me false = st.update me false) ∧
    ZoneStatus.retireUnknown (.held me) me = .fenced me false ∧
    (∀ h, ZoneStatus.retireUnknown (.contested h) me = .fenced me true) ∧
    ZoneStatus.retireUnknown (.fenced me.other true) me = .fenced me.other true ∧
    (∀ st : ZoneStatus, st.heldBy me = false → st.retireUnknown me = st)) ∧
  (∀ a b : Bool,
    initialStatus false false a b = .free ∧
    initialStatus true false a b = (if a then .fenced .lower false else .held .lower) ∧
    initialStatus false true a b = (if b then .fenced .higher false else .held .higher)) ∧
  initialStatus true true false false = .contested .lower ∧ initialStatus true true true false = .fenced .lower true ∧
  initialStatus true true false true = .fenced .higher true ∧ initialStatus true true true true = .fenced .lower true ∧
  (∀ (r : ZoneRec) (n : Nat) (p : Option Position),
    r.sideOf n = (if r.lower = n then .lower else .higher) ∧
    (r.occupiedBy n p = true ↔ ∃ q, p = some q ∧
      let own := if r.lower = n then r.lowerBox else r.higherBox
      own.alphaLow ≤ q.alpha ∧ q.alpha ≤ own.alphaHigh ∧ own.betaLow ≤ q.beta ∧ q.beta ≤ own.betaHigh)) ∧
  (∀ (s : State) (n : Nat) (rule : ZoneStatus → Side → Bool → ZoneStatus),
    let new : ZoneRec → ZoneStatus := fun r => rule r.status (r.sideOf n) (r.occupiedBy n (s.slot n).position)
    let cs := s.zoneChanges n rule
    let t := s.writeZones cs
    t = { s with zones := t.zones } ∧
    (∀ z, t.zone z =
      if z ∈ (s.slot n).zones then (s.zone z).map fun r => { r with status := new r } else s.zone z) ∧
    (∀ z,
      (z ∈ freedZones cs ↔
        z ∈ (s.slot n).zones ∧ ∃ r, s.zone z = some r ∧ r.status ≠ .free ∧ new r = .free) ∧
      (z ∈ fencedZones cs ↔
        z ∈ (s.slot n).zones ∧ ∃ r, s.zone z = some r ∧ (∀ h i, r.status ≠ .fenced h i) ∧ ∃ h i, new r = .fenced h i) ∧
      (z ∈ contestedZones cs ↔
        z ∈ (s.slot n).zones ∧ ∃ r, s.zone z = some r ∧ (∀ h, r.status ≠ .contested h) ∧ ∃ h, new r = .contested h)) ∧
    (freedZones cs).Sublist (s.slot n).zones ∧ (fencedZones cs).Sublist (s.slot n).zones ∧
    (contestedZones cs).Sublist (s.slot n).zones) ∧
  (∀ (s : State) (n : Nat),
    let cs := s.zoneChanges n ZoneStatus.update
    ((s.slot n).position = none ∨ (s.slot n).state = .retired → s.updateZones n = s) ∧
    ((s.slot n).position ≠ none → (s.slot n).state ≠ .retired →
      s.updateZones n =
        (contestedZones cs).foldl (fun u z => u.raise (.zoneContested 1 z))
          ((s.writeZones cs).zoneReport (freedZones cs) []) ∧
      (s.waitList = [] →
        s.updateZones n = { s with zones := (s.updateZones n).zones, link := (s.updateZones n).link } ∧
        ∀ z, (s.updateZones n).zone z =
          if z ∈ (s.slot n).zones then (s.zone z).map fun r =>
            { r with status := r.status.update (r.sideOf n) (r.occupiedBy n (s.slot n).position) }
          else s.zone z))) ∧
  (∀ (s : State) (n : Nat) (why : RetireReason),
    let r := s.slot n
    let changes := s.retireChanges n
    let u := (s.modSlot n fun q =>
      { q with
        state := .retired, retireReason := some why, targets := [], remaining := []
        leg := q.leg.filter fun g => decide (g.stage ≠ .lapsing) }).keepUnits n r.leg
    (r.position ≠ none → changes = s.zoneChanges n ZoneStatus.retireKnown) ∧
    (r.position = none → changes = s.zoneChanges n fun st me _ => st.retireUnknown me) ∧
    s.retire n why =
      ((u.writeZones changes).raise (.robotRetired 1 n)).zoneReport (freedZones changes) (fencedZones changes) ∧
    ((∀ g, r.leg = some g → g.stage ≠ .lapsing) → ∀ v : State, v.keepUnits n r.leg = v) ∧
    (∀ g d, r.leg = some g → g.stage = .lapsing → g.deadline = some d →
      (d ≤ s.now → s.keepUnits n r.leg = s.returnUnits g.units) ∧
      (s.now < d → s.keepUnits n r.leg = s.holdUnits { slot := n, units := g.units, deadline := d })) ∧
    (s.waitList = [] → ∀ z, (s.retire n why).zone z =
      if z ∈ r.zones then (s.zone z).map fun x =>
        { x with status :=
          if r.position = none then x.status.retireUnknown (x.sideOf n)
          else x.status.retireKnown (x.sideOf n) (x.occupiedBy n r.position) }
      else s.zone z))

/-- A fault report, with no claim waiting and a robot below the limit: FAULTED, with the fault's kind and time, the
count one more, the position as the report gives, no remaining legs; its zones change by the occupancy update on that
position; no other slot, no line, no pin and no drive unit changes (R31, R65). At the limit the robot is RETIRED for
it and has no target, and its zones change by retirement after the update (R32, R28, R72, R73). -/
def Obligations.FaultReport : Prop :=
  ∀ (s : State) (n : Nat) (kind : FaultKind) (pos : PosChange), n < 128 → s.waitList = [] →
    ((s.slot n).faultCount + 1 < s.settings.faultLimit →
      ((s.faultReport n kind pos).slot n).state = .faulted ∧
      ((s.faultReport n kind pos).slot n).fault = some { kind := kind, time := s.now } ∧
      ((s.faultReport n kind pos).slot n).faultCount = (s.slot n).faultCount + 1 ∧
      ((s.faultReport n kind pos).slot n).position = pos.apply (s.slot n).position ∧
      ((s.faultReport n kind pos).slot n).remaining = [] ∧
      (s.faultReport n kind pos).gate = s.gate ∧
      (s.faultReport n kind pos).zones =
        ((s.modSlot n fun r =>
          { r with state := .faulted, position := pos.apply r.position }).updateZones n).zones) ∧
    (s.settings.faultLimit ≤ (s.slot n).faultCount + 1 →
      ((s.faultReport n kind pos).slot n).state = .retired ∧
      ((s.faultReport n kind pos).slot n).retireReason = some .faultLimit ∧
      ((s.faultReport n kind pos).slot n).targets = [] ∧
      let u := (s.modSlot n fun r => { r with state := .faulted, position := pos.apply r.position }).updateZones n
      (s.faultReport n kind pos).zones = (u.writeZones (u.retireChanges n)).zones) ∧
    (pos.apply (s.slot n).position =
      match pos with
      | .unknown => none
      | .unchanged => (s.slot n).position
      | .counts a b source => some { alpha := a, beta := b, source := source }) ∧
    (∀ m, m ≠ n → (s.faultReport n kind pos).slot m = s.slot m) ∧
    (s.faultReport n kind pos).lines = s.lines ∧ (s.faultReport n kind pos).pins = s.pins

/-! ## Batches, claims and legs (05, 06) -/

/-- EXECUTE: the refusals of R98 in order; NOTHING with the skipped count when no slot is admitted, and then nothing
else changes (R99); otherwise the batch opens with the tag, the numbers of robots admitted and skipped and the time
base of now, and the answer gives the counts and the state of the batch as the admission event left it (R100; that it
stands before the hand-ons is log 11; who is admitted and who is skipped, and what that event does to the slots, is
Obligations.AdmissionOfSlots). AWAIT_BATCH: with no batch OPEN, OK with the batch record; with one OPEN it becomes the
current request. Nothing else changes (R118). How the batch record is sent is stated in Obligations.ReadsAnswered; the
number of its state is R213. -/
def Obligations.BatchRequests : Prop :=
  (∀ (s : State) (tag : Byte) (cfgTag : Word), s.planReady = true →
     (cfgTag.toNat = 0 ∨ 4095 < cfgTag.toNat →
      exec (.execute tag cfgTag) s = .next (s.answered tag 0x28 .badRequest [])) ∧
     (1 ≤ cfgTag.toNat → cfgTag.toNat ≤ 4095 →
       (∀ b, s.batch = .opened b → exec (.execute tag cfgTag) s = .next (s.answered tag 0x28 .busy [])) ∧
       (s.batch.isOpen = false →
         (s.pins.stop = true → exec (.execute tag cfgTag) s = .next (s.answered tag 0x28 .stopped [])) ∧
         (s.pins.stop = false →
           ((∀ n, n < 128 → (s.slot n).admittedBy cfgTag.toNat = false) →
             exec (.execute tag cfgTag) s =
               .next (s.answered tag 0x28 .nothing (b2 (s.skippedCount cfgTag.toNat)))) ∧
           ((∃ n, n < 128 ∧ (s.slot n).admittedBy cfgTag.toNat = true) →
             ∃ t, exec (.execute tag cfgTag) s = .next t ∧
               t.batch.record.tag = cfgTag.toNat ∧
               t.batch.record.admitted = (s.admittedSlots cfgTag.toNat).length ∧
               t.batch.record.skipped = s.skippedCount cfgTag.toNat ∧ t.batch.record.openTime = s.now ∧
               t.batch ≠ .none ∧ t.pins = s.pins ∧
               (s.answered tag 0x28 .ok
                 (b2 cfgTag.toNat ++ b2 (s.admittedSlots cfgTag.toNat).length ++ b2 (s.skippedCount cfgTag.toNat) ++
                   b2 (s.openBatch cfgTag.toNat).batch.record.arrived ++
                   b2 (s.openBatch cfgTag.toNat).batch.record.blocked ++
                   b1 (s.openBatch cfgTag.toNat).batch.code)).link.output <+: t.link.output))))) ∧
  (∀ (s : State) (tag : Byte), s.planReady = true →
     exec (.awaitBatch tag) s = .next (
       if s.batch.isOpen = true then
         { s with link := s.link.doing { code := 0x29, tag := tag, work := .awaitBatch } }
       else s.answered tag 0x29 .ok s.batch.bytes)) ∧
  (∀ (b : BatchRec) (close : Nat),
     [Batch.none, .opened b, .closed b close].map Batch.isOpen = [false, true, false] ∧
     [Batch.none, .opened b, .closed b close].map Batch.code = [0, 1, 2] ∧
     (Batch.opened b).record = b ∧ (Batch.closed b close).record = b)

/-- What the event that opens a batch does to the slots (R100). A slot not admitted has its batch flag and outcome
cleared and keeps every other field. An admitted one has its flag set and its target of the tag pinned; where its plan
ends in an immediate outcome it has that outcome, and where it has legs it is WAITING with the first built and the
others remaining. The batch record counts the immediate outcomes, and is CLOSED exactly when every admitted robot has
one.
A slot is admitted exactly when it is in REST and holds a target of the tag, and those admitted are taken ascending;
the skipped count is that of the slots that hold one and are DEFINED, PROBING, WAITING, MOVING, HELD or FAULTED (R99).
The plan runs from the counts of the robot's position to those of its target of the tag, and is built as
Obligations.PlanBuilding gives. An immediate ARRIVED consumes the target and clears the fault count, an immediate
BLOCKED unpins it; either leaves the robot in REST (R100, R116, R44, R45, R33). -/
def Obligations.AdmissionOfSlots : Prop :=
  ∀ (s : State) (tag n : Nat), n < 128 →
    let t := s.openBatch tag
    let r : SlotRec := { s.slot n with
      batchFlag := true
      outcome := .none
      targets := (s.slot n).targets.map fun x => if x.tag = tag then { x with pinned := true } else x }
    let immediate := (s.admittedSlots tag).filter fun m =>
      match s.admissionPlan tag m with
      | .outcome _ => true
      | .legs _ _ => false
    ((s.slot n).admittedBy tag = false → t.slot n = { s.slot n with batchFlag := false, outcome := .none }) ∧
    ((s.slot n).admittedBy tag = true →
      (∀ o, s.admissionPlan tag n = .outcome o → t.slot n = r.withOutcome o tag) ∧
      (∀ l rest, s.admissionPlan tag n = .legs l rest →
        ∃ g, t.slot n = { r with state := .waiting, remaining := rest, leg := some g } ∧ g.kind = l.kind ∧
          g.finish = l.finish ∧ g.cls = r.pinnedClass ∧
          g.start = ((s.slot n).position.map fun p => { alpha := p.alpha, beta := p.beta }) ∧
          g.stage = (if l.kind = .extend then .claiming else .queued))) ∧
    (s.admittedSlots tag ≠ [] →
      t.batch.record.arrived =
        ((s.admittedSlots tag).filter fun m => s.admissionPlan tag m = .outcome .arrived).length ∧
      t.batch.record.arrived + t.batch.record.blocked = immediate.length ∧
      t.batch.record.faulted = 0 ∧ t.batch.record.stopped = 0 ∧
      (t.batch.isOpen = true ↔ immediate.length < (s.admittedSlots tag).length)) ∧
    t.gate = s.gate ∧ t.zones = s.zones ∧ t.lines = s.lines ∧ t.waitList = s.waitList ∧
    ((s.slot n).admittedBy tag = true ↔ (s.slot n).state = .rest ∧ ∃ x ∈ (s.slot n).targets, x.tag = tag) ∧
    s.admittedSlots tag = ((List.range 128).filter fun m => (s.slot m).admittedBy tag) ∧
    s.skippedCount tag =
      ((List.range 128).filter fun m =>
        decide ((∃ x ∈ (s.slot m).targets, x.tag = tag) ∧
          (s.slot m).state ∈ [RobotState.defined, .probing, .waiting, .moving, .held, .faulted])).length ∧
    (∀ p x front back, (s.slot n).position = some p → (s.slot n).targets = front ++ x :: back → x.tag = tag →
      (∀ y ∈ front, y.tag ≠ tag) →
      s.admissionPlan tag n = s.planFor n { alpha := p.alpha, beta := p.beta } { alpha := x.alpha, beta := x.beta }) ∧
    r.withOutcome .arrived tag =
      { r with
        outcome := .arrived, remaining := [], leg := r.leg.filter fun g => g.stage == .lapsing, state := .rest
        targets := r.targets.filter fun x => decide (x.tag ≠ tag), faultCount := 0 } ∧
    (∀ reason, r.withOutcome (.blocked reason) tag =
      { r with
        outcome := .blocked reason, remaining := [], leg := r.leg.filter fun g => g.stage == .lapsing, state := .rest
        targets := r.targets.map fun x => if x.tag = tag then { x with pinned := false } else x })

/-- Plan building, test by test: at its target ARRIVED; in a contest BLOCKED(CONTESTED) (R101); a path whose meet set
is all held, one DIRECT leg (R102); an extension that meets a FENCED zone, BLOCKED(FENCED); otherwise FOLD, SWING and
EXTEND, each when its condition holds, at least one (R103).
What the tests mean: a path box runs from the smaller to the larger count of each axis (R7), an extension box from
beta_fold to the target's beta count at its alpha count (R9); the meet set of a box is, in the order of the zone list,
its zones whose own side box has with it a low bound not above the other's high bound on both axes, both ways, which for
two boxes with no low bound above its high bound is that they share a position, bounds included (R8); a robot is in a
contest when a zone of its list is CONTESTED, or FENCED with it as intruder (R101); a zone is held by a robot when it is
HELD with it as holder. -/
def Obligations.PlanBuilding : Prop :=
  (∀ (s : State) (n : Nat) (a b : Counts),
    let fold := (s.slot n).calib.betaFold
    let direct := (s.meetSet n (pathBox a b)).all fun z => s.zoneHeldBy n z
    let fenced := b.beta ≠ fold ∧ (s.meetSet n (extensionBox (s.slot n).calib b.alpha b.beta)).any s.zoneFenced = true
    (a = b → s.planFor n a b = .outcome .arrived) ∧
    (a ≠ b → s.contested n = true → s.planFor n a b = .outcome (.blocked .contested)) ∧
    (a ≠ b → s.contested n = false → direct = true → s.planFor n a b = .legs { kind := .direct, finish := b } []) ∧
    (a ≠ b → s.contested n = false → direct = false → fenced → s.planFor n a b = .outcome (.blocked .fenced)) ∧
    (a ≠ b → s.contested n = false → direct = false → ¬ fenced →
      ∃ l rest, s.planFor n a b = .legs l rest ∧
        l :: rest =
          (if a.beta ≠ fold then [{ kind := .fold, finish := { alpha := a.alpha, beta := fold } }] else []) ++
          (if a.alpha ≠ b.alpha then [{ kind := .swing, finish := { alpha := b.alpha, beta := fold } }] else []) ++
          (if b.beta ≠ fold then [{ kind := .extend, finish := b }] else []))) ∧
  (∀ a b : Counts, pathBox a b =
     { alphaLow := min a.alpha b.alpha, alphaHigh := max a.alpha b.alpha
       betaLow := min a.beta b.beta, betaHigh := max a.beta b.beta }) ∧
  (∀ (c : Calibration) (alpha beta : Nat), c.betaFold ≤ beta →
     extensionBox c alpha beta = { alphaLow := alpha, alphaHigh := alpha, betaLow := c.betaFold, betaHigh := beta }) ∧
  (∀ (s : State) (n : Nat) (path : Box),
     (s.meetSet n path).Sublist (s.slot n).zones ∧
     ∀ z, z ∈ s.meetSet n path ↔
       z ∈ (s.slot n).zones ∧ ∃ r, s.zone z = some r ∧
         let own := if r.lower = n then r.lowerBox else r.higherBox
         path.alphaLow ≤ own.alphaHigh ∧ own.alphaLow ≤ path.alphaHigh ∧
           path.betaLow ≤ own.betaHigh ∧ own.betaLow ≤ path.betaHigh) ∧
  (∀ p q : Box, p.alphaLow ≤ p.alphaHigh → p.betaLow ≤ p.betaHigh → q.alphaLow ≤ q.alphaHigh →
     q.betaLow ≤ q.betaHigh →
     (p.meets q = true ↔
       (∃ x, p.alphaLow ≤ x ∧ x ≤ p.alphaHigh ∧ q.alphaLow ≤ x ∧ x ≤ q.alphaHigh) ∧
         ∃ y, p.betaLow ≤ y ∧ y ≤ p.betaHigh ∧ q.betaLow ≤ y ∧ y ≤ q.betaHigh)) ∧
  (∀ (s : State) (n : Nat),
     (s.contested n = true ↔
       ∃ z ∈ (s.slot n).zones, ∃ r, s.zone z = some r ∧
         ((∃ h, r.status = .contested h) ∨ r.status = .fenced (if r.lower = n then .higher else .lower) true)) ∧
     ∀ z,
       (s.zoneHeldBy n z = true ↔
         ∃ r, s.zone z = some r ∧ r.status = .held (if r.lower = n then .lower else .higher)) ∧
       (s.zoneFenced z = true ↔ ∃ r h i, s.zone z = some r ∧ r.status = .fenced h i)) ∧
  (∀ (r : SlotRec) (c : Calibration), r.cal = some c → r.calib = c)

/-- An outcome recorded for a robot of the open batch that has none: the slot's fields as R116 gives, the target
consumed for ARRIVED and unpinned otherwise (R44, R45), the fault count cleared for ARRIVED (R33), one count of the
batch one more, and the batch closed exactly when no admitted robot is without an outcome (R117). Its close raises
BATCH_CLOSED with the tag and the counts, and answers an AWAIT_BATCH that is current OK with the closed record, here
with a place free in the output queue (R117, R118). A robot with an outcome, or none in the batch, is given none. -/
def Obligations.OutcomeRecorded : Prop :=
  (∀ (s : State) (n : Nat) (o : RobotOutcome) (b : BatchRec), n < 128 → s.batch = .opened b → o ≠ .none →
     ((s.slot n).batchFlag = true → (s.slot n).outcome = .none →
       (s.recordOutcome n o).slot n =
         { s.slot n with
           outcome := o
           remaining := []
           leg := (s.slot n).leg.filter fun g => g.stage == .lapsing
           targets :=
             if o = .arrived then (s.slot n).targets.filter fun t => t.tag != b.tag
             else (s.slot n).targets.map fun t => if t.tag = b.tag then { t with pinned := false } else t
           state :=
             match o with
             | .none => (s.slot n).state
             | .arrived => .rest
             | .blocked _ => .rest
             | .faulted => (s.slot n).state
             | .stopped => .held
           faultCount := if o = .arrived then 0 else (s.slot n).faultCount } ∧
       (∀ m, m ≠ n → (s.recordOutcome n o).slot m = s.slot m) ∧
       (b.arrived + b.blocked + b.faulted + b.stopped + 1 < b.admitted →
         (s.recordOutcome n o).batch = .opened (b.count o)) ∧
       (b.admitted ≤ b.arrived + b.blocked + b.faulted + b.stopped + 1 →
         let c := b.count o
         let raised := (s.raise
           (.batchClosed c.tag c.admitted c.skipped c.arrived c.blocked c.faulted c.stopped 1)).link
         (s.recordOutcome n o).batch = .closed c s.now ∧
         ((∀ w, s.link.current = some w → w.work ≠ .awaitBatch) → (s.recordOutcome n o).link = raised) ∧
         (∀ w, s.link.current = some w → w.work = .awaitBatch → s.outputRoom = true →
           (s.recordOutcome n o).link =
             (({ s with link := { raised with current := none } } : State).answered w.tag w.code .ok
               (Batch.closed c s.now).bytes).link))) ∧
     ((s.slot n).batchFlag = false ∨ (s.slot n).outcome ≠ .none → s.recordOutcome n o = s)) ∧
  (∀ b : BatchRec,
     b.count .arrived = { b with arrived := b.arrived + 1 } ∧
     (∀ reason, b.count (.blocked reason) = { b with blocked := b.blocked + 1 }) ∧
     b.count .faulted = { b with faulted := b.faulted + 1 } ∧ b.count .stopped = { b with stopped := b.stopped + 1 })

/-- A handed claim, test by test: STOPPED under stop, BLOCKED(FENCED) with a wanted zone FENCED, granted with every
wanted zone FREE and wanted by no entry, and otherwise joined to the wait list with its deadline, behind its own and
more urgent classes, with a re-examination in the same event (R81, R83, R80).
A grant: every zone wanted becomes HELD by the claimant, the entry leaves the list, the leg is QUEUED and handed to
the Start Gate, and nothing else changes (R84). A re-examination passes over the entries that want a zone that is not
FREE or that an earlier entry still standing wants, and grants the first other one; a list of such entries alone
stands as it is (R86). A report that fences zones removes the entries that want one, front to back, with
BLOCKED(FENCED), and the list is re-examined once; that the Arbiter and the Move Planner take these at once is the
model's choice (log 38); one that fences none an entry wants re-examines the list when it frees a zone (R89, R85). -/
def Obligations.ClaimsServed : Prop :=
  (∀ (s : State) (n : Nat) (g : Leg) (zs : List Nat), (s.slot n).leg = some g → g.claimSet = some zs →
     (s.pins.stop = true → s.takeClaim n = s.recordOutcome n .stopped) ∧
     (s.pins.stop = false → (∃ z ∈ zs, s.zoneFenced z = true) → s.takeClaim n = s.recordOutcome n (.blocked .fenced)) ∧
     (s.pins.stop = false → (∀ z ∈ zs, s.zoneFree z = true ∧ ∀ e ∈ s.waitList, z ∉ e.wanted) →
       s.takeClaim n = s.grant n zs) ∧
     (s.pins.stop = false → (∀ z ∈ zs, s.zoneFenced z = false) →
       (∃ z ∈ zs, s.zoneFree z = false ∨ ∃ e ∈ s.waitList, z ∈ e.wanted) →
       ∃ front back, s.waitList = front ++ back ∧
         s.takeClaim n = State.reexamine { s with waitList := front ++
           { slot := n, cls := g.cls, entryTime := s.now, deadline := s.now + 1000 * s.settings.claimTimeout
             wanted := zs } :: back } ∧
         (∀ e, front.getLast? = some e → e.cls ≤ g.cls) ∧ ∀ e, back.head? = some e → g.cls < e.cls)) ∧
  (∀ (s : State) (n : Nat) (zs : List Nat), n < 128 → (∀ z ∈ zs, z < 384) →
     let t := s.grant n zs
     t.waitList = (s.waitList.filter fun e => decide (e.slot ≠ n)) ∧
     (∀ z r, z ∈ zs → s.zone z = some r → t.zone z = some { r with status := .held (r.sideOf n) }) ∧
     (∀ z, z ∉ zs → t.zone z = s.zone z) ∧
     t.slot n = { s.slot n with leg := (s.slot n).leg.map fun g => { g with stage := .queued } } ∧
     (∀ m, m ≠ n → t.slot m = s.slot m) ∧ t.handed = s.handed ++ [.handOn n] ∧
     t.gate = s.gate ∧ t.lines = s.lines ∧ t.link = s.link ∧ t.batch = s.batch) ∧
  (∀ s : State,
     let stands := fun (before : List WaitEntry) (e : WaitEntry) =>
       ∃ z ∈ e.wanted, s.zoneFree z = false ∨ ∃ x ∈ before, z ∈ x.wanted
     ((∀ front e back, s.waitList = front ++ e :: back → stands front e) → s.reexamine = s) ∧
     (∀ front e back, s.waitList = front ++ e :: back →
       (∀ f1 x f2, front = f1 ++ x :: f2 → stands f1 x) → ¬ stands front e →
       s.reexamine = examine (s.grant e.slot e.wanted) (front.map WaitEntry.wanted).flatten back)) ∧
  (∀ (s : State) (freed fenced : List Nat),
     ((∀ e ∈ s.waitList, ∀ z ∈ e.wanted, z ∉ fenced) →
       s.zoneReport freed fenced = if freed = [] then s else s.reexamine) ∧
     ((∃ e ∈ s.waitList, ∃ z ∈ e.wanted, z ∈ fenced) →
       s.zoneReport freed fenced =
         State.reexamine ((s.waitList.filter fun e => e.wanted.any fun z => fenced.contains z).foldl
           (fun t e => t.recordOutcome e.slot (.blocked .fenced))
           { s with waitList := s.waitList.filter fun e => e.wanted.all fun z => !fenced.contains z }))) ∧
  (∀ (s : State) (z : Nat),
     (s.zoneFree z = true ↔ ∃ r, s.zone z = some r ∧ r.status = .free) ∧
     (s.zoneFenced z = true ↔ ∃ r h i, s.zone z = some r ∧ r.status = .fenced h i)) ∧
  (∀ (s : State) (passed : List Nat) (e : WaitEntry) (rest : List WaitEntry),
     s.reexamine = examine s [] s.waitList ∧ examine s passed [] = s ∧
     examine s passed (e :: rest) =
       if ∀ z ∈ e.wanted, s.zoneFree z = true ∧ z ∉ passed then examine (s.grant e.slot e.wanted) passed rest
       else examine s (passed ++ e.wanted) rest)

/-- R108, whole: the duration of a leg's deadline is the settle allowance in force plus the travel time, and TAKEN for
an ISSUED leg's GO sets the deadline to the time base plus that duration. The travel time of an axis is the least
whole number of ms not below 1000 × travel ÷ speed, or 4000 × travel ÷ speed for a SLOW leg, with the speed of the
identity standing; a leg of axes BOTH takes the larger; a RECOVER leg from an unknown position takes the beta travel
beta_max − beta_fold. -/
def Obligations.LegDuration : Prop :=
  ∀ (s : State) (n : Nat) (g : Leg) (i : Identity), n < 128 → (s.slot n).leg = some g → g.stage = .issued →
    (s.slot n).identity = some i → 1 ≤ i.alphaSpeed → 1 ≤ i.betaSpeed →
    let k := if g.speed = .slow then 4000 else 1000
    let da := match g.start with
      | none => 0
      | some p => max p.alpha g.finish.alpha - min p.alpha g.finish.alpha
    let db := match g.start with
      | none => (s.slot n).calib.betaMax - (s.slot n).calib.betaFold
      | some p => max p.beta g.finish.beta - min p.beta g.finish.beta
    ∃ ta tb : Nat,
      (k * da ≤ ta * i.alphaSpeed ∧ ∀ t, k * da ≤ t * i.alphaSpeed → ta ≤ t) ∧
      (k * db ≤ tb * i.betaSpeed ∧ ∀ t, k * db ≤ t * i.betaSpeed → tb ≤ t) ∧
      s.legDuration n g = s.settings.settleAllowance +
        (match g.axes with
          | .alpha => ta
          | .beta => tb
          | .both => max ta tb) ∧
      (g.haltCause = none →
        s.goTaken n g.id = s.modSlot n fun r =>
          { r with leg := some { g with stage := .running, deadline := some (s.now + s.legDuration n g) } })

/-- The answers of the robot bus for a leg that is no RECOVER, here with no claim waiting. A STATE with run state
RUNNING is passed over for a RUNNING leg, and as a poll's answer for a STOPPING one; so is a poll's answer for a
LAPSING leg, and any STATE for a leg not yet RUNNING (R109, R114, R120, R112).
At the end counts, with ARRIVED or IDLE for a RUNNING leg or any other STATE for one with halt cause DEADLINE, the leg
ends as arrived: units back (at once, log 38), the position as reported, the trim, then the next leg; with none left a
batch robot is REST with outcome ARRIVED, its target consumed and its fault count cleared (R109, R110, R114, R116).
Elsewhere it ends with STALL or OVERDUE at the counts reported, and a GO REFUSED ends it with its position unchanged:
units back, the trim, and below the fault limit FAULTED with that kind, a batch robot with outcome FAULTED (R109,
R114, R115, R31, R116). With halt cause STOP any other STATE ends it at the counts reported, its batch robot HELD with
outcome STOPPED and its target unpinned, and a REFUSED ends it as a discarded GO (R120). A readback's STATE ends a
LAPSING leg, the position as reported, the robot standing else (R120, R35, R112).
TAKEN for the GO sets the deadline and makes the leg RUNNING, or with halt cause STOP STOPPING with its readback
placed (R107, R120): on an UP line a HALT and an ASK, merged with one queued (log 17), on another as a failed one
(R158, R161). What is reported for another leg than the slot's changes nothing (R154; log 16). -/
def Obligations.LegAnswers : Prop :=
  (∀ (s : State) (n : Nat) (g : Leg), n < 128 → (s.slot n).leg = some g → g.kind ≠ .recover → s.waitList = [] →
    let r := s.slot n
    let back : Gate := { s.gate with unitsInUse := s.gate.unitsInUse - g.units }
    let reported : Nat → Nat → Option Position := fun a b => some { alpha := a, beta := b, source := .reported }
    let standsAt : State → Option Position → Prop := fun t p =>
      t.gate = back ∧ t.lines = s.lines ∧ (∀ m, m ≠ n → t.slot m = s.slot m) ∧
        t.zones = ((s.modSlot n fun q => { q with position := p }).updateZones n).zones
    let unpinned : BatchRec → List Target := fun o =>
      r.targets.map fun x => if x.tag = o.tag then { x with pinned := false } else x
    let inBatch : BatchRec → Prop := fun o => s.batch = .opened o ∧ r.batchFlag = true ∧ r.outcome = .none
    let settles : Bool → RunState → Prop := fun readback run =>
      g.stage = .stopping ∧ (readback = true ∨ run ≠ .running)
    (∀ readback run a b,
      (g.stage = .running ∧ run = .running) ∨ (g.stage = .stopping ∧ readback = false ∧ run = .running) ∨
        (g.stage = .lapsing ∧ readback = false) ∨ g.stage = .claiming ∨ g.stage = .queued ∨ g.stage = .issued →
      s.stateTaken n g.id readback run a b = s) ∧
    (∀ readback run a b, a = g.finish.alpha → b = g.finish.beta →
      (g.stage = .running ∧ (run = .arrived ∨ run = .idle)) ∨
        (settles readback run ∧ g.haltCause = some .deadline) →
      let t := s.stateTaken n g.id readback run a b
      t = State.nextLeg (({ s.modSlot n fun q => { q with leg := none, position := reported a b } with
          gate := back, handed := s.handed ++ [.scan] } : State).updateZones n) n ∧
      ∀ o, inBatch o → r.remaining = [] → r.state ≠ .retired →
        t.slot n =
          { r with
            leg := none, position := reported a b, state := .rest, outcome := .arrived, faultCount := 0
            targets := r.targets.filter fun x => x.tag != o.tag } ∧
        standsAt t (reported a b)) ∧
    (∀ readback run a b, g.stage = .running →
      run = .stalled ∨ ((run = .arrived ∨ run = .idle) ∧ (a ≠ g.finish.alpha ∨ b ≠ g.finish.beta)) →
      s.stateTaken n g.id readback run a b = s.legFaulted n g .stall (.counts a b .reported)) ∧
    (∀ readback run a b, settles readback run → g.haltCause = some .deadline →
      a ≠ g.finish.alpha ∨ b ≠ g.finish.beta →
      s.stateTaken n g.id readback run a b = s.legFaulted n g .overdue (.counts a b .reported)) ∧
    (g.stage = .issued →
      (g.haltCause ≠ some .stop → s.goRefused n g.id = s.legFaulted n g .refused .unchanged) ∧
      (g.haltCause = some .stop → s.goRefused n g.id = s.goDiscarded n g.id)) ∧
    (∀ kind pos, r.faultCount + 1 < s.settings.faultLimit → r.state ≠ .retired →
      let t := s.legFaulted n g kind pos
      (t.slot n).leg = none ∧ (t.slot n).state = .faulted ∧ (t.slot n).fault = some { kind := kind, time := s.now } ∧
        (t.slot n).faultCount = r.faultCount + 1 ∧ (t.slot n).remaining = [] ∧
        (t.slot n).position = pos.apply r.position ∧ standsAt t (pos.apply r.position) ∧
        ∀ o, inBatch o → (t.slot n).outcome = .faulted ∧ (t.slot n).targets = unpinned o) ∧
    (∀ readback run a b o, settles readback run → g.haltCause = some .stop → inBatch o → r.state ≠ .retired →
      let t := s.stateTaken n g.id readback run a b
      t.slot n =
          { r with
            leg := none, position := reported a b, remaining := [], outcome := .stopped, state := .held
            targets := unpinned o } ∧
        standsAt t (reported a b)) ∧
    (∀ run a b, g.stage = .lapsing → r.state ≠ .retired →
      let t := s.stateTaken n g.id true run a b
      t.slot n = { r with leg := none, position := reported a b } ∧ standsAt t (reported a b)) ∧
    (let d := s.now + s.legDuration n g
     g.stage = .issued →
      (g.haltCause ≠ some .stop →
        s.goTaken n g.id =
          s.modSlot n fun q => { q with leg := some { g with stage := .running, deadline := some d } }) ∧
      (g.haltCause = some .stop →
        s.goTaken n g.id =
          (s.modSlot n fun q => { q with leg := some { g with stage := .stopping, deadline := some d } }).placeReadback
            n g)) ∧
    (g.stage ≠ .issued → s.goTaken n g.id = s ∧ s.goRefused n g.id = s)) ∧
  (∀ (s : State) (n : Nat) (g : Leg),
    let l := (s.slot n).lineNo
    let drop := (s.slot n).dropNo
    ((s.line l).state ≠ .up → s.placeReadback n g = s.readbackFailed n g.id) ∧
    ((s.line l).state = .up → ((s.line l).normal.any fun f => f.isReadbackOf n) = false →
      s.placeReadback n g =
        (s.modLine l fun q => ({ q with urgent := joinUrgent (.halt drop) q.urgent } : LineRec).offer
          { slot := n, drop := drop, body := .ask, owner := .readback g.id }).hand (.choose l)) ∧
    ((s.line l).state = .up → ((s.line l).normal.any fun f => f.isReadbackOf n) = true →
      s.placeReadback n g = s.modLine l fun q =>
        { q with
          normal := q.normal.map fun f =>
            if f.isReadbackOf n then { f with owner := .readback g.id } else f })) ∧
  (∀ (s : State) (n id : Nat), (∀ g, (s.slot n).leg = some g → g.id ≠ id) →
    s.goTaken n id = s ∧ s.goRefused n id = s ∧ s.goFailed n id = s ∧ s.goDiscarded n id = s ∧ s.pollFailed n id = s ∧
      s.readbackFailed n id = s ∧ ∀ readback run a b, s.stateTaken n id readback run a b = s)

/-- A leg as it is built: its axes, units, speed and first stage by its kind, its start the position field, its
deadline absent, its claim set the meet set of an EXTEND leg and absent for any other; the robot is WAITING and no
other slot changes (R104, R105, R78, R102, R103, R185).
A leg that arrives with a leg to follow: the next one is built from the counts reported, with the class of the pinned
target, the robot is WAITING, and a leg that is no EXTEND is handed to the Start Gate, while an EXTEND hands its claim
to the Claim Arbiter, which takes it at once (log 36); with no leg to follow the outcome is ARRIVED (R110,
R105, R42). -/
def Obligations.LegsBuilt : Prop :=
  (∀ (s : State) (n : Nat) (kind : LegKind) (finish : Counts) (cls : Nat), n < 128 →
     (∀ m, m ≠ n → (s.buildLeg n kind finish cls).slot m = s.slot m) ∧
     ∃ g, (s.buildLeg n kind finish cls).slot n = { s.slot n with state := .waiting, leg := some g } ∧
       g.kind = kind ∧ g.finish = finish ∧ g.cls = cls ∧ g.deadline = none ∧ g.haltCause = none ∧ g.stopTime = none ∧
       g.start = ((s.slot n).position.map fun p => { alpha := p.alpha, beta := p.beta }) ∧
       g.axes = (match kind with
         | .swing => .alpha
         | .direct => .both
         | .fold => .beta
         | .extend => .beta
         | .recover => .beta) ∧
       g.units = (if kind = .direct then 2 else 1) ∧ g.speed = (if kind = .recover then .slow else .normal) ∧
       g.stage = (if kind = .extend then .claiming else .queued) ∧
       g.claimSet = if kind = .extend then g.start.map fun a => s.meetSet n (pathBox a finish) else none) ∧
  (∀ (s : State) (n : Nat) (l : RemLeg) (rest : List RemLeg), n < 128 → (s.slot n).remaining = l :: rest →
     s.nextLeg n = ((s.modSlot n fun r => { r with remaining := rest }).buildLeg n l.kind l.finish
       (s.slot n).pinnedClass).handLeg n ∧
     (l.kind ≠ .extend →
       ∃ g, (s.nextLeg n).slot n = { s.slot n with state := .waiting, remaining := rest, leg := some g } ∧
         g.kind = l.kind ∧ g.finish = l.finish ∧ g.cls = (s.slot n).pinnedClass ∧ g.stage = .queued ∧
         g.start = ((s.slot n).position.map fun p => { alpha := p.alpha, beta := p.beta }) ∧
         (s.nextLeg n).handed = s.handed ++ [.handOn n])) ∧
  (∀ (s : State) (n : Nat),
     ((s.slot n).remaining = [] → s.nextLeg n = s.recordOutcome n .arrived) ∧
     ∀ g, (s.slot n).leg = some g →
       (g.stage = .claiming → s.handLeg n = s.takeClaim n) ∧
       (g.stage = .queued → s.handLeg n = { s with handed := s.handed ++ [.handOn n] })) ∧
  (∀ (r : SlotRec) (x : Target) (front back : List Target), r.targets = front ++ x :: back →
     (∀ y ∈ front, y.pinned = false) → x.pinned = true → r.pinnedClass = x.cls)

/-- A leg becomes LAPSING, here with no claim waiting, a robot below the fault limit and a leg that is no RECOVER: it
keeps its deadline or, without one, is given one from now; the robot is FAULTED with the fault's kind and time and its
position unknown, its remaining legs removed, a robot of the open batch with outcome FAULTED; its zones stand; the
units stay in use until the deadline, and with the deadline passed the leg is ended and they come back at once (log
38; R111, R112, R115, R116). The failed transaction of an ISSUED leg's GO, of a RUNNING leg's poll and of a STOPPING
leg's readback make the leg lapse with NO_ANSWER; a failed poll of a leg that has left RUNNING and a failed readback
of a LAPSING leg change nothing (R111, R112, R114, R120). -/
def Obligations.LegLapses : Prop :=
  (∀ (s : State) (n : Nat) (g : Leg) (kind : FaultKind), n < 128 → (s.slot n).leg = some g → g.kind ≠ .recover →
     s.waitList = [] → (s.slot n).faultCount + 1 < s.settings.faultLimit →
     let t := s.lapse n g kind
     let d := g.deadline.getD (s.now + s.legDuration n g)
     (t.slot n).state = .faulted ∧ (t.slot n).fault = some { kind := kind, time := s.now } ∧
     (t.slot n).faultCount = (s.slot n).faultCount + 1 ∧ (t.slot n).position = none ∧ (t.slot n).remaining = [] ∧
     (∀ b, s.batch = .opened b → (s.slot n).batchFlag = true → (s.slot n).outcome = .none →
       (t.slot n).outcome = .faulted) ∧
     (s.now < d → (t.slot n).leg = some { g with stage := .lapsing, deadline := some d } ∧ t.gate = s.gate) ∧
     (d ≤ s.now → (t.slot n).leg = none ∧ t.gate = { s.gate with unitsInUse := s.gate.unitsInUse - g.units }) ∧
     (∀ m, m ≠ n → t.slot m = s.slot m) ∧ t.zones = s.zones ∧ t.lines = s.lines) ∧
  (∀ (s : State) (n : Nat) (g : Leg), (s.slot n).leg = some g →
     (g.stage = .issued → s.goFailed n g.id = s.lapse n g .noAnswer) ∧
     (g.stage = .running → s.pollFailed n g.id = s.lapse n g .noAnswer) ∧
     (g.stage = .stopping → s.readbackFailed n g.id = s.lapse n g .noAnswer) ∧
     (g.stage ≠ .running → s.pollFailed n g.id = s) ∧
     (g.stage = .lapsing → s.readbackFailed n g.id = s))

/-! ## The Start Gate (07) -/

/-- An issue scan: nothing while stop is in force or INHIBIT is asserted; with the front entry's line UP and its units
not free, nothing at all; a front entry whose line's normal queue is full is passed over (R130). An entry issued
leaves the queue, its units are in use, its GO stands at the back of its line's normal queue, whose arbiter chooses,
and its leg is ISSUED and its robot MOVING (R131), with halt cause STOP where the Move Planner has taken a stop event
that the Start Gate has not (R119).
An entry on a DOWN line, here with no claim waiting, leaves the queue with its leg ended, no units returned and the
trim run; a robot of the open batch without an outcome is REST with BLOCKED(LINE_DOWN) and its target unpinned, its
fault record and count as they were; and a scan follows (R132, R131).
A leg handed to the Start Gate joins its queue with the time base of now, behind its own and more urgent classes and
before less urgent ones; under stop it joins none and is ended as an entry at a stop event is (R128, R129, R13, R137;
Obligations.StopAtBlocks). -/
def Obligations.StartGateScans : Prop :=
  (∀ s : State,
     (s.pins.stop = true ∨ s.pins.inhibit = true → s.scan = s) ∧
     (∀ (e : StartEntry) (rest : List StartEntry), s.pins.stop = false → s.pins.inhibit = false →
       s.gate.startQueue = e :: rest → (s.line e.line).state = .up →
       ((s.line e.line).normal.length < 24 → s.gate.budget < s.gate.unitsInUse + e.units → s.scan = s) ∧
       (24 ≤ (s.line e.line).normal.length → s.scan = scanEntries s rest) ∧
       ((s.line e.line).normal.length < 24 → s.gate.unitsInUse + e.units ≤ s.gate.budget →
         s.scan = scanEntries (s.issueEntry e) rest)) ∧
     (∀ (e : StartEntry) (rest : List StartEntry), (s.line e.line).state = .down →
       scanEntries s (e :: rest) = scanEntries (s.blockEntry e) rest)) ∧
  (∀ (s : State) (n : Nat) (g : Leg), (s.slot n).leg = some g → g.stage = .queued →
     (s.pins.stop = true → s.takeHandOn n = s.turnAway n g) ∧
     (s.pins.stop = false → ∃ front back, s.gate.startQueue = front ++ back ∧
       s.takeHandOn n = State.scan { s with gate := { s.gate with startQueue := front ++
         { slot := n, kind := g.kind, units := g.units, line := (s.slot n).lineNo, cls := g.cls
           entryTime := s.now } :: back } } ∧
       (∀ e, front.getLast? = some e → e.cls ≤ g.cls) ∧ ∀ e, back.head? = some e → g.cls < e.cls)) ∧
  (∀ (s : State) (e : StartEntry) (g : Leg) (b : BatchRec), e.slot < 128 → (s.slot e.slot).leg = some g →
     g.stage = .queued → g.kind ≠ .recover → s.waitList = [] → s.batch = .opened b →
     (s.slot e.slot).batchFlag = true → (s.slot e.slot).outcome = .none →
     let t := s.blockEntry e
     t.slot e.slot =
       { s.slot e.slot with
         leg := none, remaining := [], outcome := .blocked .lineDown, state := .rest
         targets := (s.slot e.slot).targets.map fun x => if x.tag = b.tag then { x with pinned := false } else x } ∧
     (∀ m, m ≠ e.slot → t.slot m = s.slot m) ∧
     t.gate = { s.gate with startQueue := s.gate.startQueue.filter fun x => decide (x.slot ≠ e.slot) } ∧
     t.zones = (s.updateZones e.slot).zones ∧ t.lines = s.lines ∧ t.handed = s.handed ++ [.scan]) ∧
  (∀ (s : State) (e : StartEntry) (n : Nat) (g : Leg),
     ((s.slot n).leg = some g → s.turnAway n g = s.stopEntry n) ∧ scanEntries s [] = s ∧
     (s.pins.stop = false → s.pins.inhibit = false → s.scan = scanEntries s s.gate.startQueue) ∧
     ((s.slot e.slot).leg = some g → e.slot < 128 →
       let t : State := { s with gate := { s.gate with
         startQueue := s.gate.startQueue.filter fun x => decide (x.slot ≠ e.slot)
         unitsInUse := s.gate.unitsInUse + e.units } }
       s.issueEntry e =
         ((t.modLine e.line fun r =>
           { r with normal := r.normal ++
             [{ slot := e.slot, drop := (s.slot e.slot).dropNo
                body := .go g.axes g.finish.alpha g.finish.beta g.speed g.kind, owner := .leg g.id }] }).hand
           (.choose e.line)).modSlot e.slot fun r =>
             { r with
               state := .moving
               leg := some
                 { g with
                   stage := .issued
                   haltCause := if s.stopPassing = true then some .stop else g.haltCause
                   stopTime := if s.stopPassing = true then some (g.stopTime.getD s.now) else g.stopTime } }))

/-- A stop event raises STOP_TAKEN with its source and runs the part of every block once, in an order that nothing
constrains (log 6), what each hands on being taken before the next (log 6, log 29; that STOP_TAKEN is raised first is
log 12) (R135). The Move Planner's part is that of every slot, ascending (R119; log 19). The time that a leg keeps
with halt cause STOP is log 33.
The Claim Arbiter's part empties the wait list and changes no zone, the Start Gate's empties the start queue, front to
back: each batch robot of an entry is HELD with outcome STOPPED, its leg and remaining legs gone, its target unpinned
and kept, with the trim for a QUEUED leg, here with no claim waiting; no unit comes back; robots without an entry do
not change (R91, R137, R116; the batch has no fewer robots without an outcome than entries).
A line that is UP loses its GOs and gains a HALT_ALL, the rest of its record and every other line standing, each GO's
leg being handed to the Move Planner in queue order; a DOWN line gains a HALT_ALL, and a SILENT one does not change
(R159); the Segment Link Port answers a RECOVER and nothing else (R205; the slot in it is log 23). A leg whose GO is
discarded, here with no claim waiting, leaves its slot, its units come back at once (log 38), the trim runs on its
start, and its batch robot is settled in the same way (R119, R116).
By its stage a leg gets halt cause STOP when ISSUED or STOPPING; RUNNING it is STOPPING with its readback placed;
LAPSING on an UP line before its deadline it gets a readback; any other does not change; one issued after the Move
Planner's part and before the Start Gate's gets halt cause STOP (R119). -/
def Obligations.StopAtBlocks : Prop :=
  (∀ s : State,
     ((s.stopBlock .arbiter).waitList = [] ∧ (s.stopBlock .startGate).gate.startQueue = []) ∧
     s.stopBlock .arbiter =
       s.waitList.foldl (fun u e => u.recordOutcome e.slot .stopped) { s with waitList := [] } ∧
     s.stopBlock .startGate =
       s.gate.startQueue.foldl (fun u e => u.stopEntry e.slot)
         { s with stopPassing := false, gate := { s.gate with startQueue := [] } } ∧
     s.stopBlock .planner = (List.range 128).foldl (fun u n => u.stopLeg n) s ∧
     (∀ l : Fin 8,
       ((s.line l.val).state = .up →
         (s.stopBlock (.bus l)).line l.val =
           { s.line l.val with
             urgent := joinUrgent .haltAll (s.line l.val).urgent
             normal := (s.line l.val).normal.filter fun f => !f.isGo } ∧
         (∀ m, m ≠ l.val → (s.stopBlock (.bus l)).line m = s.line m) ∧
         s.stopBlock (.bus l) =
           ((s.line l.val).normal.filter BusFrame.isGo).foldl
             (fun t f => match f.owner with
               | .leg id => t.goDiscarded f.slot id
               | .poll _ => t
               | .readback _ => t
               | .probe => t
               | .measure => t
               | .noOne => t)
             ((s.modLine l.val fun r => { r with normal := r.normal.filter fun f => !f.isGo }).placeUrgent l.val
               .haltAll)) ∧
       ((s.line l.val).state = .down → s.stopBlock (.bus l) = s.placeUrgent l.val .haltAll) ∧
       ((s.line l.val).state = .silent → s.stopBlock (.bus l) = s) ∧
       UrgentFrame.haltAll ∈ ((s.placeUrgent l.val .haltAll).line l.val).urgent) ∧
     (∀ c n, s.link.current = some c → c.work = .recover n → s.outputRoom = true →
       s.stopBlock .link = ({ s with link := { s.link with current := none } } : State).answered c.tag c.code .stopped
         [BitVec.ofNat 8 n]) ∧
     ((∀ c n, s.link.current = some c → c.work ≠ .recover n) → s.stopBlock .link = s)) ∧
  (∀ (s : State) (b : BatchRec), s.batch = .opened b →
     let settled : SlotRec → SlotRec := fun r =>
       { r with
         leg := none, remaining := [], outcome := .stopped, state := .held
         targets := r.targets.map fun x => if x.tag = b.tag then { x with pinned := false } else x }
     let unsettled : Nat → Prop := fun n =>
       n < 128 ∧ (s.slot n).batchFlag = true ∧ (s.slot n).outcome = .none
     (b.arrived + b.blocked + b.faulted + b.stopped + s.waitList.length ≤ b.admitted →
       let t := s.stopBlock .arbiter
       t.zones = s.zones ∧ t.gate = s.gate ∧ t.lines = s.lines ∧
       (∀ m, (∀ e ∈ s.waitList, e.slot ≠ m) → t.slot m = s.slot m) ∧
       ∀ e ∈ s.waitList, unsettled e.slot → (∀ g, (s.slot e.slot).leg = some g → g.stage = .claiming) →
         t.slot e.slot = settled (s.slot e.slot)) ∧
     (b.arrived + b.blocked + b.faulted + b.stopped + s.gate.startQueue.length ≤ b.admitted → s.waitList = [] →
       let t := s.stopBlock .startGate
       t.gate = { s.gate with startQueue := [] } ∧ t.lines = s.lines ∧
       (∀ m, (∀ e ∈ s.gate.startQueue, e.slot ≠ m) → t.slot m = s.slot m) ∧
       ∀ e ∈ s.gate.startQueue, unsettled e.slot →
         (∃ g, (s.slot e.slot).leg = some g ∧ g.stage = .queued ∧ g.kind ≠ .recover) →
         t.slot e.slot = settled (s.slot e.slot)) ∧
     (∀ n g, unsettled n → (s.slot n).leg = some g → g.kind ≠ .recover → s.waitList = [] →
       (g.stage = .issued →
         let t := s.goDiscarded n g.id
         t.slot n = settled (s.slot n) ∧ (∀ m, m ≠ n → t.slot m = s.slot m) ∧
           t.gate = { s.gate with unitsInUse := s.gate.unitsInUse - g.units } ∧
           t.zones = (s.updateZones n).zones ∧ t.lines = s.lines) ∧
       (g.stage = .queued →
         let t := s.stopEntry n
         t.slot n = settled (s.slot n) ∧ (∀ m, m ≠ n → t.slot m = s.slot m) ∧ t.gate = s.gate ∧
           t.zones = (s.updateZones n).zones ∧ t.lines = s.lines))) ∧
  (∀ (s : State) (n : Nat) (g : Leg), n < 128 → (s.slot n).leg = some g →
     let halted : Leg := { g with haltCause := some .stop, stopTime := some (g.stopTime.getD s.now) }
     (g.stage = .issued ∨ g.stage = .stopping →
       s.stopLeg n = s.modSlot n fun r => { r with leg := some halted }) ∧
     (g.stage = .running →
       s.stopLeg n = (s.modSlot n fun r => { r with leg := some { halted with stage := .stopping } }).placeReadback n
         g) ∧
     (∀ d, g.stage = .lapsing → g.deadline = some d →
       s.stopLeg n = if (s.line (s.slot n).lineNo).state = .up ∧ s.now < d then s.placeReadback n g else s) ∧
     (g.stage = .claiming ∨ g.stage = .queued → s.stopLeg n = s)) ∧
  (∀ (s : State) (e : StartEntry) (g : Leg), e.slot < 128 → (s.slot e.slot).leg = some g → s.stopPassing = true →
     ((s.issueEntry e).slot e.slot).leg =
       some { g with stage := .issued, haltCause := some .stop, stopTime := some (g.stopTime.getD s.now) }) ∧
  ((∀ (s : State) (source : StopSource), s.stopEvent source =
      stopBlocks (({ s with stopOrders := s.stopOrders.tail } : State).raise
          (.stopTaken 1 (if source = .line then 1 else 2)))
        (fullOrder (s.stopOrders.head?.getD []))) ∧
   (∀ (order : List StopBlock) (block : StopBlock), (fullOrder order).count block = 1) ∧
   (∀ s : State, stopBlocks s [] = s) ∧
   (∀ (s : State) (block : StopBlock) (rest : List StopBlock),
      let passing := decide (block = .planner ∧ .startGate ∈ rest) || s.stopPassing
      stopBlocks s (block :: rest) =
        stopBlocks ((({ s with stopPassing := passing } : State).stopBlock block).drain Config.settleFuel) rest)) ∧
  ((∀ f : BusFrame, f.isGo = true ↔ ∃ id, f.owner = .leg id) ∧
   (∀ (s : State) (l : Nat) (f : UrgentFrame),
      s.placeUrgent l f = (s.modLine l fun r => { r with urgent := joinUrgent f r.urgent }).hand (.choose l)) ∧
   (∀ (f : UrgentFrame) (q : List UrgentFrame), joinUrgent f q = if f ∈ q then q else q ++ [f]) ∧
   (∀ (s : State) (k : Nat), s.drain 0 = s ∧ (s.handed = [] → s.drain (k + 1) = s) ∧
      ∀ e rest, s.handed = e :: rest →
        s.drain (k + 1) = (({ s with handed := rest } : State).takeHanded e).drain k))

/-! ## Robot bus lines (08) -/

/-- Reading a driver's answer gives it back when the frame in transaction admits it, for every drop, every counts,
every page and every reason. With another drop, another check value, the broadcast mark set, a kind the frame does not
allow, a kind that is no answer's, a payload length that is not the kind's, a length byte that is not the payload's,
or another start byte it is no valid answer (R143, R144, R213; that this holds of the last two, the start byte and the
length byte, is the model's choice, log 34). The layout of a robot bus frame, its check value bit by bit with the
generator 07h and the starting value 00h, the payloads of the frames and answers, and the answers that each frame
admits are those of R142 to R144 and R213. -/
def Obligations.BusAnswerReadBack : Prop :=
  (∀ (f : BusFrame) (a : BusAnswer) (drop : Nat), drop < 16 →
     (f.drop = drop → f.body.admits a = true → validAnswer? f (a.bytes drop) = some a) ∧
     (f.drop ≠ drop → validAnswer? f (a.bytes drop) = none) ∧
     (f.body.admits a = false → validAnswer? f (a.bytes drop) = none) ∧
     ∀ c : Byte, c ≠ crc8 ((a.bytes drop).tail.dropLast) →
       validAnswer? f ((a.bytes drop).dropLast ++ [c]) = none) ∧
  (∀ (f : BusFrame) (start drop kind len : Byte) (rest : List Byte),
     (start ≠ 0x96 → validAnswer? f (start :: drop :: kind :: len :: rest) = none) ∧
     (drop.getLsbD 7 = true → validAnswer? f (start :: drop :: kind :: len :: rest) = none) ∧
     (rest.length ≠ len.toNat + 1 → validAnswer? f (start :: drop :: kind :: len :: rest) = none) ∧
     ((kind = 0x81 ∧ len ≠ 0) ∨ (kind = 0x82 ∧ len ≠ 5) ∨ (kind = 0x83 ∧ len ≠ 9) ∨ (kind = 0x84 ∧ len ≠ 1) ∨
         kind ∉ [0x81, 0x82, 0x83, 0x84] →
       validAnswer? f (start :: drop :: kind :: len :: rest) = none)) ∧
  (∀ (f : BusFrame) (a : BusAnswer) (drop kind : Nat) (first : Byte) (payload : List Byte),
     busBytes first kind payload =
       0x96 :: ([first, BitVec.ofNat 8 kind, BitVec.ofNat 8 payload.length] ++ payload ++
         [crc8 ([first, BitVec.ofNat 8 kind, BitVec.ofNat 8 payload.length] ++ payload)]) ∧
     a.bytes drop = busBytes (BitVec.ofNat 8 (drop % 16)) a.code a.payload ∧
     f.bytes = busBytes (BitVec.ofNat 8 (f.drop % 16)) f.body.code f.body.payload ∧ haltAllBytes = busBytes 0x80 4 []) ∧
  (crc8 [] = 0 ∧
    ∀ (bytes : List Byte) (b : Byte),
      let bit : Byte → Byte := fun c => if c.getLsbD 7 = true then (c <<< 1) ^^^ 0x07#8 else c <<< 1
      crc8 (bytes ++ [b]) = Nat.repeat bit 8 (crc8 bytes ^^^ b)) ∧
  ((∀ (axes : Axes) (alpha beta n : Nat) (speed : Speed) (kind : LegKind),
      [FrameBody.go axes alpha beta speed kind, .ask, .halt, .page n, .setCount alpha beta].map
          (fun f => (f.code, f.payload)) =
        [(1, b1 axes.code ++ b2 alpha ++ b2 beta ++ b1 speed.code), (2, []), (3, []), (5, b1 n),
          (6, b2 alpha ++ b2 beta)] ∧
      axes.code = (match axes with
        | .alpha => 0
        | .beta => 1
        | .both => 2) ∧
      speed.code = if speed = .slow then 1 else 0) ∧
   (∀ (run : RunState) (x y : Word) (k d0 d1 d2 d3 d4 d5 d6 d7 reason : Byte),
      [BusAnswer.taken, .state run x y, .pageData k d0 d1 d2 d3 d4 d5 d6 d7, .refused reason].map
          (fun a => (a.code, a.payload)) =
        [(0x81, []), (0x82, b1 (runCode run) ++ bw x ++ bw y), (0x83, [k, d0, d1, d2, d3, d4, d5, d6, d7]),
          (0x84, [reason])] ∧
      [RunState.idle, .running, .arrived, .stalled].map runCode = [0, 1, 2, 3] ∧
      ∀ (body : FrameBody), [BusAnswer.taken, .state run x y, .pageData k d0 d1 d2 d3 d4 d5 d6 d7, .refused reason].map
          body.admits =
        match body with
        | .go _ _ _ _ _ => [true, false, false, true]
        | .ask => [false, true, false, false]
        | .halt => [true, false, false, true]
        | .page _ => [false, false, true, true]
        | .setCount _ _ => [true, false, false, true]))

/-- The choice of a line's arbiter: none while a frame is sent or answered; on a DOWN line only a HALT_ALL, which leaves
the urgent queue and is sent without a transaction (R153), on a SILENT line none; on an UP line by the first row of R151
that applies. Where a poll is due, one is taken: it goes to the smallest due slot above the cursor, or to the smallest,
also with the cursor absent (R150). What each choice does to the line: a poll moves the cursor to its slot, clears the
turn and begins the transaction of an ASK to the slot's drop with the leg as owner; a HALT begins a transaction, a
HALT_ALL none, and both leave the turn; a normal frame begins a transaction, clears the turn, lets waiting frames join
up to 24, and an issue scan follows (R148, R150 to R153). -/
def Obligations.ArbiterChoice : Prop :=
  ∀ (s : State) (l : Nat), l < 8 →
    ((s.line l).txn.isSome = true ∨ (s.line l).sendingHaltAll = true → s.choose l = s) ∧
    ((s.line l).state = .silent → s.choose l = s) ∧
    ((s.line l).state = .down → UrgentFrame.haltAll ∉ (s.line l).urgent → s.choose l = s) ∧
    ((s.line l).state = .down → UrgentFrame.haltAll ∈ (s.line l).urgent → (s.line l).txn = none →
      (s.line l).sendingHaltAll = false →
      s.choose l = s.modLine l fun r =>
        { r with urgent := r.urgent.filter fun f => decide (f ≠ .haltAll), sendingHaltAll := true }) ∧
    ((s.line l).txn = none → (s.line l).sendingHaltAll = false → (s.line l).state = .up →
      (∀ f rest, (s.line l).urgent = f :: rest → s.choose l = s.takeUrgent l f rest) ∧
      ((s.line l).urgent = [] →
        (∀ n, (s.line l).pollTurn = true → nextPoll (s.line l).pollCursor (s.pollsDue l) = some n →
          s.choose l = s.takePoll l n) ∧
        (∀ f rest, (s.line l).pollTurn = false ∨ s.pollsDue l = [] → (s.line l).normal = f :: rest →
          s.choose l = s.takeNormal l f rest) ∧
        (∀ n, (s.line l).normal = [] → nextPoll (s.line l).pollCursor (s.pollsDue l) = some n →
          s.choose l = s.takePoll l n) ∧
        ((s.line l).normal = [] → s.pollsDue l = [] → s.choose l = s))) ∧
    (∀ c n, nextPoll (some c) (s.pollsDue l) = some n →
      n ∈ s.pollsDue l ∧ ((c < n ∧ ∀ m ∈ s.pollsDue l, c < m → n ≤ m) ∨
        ((∀ m ∈ s.pollsDue l, m ≤ c) ∧ ∀ m ∈ s.pollsDue l, n ≤ m))) ∧
    (s.pollsDue l ≠ [] → ∀ c, ∃ n, nextPoll c (s.pollsDue l) = some n) ∧
    (∀ n, nextPoll none (s.pollsDue l) = some n → n ∈ s.pollsDue l ∧ ∀ m ∈ s.pollsDue l, n ≤ m) ∧
    (∀ n, ((s.takePoll l n).line l).pollCursor = some n ∧ ((s.takePoll l n).line l).pollTurn = false) ∧
    (∀ n g, (s.slot n).leg = some g →
      s.takePoll l n = s.modLine l fun r =>
        { r with
          pollCursor := some n
          pollTurn := false
          txn := some
            { frame := { slot := n, drop := (s.slot n).dropNo, body := .ask, owner := .poll g.id }
              attempt := .first, fromNormal := false, window := none } }) ∧
    (∀ rest, s.takeUrgent l .haltAll rest = s.modLine l fun r => { r with urgent := rest, sendingHaltAll := true }) ∧
    (∀ d rest, s.takeUrgent l (.halt d) rest = s.modLine l fun r =>
      { r with
        urgent := rest
        txn := some
          { frame := { slot := 0, drop := d, body := .halt, owner := .noOne }
            attempt := .first, fromNormal := false, window := none } }) ∧
    (∀ f rest, s.takeNormal l f rest = (s.modLine l fun r =>
      { r with
        normal := rest ++ r.waiting.take (24 - rest.length)
        waiting := r.waiting.drop (24 - rest.length)
        pollTurn := false
        txn := some { frame := f, attempt := .first, fromNormal := true, window := none } }).hand .scan)

/-- FRAME_SENDING_ENDS: the answer window of 4 ms starts, and for an ASK the slot's last-ASK time is now (R152, R149;
written as the sending ends: log 9). With no frame being sent nothing changes (log 3).
HALT_ALL_SENT: the line is free again, here with nothing for its arbiter to choose (R153); with no HALT_ALL being sent
nothing changes (log 3). WAITING_FRAME_JOIN: the front waiting frame joins the normal queue when it has room, here
while a frame is in flight (R148; log 22); with no room nothing changes (log 3). POLL_INTERVAL_EXPIRY: with a poll due
for the slot one is taken on its line, here on a free UP line whose normal queue is empty, and the poll is due once
the slot's last ASK is 25 ms old or absent while its leg is RUNNING (R149, R150; the transaction it begins is stated
in Obligations.ArbiterChoice). That the expiry takes effect at any time at the interval or past it is the model's
choice (log 5), as is that one with no poll due changes nothing (log 3). The last-ASK times stand one for each slot,
and the slots with a poll due ascending (R149).
A frame received with no answer window open is discarded with no effect on any record, whatever it is and by whichever
of the three commands it comes (R143; log 26). -/
def Obligations.LineEvents : Prop :=
  (∀ (s : State) (l : Fin 8),
     (∀ t, (s.line l.val).txn = some t → t.window = none →
       exec (.frameSendingEnds l) s = .next (s.modLine l.val fun r =>
         { r with
           txn := some { t with window := some (s.now + 4) }
           lastAsk := if t.frame.body = .ask then writeLastAsk t.frame.slot s.now r.lastAsk else r.lastAsk })) ∧
     ((∀ t, (s.line l.val).txn = some t → t.window ≠ none) → exec (.frameSendingEnds l) s = .next s)) ∧
  (∀ (s : State), s.quiet = true →
     (∀ l : Fin 8,
       ((s.line l.val).sendingHaltAll = true → (s.line l.val).txn = none → (s.line l.val).urgent = [] →
         (s.line l.val).normal = [] → s.pollsDue l.val = [] →
         exec (.haltAllSent l) s = .next (s.modLine l.val fun r => { r with sendingHaltAll := false })) ∧
       ((s.line l.val).sendingHaltAll = false → exec (.haltAllSent l) s = .next s)) ∧
     (∀ (l : Fin 8) (f : BusFrame) (rest : List BusFrame), (s.line l.val).waiting = f :: rest →
       ((s.line l.val).normal.length < 24 → (s.line l.val).txn.isSome = true →
         exec (.waitingFrameJoin l) s =
           .next (s.modLine l.val fun r => { r with normal := r.normal ++ [f], waiting := rest })) ∧
       (24 ≤ (s.line l.val).normal.length → exec (.waitingFrameJoin l) s = .next s)) ∧
     (∀ n : Fin 128,
       ((s.slot n.val).onLine (s.slot n.val).lineNo = true → s.pollDue (s.slot n.val).lineNo n.val = true →
         (s.line (s.slot n.val).lineNo).state = .up → (s.line (s.slot n.val).lineNo).txn = none →
         (s.line (s.slot n.val).lineNo).sendingHaltAll = false → (s.line (s.slot n.val).lineNo).urgent = [] →
         (s.line (s.slot n.val).lineNo).normal = [] →
         ∃ m, nextPoll (s.line (s.slot n.val).lineNo).pollCursor (s.pollsDue (s.slot n.val).lineNo) = some m ∧
           exec (.pollIntervalExpiry n) s = .next (s.takePoll (s.slot n.val).lineNo m)) ∧
       (s.pollDue (s.slot n.val).lineNo n.val = false → exec (.pollIntervalExpiry n) s = .next s))) ∧
  (∀ (s : State) (l : Fin 8), s.quiet = true → (∀ t, (s.line l.val).txn = some t → t.window = none) →
     (∀ bytes, exec (.busFrameDiscarded l bytes) s = .next s) ∧ (∀ bytes, exec (.corruptAnswer l bytes) s = .next s) ∧
     ∀ drop a, exec (.validAnswer l drop a) s = .next s) ∧
  (∀ (s : State) (l n : Nat),
     (s.pollDue l n = true ↔
       (∃ g, (s.slot n).leg = some g ∧ g.stage = .running) ∧
         ∀ t, (s.line l).lastAskOf n = some t → t + 25 ≤ s.now) ∧
     (s.pollsDue l).Pairwise (· < ·) ∧
     (n ∈ s.pollsDue l ↔ n < 128 ∧ (s.slot n).onLine l = true ∧ s.pollDue l n = true) ∧
     ((s.slot n).onLine l = true ↔
       (s.slot n).state ≠ .vacant ∧ ∃ a, (s.slot n).addr = some a ∧ a.line = l)) ∧
  (∀ (r : LineRec) (n t m : Nat),
     ({ r with lastAsk := writeLastAsk n t r.lastAsk } : LineRec).lastAskOf m =
       if m = n then some t else r.lastAskOf m)

/-- ANSWER_WINDOW_EXPIRY at its deadline and CORRUPT_ANSWER end the attempt. After attempt 1 the same frame is sent
again with attempt 2 and nothing else changes. After attempt 2 the transaction fails: its drop stands in the failure
run once, and with three drops in it the line is DOWN; no other line's state or failure run changes, shown with no
control frame waiting (R152, R155, R163). As the transaction ends, before what follows is taken, the poll turn is set
when its frame came from the normal queue and stands otherwise, and a line that goes DOWN has it clear (R150, R163). The
failure is handed to the frame's owner after the failure run is written and before the line goes DOWN or its arbiter
chooses: a leg's GO, its poll or its readback to that leg, a probe's frame to the probe, a SETCOUNT to the list, a HALT
to nobody (R155). That bytes which are no robot bus frame of R213 are a corrupt answer too is the model's choice (log
34). That a window's expiry before its deadline changes nothing is the model's choice (log 3), as is that one comes at
any time at the deadline or past it (log 5). -/
def Obligations.AttemptEnds : Prop :=
  (∀ (s : State) (l : Fin 8) (t : Txn), (s.line l.val).txn = some t →
    (∀ d, s.quiet = true → t.window = some d → s.now < d → exec (.answerWindowExpiry l) s = .next s) ∧
    (∀ (d : Nat) (c : Instr), t.window = some d →
      (c = .answerWindowExpiry l ∧ d ≤ s.now) ∨
        (∃ bytes, c = .corruptAnswer l bytes ∧ validAnswer? t.frame bytes = none) →
      (t.attempt = .first → s.quiet = true →
        exec c s =
          .next (s.modLine l.val fun r => { r with txn := some { t with attempt := .second, window := none } })) ∧
      (t.attempt = .second →
        exec c s = .next (s.txnFails l.val t).rest ∧ ((s.txnFails l.val t).line l.val).txn = none ∧
          ((s.txnFails l.val t).line l.val).pollTurn =
            (if 3 ≤ ((s.txnFails l.val t).line l.val).failureRun.length then false
             else (s.line l.val).pollTurn || t.fromNormal)) ∧
      (t.attempt = .second → s.link.control = [] →
        ∃ u, exec c s = .next u ∧
          (u.line l.val).failureRun =
            (if t.frame.drop ∈ (s.line l.val).failureRun then (s.line l.val).failureRun
             else (s.line l.val).failureRun ++ [t.frame.drop]) ∧
          (u.line l.val).state =
            (if 3 ≤ (u.line l.val).failureRun.length then .down else (s.line l.val).state) ∧
          u.gate.budget = s.gate.budget ∧ u.pins = s.pins ∧ u.now = s.now ∧
          ∀ m, m ≠ l.val → (u.line m).state = (s.line m).state ∧ (u.line m).failureRun = (s.line m).failureRun))) ∧
  (∀ (s : State) (l : Nat) (t : Txn), s.txnFails l t =
     let u := (s.modLine l fun r =>
       { r with
         txn := none
         pollTurn := r.pollTurn || t.fromNormal
         failureRun := if t.frame.drop ∈ r.failureRun then r.failureRun else r.failureRun ++ [t.frame.drop]
         }).ownerFailed l t.frame
     if 3 ≤ (u.line l).failureRun.length then u.lineGoesDown l else u.hand (.choose l)) ∧
  (∀ (s : State) (l : Nat) (f : BusFrame),
     (∀ id, f.owner = .leg id → s.ownerFailed l f = s.goFailed f.slot id) ∧
     (∀ id, f.owner = .poll id → s.ownerFailed l f = s.pollFailed f.slot id) ∧
     (∀ id, f.owner = .readback id → s.ownerFailed l f = s.readbackFailed f.slot id) ∧
     (f.owner = .probe → s.ownerFailed l f = s.probeFailed l f) ∧
     (f.owner = .measure → s.ownerFailed l f = s.measureFailed f) ∧
     (f.owner = .noOne → s.ownerFailed l f = s))

/-- VALID_ANSWER from the drop of the frame in transaction, of a kind it admits: the transaction ends, the failure run
is empty and no other line's state or failure run changes, shown with no control frame waiting (R154). As it ends,
before what follows is taken, the poll turn is set when its frame came from the normal queue and stands otherwise
(R150). A HALT's answer changes no leg: with the line then free and nothing to choose, the line alone changes, a
REFUSED being noted as the last refusal (R154). The answer is handed to the frame's owner after the line's record is
written and before the arbiter chooses: TAKEN and REFUSED to the leg of the GO, a STATE to the leg of the poll or of
the readback, any answer to the probe or to the measurement list, and a HALT's to nobody (R154).
VALID_ANSWER TAKEN to a leg's GO: the leg is RUNNING with its deadline set to now plus its duration, and no other
slot and no zone changes, here with no urgent and no normal frame waiting on the line (R107, R154). -/
def Obligations.ValidAnswer : Prop :=
  (∀ (s : State) (l : Fin 8) (drop : Fin 16) (a : BusAnswer) (t : Txn), (s.line l.val).txn = some t →
     t.window.isSome = true → t.frame.drop = drop.val → t.frame.body.admits a = true →
     (exec (.validAnswer l drop a) s = .next (s.txnSucceeds l.val t a).rest ∧
       ((s.txnSucceeds l.val t a).line l.val).txn = none ∧
       ((s.txnSucceeds l.val t a).line l.val).pollTurn = ((s.line l.val).pollTurn || t.fromNormal)) ∧
     (s.link.control = [] →
       ∃ u, exec (.validAnswer l drop a) s = .next u ∧ (u.line l.val).failureRun = [] ∧
         (u.line l.val).state = (s.line l.val).state ∧ u.gate.budget = s.gate.budget ∧ u.pins = s.pins ∧
         u.now = s.now ∧
         ∀ m, m ≠ l.val → (u.line m).state = (s.line m).state ∧ (u.line m).failureRun = (s.line m).failureRun) ∧
     (s.quiet = true → t.frame.owner = .noOne → t.frame.body = .halt →
       (s.line l.val).urgent = [] → (s.line l.val).normal = [] → s.pollsDue l.val = [] →
       exec (.validAnswer l drop a) s = .next (s.modLine l.val fun r =>
         { r with
           txn := none
           failureRun := []
           pollTurn := r.pollTurn || t.fromNormal
           lastRefusal := match a with
             | .refused reason => some { drop := drop.val, kind := 3, reason := reason.toNat }
             | .taken => r.lastRefusal
             | .state _ _ _ => r.lastRefusal
             | .pageData _ _ _ _ _ _ _ _ _ => r.lastRefusal }))) ∧
  (∀ (s : State) (l : Fin 8) (drop : Fin 16) (t : Txn) (n : Nat) (g : Leg), s.quiet = true →
     (s.line l.val).txn = some t → t.window.isSome = true → t.frame.drop = drop.val → t.frame.slot = n →
     t.frame.owner = .leg g.id → t.frame.body = .go g.axes g.finish.alpha g.finish.beta g.speed g.kind → n < 128 →
     (s.slot n).leg = some g → g.stage = .issued → g.haltCause = none →
     (s.line l.val).urgent = [] → (s.line l.val).normal = [] → (s.line l.val).waiting = [] →
       ∃ u, exec (.validAnswer l drop .taken) s = .next u ∧
         u.slot n =
           { s.slot n with
             leg := some { g with stage := .running, deadline := some (s.now + s.legDuration n g) } } ∧
         (∀ m, m ≠ n → u.slot m = s.slot m) ∧ u.zones = s.zones ∧ u.gate = s.gate ∧ u.link = s.link) ∧
  (∀ (s : State) (l : Nat) (t : Txn) (a : BusAnswer), s.txnSucceeds l t a =
     ((s.modLine l fun r =>
       { r with
         txn := none
         failureRun := []
         pollTurn := r.pollTurn || t.fromNormal
         lastRefusal := match a with
           | .refused reason => some { drop := t.frame.drop, kind := t.frame.body.code, reason := reason.toNat }
           | .taken => r.lastRefusal
           | .state _ _ _ => r.lastRefusal
           | .pageData _ _ _ _ _ _ _ _ _ => r.lastRefusal }).ownerAnswered l t.frame a).hand (.choose l)) ∧
  (∀ (s : State) (l : Nat) (f : BusFrame) (a : BusAnswer),
     (∀ id, f.owner = .leg id →
       s.ownerAnswered l f .taken = s.goTaken f.slot id ∧
         ∀ reason, s.ownerAnswered l f (.refused reason) = s.goRefused f.slot id) ∧
     (∀ id run x y, f.owner = .poll id →
       s.ownerAnswered l f (.state run x y) = s.stateTaken f.slot id false run x.toNat y.toNat) ∧
     (∀ id run x y, f.owner = .readback id →
       s.ownerAnswered l f (.state run x y) = s.stateTaken f.slot id true run x.toNat y.toNat) ∧
     (f.owner = .probe → s.ownerAnswered l f a = s.probeAnswered l f a) ∧
     (f.owner = .measure → s.ownerAnswered l f a = s.measureAnswered f a) ∧
     (f.owner = .noOne → s.ownerAnswered l f a = s))

/-- A line goes DOWN: its state is DOWN, its urgent queue keeps a HALT_ALL and loses every HALT, its normal queue and
the frames waiting for room are gone, its poll turn is clear, and the rest of its record and every other line stand;
drive units stay within the budget (R163). With the record written, each probe frame and SETCOUNT that left the normal
queue or waited for room is reported to its owner as failed, front to back, and no other frame; then every leg of a
robot on the line, in ascending slot order (log 19), is settled; LINE_DOWN is raised for the line; and the arbiter
chooses and the Start Gate scans (R163).
What a line going DOWN does to a leg by its stage: an ISSUED leg ends with LINE_DOWN and its position unchanged; a
RUNNING or STOPPING leg lapses with LINE_DOWN, as Obligations.LegLapses says; no other leg changes (R115). -/
def Obligations.LineGoesDown : Prop :=
  (∀ (s : State) (l : Nat), l < 8 →
     (s.lineGoesDown l).line l =
       { s.line l with
         state := .down, urgent := (s.line l).urgent.filter fun f => f == .haltAll, normal := [], waiting := []
         pollTurn := false } ∧
     (∀ m, m ≠ l → (s.lineGoesDown l).line m = s.line m) ∧
     (s.gate.unitsInUse ≤ s.gate.budget →
       (s.lineGoesDown l).gate.unitsInUse ≤ (s.lineGoesDown l).gate.budget)) ∧
  (∀ (s : State) (n : Nat) (g : Leg), (s.slot n).leg = some g →
     (g.stage = .issued → s.lineDownLeg n = s.legFaulted n g .lineDown .unchanged) ∧
     (g.stage = .running ∨ g.stage = .stopping → s.lineDownLeg n = s.lapse n g .lineDown) ∧
     (g.stage = .claiming ∨ g.stage = .queued ∨ g.stage = .lapsing → s.lineDownLeg n = s)) ∧
  (∀ (s : State) (l : Nat),
     let lost := ((s.line l).normal ++ (s.line l).waiting).foldl
       (fun u f => match f.owner with
         | .probe => u.probeFailed l f
         | .measure => u.measureFailed f
         | .leg _ => u
         | .poll _ => u
         | .readback _ => u
         | .noOne => u)
       (s.modLine l fun r =>
         { r with
           state := .down, urgent := r.urgent.filter fun f => f == .haltAll, normal := [], waiting := []
           pollTurn := false })
     s.lineGoesDown l =
       (((((lost.slotsOn l).foldl (fun u n => u.lineDownLeg n) lost).raise (.lineDown (1#8 <<< l))).hand
         (.choose l)).hand .scan) ∧
     (lost.slotsOn l).Pairwise (· < ·) ∧
     ∀ n, n ∈ lost.slotsOn l ↔
       n < 128 ∧ (lost.slot n).state ≠ .vacant ∧ ∃ a, (lost.slot n).addr = some a ∧ a.line = l)

/-! ## Probe, measurement, recovery (09) -/

/-- PROBE: the refusals of R169 in order, and NOTHING for all slots with every slot VACANT; a PROBE of one slot that
passes, on an idle UP line with no leg queued, becomes current, makes its robot PROBING and sends PAGE(0) (R169 to
R171). A PROBE of a slot on a SILENT line is answered at once with it failed SILENT (that the first failure has one
presence byte, which is 1, is log 13); so is a PROBE of all with every line SILENT, with every slot on a line failed
and the lowest the first failure; no robot changes (R170, R176). A PROBE of all with every line UP and idle, every
slot on one ready for it and no leg queued, takes up the lowest slot of every line as above, the line's other slots
still to visit (R169 to R171). -/
def Obligations.Probe : Prop :=
  ∀ (s : State) (tag slot : Byte), s.planReady = true →
    (slot = 255 → (∀ n, n < 128 → (s.slot n).state = .vacant) →
      exec (.probe tag slot) s = .next (s.answered tag 0x30 .nothing [])) ∧
    (slot ≠ 255 → 127 < slot.toNat → exec (.probe tag slot) s = .next (s.answered tag 0x30 .badRequest [])) ∧
    (slot.toNat ≤ 127 → (s.slot slot.toNat).state = .vacant →
      exec (.probe tag slot) s = .next (s.answered tag 0x30 .noRobot [])) ∧
    (slot.toNat ≤ 127 → (s.slot slot.toNat).state ≠ .vacant → (s.slot slot.toNat).probeable = false →
      exec (.probe tag slot) s = .next (s.answered tag 0x30 .state [])) ∧
    (∀ l, slot.toNat ≤ 127 → (s.slot slot.toNat).probeable = true → (s.slot slot.toNat).lineNo = l → l < 8 →
      (s.line l).state = .up → s.lineIdle l → (s.line l).pollTurn = false → s.gate.startQueue = [] →
      ∃ (t : State) (p : ProbeRec), exec (.probe tag slot) s = .next t ∧
        t.link = s.link.doing { code := 0x30, tag := tag, work := .probe p } ∧
        (p.line l).inHand = some slot.toNat ∧ p.ok = 0 ∧ p.failed = 0 ∧ p.skipped = 0 ∧ p.cancelled = false ∧
        t.slot slot.toNat = { s.slot slot.toNat with state := .probing } ∧
        (∀ n, n ≠ slot.toNat → t.slot n = s.slot n) ∧
        (t.line l).txn = some
          { frame := { slot := slot.toNat, drop := (s.slot slot.toNat).dropNo, body := .page 0, owner := .probe }
            attempt := .first, fromNormal := true, window := none } ∧
        t.gate = s.gate ∧ t.zones = s.zones) ∧
    (∀ l, slot.toNat ≤ 127 → (s.slot slot.toNat).probeable = true → (s.slot slot.toNat).lineNo = l → l < 8 →
      (s.line l).state = .silent →
      exec (.probe tag slot) s =
        .next (s.answered tag 0x30 .ok (b2 0 ++ b2 1 ++ b2 0 ++ b2 1 ++ [1, slot, 8]))) ∧
    (∀ n, slot = 255 → (∀ l, l < 8 → (s.line l).state = .silent) → n < 128 →
      (∃ l, l < 8 ∧ (s.slot n).onLine l = true) → (∀ m l, m < n → l < 8 → (s.slot m).onLine l = false) →
      let k := (lineNumbers.map fun l => (s.slotsOn l).length).sum
      exec (.probe tag slot) s =
        .next (s.answered tag 0x30 .ok (b2 0 ++ b2 k ++ b2 0 ++ b2 k ++ [1, BitVec.ofNat 8 n, 8]))) ∧
    (slot = 255 → (∃ l, l < 8 ∧ s.slotsOn l ≠ []) → s.gate.startQueue = [] →
      (∀ l, l < 8 → (s.line l).state = .up ∧ s.lineIdle l ∧ (s.line l).pollTurn = false ∧
        ∀ n ∈ s.slotsOn l, (s.slot n).probeable = true) →
      ∃ (t : State) (p : ProbeRec), exec (.probe tag slot) s = .next t ∧
        t.link = s.link.doing { code := 0x30, tag := tag, work := .probe p } ∧ p.all = true ∧
        p.ok = 0 ∧ p.failed = 0 ∧ p.skipped = 0 ∧ p.silent = 0 ∧ p.cancelled = false ∧
        (∀ l, l < 8 → (p.line l).inHand = (s.slotsOn l).head? ∧ (p.line l).todo = (s.slotsOn l).tail ∧
          (t.line l).txn = (s.slotsOn l).head?.map fun n =>
            { frame := { slot := n, drop := (s.slot n).dropNo, body := .page 0, owner := .probe }
              attempt := .first, fromNormal := true, window := none }) ∧
        (∀ n, n < 128 → (∃ l, l < 8 ∧ (s.slotsOn l).head? = some n) →
          t.slot n = { s.slot n with state := .probing }) ∧
        (∀ n, (∀ l, l < 8 → (s.slotsOn l).head? ≠ some n) → t.slot n = s.slot n) ∧
        t.gate = s.gate ∧ t.zones = s.zones)

/-- How a probe reads the slot in hand on an UP line (R172, R173, R17). A page's data is kept and the next page
offered when its page kind and serial or speed are right; a wrong kind or a speed of 0 on pages 0 to 2 fails the slot
with BAD_PAGES, a serial that differs from the expected one with WRONG_ROBOT; END on pages 3 to 7, and any answer to
page 7, end page reading, the identity being written as a whole with the number of pages that were not END; a REFUSED
fails pages 0 to 2 and ends page reading from page 3 on. Then an ASK is offered. Its STATE with run state RUNNING
places a HALT and offers a second ASK; any other STATE, and any to the second ASK, ends the slot successfully. A
failed transaction fails the slot with NO_ANSWER (R174). A frame of a slot that is not in hand on the line changes
nothing (R154). -/
def Obligations.ProbeProceeds : Prop :=
  (∀ (s : State) (l n drop : Nat) (q : ProbeLine), s.probeInHand l n = some q → (s.line l).state = .up →
     let frame : FrameBody → BusFrame := fun body => { slot := n, drop := drop, body := body, owner := .probe }
     let offer : State → FrameBody → State := fun t body =>
       (t.modLine l fun r =>
         r.offer { slot := n, drop := (s.slot n).dropNo, body := body, owner := .probe }).hand (.choose l)
     let keep : ProbeLine → State := fun w => s.modProbe fun p => p.setLine l w
     let identified : Nat → State := fun pages => s.modSlot n fun r =>
       { r with
         identity := some
           { serial := q.serial, revision := q.revision, alphaSpeed := q.alphaSpeed, betaSpeed := q.betaSpeed
             pages := pages } }
     (∀ kind d0 d1 d2 d3 d4 d5 d6 d7 : Byte,
       let took : Nat → State := fun k => s.probeAnswered l (frame (.page k)) (.pageData kind d0 d1 d2 d3 d4 d5 d6 d7)
       took 0 = (
         if kind ≠ 1 then s.probeFail l n .badPages
         else if (s.slot n).expectedSerial ≠ none ∧ (s.slot n).expectedSerial ≠ some (serial4 d0 d1 d2 d3) then
           s.probeFail l n .wrongRobot
         else offer (keep { q with
           serial := serial4 d0 d1 d2 d3, revision := (word d4 d5).toNat, page := 1
           pages := q.pages + 1 }) (.page 1)) ∧
       took 1 = (
         if kind = 2 ∧ 1 ≤ (word d0 d1).toNat then
           offer (keep { q with alphaSpeed := (word d0 d1).toNat, page := 2, pages := q.pages + 1 }) (.page 2)
         else s.probeFail l n .badPages) ∧
       took 2 = (
         if kind = 3 ∧ 1 ≤ (word d0 d1).toNat then
           offer (keep { q with betaSpeed := (word d0 d1).toNat, page := 3, pages := q.pages + 1 }) (.page 3)
         else s.probeFail l n .badPages) ∧
       (∀ k, 3 ≤ k → k ≤ 6 → kind ≠ 0 →
         took k = offer (keep { q with page := k + 1, pages := q.pages + 1 }) (.page (k + 1))) ∧
       (∀ k, 3 ≤ k → k ≤ 7 → kind = 0 → took k = offer (identified q.pages) .ask) ∧
       (kind ≠ 0 → took 7 = offer (identified (q.pages + 1)) .ask)) ∧
     (∀ k reason, k ≤ 7 → s.probeAnswered l (frame (.page k)) (.refused reason) =
       if k < 3 then s.probeFail l n .badPages else offer (identified q.pages) .ask) ∧
     (∀ run (a b : Word), s.probeAnswered l (frame .ask) (.state run a b) =
       if run = .running ∧ q.secondAsk = false then
         offer ((s.placeUrgent l (.halt (s.slot n).dropNo)).modProbe fun p => p.setLine l { q with secondAsk := true })
           .ask
       else s.probeSucceed l n q a.toNat b.toNat) ∧
     (∀ body, s.probeFailed l (frame body) = s.probeFail l n .noAnswer)) ∧
  (∀ (s : State) (l n : Nat) (q : ProbeLine) (c : Current) (p : ProbeRec),
     (s.probeInHand l n = some q ↔
       ∃ c p, s.link.current = some c ∧ c.work = .probe p ∧ p.line l = q ∧ q.inHand = some n) ∧
     (s.link.current = some c → c.work = .probe p → ∀ change : ProbeRec → ProbeRec,
       s.modProbe change = { s with link := { s.link with current := some { c with work := .probe (change p) } } }) ∧
     (s.probeInHand l n = none → ∀ f a, f.slot = n → s.probeAnswered l f a = s ∧ s.probeFailed l f = s))

/-- The end of a probe's slot (R173, R174), in whose event the line's next slot is taken up: skipped when the probe is
cancelled; else failed SILENT on a SILENT line, the robot standing; else skipped when not ready for it; else begun,
PROBING with PAGE(0) offered on an UP line, and on a DOWN one failed NO_ANSWER. A slot skipped or failed leads to the
one behind it, and with none left the line is done; the probe is answered when every line is (R170, R171, R174, R176).
The end of a probe's last slot, here with no claim waiting and a place free in the output queue (R173, R174, R176).
A success writes the counts reported, makes the robot REST with no fault record, runs the occupancy update and counts
one ok. A failure, here below the fault limit, is a fault report with the position unknown, counts one failed and is the
first failure if no lower slot has failed; the identity stands. The probe is then answered with its counts and first
failure, OK, or PARTIAL with the reason CANCELLED when it was cancelled (that the reason stands first is log 28, that
the first failure has one presence byte log 13). -/
def Obligations.ProbeEnds : Prop :=
  (∀ (s : State) (l n : Nat) (q : ProbeLine) (p : ProbeRec) (c : Current), n < 128 → l < 8 →
    s.link.current = some c → c.work = .probe p → p.line l = q → q.inHand = some n → q.todo = [] →
    (∀ m, m < 8 → m ≠ l → (p.line m).inHand = none ∧ (p.line m).todo = []) → s.waitList = [] → s.outputRoom = true →
    let ended : Nat → Nat → Option FirstFailure → State := fun ok failed first =>
      s.answered c.tag c.code (if p.cancelled = true then .part else .ok)
        ((if p.cancelled = true then [7] else []) ++
          (b2 ok ++ b2 failed ++ b2 p.skipped ++ b2 p.silent ++
            bOpt 2 (first.map fun f => b1 f.slot ++ b1 f.kind.code)))
    (∀ a b,
      let t := s.probeSucceed l n q a b
      let r : SlotRec :=
        { s.slot n with position := some { alpha := a, beta := b, source := .reported }, state := .rest, fault := none }
      t.slot n = r ∧ t.zones = ((s.modSlot n fun _ => r).updateZones n).zones ∧ (∀ m, m ≠ n → t.slot m = s.slot m) ∧
        t.lines = s.lines ∧ t.gate = s.gate ∧ t.link.current = none ∧
        t.link.output = (ended (p.ok + 1) p.failed p.firstFailure).link.output) ∧
    (∀ kind, (s.slot n).faultCount + 1 < s.settings.faultLimit →
      let t := s.probeFail l n kind
      (t.slot n).state = .faulted ∧ (t.slot n).fault = some { kind := kind, time := s.now } ∧
        (t.slot n).faultCount = (s.slot n).faultCount + 1 ∧ (t.slot n).position = none ∧
        (t.slot n).identity = (s.slot n).identity ∧ (∀ m, m ≠ n → t.slot m = s.slot m) ∧ t.lines = s.lines ∧
        t.gate = s.gate ∧ t.zones = s.zones ∧ t.link.current = none ∧
        t.link.output = (ended p.ok (p.failed + 1) (some (
          match p.firstFailure with
          | none => { slot := n, kind := .fault kind }
          | some f => if n < f.slot then { slot := n, kind := .fault kind } else f))).link.output)) ∧
  (∀ (s : State) (l n : Nat) (q : ProbeLine) (c : Current) (p : ProbeRec), s.link.current = some c →
     c.work = .probe p → p.line l = q → n < 128 →
     (∀ a b, s.probeSucceed l n q a b =
       (((s.modSlot n fun r =>
         { r with position := some { alpha := a, beta := b, source := .reported }, state := .rest, fault := none
           }).updateZones n).modProbe fun p => { p with ok := p.ok + 1 }).probeNext l q.todo) ∧
     (∀ kind, s.probeFail l n kind =
       ((s.faultReport n kind .unknown).modProbe fun p => p.noteFailure n (.fault kind)).probeNext l q.todo)) ∧
  (∀ (s : State) (l n : Nat) (rest : List Nat) (c : Current) (p : ProbeRec), s.link.current = some c →
     c.work = .probe p →
     let counts : ProbeRec → State := fun w =>
       { s with link := { s.link with current := some { c with work := .probe w } } }
     let begun := (counts (p.setLine l { ProbeLine.idle with todo := rest, inHand := some n })).modSlot n fun r =>
       { r with state := .probing }
     (s.probeNext l rest = (probeTakeUp s l rest).probeCheck ∧
       ((∃ m, m < 8 ∧ ((p.line m).inHand ≠ none ∨ (p.line m).todo ≠ [])) → s.probeCheck = s)) ∧
     probeTakeUp s l [] = counts (p.setLine l ProbeLine.idle) ∧
     (p.cancelled = true →
       probeTakeUp s l (n :: rest) = probeTakeUp (counts { p with skipped := p.skipped + 1 }) l rest) ∧
     (p.cancelled = false → (s.line l).state = .silent →
       probeTakeUp s l (n :: rest) = probeTakeUp (counts (p.noteFailure n .silent)) l rest) ∧
     (p.cancelled = false → (s.line l).state ≠ .silent → (s.slot n).probeable = false →
       probeTakeUp s l (n :: rest) = probeTakeUp (counts { p with skipped := p.skipped + 1 }) l rest) ∧
     (p.cancelled = false → (s.line l).state = .up → (s.slot n).probeable = true →
       probeTakeUp s l (n :: rest) =
         (begun.modLine l fun r => r.offer
           { slot := n, drop := (s.slot n).dropNo, body := .page 0, owner := .probe }).hand (.choose l)) ∧
     (p.cancelled = false → (s.line l).state = .down → (s.slot n).probeable = true →
       probeTakeUp s l (n :: rest) =
         probeTakeUp ((begun.faultReport n .noAnswer .unknown).modProbe fun w => w.noteFailure n (.fault .noAnswer)) l
           rest)) ∧
  (∀ (p : ProbeRec) (n : Nat) (k : ProbeFailure), p.noteFailure n k =
     { p with
       failed := p.failed + 1
       silent := if k = .silent then p.silent + 1 else p.silent
       firstFailure := match p.firstFailure with
         | none => some { slot := n, kind := k }
         | some f => if n < f.slot then some { slot := n, kind := k } else some f }) ∧
  (∀ r : SlotRec, r.probeable = true ↔
     r.state ∈ [RobotState.defined, .rest, .held, .faulted] ∧ ∀ g, r.leg = some g → g.stage ≠ .lapsing)

/-- The checks of a measurement entry in the order of R179.
MEASURE_LIST: BAD_REQUEST for none or more than 128 entries; a first entry that fails a check of R179 is answered
PARTIAL with 0 applied, index 0 and the reason; one that passes, on an idle UP line with no leg queued, makes the list
current and sends its SETCOUNT (R178, R179, R183; the reason byte is log 13). -/
def Obligations.MeasureList : Prop :=
  (∀ (s : State) (e : MeasureEntry),
     s.measureCheck e = (
       if 127 < e.slot.toNat then some .badRequest
       else if (s.slot e.slot.toNat).state = .vacant then some .noRobot
       else if (s.slot e.slot.toNat).state ∉ [RobotState.rest, .held, .faulted] ∨
          ∃ g ∈ (s.slot e.slot.toNat).leg, g.stage = .lapsing then some .state
       else if ¬ (e.alpha.toNat ≤ (s.slot e.slot.toNat).calib.alphaMax ∧
          (s.slot e.slot.toNat).calib.betaFold ≤ e.beta.toNat ∧
          e.beta.toNat ≤ (s.slot e.slot.toNat).calib.betaMax) then some .outOfRange
       else none)) ∧
  (∀ (s : State) (tag : Byte) (entries : List MeasureEntry), s.planReady = true → entries.length ≤ 400 →
     (entries = [] ∨ 128 < entries.length →
       exec (.measureList tag entries) s = .next (s.answered tag 0x31 .badRequest [])) ∧
     (∀ e rest st, entries = e :: rest → entries.length ≤ 128 → s.measureCheck e = some st →
       exec (.measureList tag entries) s =
         .next (s.answered tag 0x31 .part (b2 0 ++ b2 0 ++ b1 st.code))) ∧
     (∀ e rest l, entries = e :: rest → entries.length ≤ 128 → s.measureCheck e = none →
       (s.slot e.slot.toNat).lineNo = l → l < 8 → (s.line l).state = .up → s.lineIdle l →
       (s.line l).pollTurn = false → s.gate.startQueue = [] →
       ∃ t, exec (.measureList tag entries) s = .next t ∧
         t.link = s.link.doing
           { code := 0x31, tag := tag
             work := .measure { entries := entries, index := 0, applied := 0, cancelled := false } } ∧
         (t.line l).txn = some
           { frame :=
               { slot := e.slot.toNat, drop := (s.slot e.slot.toNat).dropNo
                 body := .setCount e.alpha.toNat e.beta.toNat, owner := .measure }
             attempt := .first, fromNormal := true, window := none } ∧
         t.slots = s.slots ∧ t.gate = s.gate ∧ t.zones = s.zones))

/-- The settlement of the entry in hand, here with no claim waiting and a place free in the output queue. TAKEN writes
the entry's counts, source LOADED, and runs the occupancy update, the robot's state and fault standing; then the list is
answered OK after its last entry, PARTIAL with CANCELLED when it was cancelled with entries left, PARTIAL at the next
entry when that one fails a check, and else that one's SETCOUNT is offered; on a line not UP it is turned away and
settled as one without an answer (R180, R183, R161). A SETCOUNT
without an answer is a fault NO_ANSWER with the entry's counts, source MEASURED_ONLY, and the entry counts as applied; a
REFUSED is a fault REFUSED with the position unchanged, and it does not; either stops the list with PARTIAL, here below
the fault limit (R181, R182, R183; the reason byte is log 13). -/
def Obligations.MeasureEntrySettled : Prop :=
  (∀ (s : State) (f : BusFrame) (c : Current) (m : MeasureRec) (e : MeasureEntry), e.slot.toNat ≤ 127 →
     s.link.current = some c → c.work = .measure m → m.entries[m.index]? = some e → f.slot = e.slot.toNat →
     s.waitList = [] → s.outputRoom = true →
     let n := e.slot.toNat
     let measured : PosSource → Option Position := fun source =>
       some { alpha := e.alpha.toNat, beta := e.beta.toNat, source := source }
     let stopsWith : State → Nat → Nat → Nat → Prop := fun t applied index reason =>
       t.link.current = none ∧
         t.link.output = (s.answered c.tag c.code .part (b2 applied ++ b2 index ++ b1 reason)).link.output
     let u := (s.modSlot n fun r => { r with position := measured .loaded }).updateZones n
     let onward : MeasureRec := { m with applied := m.applied + 1, index := m.index + 1 }
     ((∀ x, m.entries[m.index + 1]? = some x → (s.line (s.slot x.slot.toNat).lineNo).state = .up) →
        let t := s.measureAnswered f .taken
        t.slot n = { s.slot n with position := measured .loaded } ∧ (∀ k, k ≠ n → t.slot k = s.slot k) ∧
        t.zones = u.zones ∧ t.gate = s.gate ∧
        (m.entries.length = m.index + 1 → t.lines = s.lines ∧ t.link.current = none ∧
          t.link.output = (s.answered c.tag c.code .ok (b2 (m.applied + 1))).link.output) ∧
        (m.cancelled = true → m.index + 1 < m.entries.length → t.lines = s.lines ∧
          stopsWith t (m.applied + 1) (m.index + 1) 7) ∧
        (∀ x st, m.cancelled = false → m.entries[m.index + 1]? = some x → u.measureCheck x = some st →
          t.lines = s.lines ∧ stopsWith t (m.applied + 1) (m.index + 1) st.code) ∧
        (∀ x, m.cancelled = false → m.entries[m.index + 1]? = some x → u.measureCheck x = none →
          t.lines = (s.modLine (s.slot x.slot.toNat).lineNo fun r => r.offer
            { slot := x.slot.toNat, drop := (s.slot x.slot.toNat).dropNo
              body := .setCount x.alpha.toNat x.beta.toNat, owner := .measure }).lines ∧
          t.link.output = s.link.output ∧ t.link.current = some { c with work := .measure onward })) ∧
     (∀ x, m.cancelled = false → m.entries[m.index + 1]? = some x → u.measureCheck x = none →
        (s.line (s.slot x.slot.toNat).lineNo).state ≠ .up →
        s.measureAnswered f .taken = (u.setMeasure onward).measureUnanswered onward x) ∧
     ((s.slot n).faultCount + 1 < s.settings.faultLimit →
       (let t := s.measureFailed f
        (t.slot n).state = .faulted ∧ (t.slot n).fault = some { kind := .noAnswer, time := s.now } ∧
          (t.slot n).faultCount = (s.slot n).faultCount + 1 ∧ (t.slot n).position = measured .measuredOnly ∧
          (∀ k, k ≠ n → t.slot k = s.slot k) ∧ t.lines = s.lines ∧ t.gate = s.gate ∧
          stopsWith t (m.applied + 1) m.index 3) ∧
       (∀ reason,
         let t := s.measureAnswered f (.refused reason)
         (t.slot n).state = .faulted ∧ (t.slot n).fault = some { kind := .refused, time := s.now } ∧
           (t.slot n).faultCount = (s.slot n).faultCount + 1 ∧ (t.slot n).position = (s.slot n).position ∧
           (∀ k, k ≠ n → t.slot k = s.slot k) ∧ t.lines = s.lines ∧ t.gate = s.gate ∧
           stopsWith t m.applied m.index 4))) ∧
  (∀ (s : State) (m : MeasureRec) (e : MeasureEntry) (c : Current),
     (s.link.current = some c → s.setMeasure m =
       { s with link := { s.link with current := some { c with work := .measure m } } }) ∧
     (s.link.current = some c → c.work = .measure m → m.entries[m.index]? = some e →
       ∀ f, f.slot = e.slot.toNat → s.measureFailed f = s.measureUnanswered m e) ∧
     s.measureUnanswered m e =
       (s.faultReport e.slot.toNat .noAnswer
         (.counts e.alpha.toNat e.beta.toNat .measuredOnly)).answerCurrent .part
           (b2 (m.applied + 1) ++ b2 m.index ++ [3]))

/-- RECOVER: the refusals of R184 in order; a robot at fold, with no claim waiting, is REST with no fault record at
once; for any other a RECOVER leg is built, SLOW and of class 0, from the position to beta_fold, the robot is WAITING
with its recovery return state, and the request is current: shown under INHIBIT, where the leg stays in the start
queue (R184, R185, R186, R19). -/
def Obligations.Recover : Prop :=
  (∀ (s : State) (tag slot : Byte), s.planReady = true →
     (127 < slot.toNat → exec (.recover tag slot) s = .next (s.answered tag 0x32 .badRequest [])) ∧
     (slot.toNat ≤ 127 →
       let r := s.slot slot.toNat
       (r.state = .vacant → exec (.recover tag slot) s = .next (s.answered tag 0x32 .noRobot [])) ∧
       (r.state ≠ .vacant → (r.state ∉ [RobotState.faulted, .held, .rest] ∨ r.leg ≠ none) →
         exec (.recover tag slot) s = .next (s.answered tag 0x32 .state [])) ∧
       (r.state ∈ [RobotState.faulted, .held, .rest] → r.leg = none →
         (r.identity = none → exec (.recover tag slot) s = .next (s.answered tag 0x32 .state [])) ∧
         (r.identity ≠ none → s.pins.stop = true →
           exec (.recover tag slot) s = .next (s.answered tag 0x32 .stopped [])) ∧
         (r.identity ≠ none → s.pins.stop = false → (s.line r.lineNo).state ≠ .up →
           exec (.recover tag slot) s = .next (s.answered tag 0x32 .state [])) ∧
         (r.identity ≠ none → s.pins.stop = false → (s.line r.lineNo).state = .up →
           (∀ p, r.position = some p → p.beta = r.calib.betaFold → s.waitList = [] →
             ∃ t, exec (.recover tag slot) s = .next t ∧
               t.slot slot.toNat = { r with state := .rest, fault := none, recoveryReturn := none } ∧
               (∀ n, n ≠ slot.toNat → t.slot n = s.slot n) ∧ t.gate = s.gate ∧ t.lines = s.lines ∧
               (s.answered tag 0x32 .ok (b2 p.alpha ++ b2 p.beta)).link.output <+: t.link.output) ∧
           (r.atFold = false → s.pins.inhibit = true →
             ∃ (t : State) (g : Leg), exec (.recover tag slot) s = .next t ∧
               t.slot slot.toNat =
                 { r with state := .waiting, leg := some g, recoveryReturn := r.state.returnState } ∧
               (∀ n, n ≠ slot.toNat → t.slot n = s.slot n) ∧
               g.kind = .recover ∧ g.axes = .beta ∧ g.speed = .slow ∧ g.units = 1 ∧ g.cls = 0 ∧ g.stage = .queued ∧
               g.start = (r.position.map fun p => { alpha := p.alpha, beta := p.beta }) ∧
               g.finish = { alpha := (r.position.map fun p => p.alpha).getD 0, beta := r.calib.betaFold } ∧
               t.gate =
                 { s.gate with
                    startQueue := joinByClass StartEntry.cls (s.startEntry slot.toNat g) s.gate.startQueue } ∧
               t.link = s.link.doing { code := 0x32, tag := tag, work := .recover slot.toNat }))))) ∧
  (∀ r : SlotRec,
     (r.atFold = true ↔ ∃ p, r.position = some p ∧ p.beta = r.calib.betaFold) ∧
     [RobotState.rest, .held, .faulted].map RobotState.returnState = [some .rest, some .held, some .faulted]) ∧
  (∀ (s : State) (n : Nat) (g : Leg) (e : StartEntry) (q : List StartEntry),
     s.startEntry n g =
       { slot := n, kind := g.kind, units := g.units, line := (s.slot n).lineNo, cls := g.cls, entryTime := s.now } ∧
     ∃ front back, q = front ++ back ∧ joinByClass StartEntry.cls e q = front ++ e :: back ∧
       (∀ x ∈ front, x.cls ≤ e.cls) ∧ ∀ x, back.head? = some x → e.cls < x.cls)

/-- The endings of a RECOVER leg, here with no claim waiting and a place free in the output queue; the answers are
those of a RECOVER still current. The recovery return state is removed by each.
A STATE at the leg's end beta, which is beta_fold, whatever its alpha, at a poll or at the readback after its
deadline, ends it as arrived: REST, the fault record cleared, the position as reported, answered OK with it (R186);
with the request already answered the robot is left the same and no answer is sent.
A fault leaves the robot FAULTED, or RETIRED at the fault limit, with the fault's kind and time and one fault more,
and is answered FAULTED with its kind, or STOPPED with the slot when a stop event had reached the leg (R187, R188).
STALL, OVERDUE, REFUSED and LINE_DOWN before TAKEN end the leg with the position reported or unchanged, its units
coming back (log 38); an unanswered GO, poll or readback and LINE_DOWN after TAKEN make it lapse, the position
unknown: below the fault limit it stands LAPSING with its deadline, or one from now, the zones and units as they
stand, or past its deadline is ended and the units come back (R111, R112, R114, R115, R120).
A leg stopped by a stop event leaves its robot FAULTED with its fault record, or one of kind NONE with the time the
stop reached the leg, and is answered STOPPED with the slot (R188, R34, R120; that time is log 33, the slot in every
such answer log 23); a leg still QUEUED held no units. A leg blocked on a DOWN line leaves its robot in its recovery
return state and is answered STATE (R189, R132). -/
def Obligations.RecoverEnds : Prop :=
  ∀ (s : State) (n : Nat) (g : Leg) (c : Current), n < 128 → (s.slot n).leg = some g → g.kind = .recover →
    s.waitList = [] → s.outputRoom = true →
    let r := s.slot n
    let back : Gate := { s.gate with unitsInUse := s.gate.unitsInUse - g.units }
    let reported : Nat → Nat → Option Position := fun a b => some { alpha := a, beta := b, source := .reported }
    let sends : State → Status → List Byte → Prop := fun t st payload =>
      t.link.current = none ∧ t.link.output = (s.answered c.tag c.code st payload).link.output
    let stopped : Option FaultRec :=
      some (r.fault.getD { kind := .none, time := g.stopTime.getD s.now })
    let current := s.link.current = some c ∧ c.work = .recover n
    let faulted : State → FaultKind → Option Position → Prop := fun t kind pos =>
      (t.slot n).state = (if r.faultCount + 1 < s.settings.faultLimit then .faulted else .retired) ∧
        (t.slot n).fault = some { kind := kind, time := s.now } ∧ (t.slot n).faultCount = r.faultCount + 1 ∧
        (t.slot n).position = pos ∧ (t.slot n).recoveryReturn = none ∧ (t.slot n).remaining = [] ∧
        (∀ m, m ≠ n → t.slot m = s.slot m) ∧ t.lines = s.lines ∧
        (current → g.haltCause ≠ some .stop → sends t .faulted [BitVec.ofNat 8 kind.code]) ∧
        (current → g.haltCause = some .stop → sends t .stopped [BitVec.ofNat 8 n])
    (∀ readback run a b, b = g.finish.beta →
      (g.stage = .running ∧ (run = .arrived ∨ run = .idle)) ∨
        (g.stage = .stopping ∧ g.haltCause = some .deadline ∧ (readback = true ∨ run ≠ .running)) →
      let t := s.stateTaken n g.id readback run a b
      t.slot n =
          { r with leg := none, position := reported a b, state := .rest, fault := none, recoveryReturn := none } ∧
        (∀ m, m ≠ n → t.slot m = s.slot m) ∧ t.gate = back ∧ t.lines = s.lines ∧
        (current → sends t .ok (b2 a ++ b2 b)) ∧
        (s.link.current = none → t.link.current = none ∧ t.link.output = s.link.output)) ∧
    (∀ kind pos, faulted (s.legFaulted n g kind pos) kind (pos.apply r.position) ∧
      ((s.legFaulted n g kind pos).slot n).leg = none ∧ (s.legFaulted n g kind pos).gate = back) ∧
    (∀ kind,
      let t := s.lapse n g kind
      let d := g.deadline.getD (s.now + s.legDuration n g)
      faulted t kind none ∧
        (r.faultCount + 1 < s.settings.faultLimit →
          t.zones = s.zones ∧
          (s.now < d → (t.slot n).leg = some { g with stage := .lapsing, deadline := some d } ∧ t.gate = s.gate) ∧
          (d ≤ s.now → (t.slot n).leg = none ∧ t.gate = back))) ∧
    (g.stage = .issued →
      s.goFailed n g.id = s.lapse n g .noAnswer ∧ s.lineDownLeg n = s.legFaulted n g .lineDown .unchanged ∧
      (g.haltCause ≠ some .stop → s.goRefused n g.id = s.legFaulted n g .refused .unchanged) ∧
      (g.haltCause = some .stop → s.goRefused n g.id = s.goDiscarded n g.id)) ∧
    (g.stage = .running →
      s.pollFailed n g.id = s.lapse n g .noAnswer ∧ s.lineDownLeg n = s.lapse n g .lineDown ∧
      ∀ run a b, run = .stalled ∨ ((run = .arrived ∨ run = .idle) ∧ b ≠ g.finish.beta) →
        s.stateTaken n g.id false run a b = s.legFaulted n g .stall (.counts a b .reported)) ∧
    (g.stage = .stopping →
      s.readbackFailed n g.id = s.lapse n g .noAnswer ∧ s.lineDownLeg n = s.lapse n g .lineDown ∧
      ∀ readback run a b, g.haltCause = some .deadline → b ≠ g.finish.beta → readback = true ∨ run ≠ .running →
        s.stateTaken n g.id readback run a b = s.legFaulted n g .overdue (.counts a b .reported)) ∧
    (current →
      (∀ readback run a b, g.stage = .stopping → g.haltCause = some .stop → readback = true ∨ run ≠ .running →
        let t := s.stateTaken n g.id readback run a b
        t.slot n =
            { r with
              leg := none, position := reported a b, state := .faulted, fault := stopped, recoveryReturn := none } ∧
          t.gate = back ∧ sends t .stopped [BitVec.ofNat 8 n]) ∧
      (g.stage = .issued →
        let t := s.goDiscarded n g.id
        t.slot n = { r with leg := none, state := .faulted, fault := stopped, recoveryReturn := none } ∧
          t.gate = back ∧ sends t .stopped [BitVec.ofNat 8 n]) ∧
      (g.stage = .queued →
        let t := s.stopEntry n
        t.slot n = { r with leg := none, state := .faulted, fault := stopped, recoveryReturn := none } ∧
          t.gate = s.gate ∧ sends t .stopped [BitVec.ofNat 8 n]) ∧
      (∀ e v, g.stage = .queued → e.slot = n → r.recoveryReturn = some v →
        let t := s.blockEntry e
        t.slot n = { r with leg := none, state := v.toState, recoveryReturn := none } ∧
          t.gate = { s.gate with startQueue := s.gate.startQueue.filter fun x => decide (x.slot ≠ n) } ∧
          sends t .state []))
end

