-- ==== Sys2Proof/Laws/State.lean ====
section
/-! SUPPORT. What each update of the state leaves as it was, field by field, and what the records read afterwards. -/

namespace Sys2Proof.Machine

/-! ## Fields an update does not reach -/

@[simp] theorem setSlot_pending (s : State) (n : Nat) (r : SlotRec) : (s.setSlot n r).pending = s.pending := rfl
@[simp] theorem setSlot_now (s : State) (n : Nat) (r : SlotRec) : (s.setSlot n r).now = s.now := rfl
@[simp] theorem setSlot_zones (s : State) (n : Nat) (r : SlotRec) : (s.setSlot n r).zones = s.zones := rfl
@[simp] theorem setSlot_waitList (s : State) (n : Nat) (r : SlotRec) : (s.setSlot n r).waitList = s.waitList := rfl
@[simp] theorem setSlot_batch (s : State) (n : Nat) (r : SlotRec) : (s.setSlot n r).batch = s.batch := rfl
@[simp] theorem setSlot_gate (s : State) (n : Nat) (r : SlotRec) : (s.setSlot n r).gate = s.gate := rfl
@[simp] theorem setSlot_pins (s : State) (n : Nat) (r : SlotRec) : (s.setSlot n r).pins = s.pins := rfl
@[simp] theorem setSlot_settings (s : State) (n : Nat) (r : SlotRec) : (s.setSlot n r).settings = s.settings := rfl
@[simp] theorem setSlot_lines (s : State) (n : Nat) (r : SlotRec) : (s.setSlot n r).lines = s.lines := rfl
@[simp] theorem setSlot_link (s : State) (n : Nat) (r : SlotRec) : (s.setSlot n r).link = s.link := rfl
@[simp] theorem setSlot_handed (s : State) (n : Nat) (r : SlotRec) : (s.setSlot n r).handed = s.handed := rfl
@[simp] theorem setSlot_stopOrders (s : State) (n : Nat) (r : SlotRec) : (s.setSlot n r).stopOrders = s.stopOrders := rfl
@[simp] theorem setSlot_stopPassing (s : State) (n : Nat) (r : SlotRec) : (s.setSlot n r).stopPassing = s.stopPassing := rfl
@[simp] theorem setSlot_nextLegId (s : State) (n : Nat) (r : SlotRec) : (s.setSlot n r).nextLegId = s.nextLegId := rfl

@[simp] theorem modSlot_pending (s : State) (n : Nat) (f : SlotRec → SlotRec) : (s.modSlot n f).pending = s.pending := rfl
@[simp] theorem modSlot_now (s : State) (n : Nat) (f : SlotRec → SlotRec) : (s.modSlot n f).now = s.now := rfl
@[simp] theorem modSlot_zones (s : State) (n : Nat) (f : SlotRec → SlotRec) : (s.modSlot n f).zones = s.zones := rfl
@[simp] theorem modSlot_waitList (s : State) (n : Nat) (f : SlotRec → SlotRec) : (s.modSlot n f).waitList = s.waitList := rfl
@[simp] theorem modSlot_batch (s : State) (n : Nat) (f : SlotRec → SlotRec) : (s.modSlot n f).batch = s.batch := rfl
@[simp] theorem modSlot_gate (s : State) (n : Nat) (f : SlotRec → SlotRec) : (s.modSlot n f).gate = s.gate := rfl
@[simp] theorem modSlot_pins (s : State) (n : Nat) (f : SlotRec → SlotRec) : (s.modSlot n f).pins = s.pins := rfl
@[simp] theorem modSlot_settings (s : State) (n : Nat) (f : SlotRec → SlotRec) : (s.modSlot n f).settings = s.settings := rfl
@[simp] theorem modSlot_lines (s : State) (n : Nat) (f : SlotRec → SlotRec) : (s.modSlot n f).lines = s.lines := rfl
@[simp] theorem modSlot_link (s : State) (n : Nat) (f : SlotRec → SlotRec) : (s.modSlot n f).link = s.link := rfl
@[simp] theorem modSlot_handed (s : State) (n : Nat) (f : SlotRec → SlotRec) : (s.modSlot n f).handed = s.handed := rfl
@[simp] theorem modSlot_stopOrders (s : State) (n : Nat) (f : SlotRec → SlotRec) : (s.modSlot n f).stopOrders = s.stopOrders := rfl
@[simp] theorem modSlot_stopPassing (s : State) (n : Nat) (f : SlotRec → SlotRec) : (s.modSlot n f).stopPassing = s.stopPassing := rfl
@[simp] theorem modSlot_nextLegId (s : State) (n : Nat) (f : SlotRec → SlotRec) : (s.modSlot n f).nextLegId = s.nextLegId := rfl

@[simp] theorem mapSlots_pending (s : State) (f : SlotRec → SlotRec) : (s.mapSlots f).pending = s.pending := rfl
@[simp] theorem mapSlots_now (s : State) (f : SlotRec → SlotRec) : (s.mapSlots f).now = s.now := rfl
@[simp] theorem mapSlots_zones (s : State) (f : SlotRec → SlotRec) : (s.mapSlots f).zones = s.zones := rfl
@[simp] theorem mapSlots_waitList (s : State) (f : SlotRec → SlotRec) : (s.mapSlots f).waitList = s.waitList := rfl
@[simp] theorem mapSlots_batch (s : State) (f : SlotRec → SlotRec) : (s.mapSlots f).batch = s.batch := rfl
@[simp] theorem mapSlots_gate (s : State) (f : SlotRec → SlotRec) : (s.mapSlots f).gate = s.gate := rfl
@[simp] theorem mapSlots_pins (s : State) (f : SlotRec → SlotRec) : (s.mapSlots f).pins = s.pins := rfl
@[simp] theorem mapSlots_settings (s : State) (f : SlotRec → SlotRec) : (s.mapSlots f).settings = s.settings := rfl
@[simp] theorem mapSlots_lines (s : State) (f : SlotRec → SlotRec) : (s.mapSlots f).lines = s.lines := rfl
@[simp] theorem mapSlots_link (s : State) (f : SlotRec → SlotRec) : (s.mapSlots f).link = s.link := rfl
@[simp] theorem mapSlots_handed (s : State) (f : SlotRec → SlotRec) : (s.mapSlots f).handed = s.handed := rfl
@[simp] theorem mapSlots_stopOrders (s : State) (f : SlotRec → SlotRec) : (s.mapSlots f).stopOrders = s.stopOrders := rfl
@[simp] theorem mapSlots_stopPassing (s : State) (f : SlotRec → SlotRec) : (s.mapSlots f).stopPassing = s.stopPassing := rfl
@[simp] theorem mapSlots_nextLegId (s : State) (f : SlotRec → SlotRec) : (s.mapSlots f).nextLegId = s.nextLegId := rfl

@[simp] theorem dropLeg_pending (s : State) (n : Nat) : (s.dropLeg n).pending = s.pending := rfl
@[simp] theorem dropLeg_now (s : State) (n : Nat) : (s.dropLeg n).now = s.now := rfl
@[simp] theorem dropLeg_zones (s : State) (n : Nat) : (s.dropLeg n).zones = s.zones := rfl
@[simp] theorem dropLeg_waitList (s : State) (n : Nat) : (s.dropLeg n).waitList = s.waitList := rfl
@[simp] theorem dropLeg_batch (s : State) (n : Nat) : (s.dropLeg n).batch = s.batch := rfl
@[simp] theorem dropLeg_gate (s : State) (n : Nat) : (s.dropLeg n).gate = s.gate := rfl
@[simp] theorem dropLeg_pins (s : State) (n : Nat) : (s.dropLeg n).pins = s.pins := rfl
@[simp] theorem dropLeg_settings (s : State) (n : Nat) : (s.dropLeg n).settings = s.settings := rfl
@[simp] theorem dropLeg_lines (s : State) (n : Nat) : (s.dropLeg n).lines = s.lines := rfl
@[simp] theorem dropLeg_link (s : State) (n : Nat) : (s.dropLeg n).link = s.link := rfl
@[simp] theorem dropLeg_handed (s : State) (n : Nat) : (s.dropLeg n).handed = s.handed := rfl
@[simp] theorem dropLeg_stopOrders (s : State) (n : Nat) : (s.dropLeg n).stopOrders = s.stopOrders := rfl
@[simp] theorem dropLeg_stopPassing (s : State) (n : Nat) : (s.dropLeg n).stopPassing = s.stopPassing := rfl
@[simp] theorem dropLeg_nextLegId (s : State) (n : Nat) : (s.dropLeg n).nextLegId = s.nextLegId := rfl

@[simp] theorem modLeg_pending (s : State) (n : Nat) (f : Leg → Leg) : (s.modLeg n f).pending = s.pending := rfl
@[simp] theorem modLeg_now (s : State) (n : Nat) (f : Leg → Leg) : (s.modLeg n f).now = s.now := rfl
@[simp] theorem modLeg_zones (s : State) (n : Nat) (f : Leg → Leg) : (s.modLeg n f).zones = s.zones := rfl
@[simp] theorem modLeg_waitList (s : State) (n : Nat) (f : Leg → Leg) : (s.modLeg n f).waitList = s.waitList := rfl
@[simp] theorem modLeg_batch (s : State) (n : Nat) (f : Leg → Leg) : (s.modLeg n f).batch = s.batch := rfl
@[simp] theorem modLeg_gate (s : State) (n : Nat) (f : Leg → Leg) : (s.modLeg n f).gate = s.gate := rfl
@[simp] theorem modLeg_pins (s : State) (n : Nat) (f : Leg → Leg) : (s.modLeg n f).pins = s.pins := rfl
@[simp] theorem modLeg_settings (s : State) (n : Nat) (f : Leg → Leg) : (s.modLeg n f).settings = s.settings := rfl
@[simp] theorem modLeg_lines (s : State) (n : Nat) (f : Leg → Leg) : (s.modLeg n f).lines = s.lines := rfl
@[simp] theorem modLeg_link (s : State) (n : Nat) (f : Leg → Leg) : (s.modLeg n f).link = s.link := rfl
@[simp] theorem modLeg_handed (s : State) (n : Nat) (f : Leg → Leg) : (s.modLeg n f).handed = s.handed := rfl
@[simp] theorem modLeg_stopOrders (s : State) (n : Nat) (f : Leg → Leg) : (s.modLeg n f).stopOrders = s.stopOrders := rfl
@[simp] theorem modLeg_stopPassing (s : State) (n : Nat) (f : Leg → Leg) : (s.modLeg n f).stopPassing = s.stopPassing := rfl
@[simp] theorem modLeg_nextLegId (s : State) (n : Nat) (f : Leg → Leg) : (s.modLeg n f).nextLegId = s.nextLegId := rfl

@[simp] theorem setZone_pending (s : State) (z : Nat) (r : Option ZoneRec) : (s.setZone z r).pending = s.pending := rfl
@[simp] theorem setZone_now (s : State) (z : Nat) (r : Option ZoneRec) : (s.setZone z r).now = s.now := rfl
@[simp] theorem setZone_slots (s : State) (z : Nat) (r : Option ZoneRec) : (s.setZone z r).slots = s.slots := rfl
@[simp] theorem setZone_waitList (s : State) (z : Nat) (r : Option ZoneRec) : (s.setZone z r).waitList = s.waitList := rfl
@[simp] theorem setZone_batch (s : State) (z : Nat) (r : Option ZoneRec) : (s.setZone z r).batch = s.batch := rfl
@[simp] theorem setZone_gate (s : State) (z : Nat) (r : Option ZoneRec) : (s.setZone z r).gate = s.gate := rfl
@[simp] theorem setZone_pins (s : State) (z : Nat) (r : Option ZoneRec) : (s.setZone z r).pins = s.pins := rfl
@[simp] theorem setZone_settings (s : State) (z : Nat) (r : Option ZoneRec) : (s.setZone z r).settings = s.settings := rfl
@[simp] theorem setZone_lines (s : State) (z : Nat) (r : Option ZoneRec) : (s.setZone z r).lines = s.lines := rfl
@[simp] theorem setZone_link (s : State) (z : Nat) (r : Option ZoneRec) : (s.setZone z r).link = s.link := rfl
@[simp] theorem setZone_handed (s : State) (z : Nat) (r : Option ZoneRec) : (s.setZone z r).handed = s.handed := rfl
@[simp] theorem setZone_stopOrders (s : State) (z : Nat) (r : Option ZoneRec) : (s.setZone z r).stopOrders = s.stopOrders := rfl
@[simp] theorem setZone_stopPassing (s : State) (z : Nat) (r : Option ZoneRec) : (s.setZone z r).stopPassing = s.stopPassing := rfl
@[simp] theorem setZone_nextLegId (s : State) (z : Nat) (r : Option ZoneRec) : (s.setZone z r).nextLegId = s.nextLegId := rfl

@[simp] theorem setStatus_pending (s : State) (z : Nat) (st : ZoneStatus) : (s.setStatus z st).pending = s.pending := rfl
@[simp] theorem setStatus_now (s : State) (z : Nat) (st : ZoneStatus) : (s.setStatus z st).now = s.now := rfl
@[simp] theorem setStatus_slots (s : State) (z : Nat) (st : ZoneStatus) : (s.setStatus z st).slots = s.slots := rfl
@[simp] theorem setStatus_waitList (s : State) (z : Nat) (st : ZoneStatus) : (s.setStatus z st).waitList = s.waitList := rfl
@[simp] theorem setStatus_batch (s : State) (z : Nat) (st : ZoneStatus) : (s.setStatus z st).batch = s.batch := rfl
@[simp] theorem setStatus_gate (s : State) (z : Nat) (st : ZoneStatus) : (s.setStatus z st).gate = s.gate := rfl
@[simp] theorem setStatus_pins (s : State) (z : Nat) (st : ZoneStatus) : (s.setStatus z st).pins = s.pins := rfl
@[simp] theorem setStatus_settings (s : State) (z : Nat) (st : ZoneStatus) : (s.setStatus z st).settings = s.settings := rfl
@[simp] theorem setStatus_lines (s : State) (z : Nat) (st : ZoneStatus) : (s.setStatus z st).lines = s.lines := rfl
@[simp] theorem setStatus_link (s : State) (z : Nat) (st : ZoneStatus) : (s.setStatus z st).link = s.link := rfl
@[simp] theorem setStatus_handed (s : State) (z : Nat) (st : ZoneStatus) : (s.setStatus z st).handed = s.handed := rfl
@[simp] theorem setStatus_stopOrders (s : State) (z : Nat) (st : ZoneStatus) : (s.setStatus z st).stopOrders = s.stopOrders := rfl
@[simp] theorem setStatus_stopPassing (s : State) (z : Nat) (st : ZoneStatus) : (s.setStatus z st).stopPassing = s.stopPassing := rfl
@[simp] theorem setStatus_nextLegId (s : State) (z : Nat) (st : ZoneStatus) : (s.setStatus z st).nextLegId = s.nextLegId := rfl

@[simp] theorem setLine_pending (s : State) (l : Nat) (r : LineRec) : (s.setLine l r).pending = s.pending := rfl
@[simp] theorem setLine_now (s : State) (l : Nat) (r : LineRec) : (s.setLine l r).now = s.now := rfl
@[simp] theorem setLine_slots (s : State) (l : Nat) (r : LineRec) : (s.setLine l r).slots = s.slots := rfl
@[simp] theorem setLine_zones (s : State) (l : Nat) (r : LineRec) : (s.setLine l r).zones = s.zones := rfl
@[simp] theorem setLine_waitList (s : State) (l : Nat) (r : LineRec) : (s.setLine l r).waitList = s.waitList := rfl
@[simp] theorem setLine_batch (s : State) (l : Nat) (r : LineRec) : (s.setLine l r).batch = s.batch := rfl
@[simp] theorem setLine_gate (s : State) (l : Nat) (r : LineRec) : (s.setLine l r).gate = s.gate := rfl
@[simp] theorem setLine_pins (s : State) (l : Nat) (r : LineRec) : (s.setLine l r).pins = s.pins := rfl
@[simp] theorem setLine_settings (s : State) (l : Nat) (r : LineRec) : (s.setLine l r).settings = s.settings := rfl
@[simp] theorem setLine_link (s : State) (l : Nat) (r : LineRec) : (s.setLine l r).link = s.link := rfl
@[simp] theorem setLine_handed (s : State) (l : Nat) (r : LineRec) : (s.setLine l r).handed = s.handed := rfl
@[simp] theorem setLine_stopOrders (s : State) (l : Nat) (r : LineRec) : (s.setLine l r).stopOrders = s.stopOrders := rfl
@[simp] theorem setLine_stopPassing (s : State) (l : Nat) (r : LineRec) : (s.setLine l r).stopPassing = s.stopPassing := rfl
@[simp] theorem setLine_nextLegId (s : State) (l : Nat) (r : LineRec) : (s.setLine l r).nextLegId = s.nextLegId := rfl

@[simp] theorem modLine_pending (s : State) (l : Nat) (f : LineRec → LineRec) : (s.modLine l f).pending = s.pending := rfl
@[simp] theorem modLine_now (s : State) (l : Nat) (f : LineRec → LineRec) : (s.modLine l f).now = s.now := rfl
@[simp] theorem modLine_slots (s : State) (l : Nat) (f : LineRec → LineRec) : (s.modLine l f).slots = s.slots := rfl
@[simp] theorem modLine_zones (s : State) (l : Nat) (f : LineRec → LineRec) : (s.modLine l f).zones = s.zones := rfl
@[simp] theorem modLine_waitList (s : State) (l : Nat) (f : LineRec → LineRec) : (s.modLine l f).waitList = s.waitList := rfl
@[simp] theorem modLine_batch (s : State) (l : Nat) (f : LineRec → LineRec) : (s.modLine l f).batch = s.batch := rfl
@[simp] theorem modLine_gate (s : State) (l : Nat) (f : LineRec → LineRec) : (s.modLine l f).gate = s.gate := rfl
@[simp] theorem modLine_pins (s : State) (l : Nat) (f : LineRec → LineRec) : (s.modLine l f).pins = s.pins := rfl
@[simp] theorem modLine_settings (s : State) (l : Nat) (f : LineRec → LineRec) : (s.modLine l f).settings = s.settings := rfl
@[simp] theorem modLine_link (s : State) (l : Nat) (f : LineRec → LineRec) : (s.modLine l f).link = s.link := rfl
@[simp] theorem modLine_handed (s : State) (l : Nat) (f : LineRec → LineRec) : (s.modLine l f).handed = s.handed := rfl
@[simp] theorem modLine_stopOrders (s : State) (l : Nat) (f : LineRec → LineRec) : (s.modLine l f).stopOrders = s.stopOrders := rfl
@[simp] theorem modLine_stopPassing (s : State) (l : Nat) (f : LineRec → LineRec) : (s.modLine l f).stopPassing = s.stopPassing := rfl
@[simp] theorem modLine_nextLegId (s : State) (l : Nat) (f : LineRec → LineRec) : (s.modLine l f).nextLegId = s.nextLegId := rfl

@[simp] theorem modLink_pending (s : State) (f : Link → Link) : (s.modLink f).pending = s.pending := rfl
@[simp] theorem modLink_now (s : State) (f : Link → Link) : (s.modLink f).now = s.now := rfl
@[simp] theorem modLink_slots (s : State) (f : Link → Link) : (s.modLink f).slots = s.slots := rfl
@[simp] theorem modLink_zones (s : State) (f : Link → Link) : (s.modLink f).zones = s.zones := rfl
@[simp] theorem modLink_waitList (s : State) (f : Link → Link) : (s.modLink f).waitList = s.waitList := rfl
@[simp] theorem modLink_batch (s : State) (f : Link → Link) : (s.modLink f).batch = s.batch := rfl
@[simp] theorem modLink_gate (s : State) (f : Link → Link) : (s.modLink f).gate = s.gate := rfl
@[simp] theorem modLink_pins (s : State) (f : Link → Link) : (s.modLink f).pins = s.pins := rfl
@[simp] theorem modLink_settings (s : State) (f : Link → Link) : (s.modLink f).settings = s.settings := rfl
@[simp] theorem modLink_lines (s : State) (f : Link → Link) : (s.modLink f).lines = s.lines := rfl
@[simp] theorem modLink_handed (s : State) (f : Link → Link) : (s.modLink f).handed = s.handed := rfl
@[simp] theorem modLink_stopOrders (s : State) (f : Link → Link) : (s.modLink f).stopOrders = s.stopOrders := rfl
@[simp] theorem modLink_stopPassing (s : State) (f : Link → Link) : (s.modLink f).stopPassing = s.stopPassing := rfl
@[simp] theorem modLink_nextLegId (s : State) (f : Link → Link) : (s.modLink f).nextLegId = s.nextLegId := rfl

@[simp] theorem modGate_pending (s : State) (f : Gate → Gate) : (s.modGate f).pending = s.pending := rfl
@[simp] theorem modGate_now (s : State) (f : Gate → Gate) : (s.modGate f).now = s.now := rfl
@[simp] theorem modGate_slots (s : State) (f : Gate → Gate) : (s.modGate f).slots = s.slots := rfl
@[simp] theorem modGate_zones (s : State) (f : Gate → Gate) : (s.modGate f).zones = s.zones := rfl
@[simp] theorem modGate_waitList (s : State) (f : Gate → Gate) : (s.modGate f).waitList = s.waitList := rfl
@[simp] theorem modGate_batch (s : State) (f : Gate → Gate) : (s.modGate f).batch = s.batch := rfl
@[simp] theorem modGate_pins (s : State) (f : Gate → Gate) : (s.modGate f).pins = s.pins := rfl
@[simp] theorem modGate_settings (s : State) (f : Gate → Gate) : (s.modGate f).settings = s.settings := rfl
@[simp] theorem modGate_lines (s : State) (f : Gate → Gate) : (s.modGate f).lines = s.lines := rfl
@[simp] theorem modGate_link (s : State) (f : Gate → Gate) : (s.modGate f).link = s.link := rfl
@[simp] theorem modGate_handed (s : State) (f : Gate → Gate) : (s.modGate f).handed = s.handed := rfl
@[simp] theorem modGate_stopOrders (s : State) (f : Gate → Gate) : (s.modGate f).stopOrders = s.stopOrders := rfl
@[simp] theorem modGate_stopPassing (s : State) (f : Gate → Gate) : (s.modGate f).stopPassing = s.stopPassing := rfl
@[simp] theorem modGate_nextLegId (s : State) (f : Gate → Gate) : (s.modGate f).nextLegId = s.nextLegId := rfl

@[simp] theorem hand_pending (s : State) (e : Handed) : (s.hand e).pending = s.pending := rfl
@[simp] theorem hand_now (s : State) (e : Handed) : (s.hand e).now = s.now := rfl
@[simp] theorem hand_slots (s : State) (e : Handed) : (s.hand e).slots = s.slots := rfl
@[simp] theorem hand_zones (s : State) (e : Handed) : (s.hand e).zones = s.zones := rfl
@[simp] theorem hand_waitList (s : State) (e : Handed) : (s.hand e).waitList = s.waitList := rfl
@[simp] theorem hand_batch (s : State) (e : Handed) : (s.hand e).batch = s.batch := rfl
@[simp] theorem hand_gate (s : State) (e : Handed) : (s.hand e).gate = s.gate := rfl
@[simp] theorem hand_pins (s : State) (e : Handed) : (s.hand e).pins = s.pins := rfl
@[simp] theorem hand_settings (s : State) (e : Handed) : (s.hand e).settings = s.settings := rfl
@[simp] theorem hand_lines (s : State) (e : Handed) : (s.hand e).lines = s.lines := rfl
@[simp] theorem hand_link (s : State) (e : Handed) : (s.hand e).link = s.link := rfl
@[simp] theorem hand_stopOrders (s : State) (e : Handed) : (s.hand e).stopOrders = s.stopOrders := rfl
@[simp] theorem hand_stopPassing (s : State) (e : Handed) : (s.hand e).stopPassing = s.stopPassing := rfl
@[simp] theorem hand_nextLegId (s : State) (e : Handed) : (s.hand e).nextLegId = s.nextLegId := rfl

@[simp] theorem returnUnits_pending (s : State) (u : Nat) : (s.returnUnits u).pending = s.pending := rfl
@[simp] theorem returnUnits_now (s : State) (u : Nat) : (s.returnUnits u).now = s.now := rfl
@[simp] theorem returnUnits_slots (s : State) (u : Nat) : (s.returnUnits u).slots = s.slots := rfl
@[simp] theorem returnUnits_zones (s : State) (u : Nat) : (s.returnUnits u).zones = s.zones := rfl
@[simp] theorem returnUnits_waitList (s : State) (u : Nat) : (s.returnUnits u).waitList = s.waitList := rfl
@[simp] theorem returnUnits_batch (s : State) (u : Nat) : (s.returnUnits u).batch = s.batch := rfl
@[simp] theorem returnUnits_pins (s : State) (u : Nat) : (s.returnUnits u).pins = s.pins := rfl
@[simp] theorem returnUnits_settings (s : State) (u : Nat) : (s.returnUnits u).settings = s.settings := rfl
@[simp] theorem returnUnits_lines (s : State) (u : Nat) : (s.returnUnits u).lines = s.lines := rfl
@[simp] theorem returnUnits_link (s : State) (u : Nat) : (s.returnUnits u).link = s.link := rfl
@[simp] theorem returnUnits_stopOrders (s : State) (u : Nat) : (s.returnUnits u).stopOrders = s.stopOrders := rfl
@[simp] theorem returnUnits_stopPassing (s : State) (u : Nat) : (s.returnUnits u).stopPassing = s.stopPassing := rfl
@[simp] theorem returnUnits_nextLegId (s : State) (u : Nat) : (s.returnUnits u).nextLegId = s.nextLegId := rfl

/-! ## Fields an update writes -/

@[simp] theorem modLink_link (s : State) (f : Link → Link) : (s.modLink f).link = f s.link := rfl
@[simp] theorem modGate_gate (s : State) (f : Gate → Gate) : (s.modGate f).gate = f s.gate := rfl
@[simp] theorem hand_handed (s : State) (e : Handed) : (s.hand e).handed = s.handed ++ [e] := rfl
@[simp] theorem returnUnits_handed (s : State) (u : Nat) : (s.returnUnits u).handed = s.handed ++ [.scan] := rfl
@[simp] theorem returnUnits_unitsInUse (s : State) (u : Nat) :
    (s.returnUnits u).gate.unitsInUse = s.gate.unitsInUse - u := rfl
@[simp] theorem returnUnits_budget (s : State) (u : Nat) : (s.returnUnits u).gate.budget = s.gate.budget := rfl
@[simp] theorem returnUnits_startQueue (s : State) (u : Nat) :
    (s.returnUnits u).gate.startQueue = s.gate.startQueue := rfl

/-! ## Records that an update does not reach, by number -/

@[simp] theorem setSlot_zone (s : State) (n : Nat) (r : SlotRec) (m : Nat) : (s.setSlot n r).zone m = s.zone m := rfl
@[simp] theorem setSlot_line (s : State) (n : Nat) (r : SlotRec) (m : Nat) : (s.setSlot n r).line m = s.line m := rfl
@[simp] theorem modSlot_zone (s : State) (n : Nat) (f : SlotRec → SlotRec) (m : Nat) : (s.modSlot n f).zone m = s.zone m := rfl
@[simp] theorem modSlot_line (s : State) (n : Nat) (f : SlotRec → SlotRec) (m : Nat) : (s.modSlot n f).line m = s.line m := rfl
@[simp] theorem mapSlots_zone (s : State) (f : SlotRec → SlotRec) (m : Nat) : (s.mapSlots f).zone m = s.zone m := rfl
@[simp] theorem mapSlots_line (s : State) (f : SlotRec → SlotRec) (m : Nat) : (s.mapSlots f).line m = s.line m := rfl
@[simp] theorem dropLeg_zone (s : State) (n : Nat) (m : Nat) : (s.dropLeg n).zone m = s.zone m := rfl
@[simp] theorem dropLeg_line (s : State) (n : Nat) (m : Nat) : (s.dropLeg n).line m = s.line m := rfl
@[simp] theorem modLeg_zone (s : State) (n : Nat) (f : Leg → Leg) (m : Nat) : (s.modLeg n f).zone m = s.zone m := rfl
@[simp] theorem modLeg_line (s : State) (n : Nat) (f : Leg → Leg) (m : Nat) : (s.modLeg n f).line m = s.line m := rfl
@[simp] theorem setZone_slot (s : State) (z : Nat) (r : Option ZoneRec) (m : Nat) : (s.setZone z r).slot m = s.slot m := rfl
@[simp] theorem setZone_line (s : State) (z : Nat) (r : Option ZoneRec) (m : Nat) : (s.setZone z r).line m = s.line m := rfl
@[simp] theorem setStatus_slot (s : State) (z : Nat) (st : ZoneStatus) (m : Nat) : (s.setStatus z st).slot m = s.slot m := rfl
@[simp] theorem setStatus_line (s : State) (z : Nat) (st : ZoneStatus) (m : Nat) : (s.setStatus z st).line m = s.line m := rfl
@[simp] theorem setLine_slot (s : State) (l : Nat) (r : LineRec) (m : Nat) : (s.setLine l r).slot m = s.slot m := rfl
@[simp] theorem setLine_zone (s : State) (l : Nat) (r : LineRec) (m : Nat) : (s.setLine l r).zone m = s.zone m := rfl
@[simp] theorem modLine_slot (s : State) (l : Nat) (f : LineRec → LineRec) (m : Nat) : (s.modLine l f).slot m = s.slot m := rfl
@[simp] theorem modLine_zone (s : State) (l : Nat) (f : LineRec → LineRec) (m : Nat) : (s.modLine l f).zone m = s.zone m := rfl
@[simp] theorem modLink_slot (s : State) (f : Link → Link) (m : Nat) : (s.modLink f).slot m = s.slot m := rfl
@[simp] theorem modLink_zone (s : State) (f : Link → Link) (m : Nat) : (s.modLink f).zone m = s.zone m := rfl
@[simp] theorem modLink_line (s : State) (f : Link → Link) (m : Nat) : (s.modLink f).line m = s.line m := rfl
@[simp] theorem modGate_slot (s : State) (f : Gate → Gate) (m : Nat) : (s.modGate f).slot m = s.slot m := rfl
@[simp] theorem modGate_zone (s : State) (f : Gate → Gate) (m : Nat) : (s.modGate f).zone m = s.zone m := rfl
@[simp] theorem modGate_line (s : State) (f : Gate → Gate) (m : Nat) : (s.modGate f).line m = s.line m := rfl
@[simp] theorem hand_slot (s : State) (e : Handed) (m : Nat) : (s.hand e).slot m = s.slot m := rfl
@[simp] theorem hand_zone (s : State) (e : Handed) (m : Nat) : (s.hand e).zone m = s.zone m := rfl
@[simp] theorem hand_line (s : State) (e : Handed) (m : Nat) : (s.hand e).line m = s.line m := rfl
@[simp] theorem returnUnits_slot (s : State) (u : Nat) (m : Nat) : (s.returnUnits u).slot m = s.slot m := rfl
@[simp] theorem returnUnits_zone (s : State) (u : Nat) (m : Nat) : (s.returnUnits u).zone m = s.zone m := rfl
@[simp] theorem returnUnits_line (s : State) (u : Nat) (m : Nat) : (s.returnUnits u).line m = s.line m := rfl

/-! ## Records that an update writes, by number -/

/-- A slot record written is read back, and every other stays. -/
theorem slot_setSlot (s : State) (n m : Nat) (r : SlotRec) :
    (s.setSlot n r).slot m = if n = m ∧ n < 128 then r else s.slot m := by
  unfold State.slot State.setSlot
  by_cases hm : m < 128
  · by_cases hn : n < 128
    · by_cases h : n = m
      · subst h; simp [hn]
      · simp [hm, h, hn]
    · have h : n ≠ m := by omega
      simp [hm, h]
  · have hlt : ¬ (n = m ∧ n < 128) := by omega
    simp [hm, hlt]

theorem slot_setSlot_same (s : State) (n : Nat) (r : SlotRec) (h : n < 128) : (s.setSlot n r).slot n = r := by
  simp [slot_setSlot, h]

theorem slot_setSlot_other (s : State) (n m : Nat) (r : SlotRec) (h : n ≠ m) : (s.setSlot n r).slot m = s.slot m := by
  simp [slot_setSlot, h]

theorem slot_modSlot (s : State) (n m : Nat) (f : SlotRec → SlotRec) :
    (s.modSlot n f).slot m = if n = m ∧ n < 128 then f (s.slot n) else s.slot m := slot_setSlot s n m _

theorem slot_modSlot_same (s : State) (n : Nat) (f : SlotRec → SlotRec) (h : n < 128) :
    (s.modSlot n f).slot n = f (s.slot n) := slot_setSlot_same s n _ h

theorem slot_modSlot_other (s : State) (n m : Nat) (f : SlotRec → SlotRec) (h : n ≠ m) :
    (s.modSlot n f).slot m = s.slot m := slot_setSlot_other s n m _ h

/-- A line record written is read back, and every other stays. -/
theorem line_setLine (s : State) (l m : Nat) (r : LineRec) :
    (s.setLine l r).line m = if l = m ∧ l < 8 then r else s.line m := by
  unfold State.line State.setLine
  by_cases hm : m < 8
  · by_cases hl : l < 8
    · by_cases h : l = m
      · subst h; simp [hl]
      · simp [hm, h, hl]
    · have h : l ≠ m := by omega
      simp [hm, h]
  · have hlt : ¬ (l = m ∧ l < 8) := by omega
    simp [hm, hlt]

theorem line_modLine (s : State) (l m : Nat) (f : LineRec → LineRec) :
    (s.modLine l f).line m = if l = m ∧ l < 8 then f (s.line l) else s.line m := line_setLine s l m _

theorem line_modLine_same (s : State) (l : Nat) (f : LineRec → LineRec) (h : l < 8) :
    (s.modLine l f).line l = f (s.line l) := by simp [line_modLine, h]

/-- A zone record written is read back, and every other stays. -/
theorem zone_setZone (s : State) (z m : Nat) (r : Option ZoneRec) :
    (s.setZone z r).zone m = if z = m ∧ z < 384 then r else s.zone m := by
  unfold State.zone State.setZone
  by_cases hm : m < 384
  · by_cases hz : z < 384
    · by_cases h : z = m
      · subst h; simp [hz]
      · simp [hm, h, hz]
    · have h : z ≠ m := by omega
      simp [hm, h]
  · have hlt : ¬ (z = m ∧ z < 384) := by omega
    simp [hm, hlt]

/-- One change made to every slot record. -/
theorem slot_mapSlots (s : State) (f : SlotRec → SlotRec) (n : Nat) (h : n < 128) :
    (s.mapSlots f).slot n = f (s.slot n) := by
  unfold State.slot State.mapSlots
  simp [h]

end Sys2Proof.Machine
end

