-- ==== Sys2Proof/Laws/Inner.lean ====
section
/-! SUPPORT. What every internal event leaves as it was (Inner), and that each shared operation is such an event:
the one lemma a proof cites for an operation instead of unfolding it. -/

namespace Sys2Proof.Machine

/-- The part of a batch record that stands from its opening on (R97, R100). -/
def Batch.header : Batch → Option (Nat × Nat × Nat × Nat)
  | .none => Option.none
  | .opened b => some (b.tag, b.admitted, b.skipped, b.openTime)
  | .closed b _ => some (b.tag, b.admitted, b.skipped, b.openTime)

/-- The queues of a line that internal events fill are within bounds. -/
def LineRec.QueuesOk (r : LineRec) : Prop := r.normal.length ≤ Config.normalCapacity ∧ r.urgent.Nodup

/-- What the internal events from s to t keep. -/
structure Inner (s t : State) : Prop where
  now : t.now = s.now
  pending : t.pending = s.pending
  pins : t.pins = s.pins
  settings : t.settings = s.settings
  stopOrders : t.stopOrders = s.stopOrders
  budget : t.gate.budget = s.gate.budget
  units : s.gate.unitsInUse ≤ s.gate.budget → t.gate.unitsInUse ≤ t.gate.budget
  wait : s.pins.stop = true → s.waitList = [] → t.waitList = []
  start : s.pins.stop = true → s.gate.startQueue = [] → t.gate.startQueue = []
  control : t.link.control = s.link.control
  plan : t.link.plan = s.link.plan
  assembly : t.link.assembly = s.link.assembly
  halt : t.link.halt = s.link.halt
  mask : t.link.mask = s.link.mask
  rx : t.link.rx = s.link.rx
  output : s.link.output <+: t.link.output
  outputCap : s.link.output.length ≤ Config.outputCapacity → t.link.output.length ≤ Config.outputCapacity
  lineState : ∀ l, (t.line l).state = (s.line l).state
  failureRun : ∀ l, (t.line l).failureRun = (s.line l).failureRun
  queues : ∀ l, (s.line l).QueuesOk → (t.line l).QueuesOk
  batch : t.batch.header = s.batch.header
  held : s.gate.HoldsOnce → t.gate.HoldsOnce

namespace Inner

theorem refl (s : State) : Inner s s where
  now := rfl
  pending := rfl
  pins := rfl
  settings := rfl
  stopOrders := rfl
  budget := rfl
  units := id
  wait := fun _ h => h
  start := fun _ h => h
  control := rfl
  plan := rfl
  assembly := rfl
  halt := rfl
  mask := rfl
  rx := rfl
  output := List.prefix_refl _
  outputCap := id
  lineState := fun _ => rfl
  failureRun := fun _ => rfl
  queues := fun _ h => h
  batch := rfl
  held := id

theorem trans {s t u : State} (h : Inner s t) (k : Inner t u) : Inner s u where
  now := k.now.trans h.now
  pending := k.pending.trans h.pending
  pins := k.pins.trans h.pins
  settings := k.settings.trans h.settings
  stopOrders := k.stopOrders.trans h.stopOrders
  budget := k.budget.trans h.budget
  units := fun x => k.units (h.units x)
  wait := fun x y => k.wait (h.pins ▸ x) (h.wait x y)
  start := fun x y => k.start (h.pins ▸ x) (h.start x y)
  control := k.control.trans h.control
  plan := k.plan.trans h.plan
  assembly := k.assembly.trans h.assembly
  halt := k.halt.trans h.halt
  mask := k.mask.trans h.mask
  rx := k.rx.trans h.rx
  output := h.output.trans k.output
  outputCap := fun x => k.outputCap (h.outputCap x)
  lineState := fun l => (k.lineState l).trans (h.lineState l)
  failureRun := fun l => (k.failureRun l).trans (h.failureRun l)
  queues := fun l x => k.queues l (h.queues l x)
  batch := k.batch.trans h.batch
  held := fun x => k.held (h.held x)

/-- One of two internal events. -/
theorem ite {s t u : State} {c : Prop} [Decidable c] (h : Inner s t) (k : Inner s u) : Inner s (if c then t else u) := by
  split <;> assumption

/-- A fold of internal events. -/
theorem foldl {α : Type} (f : State → α → State) (h : ∀ s a, Inner s (f s a)) (as : List α) (s : State) :
    Inner s (as.foldl f s) := by
  induction as generalizing s with
  | nil => exact refl s
  | cons a as ih => exact (h s a).trans (ih (f s a))

/-! ## Single updates -/

theorem setSlot (s : State) (n : Nat) (r : SlotRec) : Inner s (s.setSlot n r) := { refl s with }

theorem modSlot (s : State) (n : Nat) (f : SlotRec → SlotRec) : Inner s (s.modSlot n f) := { refl s with }

theorem mapSlots (s : State) (f : SlotRec → SlotRec) : Inner s (s.mapSlots f) := { refl s with }

theorem modLeg (s : State) (n : Nat) (f : Leg → Leg) : Inner s (s.modLeg n f) := { refl s with }

theorem dropLeg (s : State) (n : Nat) : Inner s (s.dropLeg n) := { refl s with }

theorem setZone (s : State) (z : Nat) (r : Option ZoneRec) : Inner s (s.setZone z r) := { refl s with }

theorem setStatus (s : State) (z : Nat) (st : ZoneStatus) : Inner s (s.setStatus z st) := { refl s with }

theorem hand (s : State) (e : Handed) : Inner s (s.hand e) := { refl s with }

/-- The events handed on are no part of what Inner keeps. -/
theorem handed (s : State) (es : List Handed) : Inner s { s with handed := es } := { refl s with }

theorem stopPassing (s : State) (b : Bool) : Inner s { s with stopPassing := b } := { refl s with }

theorem returnUnits (s : State) (u : Nat) : Inner s (s.returnUnits u) :=
  { refl s with units := fun h => by simp; omega }

/-- A line record changed within its bounds, state and failure run kept. -/
theorem modLine (s : State) (l : Nat) (f : LineRec → LineRec) (hs : ∀ r, (f r).state = r.state)
    (hr : ∀ r, (f r).failureRun = r.failureRun) (hq : ∀ r : LineRec, r.QueuesOk → (f r).QueuesOk) :
    Inner s (s.modLine l f) :=
  { refl s with
    lineState := fun m => by rw [line_modLine]; split; · next h => rw [hs, h.1]
                             · rfl
    failureRun := fun m => by rw [line_modLine]; split; · next h => rw [hr, h.1]
                              · rfl
    queues := fun m h => by
      rw [line_modLine]; split
      · next e => rw [← e.1] at h; exact hq _ h
      · exact h }

/-- A change of the link that Inner does not follow: the current request, the waiting answer, the notices. -/
theorem modLink (s : State) (f : Link → Link) (h : ∀ k, (f k).control = k.control ∧ (f k).plan = k.plan ∧
    (f k).assembly = k.assembly ∧ (f k).halt = k.halt ∧ (f k).mask = k.mask ∧ (f k).rx = k.rx ∧
    (f k).output = k.output) : Inner s (s.modLink f) :=
  { refl s with
    control := (h s.link).1
    plan := (h s.link).2.1
    assembly := (h s.link).2.2.1
    halt := (h s.link).2.2.2.1
    mask := (h s.link).2.2.2.2.1
    rx := (h s.link).2.2.2.2.2.1
    output := by simp [(h s.link).2.2.2.2.2.2]
    outputCap := fun x => by rw [modLink_link, (h s.link).2.2.2.2.2.2]; exact x }

/-! ## The output queue, answers and notices -/

theorem enterOutput (s : State) (f : OutFrame) (h : s.outputRoom = true) : Inner s (s.enterOutput f) := by
  have hlt : s.link.output.length < Config.outputCapacity := by simpa [State.outputRoom] using h
  unfold State.enterOutput
  split
  · next e =>
    exact { refl s with
      output := by simp [e]
      outputCap := fun _ => by simp [Config.outputCapacity] }
  · next a as e =>
    exact { refl s with
      output := by simp
      outputCap := fun _ => by
        rw [modLink_link, List.length_append]
        simp only [List.length_cons, List.length_nil]
        omega }

theorem answer (s : State) (tag code : Byte) (st : Status) (p : List Byte) : Inner s (s.answer tag code st p) := by
  unfold State.answer
  split
  · next h => exact enterOutput s _ h
  · exact modLink s _ fun k => ⟨rfl, rfl, rfl, rfl, rfl, rfl, rfl⟩

theorem answerCurrent (s : State) (st : Status) (p : List Byte) : Inner s (s.answerCurrent st p) := by
  unfold State.answerCurrent
  split
  · exact refl s
  · refine trans (modLink s _ ?_) (answer _ _ _ _ _)
    exact fun _ => ⟨rfl, rfl, rfl, rfl, rfl, rfl, rfl⟩

theorem answerRecover (s : State) (n : Nat) (st : Status) (p : List Byte) : Inner s (s.answerRecover n st p) :=
  ite (answerCurrent s st p) (refl s)

theorem raise (s : State) (e : Summary) : Inner s (s.raise e) := by
  unfold State.raise
  split
  · exact modLink s _ fun k => ⟨rfl, rfl, rfl, rfl, rfl, rfl, rfl⟩
  · exact refl s

theorem enterNotice (s : State) (h : s.outputRoom = true) : Inner s s.enterNotice := by
  unfold State.enterNotice
  split
  · exact refl s
  · refine trans (modLink s _ ?_) (enterOutput _ _ h)
    exact fun _ => ⟨rfl, rfl, rfl, rfl, rfl, rfl, rfl⟩

/-! ## The batch and the wait list -/

theorem answerAwait (s : State) : Inner s s.answerAwait := by
  unfold State.answerAwait
  split
  · exact ite (answerCurrent s _ _) (refl s)
  · exact refl s

theorem closeBatch (s : State) : Inner s s.closeBatch := by
  unfold State.closeBatch
  split
  · next b e =>
    refine trans (t := ({ s with batch := .closed b s.now } : State)) ?_ ((raise _ _).trans (answerAwait _))
    exact { refl s with batch := by simp [Batch.header, e] }
  · exact refl s
  · exact refl s

theorem count_header (b : BatchRec) (o : RobotOutcome) :
    (b.count o).tag = b.tag ∧ (b.count o).admitted = b.admitted ∧ (b.count o).skipped = b.skipped ∧
      (b.count o).openTime = b.openTime := by
  cases o <;> exact ⟨rfl, rfl, rfl, rfl⟩

theorem recordOutcome (s : State) (n : Nat) (o : RobotOutcome) : Inner s (s.recordOutcome n o) := by
  unfold State.recordOutcome
  split
  · next b e =>
    have step : Inner s { s.modSlot n fun r => r.withOutcome o b.tag with batch := .opened (b.count o) } :=
      { refl s with
        batch := by
          have h := count_header b o
          simp [Batch.header, e, h.1, h.2.1, h.2.2.1, h.2.2.2] }
    refine ite ?_ (refl s)
    exact ite (step.trans (closeBatch _)) step
  · exact refl s
  · exact refl s

theorem handOutcomes (s : State) (o : RobotOutcome) (es : List WaitEntry) : Inner s (s.handOutcomes o es) :=
  foldl (fun s (e : WaitEntry) => s.recordOutcome e.slot o) (fun s e => recordOutcome s e.slot o) es s

/-- The wait list made shorter. -/
theorem dropWait (s : State) (p : WaitEntry → Bool) : Inner s { s with waitList := s.waitList.filter p } :=
  { refl s with wait := fun _ h => by simp [h] }

theorem clearWait (s : State) : Inner s { s with waitList := [] } := { refl s with wait := fun _ _ => rfl }

theorem holdZones (s : State) (n : Nat) (zs : List Nat) : Inner s (s.holdZones n zs) := by
  refine foldl _ (fun s z => ?_) zs s
  split
  · exact setStatus s _ _
  · exact refl s

theorem grant (s : State) (n : Nat) (zs : List Nat) : Inner s (s.grant n zs) :=
  ((holdZones s n zs).trans (dropWait _ _)).trans ((modLeg _ _ _).trans (hand _ _))

theorem examine (s : State) (wanted : List Nat) (es : List WaitEntry) : Inner s (examine s wanted es) := by
  induction es generalizing s wanted with
  | nil => exact refl s
  | cons e es ih =>
    unfold Machine.examine
    exact ite ((grant s _ _).trans (ih _ _)) (ih _ _)

theorem reexamine (s : State) : Inner s s.reexamine := examine s _ _

theorem zoneReport (s : State) (freed fenced : List Nat) : Inner s (s.zoneReport freed fenced) := by
  unfold State.zoneReport
  have h := (dropWait s fun e => !e.wanted.any fun z => fenced.contains z).trans
    (handOutcomes _ (.blocked .fenced) (s.waitList.filter fun e => e.wanted.any fun z => fenced.contains z))
  exact ite h (h.trans (reexamine _))

/-- A claim joins the wait list only while stop is not in force (R81). -/
theorem joinWaitList (s : State) (n cls : Nat) (wanted : List Nat) (h : s.pins.stop = false) :
    Inner s (s.joinWaitList n cls wanted) := by
  unfold State.joinWaitList
  refine trans ?_ (reexamine _)
  exact { refl s with wait := fun x => by simp [h] at x }

theorem takeClaim (s : State) (n : Nat) : Inner s (s.takeClaim n) := by
  unfold State.takeClaim
  split
  · exact refl s
  · dsimp only
    by_cases hs : s.stopInForce = true
    · rw [if_pos hs]; exact recordOutcome s _ _
    · rw [if_neg hs]
      refine ite (recordOutcome s _ _) (ite (grant s _ _) (joinWaitList s _ _ _ ?_))
      simpa [State.stopInForce] using hs

theorem stopArbiter (s : State) : Inner s s.stopArbiter := (clearWait s).trans (handOutcomes _ _ _)

theorem claimExpires (s : State) (n : Nat) : Inner s (s.claimExpires n) :=
  ((dropWait s _).trans (recordOutcome _ _ _)).trans (reexamine _)

/-! ## The Zone Table, faults, retirement, recovery -/

theorem writeZones (s : State) (cs : List (Nat × ZoneStatus × ZoneStatus)) : Inner s (s.writeZones cs) :=
  foldl (fun s (c : Nat × ZoneStatus × ZoneStatus) => s.setStatus c.1 c.2.2) (fun s c => setStatus s c.1 c.2.2) cs s

theorem raiseContested (s : State) (zs : List Nat) : Inner s (s.raiseContested zs) :=
  foldl (fun s z => s.raise (.zoneContested 1 z)) (fun s z => raise s (.zoneContested 1 z)) zs s

theorem updateZones (s : State) (n : Nat) : Inner s (s.updateZones n) := by
  unfold State.updateZones
  exact ite (((writeZones s _).trans (zoneReport _ _ _)).trans (raiseContested _ _)) (refl s)

/-- The entries of other slots with one of a slot behind them hold every slot once. -/
theorem holdsOnce_put (g : Gate) (e : HeldUnits) (h : g.HoldsOnce) :
    Gate.HoldsOnce { g with heldUnits := (g.heldUnits.filter fun x => x.slot != e.slot) ++ [e] } := by
  unfold Gate.HoldsOnce at h ⊢
  rw [List.map_append, List.nodup_append]
  refine ⟨h.sublist (List.filter_sublist.map _), by simp, ?_⟩
  intro a ha b hb c
  simp only [List.map_cons, List.map_nil, List.mem_singleton] at hb
  obtain ⟨x, hx, rfl⟩ := List.mem_map.1 ha
  have k := (List.mem_filter.1 hx).2
  simp only [bne_iff_ne, ne_eq] at k
  exact k (c.trans hb)

theorem holdUnits (s : State) (e : HeldUnits) : Inner s (s.holdUnits e) :=
  trans (foldl _ (fun s (h : HeldUnits) => returnUnits s h.units) _ s)
    { refl _ with held := fun h => holdsOnce_put _ e h }

theorem keepUnits (s : State) (n : Nat) (g : Option Leg) : Inner s (s.keepUnits n g) := by
  unfold State.keepUnits
  split
  · exact refl s
  · refine ite ?_ (refl s)
    split
    · exact returnUnits s _
    · exact ite (returnUnits s _) (holdUnits s _)

theorem retire (s : State) (n : Nat) (why : RetireReason) : Inner s (s.retire n why) :=
  ((((modSlot s n _).trans (keepUnits _ _ _)).trans (writeZones _ _)).trans (raise _ _)).trans (zoneReport _ _ _)

theorem testFaultLimit (s : State) (n : Nat) : Inner s (s.testFaultLimit n) := ite (retire s n _) (refl s)

theorem faultReport (s : State) (n : Nat) (kind : FaultKind) (pos : PosChange) : Inner s (s.faultReport n kind pos) :=
  (((((raise s _).trans (modSlot _ n _)).trans (recordOutcome _ n _)).trans (modSlot _ n _)).trans
    (updateZones _ n)).trans (testFaultLimit _ n)

theorem recoverSucceeds (s : State) (n : Nat) : Inner s (s.recoverSucceeds n) :=
  (modSlot s n _).trans (answerRecover _ _ _ _)

theorem recoverStopped (s : State) (n time : Nat) : Inner s (s.recoverStopped n time) :=
  (modSlot s n _).trans (answerRecover _ _ _ _)

theorem recoverReturns (s : State) (n : Nat) : Inner s (s.recoverReturns n) := modSlot s n _

theorem recoverFaulted (s : State) (n : Nat) (kind : FaultKind) (b : Bool) : Inner s (s.recoverFaulted n kind b) :=
  (modSlot s n _).trans (ite (answerRecover _ _ _ _) (answerRecover _ _ _ _))

theorem legStopped (s : State) (n : Nat) (g : Leg) : Inner s (s.legStopped n g) :=
  ite (recoverStopped s n _) (recordOutcome s n _)

/-! ## The lines -/

theorem nodup_joinUrgent (f : UrgentFrame) (q : List UrgentFrame) (h : q.Nodup) : (joinUrgent f q).Nodup := by
  unfold joinUrgent
  split
  · exact h
  · next hc =>
    rw [List.nodup_append]
    refine ⟨h, by simp, ?_⟩
    intro a ha b hb e
    simp only [List.mem_singleton] at hb
    subst hb
    subst e
    simp at hc
    exact hc ha

theorem offer_state (r : LineRec) (f : BusFrame) : (r.offer f).state = r.state := by
  unfold LineRec.offer; split <;> rfl

theorem offer_failureRun (r : LineRec) (f : BusFrame) : (r.offer f).failureRun = r.failureRun := by
  unfold LineRec.offer; split <;> rfl

theorem offer_queuesOk (r : LineRec) (f : BusFrame) (h : r.QueuesOk) : (r.offer f).QueuesOk := by
  unfold LineRec.offer
  split
  · next hr =>
    refine ⟨?_, h.2⟩
    have : r.normal.length < Config.normalCapacity := by simpa [LineRec.hasRoom] using hr
    simp only [List.length_append, List.length_cons, List.length_nil]
    omega
  · exact h

theorem placeUrgent (s : State) (l : Nat) (f : UrgentFrame) : Inner s (s.placeUrgent l f) := by
  refine trans (modLine s l _ ?_ ?_ ?_) (hand _ _)
  · exact fun _ => rfl
  · exact fun _ => rfl
  · exact fun _ h => ⟨h.1, nodup_joinUrgent _ _ h.2⟩

theorem offer? (s t : State) (l : Nat) (f : BusFrame) (h : s.offer? l f = some t) : Inner s t := by
  unfold State.offer? at h
  split at h
  · cases h
    exact (modLine s l _ (fun r => offer_state r f) (fun r => offer_failureRun r f)
      fun r k => offer_queuesOk r f k).trans (hand _ _)
  · cases h
  · cases h

theorem fillNormal_length (normal waiting : List BusFrame) (h : normal.length ≤ Config.normalCapacity) :
    (fillNormal normal waiting).1.length ≤ Config.normalCapacity := by
  induction waiting generalizing normal with
  | nil => exact h
  | cons f fs ih =>
    unfold fillNormal
    split
    · apply ih
      simp only [List.length_append, List.length_cons, List.length_nil]
      omega
    · exact h

theorem takePoll (s : State) (l n : Nat) : Inner s (s.takePoll l n) := by
  unfold State.takePoll
  refine modLine s l _ ?_ ?_ ?_
  · exact fun _ => rfl
  · exact fun _ => rfl
  · exact fun _ h => h

/-- The front of the normal queue leaves it, so the queue stays within its capacity. -/
theorem takeNormal (s : State) (l : Nat) (f : BusFrame) (rest : List BusFrame) (h : (s.line l).normal = f :: rest) :
    Inner s (s.takeNormal l f rest) := by
  refine trans ?_ (hand _ _)
  exact { refl s with
    lineState := fun m => by rw [line_modLine]; split; · next e => rw [← e.1]; rfl
                             · rfl
    failureRun := fun m => by rw [line_modLine]; split; · next e => rw [← e.1]; rfl
                              · rfl
    queues := fun m k => by
      rw [line_modLine]; split
      · next e =>
        rw [← e.1] at k
        refine ⟨fillNormal_length _ _ ?_, k.2⟩
        have := k.1
        rw [h, List.length_cons] at this
        dsimp only
        omega
      · exact k }

/-- Frames leave the urgent queue in order. -/
theorem takeUrgent (s : State) (l : Nat) (f : UrgentFrame) (rest : List UrgentFrame)
    (h : rest.Sublist (s.line l).urgent) : Inner s (s.takeUrgent l f rest) := by
  have key : ∀ g : LineRec → LineRec, (∀ r, (g r).state = r.state) → (∀ r, (g r).failureRun = r.failureRun) →
      (∀ r, (g r).normal = r.normal) → (∀ r, (g r).urgent = rest) → Inner s (s.modLine l g) := by
    intro g h1 h2 h3 h4
    exact { refl s with
      lineState := fun m => by rw [line_modLine]; split; · next e => rw [h1, e.1]
                               · rfl
      failureRun := fun m => by rw [line_modLine]; split; · next e => rw [h2, e.1]
                                · rfl
      queues := fun m k => by
        rw [line_modLine]; split
        · next e =>
          rw [← e.1] at k
          exact ⟨by rw [h3]; exact k.1, by rw [h4]; exact k.2.sublist h⟩
        · exact k }
  unfold State.takeUrgent
  split
  · exact key _ (fun _ => rfl) (fun _ => rfl) (fun _ => rfl) fun _ => rfl
  · exact key _ (fun _ => rfl) (fun _ => rfl) (fun _ => rfl) fun _ => rfl

theorem chooseUp (s : State) (l : Nat) : Inner s (s.chooseUp l) := by
  unfold State.chooseUp
  dsimp only
  split
  · next f rest e => exact takeUrgent s l f rest (by rw [e]; exact List.sublist_cons_self _ _)
  · split
    · exact takePoll s l _
    · split
      · next f rest e => exact takeNormal s l f rest e
      · split
        · exact takePoll s l _
        · exact refl s

theorem choose (s : State) (l : Nat) : Inner s (s.choose l) := by
  unfold State.choose
  dsimp only
  refine ite (refl s) ?_
  split
  · exact chooseUp s l
  · exact ite (takeUrgent s l _ _ List.filter_sublist) (refl s)
  · exact refl s

theorem placeReadbackUp (s : State) (l n id : Nat) : Inner s (s.placeReadbackUp l n id) := by
  unfold State.placeReadbackUp
  refine ite ?_ ?_
  · exact modLine s l _ (fun _ => rfl) (fun _ => rfl) fun r h => ⟨by simpa [mergeReadback] using h.1, h.2⟩
  · refine (modLine s l _ (fun r => ?_) (fun r => ?_) fun r h => ?_).trans (hand _ _)
    · exact offer_state _ _
    · exact offer_failureRun _ _
    · exact offer_queuesOk _ _ ⟨h.1, nodup_joinUrgent _ _ h.2⟩

/-! ## The legs -/

theorem nextLegId (s : State) (k : Nat) : Inner s { s with nextLegId := k } := { refl s with }

theorem buildLeg (s : State) (n : Nat) (kind : LegKind) (finish : Counts) (cls : Nat) :
    Inner s (s.buildLeg n kind finish cls) := (nextLegId s _).trans (modSlot _ n _)

theorem handLeg (s : State) (n : Nat) : Inner s (s.handLeg n) := by
  unfold State.handLeg
  split
  · exact refl s
  · split <;> first | exact takeClaim s n | exact hand s _ | exact refl s

theorem nextLeg (s : State) (n : Nat) : Inner s (s.nextLeg n) := by
  unfold State.nextLeg
  split
  · exact recordOutcome s n _
  · exact ((modSlot s n _).trans (buildLeg _ _ _ _ _)).trans (handLeg _ _)

theorem endLeg (s : State) (n : Nat) (g : Leg) : Inner s (s.endLeg n g) := (dropLeg s n).trans (returnUnits _ _)

theorem reportPosition (s : State) (n a b : Nat) : Inner s (s.reportPosition n a b) := modSlot s n _

theorem legArrived (s : State) (n : Nat) (g : Leg) (a b : Nat) : Inner s (s.legArrived n g a b) :=
  (((endLeg s n g).trans (reportPosition _ n a b)).trans (updateZones _ n)).trans
    (ite (recoverSucceeds _ n) (nextLeg _ n))

theorem answerFault (s : State) (n : Nat) (g : Leg) (kind : FaultKind) : Inner s (s.answerFault n g kind) :=
  ite (recoverFaulted s n kind _) (refl s)

theorem legFaulted (s : State) (n : Nat) (g : Leg) (kind : FaultKind) (pos : PosChange) :
    Inner s (s.legFaulted n g kind pos) :=
  ((endLeg s n g).trans (faultReport _ n kind pos)).trans (answerFault _ n g kind)

theorem endLapsed (s : State) (n : Nat) : Inner s (s.endLapsed n) := by
  unfold State.endLapsed
  split
  · exact refl s
  · exact ite (endLeg s n _) (refl s)

theorem lapse (s : State) (n : Nat) (g : Leg) (kind : FaultKind) : Inner s (s.lapse n g kind) :=
  (((modLeg s n _).trans (faultReport _ n kind _)).trans (answerFault _ n g kind)).trans (endLapsed _ n)

theorem legAbandoned (s : State) (n : Nat) (g : Leg) : Inner s (s.legAbandoned n g) :=
  ((endLeg s n g).trans (updateZones _ n)).trans (legStopped _ n _)

theorem legHalted (s : State) (n : Nat) (g : Leg) (a b : Nat) : Inner s (s.legHalted n g a b) :=
  (((endLeg s n g).trans (reportPosition _ n a b)).trans (updateZones _ n)).trans (legStopped _ n _)

theorem lapsedRead (s : State) (n : Nat) (g : Leg) (a b : Nat) : Inner s (s.lapsedRead n g a b) :=
  ((endLeg s n g).trans (reportPosition _ n a b)).trans (updateZones _ n)

theorem readbackFailed (s : State) (n id : Nat) : Inner s (s.readbackFailed n id) := by
  unfold State.readbackFailed
  split
  · exact refl s
  · exact ite (lapse s n _ _) (refl s)

theorem placeReadback (s : State) (n : Nat) (g : Leg) : Inner s (s.placeReadback n g) := by
  unfold State.placeReadback
  split
  · exact placeReadbackUp s _ _ _
  · exact readbackFailed s _ _
  · exact readbackFailed s _ _

theorem placeHalt (s : State) (n : Nat) : Inner s (s.placeHalt n) := by
  unfold State.placeHalt
  split
  · exact placeUrgent s _ _
  · exact refl s
  · exact refl s

theorem haltLeg (s : State) (n : Nat) (g : Leg) (c : HaltCause) : Inner s (s.haltLeg n g c) :=
  (modLeg s n _).trans (placeReadback _ n g)

theorem deadlineHalt (s : State) (n : Nat) (g : Leg) : Inner s (s.deadlineHalt n g) :=
  (placeHalt s n).trans (haltLeg _ n g _)

theorem legTaken (s : State) (n : Nat) (g : Leg) : Inner s (s.legTaken n g) :=
  ite ((modLeg s n _).trans (placeReadback _ n g)) (modLeg s n _)

theorem goTaken (s : State) (n id : Nat) : Inner s (s.goTaken n id) := by
  unfold State.goTaken
  split
  · exact refl s
  · exact ite (legTaken s n _) (refl s)

theorem goRefused (s : State) (n id : Nat) : Inner s (s.goRefused n id) := by
  unfold State.goRefused
  split
  · exact refl s
  · exact ite (ite (legAbandoned s n _) (legFaulted s n _ _ _)) (refl s)

theorem goFailed (s : State) (n id : Nat) : Inner s (s.goFailed n id) := by
  unfold State.goFailed
  split
  · exact refl s
  · exact ite (lapse s n _ _) (refl s)

theorem goDiscarded (s : State) (n id : Nat) : Inner s (s.goDiscarded n id) := by
  unfold State.goDiscarded
  split
  · exact refl s
  · exact ite (legAbandoned s n _) (refl s)

theorem pollFailed (s : State) (n id : Nat) : Inner s (s.pollFailed n id) := by
  unfold State.pollFailed
  split
  · exact refl s
  · exact ite (lapse s n _ _) (refl s)

theorem runningState (s : State) (n : Nat) (g : Leg) (run : RunState) (a b : Nat) :
    Inner s (s.runningState n g run a b) := by
  cases run
  · exact ite (legArrived s n g a b) (legFaulted s n g _ _)
  · exact refl s
  · exact ite (legArrived s n g a b) (legFaulted s n g _ _)
  · exact legFaulted s n g _ _

theorem stoppingState (s : State) (n : Nat) (g : Leg) (rb : Bool) (run : RunState) (a b : Nat) :
    Inner s (s.stoppingState n g rb run a b) :=
  ite (refl s) (ite (legHalted s n g a b) (ite (legArrived s n g a b) (legFaulted s n g _ _)))

theorem stateTaken (s : State) (n id : Nat) (rb : Bool) (run : RunState) (a b : Nat) :
    Inner s (s.stateTaken n id rb run a b) := by
  unfold State.stateTaken
  split
  · exact refl s
  · split <;> first
      | exact runningState s n _ run a b
      | exact stoppingState s n _ rb run a b
      | exact ite (lapsedRead s n _ a b) (refl s)
      | exact refl s

theorem lineDownLeg (s : State) (n : Nat) : Inner s (s.lineDownLeg n) := by
  unfold State.lineDownLeg
  split
  · exact refl s
  · split <;> first | exact legFaulted s n _ _ _ | exact lapse s n _ _ | exact refl s

theorem legDeadline (s : State) (n : Nat) : Inner s (s.legDeadline n) := by
  unfold State.legDeadline
  split
  · exact refl s
  · refine ite ?_ (refl s)
    split <;> first | exact deadlineHalt s n _ | exact endLeg s n _ | exact refl s

theorem stopLeg (s : State) (n : Nat) : Inner s (s.stopLeg n) := by
  unfold State.stopLeg
  split
  · exact refl s
  · split <;> first
      | exact modLeg s n _
      | exact haltLeg s n _ _
      | exact ite (placeReadback s n _) (refl s)
      | exact refl s

theorem stopPlanner (s : State) : Inner s s.stopPlanner := foldl _ (fun s n => stopLeg s n) _ s

/-! ## The Start Gate -/

theorem leaveStart (s : State) (n : Nat) : Inner s (s.leaveStart n) :=
  { refl s with start := fun _ h => by simp [State.leaveStart, h] }

/-- An entry issued within the budget, to a line with room (R130). -/
theorem issueEntry (s : State) (e : StartEntry) (hu : s.gate.unitsInUse + e.units ≤ s.gate.budget)
    (hr : (s.line e.line).hasRoom = true) : Inner s (s.issueEntry e) := by
  have hlt : (s.line e.line).normal.length < Config.normalCapacity := by simpa [LineRec.hasRoom] using hr
  unfold State.issueEntry
  split
  · exact leaveStart s _
  · refine trans ?_ (modSlot _ _ _)
    refine trans ?_ (hand _ _)
    refine (leaveStart s e.slot).trans ?_
    exact { refl (s.leaveStart e.slot) with
      units := fun _ => hu
      lineState := fun m => by rw [line_modLine]; split; · next h => rw [← h.1]; rfl
                               · rfl
      failureRun := fun m => by rw [line_modLine]; split; · next h => rw [← h.1]; rfl
                                · rfl
      queues := fun m k => by
        rw [line_modLine]; split
        · next h =>
          rw [← h.1] at k
          refine ⟨?_, k.2⟩
          have h1 : ((s.leaveStart e.slot).line e.line).normal = (s.line e.line).normal := rfl
          simp only [modGate_line, List.length_append, List.length_cons, List.length_nil]
          rw [h1]
          omega
        · exact k }

theorem blockEntry (s : State) (e : StartEntry) : Inner s (s.blockEntry e) := by
  unfold State.blockEntry
  dsimp only
  refine (leaveStart s e.slot).trans ?_
  split
  · exact hand _ _
  · exact (((dropLeg _ _).trans (updateZones _ _)).trans
      (ite ((recoverReturns _ _).trans (answerRecover _ _ _ _)) (recordOutcome _ _ _))).trans (hand _ _)

theorem scanEntries (s : State) (es : List StartEntry) : Inner s (scanEntries s es) := by
  induction es generalizing s with
  | nil => exact refl s
  | cons e es ih =>
    unfold Machine.scanEntries
    split
    · exact (blockEntry s e).trans (ih _)
    · split
      · exact ih s
      · next hp =>
        split
        · exact refl s
        · next hb =>
          refine (issueEntry s e (by omega) ?_).trans (ih _)
          simp [State.passedOver] at hp
          exact hp.1

theorem scan (s : State) : Inner s s.scan := ite (refl s) (scanEntries s _)

theorem turnAway (s : State) (n : Nat) (g : Leg) : Inner s (s.turnAway n g) :=
  ((dropLeg s n).trans (updateZones _ n)).trans (legStopped _ n _)

/-- A leg joins the start queue only while stop is not in force (R129). -/
theorem joinStart (s : State) (n : Nat) (g : Leg) (h : s.pins.stop = false) : Inner s (s.joinStart n g) :=
  { refl s with start := fun x => by simp [h] at x }

theorem takeHandOn (s : State) (n : Nat) : Inner s (s.takeHandOn n) := by
  unfold State.takeHandOn
  split
  · exact refl s
  · refine ite ?_ (refl s)
    by_cases hs : s.stopInForce = true
    · rw [if_pos hs]; exact turnAway s n _
    · rw [if_neg hs]
      exact (joinStart s n _ (by simpa [State.stopInForce] using hs)).trans (scan _)

theorem stopEntry (s : State) (n : Nat) : Inner s (s.stopEntry n) := by
  unfold State.stopEntry
  split
  · exact refl s
  · exact turnAway s n _

theorem stopGate (s : State) : Inner s s.stopGate := by
  refine trans ?_ (foldl _ (fun s n => stopEntry s n) _ _)
  exact { refl s with start := fun _ _ => rfl }

theorem takeHanded (s : State) (e : Handed) : Inner s (s.takeHanded e) := by
  cases e
  · exact takeHandOn s _
  · exact scan s
  · exact choose s _

theorem drain (k : Nat) (s : State) : Inner s (State.drain k s) := by
  induction k generalizing s with
  | zero => exact refl s
  | succ k ih =>
    unfold State.drain
    split
    · exact refl s
    · exact ((handed s _).trans (takeHanded _ _)).trans (ih _)

/-! ## The probe and the measurement list -/

theorem modProbe (s : State) (f : ProbeRec → ProbeRec) : Inner s (s.modProbe f) := by
  unfold State.modProbe
  split
  · exact refl s
  · exact modLink s _ fun k => ⟨rfl, rfl, rfl, rfl, rfl, rfl, rfl⟩

theorem probeFault (s : State) (n : Nat) (kind : FaultKind) : Inner s (s.probeFault n kind) :=
  (faultReport s n kind _).trans (modProbe _ _)

theorem probeBegin (s : State) (l n : Nat) (rest : List Nat) : Inner s (s.probeBegin l n rest) :=
  (modSlot s n _).trans (modProbe _ _)

theorem probeTakeUp (s : State) (l : Nat) (ns : List Nat) : Inner s (probeTakeUp s l ns) := by
  induction ns generalizing s with
  | nil => exact modProbe s _
  | cons n ns ih =>
    unfold Machine.probeTakeUp
    refine ite ((modProbe s _).trans (ih _)) (ite ((modProbe s _).trans (ih _)) (ite ?_ ((modProbe s _).trans (ih _))))
    split
    · next h => exact (probeBegin s l n ns).trans (offer? _ _ _ _ h)
    · exact ((probeBegin s l n ns).trans (probeFault _ _ _)).trans (ih _)

theorem probeCheck (s : State) : Inner s s.probeCheck := by
  unfold State.probeCheck
  split
  · exact refl s
  · exact ite (ite (answerCurrent s _ _) (answerCurrent s _ _)) (refl s)

theorem probeNext (s : State) (l : Nat) (rest : List Nat) : Inner s (s.probeNext l rest) :=
  (probeTakeUp s l rest).trans (probeCheck _)

theorem probeFail (s : State) (l n : Nat) (kind : FaultKind) : Inner s (s.probeFail l n kind) :=
  (probeFault s n kind).trans (probeNext _ _ _)

theorem probeOffer (s : State) (l n : Nat) (body : FrameBody) : Inner s (s.probeOffer l n body) := by
  unfold State.probeOffer
  split
  · next h => exact offer? _ _ _ _ h
  · exact probeFail s l n _

theorem probeIdentify (s : State) (l n : Nat) (q : ProbeLine) : Inner s (s.probeIdentify l n q) :=
  (modSlot s n _).trans (probeOffer _ l n _)

theorem probePageOn (s : State) (l n : Nat) (q : ProbeLine) (page : Nat) : Inner s (s.probePageOn l n q page) :=
  (modProbe s _).trans (probeOffer _ l n _)

theorem probePage (s : State) (l n : Nat) (q : ProbeLine) (page : Nat) (kind d0 d1 d2 d3 d4 d5 : Byte) :
    Inner s (s.probePage l n q page kind d0 d1 d2 d3 d4 d5) := by
  unfold State.probePage
  split
  · exact ite (ite (probePageOn s l n _ _) (probeFail s l n _)) (probeFail s l n _)
  · exact ite (probePageOn s l n _ _) (probeFail s l n _)
  · exact ite (probePageOn s l n _ _) (probeFail s l n _)
  · exact ite (probeIdentify s l n _) (ite (probePageOn s l n _ _) (probeIdentify s l n _))

theorem probePageRefused (s : State) (l n : Nat) (q : ProbeLine) (page : Nat) :
    Inner s (s.probePageRefused l n q page) := ite (probeFail s l n _) (probeIdentify s l n _)

theorem probeSucceed (s : State) (l n : Nat) (q : ProbeLine) (a b : Nat) : Inner s (s.probeSucceed l n q a b) :=
  ((((modSlot s n _).trans (modSlot _ n _)).trans (updateZones _ n)).trans (modProbe _ _)).trans (probeNext _ l _)

theorem probeState (s : State) (l n : Nat) (q : ProbeLine) (run : RunState) (a b : Nat) :
    Inner s (s.probeState l n q run a b) :=
  ite (((placeUrgent s l _).trans (modProbe _ _)).trans (probeOffer _ l n _)) (probeSucceed s l n q a b)

theorem probeAnswered (s : State) (l : Nat) (f : BusFrame) (a : BusAnswer) : Inner s (s.probeAnswered l f a) := by
  unfold State.probeAnswered
  split
  · exact refl s
  · split <;> first
      | exact probePage s l _ _ _ _ _ _ _ _ _ _
      | exact probePageRefused s l _ _ _
      | exact probeState s l _ _ _ _ _
      | exact refl s

theorem probeFailed (s : State) (l : Nat) (f : BusFrame) : Inner s (s.probeFailed l f) := by
  unfold State.probeFailed
  split
  · exact refl s
  · exact probeFail s l _ _

/-- A change of the current request. -/
theorem current (s : State) (f : Link → Option Current) : Inner s (s.modLink fun k => { k with current := f k }) :=
  modLink s _ fun _ => ⟨rfl, rfl, rfl, rfl, rfl, rfl, rfl⟩

theorem startProbe (s : State) (tag code : Byte) (only : Option Nat) : Inner s (s.startProbe tag code only) :=
  ((current s _).trans (foldl _ (fun s l => probeTakeUp s l _) _ _)).trans (probeCheck _)

theorem setMeasure (s : State) (m : MeasureRec) : Inner s (s.setMeasure m) := current s _

theorem measureStops (s : State) (a i r : Nat) : Inner s (s.measureStops a i r) := answerCurrent s _ _

theorem measureUnanswered (s : State) (m : MeasureRec) (e : MeasureEntry) : Inner s (s.measureUnanswered m e) :=
  (faultReport s _ _ _).trans (measureStops _ _ _ _)

theorem measureEntry (s : State) (m : MeasureRec) : Inner s (s.measureEntry m) := by
  unfold State.measureEntry
  split
  · exact answerCurrent s _ _
  · split
    · exact measureStops s _ _ _
    · split
      · next h => exact offer? _ _ _ _ h
      · exact measureUnanswered s _ _

theorem measureNext (s : State) (m : MeasureRec) : Inner s (s.measureNext m) :=
  ite (measureStops s _ _ _) ((setMeasure s m).trans (measureEntry _ _))

theorem measureTaken (s : State) (m : MeasureRec) (e : MeasureEntry) : Inner s (s.measureTaken m e) :=
  ((modSlot s _ _).trans (updateZones _ _)).trans (measureNext _ _)

theorem measureRefused (s : State) (m : MeasureRec) (e : MeasureEntry) : Inner s (s.measureRefused m e) :=
  (faultReport s _ _ _).trans (measureStops _ _ _ _)

theorem measureAnswered (s : State) (f : BusFrame) (a : BusAnswer) : Inner s (s.measureAnswered f a) := by
  unfold State.measureAnswered
  split
  · exact refl s
  · split
    · exact refl s
    · split <;> first | exact measureTaken s _ _ | exact measureRefused s _ _ | exact refl s

theorem measureFailed (s : State) (f : BusFrame) : Inner s (s.measureFailed f) := by
  unfold State.measureFailed
  split
  · exact refl s
  · split
    · exact refl s
    · exact measureUnanswered s _ _

theorem startMeasure (s : State) (tag code : Byte) (es : List MeasureEntry) : Inner s (s.startMeasure tag code es) :=
  (current s _).trans (measureEntry _ _)

/-! ## The bus: what a frame's owner does -/

theorem ownerAnswered (s : State) (l : Nat) (f : BusFrame) (a : BusAnswer) : Inner s (s.ownerAnswered l f a) := by
  unfold State.ownerAnswered
  split <;> first
    | exact goTaken s _ _
    | exact goRefused s _ _
    | exact stateTaken s _ _ _ _ _ _
    | exact probeAnswered s _ _ _
    | exact measureAnswered s _ _
    | exact refl s

theorem ownerFailed (s : State) (l : Nat) (f : BusFrame) : Inner s (s.ownerFailed l f) := by
  unfold State.ownerFailed
  split <;> first
    | exact goFailed s _ _
    | exact pollFailed s _ _
    | exact readbackFailed s _ _
    | exact probeFailed s _ _
    | exact measureFailed s _
    | exact refl s

theorem frameLost (s : State) (l : Nat) (f : BusFrame) : Inner s (s.frameLost l f) := by
  unfold State.frameLost
  split <;> first
    | exact probeFailed s _ _
    | exact measureFailed s _
    | exact refl s

/-! ## Stop events, block by block -/

theorem stopLine (s : State) (l : Nat) : Inner s (s.stopLine l) := by
  unfold State.stopLine
  split
  · dsimp only
    refine trans (modLine s l _ ?_ ?_ ?_) ((placeUrgent _ l _).trans
      (foldl (fun s (p : Nat × Nat) => s.goDiscarded p.1 p.2) (fun s p => goDiscarded s p.1 p.2) _ _))
    · exact fun _ => rfl
    · exact fun _ => rfl
    · exact fun r h => ⟨Nat.le_trans (List.length_filter_le _ _) h.1, h.2⟩
  · exact placeUrgent s l _
  · exact refl s

theorem stopLink (s : State) : Inner s s.stopLink := by
  unfold State.stopLink
  split
  · exact refl s
  · split <;> first | exact answerCurrent s _ _ | exact refl s

theorem stopBlock (s : State) (b : StopBlock) : Inner s (s.stopBlock b) := by
  cases b
  · exact stopArbiter s
  · exact (stopPassing s _).trans (stopGate _)
  · exact stopLine s _
  · exact stopPlanner s
  · exact stopLink s

theorem stopBlocks (s : State) (bs : List StopBlock) : Inner s (stopBlocks s bs) := by
  induction bs generalizing s with
  | nil => exact refl s
  | cons b bs ih =>
    unfold Machine.stopBlocks
    exact (((stopPassing s _).trans (stopBlock _ b)).trans (drain _ _)).trans (ih _)

end Inner

end Sys2Proof.Machine
end

