-- ==== Sys2Proof/Laws/Rest.lean ====
section
/-! SUPPORT. What the taking of a request, a grant and the running to rest can do: Kept for everything but control
requests, Any for every event inside a step. -/

namespace Sys2Proof.Machine

/-- The granted frame stands where its grant says. -/
def State.granted (s : State) : Grant → Prop
  | .waitingAnswer f => s.outputRoom = true ∧ s.link.waitingAnswer = some f
  | .notice => s.outputRoom = true ∧ s.link.notices ≠ []
  | .control f rest => s.outputRoom = true ∧ s.link.control = f :: rest
  | .plan f rest => s.planMoves = true ∧ s.link.plan = f :: rest

theorem planFront_spec {s : State} {more : Bool} {f : LinkFrame} {rest : List LinkFrame}
    (h : s.planFront more = some (f, rest)) :
    s.planMoves = true ∧ s.link.plan = f :: rest ∧ f.more = more := by
  unfold State.planFront at h
  split at h
  · next hm =>
    split at h
    · cases h
    · next g gs e =>
      split at h
      · next hg => cases h; exact ⟨hm, e, hg⟩
      · cases h
  · cases h

theorem nextGrant_spec {s : State} {g : Grant} (h : s.nextGrant = some g) : s.granted g := by
  unfold State.nextGrant at h
  split at h
  · next f rest e => cases h; exact ⟨(planFront_spec e).1, (planFront_spec e).2.1⟩
  · split at h
    · next hr =>
      unfold State.placeGranted at h
      split at h
      · next e => cases h; exact ⟨hr, e⟩
      · next e => cases h; exact ⟨hr, by rw [e]; simp⟩
      · next e => cases h; exact ⟨hr, e⟩
      · next e => cases h; exact ⟨(planFront_spec e).1, (planFront_spec e).2.1⟩
      · cases h
    · cases h

/-! ## What everything but a control request keeps -/

/-- What the internal events from s to t keep when no control request is taken among them. -/
structure Kept (s t : State) : Prop where
  now : t.now = s.now
  pending : t.pending = s.pending
  pins : t.pins = s.pins
  settings : t.settings = s.settings
  stopOrders : t.stopOrders = s.stopOrders
  budget : t.gate.budget = s.gate.budget
  units : s.gate.unitsInUse ≤ s.gate.budget → t.gate.unitsInUse ≤ t.gate.budget
  wait : s.pins.stop = true → s.waitList = [] → t.waitList = []
  start : s.pins.stop = true → s.gate.startQueue = [] → t.gate.startQueue = []
  control : t.link.control = s.link.control
  planCap : s.link.plan.length ≤ Config.planCapacity → t.link.plan.length ≤ Config.planCapacity
  assemblyCap : s.link.assembly.length ≤ Config.assemblyCapacity → t.link.assembly.length ≤ Config.assemblyCapacity
  mask : t.link.mask = s.link.mask
  rx : t.link.rx = s.link.rx
  output : s.link.output <+: t.link.output
  outputCap : s.link.output.length ≤ Config.outputCapacity → t.link.output.length ≤ Config.outputCapacity
  lineState : ∀ l, (t.line l).state = (s.line l).state
  failureRun : ∀ l, (t.line l).failureRun = (s.line l).failureRun
  queues : ∀ l, (s.line l).QueuesOk → (t.line l).QueuesOk
  held : s.gate.HoldsOnce → t.gate.HoldsOnce

theorem Inner.kept {s t : State} (h : Inner s t) : Kept s t where
  now := h.now
  pending := h.pending
  pins := h.pins
  settings := h.settings
  stopOrders := h.stopOrders
  budget := h.budget
  units := h.units
  wait := h.wait
  start := h.start
  control := h.control
  planCap := fun x => by rw [h.plan]; exact x
  assemblyCap := fun x => by rw [h.assembly]; exact x
  mask := h.mask
  rx := h.rx
  output := h.output
  outputCap := h.outputCap
  lineState := h.lineState
  failureRun := h.failureRun
  queues := h.queues
  held := h.held

namespace Kept

theorem refl (s : State) : Kept s s := (Inner.refl s).kept

theorem trans {s t u : State} (h : Kept s t) (k : Kept t u) : Kept s u where
  now := k.now.trans h.now
  pending := k.pending.trans h.pending
  pins := k.pins.trans h.pins
  settings := k.settings.trans h.settings
  stopOrders := k.stopOrders.trans h.stopOrders
  budget := k.budget.trans h.budget
  units := fun x => k.units (h.units x)
  wait := fun x y => k.wait (h.pins ▸ x) (h.wait x y)
  start := fun x y => k.start (h.pins ▸ x) (h.start x y)
  control := k.control.trans h.control
  planCap := fun x => k.planCap (h.planCap x)
  assemblyCap := fun x => k.assemblyCap (h.assemblyCap x)
  mask := k.mask.trans h.mask
  rx := k.rx.trans h.rx
  output := h.output.trans k.output
  outputCap := fun x => k.outputCap (h.outputCap x)
  lineState := fun l => (k.lineState l).trans (h.lineState l)
  failureRun := fun l => (k.failureRun l).trans (h.failureRun l)
  queues := fun l x => k.queues l (h.queues l x)
  held := fun x => k.held (h.held x)

end Kept

/-! ## The plan requests as they are taken -/

namespace Inner

theorem reply (s : State) (tag : Byte) (q : Request) (st : Status) (p : List Byte) : Inner s (s.reply tag q st p) :=
  answer s _ _ _ _

theorem takeDefineSlot (s : State) (tag sl ln dr : Byte) (a f m : Word) (g : Byte) (e : Serial) :
    Inner s (s.takeDefineSlot tag sl ln dr a f m g e) := by
  unfold State.takeDefineSlot
  dsimp only
  split
  · exact reply s _ _ _ _
  · exact (setSlot s _ _).trans (reply _ _ _ _ _)

theorem takeForgetSlot (s : State) (tag sl : Byte) : Inner s (s.takeForgetSlot tag sl) := by
  unfold State.takeForgetSlot
  split
  · exact reply s _ _ _ _
  · exact (setSlot s _ _).trans (reply _ _ _ _ _)

theorem takeRetire (s : State) (tag sl : Byte) : Inner s (s.takeRetire tag sl) := by
  unfold State.takeRetire
  split
  · exact reply s _ _ _ _
  · exact (reply s _ _ _ _).trans (retire _ _ _)

theorem assignAll (s : State) (k : Nat) (es : List AssignEntry) : Inner s (Machine.assignAll s k es).1 := by
  induction es generalizing s k with
  | nil => exact refl s
  | cons e es ih =>
    unfold Machine.assignAll
    split
    · exact refl s
    · exact (modSlot s _ _).trans (ih _ _)

theorem takeAssignList (s : State) (tag : Byte) (es : List AssignEntry) : Inner s (s.takeAssignList tag es) := by
  unfold State.takeAssignList
  refine ite ?_ (reply s _ _ _ _)
  have h := assignAll s 0 es
  split <;> (next e => rw [e] at h; exact h.trans (reply _ _ _ _ _))

theorem takeClearTarget (s : State) (tag sl : Byte) (t : Word) : Inner s (s.takeClearTarget tag sl t) := by
  unfold State.takeClearTarget
  split
  · exact reply s _ _ _ _
  · exact (modSlot s _ _).trans (reply _ _ _ _ _)

theorem takeDropTargets (s : State) (tag : Byte) (t : Word) : Inner s (s.takeDropTargets tag t) :=
  ite (reply s _ _ _ _) (ite (reply s _ _ _ _) ((mapSlots s _).trans (reply _ _ _ _ _)))

theorem putZone (s : State) (z : Nat) (r : ZoneRec) : Inner s (s.putZone z r) :=
  (((modSlot s _ _).trans (modSlot _ _ _)).trans (setZone _ _ _)).trans (ite (raise _ _) (refl _))

theorem takeDefineZone (s : State) (tag : Byte) (z : Word) (s1 : Byte) (x1 : WireBox) (s2 : Byte) (x2 : WireBox) :
    Inner s (s.takeDefineZone tag z s1 x1 s2 x2) := by
  unfold State.takeDefineZone
  dsimp only
  split
  · exact reply s _ _ _ _
  · exact (reply s _ _ _ _).trans (putZone _ _ _)

theorem dropZone (s : State) (z : Nat) (r : ZoneRec) : Inner s (s.dropZone z r) :=
  ((modSlot s _ _).trans (modSlot _ _ _)).trans (setZone _ _ _)

theorem takeForgetZone (s : State) (tag : Byte) (z : Word) : Inner s (s.takeForgetZone tag z) := by
  unfold State.takeForgetZone
  refine ite (reply s _ _ _ _) ?_
  split
  · exact reply s _ _ _ _
  · exact ite (reply s _ _ _ _) ((dropZone s _ _).trans (reply _ _ _ _ _))

theorem makeCurrent (s : State) (tag : Byte) (q : Request) (w : Work) : Inner s (s.makeCurrent tag q w) :=
  current s fun _ => some { code := q.code, tag := tag, work := w }

theorem takeAwaitBatch (s : State) (tag : Byte) : Inner s (s.takeAwaitBatch tag) :=
  ite (makeCurrent s _ _ _) (reply s _ _ _ _)

theorem takeProbe (s : State) (tag sl : Byte) : Inner s (s.takeProbe tag sl) := by
  unfold State.takeProbe
  dsimp only
  refine ite (ite (reply s _ _ _ _) (startProbe s _ _ _)) ?_
  split
  · exact reply s _ _ _ _
  · exact startProbe s _ _ _

theorem takeMeasureList (s : State) (tag : Byte) (es : List MeasureEntry) : Inner s (s.takeMeasureList tag es) :=
  ite (startMeasure s _ _ _) (reply s _ _ _ _)

theorem startRecover (s : State) (n : Nat) : Inner s (s.startRecover n) :=
  ((modSlot s n _).trans (buildLeg _ _ _ _ _)).trans (handLeg _ _)

theorem takeRecover (s : State) (tag sl : Byte) : Inner s (s.takeRecover tag sl) := by
  unfold State.takeRecover
  dsimp only
  split
  · exact reply s _ _ _ _
  · exact (makeCurrent s _ _ _).trans (ite ((updateZones _ _).trans (recoverSucceeds _ _)) (startRecover _ _))

theorem admitRobot (s : State) (tag n : Nat) : Inner s (s.admitRobot tag n) := by
  unfold State.admitRobot
  dsimp only
  refine trans (modSlot s n fun r => { r with batchFlag := true, targets := pinTag tag r.targets }) ?_
  split
  · exact recordOutcome _ _ _
  · exact (modSlot _ n _).trans (buildLeg _ _ _ _ _)

theorem handFirstLegs (s : State) (ns : List Nat) : Inner s (s.handFirstLegs ns) :=
  foldl (fun s n => s.handLeg n) (fun s n => handLeg s n) ns s

end Inner

namespace Kept

theorem openBatch (s : State) (tag : Nat) : Kept s (s.openBatch tag) := by
  unfold State.openBatch
  have h1 := (Inner.mapSlots s fun r => { r with batchFlag := false, outcome := .none }).kept
  refine h1.trans ?_
  refine trans (t := ({ s.mapSlots _ with batch := _ } : State)) ?_
    (Inner.foldl (fun s n => s.admitRobot tag n) (fun s n => Inner.admitRobot s tag n) _ _).kept
  exact { refl (s.mapSlots _) with }

theorem takeExecute (s : State) (tag : Byte) (t : Word) : Kept s (s.takeExecute tag t) := by
  unfold State.takeExecute
  dsimp only
  split
  · exact (Inner.reply s _ _ _ _).kept
  · split
    · exact (Inner.reply s _ _ _ _).kept
    · exact (openBatch s _).trans ((Inner.reply _ _ _ _ _).trans (Inner.handFirstLegs _ _)).kept

/-- A request of the plan channel. -/
theorem take (s : State) (tag : Byte) (q : Request) (h : q.channel = .plan) : Kept s (s.take tag q) := by
  cases q <;> first
    | exact (Inner.takeDefineSlot s _ _ _ _ _ _ _ _ _).kept
    | exact (Inner.takeForgetSlot s _ _).kept
    | exact (Inner.takeRetire s _ _).kept
    | exact (Inner.takeAssignList s _ _).kept
    | exact (Inner.takeClearTarget s _ _ _).kept
    | exact (Inner.takeDropTargets s _ _).kept
    | exact (Inner.takeDefineZone s _ _ _ _ _ _).kept
    | exact (Inner.takeForgetZone s _ _).kept
    | exact takeExecute s _ _
    | exact (Inner.takeAwaitBatch s _).kept
    | exact (Inner.takeProbe s _ _).kept
    | exact (Inner.takeMeasureList s _ _).kept
    | exact (Inner.takeRecover s _ _).kept
    | simp [Request.channel, Request.code] at h

theorem takeFrame (s : State) (more : Bool) (tag code : Byte) (p : List Byte) :
    Kept s (s.takeFrame .plan more tag code p) := by
  unfold State.takeFrame
  split
  · next q e =>
    refine take s tag q ?_
    unfold Request.taken at e
    split at e
    · split at e
      · next h => cases e; exact h.1
      · cases e
    · cases e
  · exact (Inner.answer s _ _ _ _).kept

theorem haltPlan (s : State) (r : HaltReason) : Kept s (s.haltPlan r) := by
  unfold State.haltPlan
  split
  · exact refl s
  · refine trans (t := s.modLink fun k => { k with halt := some r, assembly := [] }) ?_ (Inner.raise _ _).kept
    exact { refl s with assemblyCap := fun _ => Nat.zero_le _ }

theorem takeAssembly (s : State) (fs : List LinkFrame) : Kept s (s.takeAssembly fs) := by
  cases fs
  · exact refl s
  · exact takeFrame s _ _ _ _

theorem moveFrame (s : State) (f : LinkFrame) (rest : List LinkFrame) (h : s.link.plan = f :: rest) :
    Kept s (s.moveFrame f rest) := by
  have hp : s.link.plan.length ≤ Config.planCapacity → rest.length ≤ Config.planCapacity := by
    intro x; rw [h, List.length_cons] at x; omega
  unfold State.moveFrame
  dsimp only
  split
  · refine trans (t := s.modLink fun k => { k with plan := rest }) ?_ (haltPlan _ _)
    exact { refl s with planCap := hp }
  · next hc =>
    split
    · exact { refl s with
        planCap := hp
        assemblyCap := fun _ => by
          rw [modLink_link, List.length_append]
          simp only [List.length_cons, List.length_nil]
          omega }
    · refine trans (t := s.modLink fun k => { k with plan := rest, assembly := [] }) ?_ (takeAssembly _ _)
      exact { refl s with planCap := hp, assemblyCap := fun _ => Nat.zero_le _ }

/-- A grant that takes no control request. -/
theorem carryOut (s : State) (g : Grant) (h : s.granted g) (hc : s.link.control = []) : Kept s (s.carryOut g) := by
  cases g with
  | waitingAnswer f =>
    have h1 : Inner s (s.modLink fun k => { k with waitingAnswer := none }) :=
      Inner.modLink s _ fun _ => ⟨rfl, rfl, rfl, rfl, rfl, rfl, rfl⟩
    exact (h1.trans (Inner.enterOutput _ f h.1)).kept
  | notice => exact (Inner.enterNotice s h.1).kept
  | control f rest =>
    have h2 := h.2
    rw [hc] at h2
    cases h2
  | plan f rest => exact moveFrame s f rest h.2

/-- Running to rest with no control frame waiting. -/
theorem settle (k : Nat) (s : State) (hc : s.link.control = []) : Kept s (s.settle k) := by
  induction k generalizing s with
  | zero => exact refl s
  | succ k ih =>
    unfold State.settle
    split
    · next e rest _ =>
      have h := ((Inner.handed s rest).trans (Inner.takeHanded _ e)).kept
      exact h.trans (ih _ (by rw [h.control]; exact hc))
    · split
      · next g e =>
        have h := carryOut s g (nextGrant_spec e) hc
        exact h.trans (ih _ (by rw [h.control]; exact hc))
      · exact refl s

theorem rest (s : State) (hc : s.link.control = []) : Kept s s.rest := settle _ s hc

end Kept

/-- With no request waiting, what a block runs to rest is internal. -/
theorem Inner.settle (k : Nat) (s : State) (hc : s.link.control = []) (hp : s.link.plan = []) :
    Inner s (s.settle k) := by
  induction k generalizing s with
  | zero => exact Inner.refl s
  | succ k ih =>
    unfold State.settle
    split
    · next e rest _ =>
      have h := (Inner.handed s rest).trans (Inner.takeHanded _ e)
      exact h.trans (ih _ (by rw [h.control]; exact hc) (by rw [h.plan]; exact hp))
    · split
      · next g e =>
        have hg := nextGrant_spec e
        have h : Inner s (s.carryOut g) := by
          cases g with
          | waitingAnswer f =>
            have h1 : Inner s (s.modLink fun k => { k with waitingAnswer := none }) :=
              Inner.modLink s _ fun _ => ⟨rfl, rfl, rfl, rfl, rfl, rfl, rfl⟩
            exact h1.trans (Inner.enterOutput _ f hg.1)
          | notice => exact Inner.enterNotice s hg.1
          | control f rest => exact absurd hg.2 (by rw [hc]; simp)
          | plan f rest => exact absurd hg.2 (by rw [hp]; simp)
        exact h.trans (ih _ (by rw [h.control]; exact hc) (by rw [h.plan]; exact hp))
      · exact Inner.refl s

/-- With no event handed on and no request waiting, running to rest changes the link alone. -/
theorem sameRecords_settle (k : Nat) (s : State) (hh : s.handed = []) (hc : s.link.control = [])
    (hp : s.link.plan = []) : s.SameRecords (s.settle k) := by
  induction k generalizing s with
  | zero => rfl
  | succ k ih =>
    unfold State.settle
    rw [hh]
    dsimp only
    split
    · next g e =>
      have hg := nextGrant_spec e
      have h : s.SameRecords (s.carryOut g) ∧ (s.carryOut g).link.control = [] ∧ (s.carryOut g).link.plan = [] := by
        cases g with
        | waitingAnswer f => unfold State.carryOut State.enterOutput; dsimp only; split <;> exact ⟨rfl, hc, hp⟩
        | notice =>
          unfold State.carryOut State.enterNotice
          dsimp only
          split
          · exact ⟨rfl, hc, hp⟩
          · unfold State.enterOutput; split <;> exact ⟨rfl, hc, hp⟩
        | control f rest => exact absurd hg.2 (by rw [hc]; simp)
        | plan f rest => exact absurd hg.2 (by rw [hp]; simp)
      have h2 := ih (s.carryOut g) (by rw [h.1]; exact hh) h.2.1 h.2.2
      unfold State.SameRecords at h2 ⊢
      rw [h2, h.1]
    · rfl

/-! ## What every event inside a step keeps -/

/-- The invariants kept from s to t, and what the commands and the pins alone change. -/
structure Sound (s t : State) : Prop where
  now : t.now = s.now
  pending : t.pending = s.pending
  pins : t.pins = s.pins
  lawful : s.Lawful → t.Lawful
  within : s.Within → t.Within
  stopped : s.Stopped → t.Stopped

/-- What any event inside a step keeps. -/
structure Any (s t : State) : Prop extends Sound s t where
  rx : t.link.rx = s.link.rx
  output : s.link.output <+: t.link.output

theorem Sound.trans {s t u : State} (h : Sound s t) (k : Sound t u) : Sound s u where
  now := k.now.trans h.now
  pending := k.pending.trans h.pending
  pins := k.pins.trans h.pins
  lawful := fun x => k.lawful (h.lawful x)
  within := fun x => k.within (h.within x)
  stopped := fun x => k.stopped (h.stopped x)

theorem Kept.any {s t : State} (h : Kept s t) : Any s t where
  now := h.now
  pending := h.pending
  pins := h.pins
  lawful := fun x => by
    refine ⟨⟨?_, ?_, h.units x.1.2.2⟩, ?_⟩
    · rw [h.budget]; exact x.1.1
    · rw [h.budget]; exact x.1.2.1
    · rw [h.settings]; exact x.2
  within := fun x => by
    refine ⟨⟨?_, h.planCap x.1.2.1, h.assemblyCap x.1.2.2.1, h.outputCap x.1.2.2.2⟩, fun l => ?_, h.held x.2.2⟩
    · rw [h.control]; exact x.1.1
    · have y := x.2.1 l
      have q := h.queues l ⟨y.1, y.2.1⟩
      exact ⟨q.1, q.2, by rw [h.failureRun]; exact y.2.2⟩
  stopped := fun x y => by
    rw [h.pins] at y
    exact ⟨h.wait y (x y).1, h.start y (x y).2⟩
  rx := h.rx
  output := h.output

theorem Inner.any {s t : State} (h : Inner s t) : Any s t := h.kept.any

namespace Any

theorem refl (s : State) : Any s s := (Kept.refl s).any

theorem trans {s t u : State} (h : Any s t) (k : Any t u) : Any s u :=
  { h.toSound.trans k.toSound with
    rx := k.rx.trans h.rx
    output := h.output.trans k.output }

theorem ite {s t u : State} {c : Prop} [Decidable c] (h : Any s t) (k : Any s u) : Any s (if c then t else u) := by
  split <;> assumption

theorem foldl {α : Type} (f : State → α → State) (h : ∀ s a, Any s (f s a)) (as : List α) (s : State) :
    Any s (as.foldl f s) := by
  induction as generalizing s with
  | nil => exact refl s
  | cons a as ih => exact (h s a).trans (ih (f s a))

/-- A line record changed within its bounds. -/
theorem modLine (s : State) (l : Nat) (f : LineRec → LineRec) (h : ∀ r : LineRec, r.Ordered → (f r).Ordered) :
    Any s (s.modLine l f) :=
  { refl s with
    within := fun x => ⟨x.1, fun m => by
      rw [line_modLine]
      split
      · next e => exact h _ (x.2.1 l)
      · exact x.2.1 m, x.2.2⟩ }

/-- A change of the link within its capacities that keeps the bytes held and the output queue. -/
theorem modLink (s : State) (f : Link → Link) (h : ∀ k : Link, k.Within → (f k).Within) (hr : ∀ k, (f k).rx = k.rx)
    (ho : ∀ k, (f k).output = k.output) : Any s (s.modLink f) :=
  { refl s with
    within := fun x => ⟨h _ x.1, x.2⟩
    rx := hr s.link
    output := by simp [ho] }

/-! ## The control requests as they are taken -/

theorem reply (s : State) (tag : Byte) (q : Request) (st : Status) (p : List Byte) : Any s (s.reply tag q st p) :=
  (Inner.reply s _ _ _ _).any

theorem stopEvent (s : State) (src : StopSource) : Any s (s.stopEvent src) := by
  unfold State.stopEvent
  refine trans (t := ({ s with stopOrders := s.stopOrders.tail } : State)) ?_
    ((Inner.raise _ _).trans (Inner.stopBlocks _ _)).any
  exact { refl s with }

theorem takeResume (s : State) (tag sl : Byte) : Any s (s.takeResume tag sl) :=
  ite (reply s _ _ _ _) (ite (ite (reply s _ _ _ _) ((Inner.mapSlots s _).any.trans (reply _ _ _ _ _)))
    (ite (reply s _ _ _ _) (ite (reply s _ _ _ _) (ite (reply s _ _ _ _)
      ((Inner.modSlot s _ _).any.trans (reply _ _ _ _ _))))))

theorem setBudget (s : State) (u : Nat) (h : 2 ≤ u ∧ u ≤ 128) (hu : s.gate.unitsInUse ≤ u) :
    Any s (s.modGate fun g => { g with budget := u }) :=
  { refl s with lawful := fun x => ⟨⟨h.1, h.2, hu⟩, x.2⟩ }

theorem takeSetBudget (s : State) (tag units : Byte) : Any s (s.takeSetBudget tag units) := by
  unfold State.takeSetBudget
  dsimp only
  split
  · exact reply s _ _ _ _
  · split
    · exact reply s _ _ _ _
    · refine trans (setBudget s units.toNat (by omega) (by omega)) ?_
      refine trans (reply _ tag (.setBudget units) .ok (b1 units.toNat ++ b1 s.gate.unitsInUse)) ?_
      exact ite (Inner.hand _ _).any (refl _)

theorem lineGoesUp (s : State) (l : Nat) : Any s (s.lineGoesUp l) := by
  unfold State.lineGoesUp
  refine trans (modLine s l _ ?_) ((Inner.hand _ _).trans (Inner.hand _ _)).any
  exact fun r h => ⟨h.1, h.2.1, List.nodup_nil⟩

theorem takeRelease (s : State) (tag : Byte) : Any s (s.takeRelease tag) := by
  unfold State.takeRelease
  split
  · exact reply s _ _ _ _
  · refine (reply s _ _ _ _).trans (foldl _ (fun s l => ?_) _ _)
    refine (modLine s l _ fun r h => ?_).trans (lineGoesUp _ l)
    exact ⟨Nat.zero_le _, List.nodup_nil, h.2.2⟩

theorem takeResetLine (s : State) (tag line : Byte) : Any s (s.takeResetLine tag line) := by
  unfold State.takeResetLine
  dsimp only
  refine ite (reply s _ _ _ _) ?_
  split
  · exact reply s _ _ _ _
  · refine trans (modLine s _ _ ?_) (reply _ _ _ _ _)
    exact fun r h => ⟨h.1, h.2.1, List.nodup_nil⟩
  · exact (reply s _ _ _ _).trans (lineGoesUp _ _)

/-- A field of SET_TIMING that passes its test leaves its setting in range. -/
theorem timingNew_range {v old low high : Nat} (h : timingOk v low high = true) (ho : low ≤ old ∧ old ≤ high) :
    low ≤ timingNew v old ∧ timingNew v old ≤ high := by
  unfold timingNew
  split
  · exact ho
  · next hv => simpa [timingOk, hv] using h

theorem takeSetTiming (s : State) (tag : Byte) (c e : Word) (f : Byte) : Any s (s.takeSetTiming tag c e f) := by
  unfold State.takeSetTiming
  dsimp only
  split
  · next h =>
    simp only [Bool.and_eq_true] at h
    refine trans ?_ (reply _ _ _ _ _)
    exact { refl s with
      lawful := fun x =>
        ⟨x.1, timingNew_range h.1.1 x.2.1, timingNew_range h.1.2 x.2.2.1, timingNew_range h.2 x.2.2.2⟩ }
  · exact reply s _ _ _ _

theorem takeSetNotices (s : State) (tag mask : Byte) : Any s (s.takeSetNotices tag mask) := by
  refine trans (modLink s _ ?_ ?_ ?_) (reply _ _ _ _ _)
  · exact fun _ h => h
  · exact fun _ => rfl
  · exact fun _ => rfl

theorem cancelRecover (s : State) (n : Nat) : Any s (s.cancelRecover n) :=
  ((((Inner.leaveStart s n).trans (Inner.recoverReturns _ n)).trans (Inner.answerCurrent _ _ _)).trans
    (Inner.hand _ _)).any

theorem replyCancel (s : State) (tag : Byte) (c : Current) (e : CancelEffect) : Any s (s.replyCancel tag c e) :=
  reply s _ _ _ _

theorem takeCancel (s : State) (tag : Byte) : Any s (s.takeCancel tag) := by
  unfold State.takeCancel
  split
  · exact reply s _ _ _ _
  · split
    · exact (replyCancel s _ _ _).trans (Inner.answerCurrent _ _ _).any
    · exact (replyCancel s _ _ _).trans (Inner.modProbe _ _).any
    · exact (replyCancel s _ _ _).trans (Inner.setMeasure _ _).any
    · exact ite ((replyCancel s _ _ _).trans (cancelRecover _ _)) (replyCancel s _ _ _)

theorem takeClearHalt (s : State) (tag : Byte) : Any s (s.takeClearHalt tag) := by
  unfold State.takeClearHalt
  split
  · exact reply s _ _ _ _
  · refine trans (modLink s _ ?_ ?_ ?_) (reply _ _ _ _ _)
    · exact fun _ h => h
    · exact fun _ => rfl
    · exact fun _ => rfl

theorem takeFlush (s : State) (tag : Byte) : Any s (s.takeFlush tag) := by
  refine trans (modLink s _ ?_ ?_ ?_) (reply _ _ _ _ _)
  · exact fun _ h => ⟨h.1, Nat.zero_le _, Nat.zero_le _, h.2.2.2⟩
  · exact fun _ => rfl
  · exact fun _ => rfl

theorem resetSegment (s : State) : Any s s.resetSegment := by
  unfold State.resetSegment
  dsimp only
  refine trans ?_ (foldl _ (fun s l => lineGoesUp s l) _ _)
  refine trans ?_ (modLink _ _ ?_ ?_ ?_)
  · refine trans ?_ (foldl _ (fun s l => modLine s l _ fun r h => ?_) _ _)
    · exact { refl s with
        lawful := fun x => by
          refine ⟨?_, ?_⟩
          · simp only [modGate_gate, Gate.resetBudget]
            have h := x.1
            have e : Config.defaultBudget = 48 := rfl
            exact ⟨by omega, by
              show max Config.defaultBudget s.gate.unitsInUse ≤ 128
              omega, by
              show s.gate.unitsInUse ≤ max Config.defaultBudget s.gate.unitsInUse
              omega⟩
          · exact (by decide : (1 ≤ Settings.default.claimTimeout ∧ Settings.default.claimTimeout ≤ 600) ∧
              (100 ≤ Settings.default.settleAllowance ∧ Settings.default.settleAllowance ≤ 10000) ∧
              (1 ≤ Settings.default.faultLimit ∧ Settings.default.faultLimit ≤ 7)) }
    · exact ⟨Nat.zero_le _, List.nodup_nil, List.nodup_nil⟩
  · exact fun _ h => ⟨h.1, Nat.zero_le _, Nat.zero_le _, h.2.2.2⟩
  · exact fun _ => rfl
  · exact fun _ => rfl

theorem takeResetSegment (s : State) (tag : Byte) : Any s (s.takeResetSegment tag) :=
  ite (reply s _ _ _ _) ((resetSegment s).trans (reply _ _ _ _ _))

theorem take (s : State) (tag : Byte) (q : Request) : Any s (s.take tag q) := by
  by_cases hq : q.channel = .plan
  · exact (Kept.take s tag q hq).any
  · cases q <;> first
      | exact ite (reply s _ _ _ _) (reply s _ _ _ _)
      | exact reply s _ _ _ _
      | exact (reply s _ _ _ _).trans (stopEvent _ _)
      | exact takeResume s _ _
      | exact takeSetBudget s _ _
      | exact takeRelease s _
      | exact takeResetLine s _ _
      | exact takeSetTiming s _ _ _ _
      | exact takeSetNotices s _ _
      | exact takeCancel s _
      | exact takeClearHalt s _
      | exact takeFlush s _
      | exact takeResetSegment s _
      | exact absurd rfl hq

theorem takeFrame (s : State) (ch : Channel) (more : Bool) (tag code : Byte) (p : List Byte) :
    Any s (s.takeFrame ch more tag code p) := by
  unfold State.takeFrame
  split
  · exact take s _ _
  · exact (Inner.answer s _ _ _ _).any

theorem carryOut (s : State) (g : Grant) (h : s.granted g) : Any s (s.carryOut g) := by
  cases g with
  | waitingAnswer f =>
    have h1 : Inner s (s.modLink fun k => { k with waitingAnswer := none }) :=
      Inner.modLink s _ fun _ => ⟨rfl, rfl, rfl, rfl, rfl, rfl, rfl⟩
    exact (h1.trans (Inner.enterOutput _ f h.1)).any
  | notice => exact (Inner.enterNotice s h.1).any
  | control f rest =>
    refine trans ?_ (takeFrame _ _ _ _ _ _)
    have hl : s.link.Within → rest.length ≤ Config.controlCapacity := by
      intro x
      have := x.1
      rw [h.2, List.length_cons] at this
      omega
    exact { refl s with within := fun x => ⟨⟨hl x.1, x.1.2⟩, x.2⟩ }
  | plan f rest => exact (Kept.moveFrame s f rest h.2).any

theorem settle (k : Nat) (s : State) : Any s (s.settle k) := by
  induction k generalizing s with
  | zero => exact refl s
  | succ k ih =>
    unfold State.settle
    split
    · exact ((Inner.handed s _).trans (Inner.takeHanded _ _)).any.trans (ih _)
    · split
      · next g e => exact (carryOut s g (nextGrant_spec e)).trans (ih _)
      · exact refl s

theorem rest (s : State) : Any s s.rest := settle _ s

/-! ## Arrival -/

theorem haltPlan (s : State) (r : HaltReason) : Any s (s.haltPlan r) := (Kept.haltPlan s r).any

theorem answerArrival (s : State) (f : LinkFrame) (st : Status) (p : List Byte) : Any s (s.answerArrival f st p) := by
  unfold State.answerArrival
  split
  · next h => exact (Inner.enterOutput s _ h).any
  · exact (Inner.raise s _).any

theorem frameArrives (s : State) (seg : Byte) (f : LinkFrame) : Any s (s.frameArrives seg f) := by
  unfold State.frameArrives
  refine ite ?_ (answerArrival s _ _ _)
  split
  · unfold State.controlArrives
    split
    · next h =>
      exact { refl s with
        within := fun x => ⟨⟨by
          rw [modLink_link, List.length_append]
          simp only [List.length_cons, List.length_nil]
          omega, x.1.2⟩, x.2⟩ }
    · exact (Inner.raise s _).any
  · unfold State.planArrives
    split
    · exact answerArrival s _ _ _
    · split
      · next h =>
        exact { refl s with
          within := fun x => ⟨⟨x.1.1, by
            rw [modLink_link, List.length_append]
            simp only [List.length_cons, List.length_nil]
            omega, x.1.2.2⟩, x.2⟩ }
      · exact haltPlan s _

theorem goodFrame (s : State) (seg : Byte) (f : LinkFrame) : Any s (s.goodFrame seg f) :=
  (frameArrives s seg f).trans (rest _)

theorem badFrame (s : State) : Any s s.badFrame := (haltPlan s _).trans (rest _)

theorem sendRequest (s : State) (tag : Byte) (q : Request) : Any s (s.sendRequest tag q) :=
  foldl _ (fun s f => goodFrame s _ f) _ _

/-! ## The bus -/

theorem frameLost (s : State) (l : Nat) (f : BusFrame) : Any s (s.frameLost l f) := (Inner.frameLost s l f).any

theorem lineGoesDown (s : State) (l : Nat) : Any s (s.lineGoesDown l) := by
  unfold State.lineGoesDown
  dsimp only
  refine trans (modLine s l LineRec.goneDown fun r h => ?_) ?_
  · exact ⟨Nat.zero_le _, h.2.1.filter _, h.2.2⟩
  · refine trans (foldl (fun s f => s.frameLost l f) (fun s f => frameLost s l f)
      ((s.line l).normal ++ (s.line l).waiting) _) ?_
    generalize List.foldl (fun s f => s.frameLost l f) (s.modLine l LineRec.goneDown)
      ((s.line l).normal ++ (s.line l).waiting) = t
    refine trans (foldl (fun s n => s.lineDownLeg n) (fun s n => (Inner.lineDownLeg s n).any) (t.slotsOn l) _) ?_
    exact (((Inner.raise _ _).trans (Inner.hand _ _)).trans (Inner.hand _ _)).any

theorem nodup_joinRun (d : Nat) (run : List Nat) (h : run.Nodup) : (joinRun d run).Nodup := by
  unfold joinRun
  split
  · exact h
  · next hc =>
    rw [List.nodup_append]
    refine ⟨h, by simp, ?_⟩
    intro a ha b hb e
    simp only [List.mem_singleton] at hb
    subst hb
    subst e
    simp at hc
    exact hc ha

theorem txnFails (s : State) (l : Nat) (t : Txn) : Any s (s.txnFails l t) := by
  unfold State.txnFails
  dsimp only
  refine trans (modLine s l _ ?_) ((Inner.ownerFailed _ l _).any.trans (ite (lineGoesDown _ l) (Inner.hand _ _).any))
  exact fun r h => ⟨h.1, h.2.1, nodup_joinRun _ _ h.2.2⟩

theorem txnSucceeds (s : State) (l : Nat) (t : Txn) (a : BusAnswer) : Any s (s.txnSucceeds l t a) := by
  unfold State.txnSucceeds
  refine trans (modLine s l _ ?_) ((Inner.ownerAnswered _ l _ _).trans (Inner.hand _ _)).any
  intro r h
  cases a <;> exact ⟨h.1, h.2.1, List.nodup_nil⟩

theorem attemptEnds (s : State) (l : Nat) (t : Txn) : Any s (s.attemptEnds l t) := by
  unfold State.attemptEnds
  split
  · refine modLine s l _ ?_
    exact fun _ h => h
  · exact txnFails s l t

theorem receiveBus (s : State) (l : Nat) (bytes : List Byte) : Any s (s.receiveBus l bytes) := by
  unfold State.receiveBus
  split
  · exact refl s
  · refine ite ?_ (refl s)
    split
    · exact txnSucceeds s l _ _
    · exact attemptEnds s l _

theorem windowExpires (s : State) (l : Nat) : Any s (s.windowExpires l) := by
  unfold State.windowExpires
  split
  · exact refl s
  · exact ite (attemptEnds s l _) (refl s)

theorem sendingEnds (s : State) (l : Nat) : Any s (s.sendingEnds l) := by
  unfold State.sendingEnds
  split
  · exact refl s
  · refine ite ?_ (refl s)
    refine modLine s l _ ?_
    intro r h
    unfold LineRec.noteAsk
    split <;> exact h

theorem haltAllSent (s : State) (l : Nat) : Any s (s.haltAllSent l) := by
  unfold State.haltAllSent
  refine ite ?_ (refl s)
  refine trans (modLine s l _ ?_) (Inner.hand _ _).any
  exact fun _ h => h

theorem waitingJoins (s : State) (l : Nat) : Any s (s.waitingJoins l) := by
  unfold State.waitingJoins
  split
  · exact refl s
  · next f rest e =>
    split
    · next hr =>
      refine trans ?_ (Inner.hand _ _).any
      have hlt : (s.line l).normal.length < Config.normalCapacity := by simpa [LineRec.hasRoom] using hr
      exact { refl s with
        within := fun x => ⟨x.1, fun m => by
          rw [line_modLine]
          split
          · have y := x.2.1 l
            refine ⟨?_, y.2⟩
            simp only [List.length_append, List.length_cons, List.length_nil]
            omega
          · exact x.2.1 m, x.2.2⟩ }
    · exact refl s

theorem pollExpires (s : State) (n : Nat) : Any s (s.pollExpires n) := ite (Inner.hand s _).any (refl s)

end Any

end Sys2Proof.Machine
end

