-- ==== Sys2Proof/Laws/Requests.lean ====
section
/-! SUPPORT. Requests as they are read and taken: a request is read back from its code and payload; on a block at
rest its command is its own rule, run to rest; what a block at rest stays at. -/

namespace Sys2Proof.Machine

/-! ## Fields and lists read back -/

/-- A word is read back from its two bytes. -/
theorem word_bw (w : Word) : word (w.extractLsb' 8 8) (w.extractLsb' 0 8) = w := by
  apply BitVec.eq_of_getLsbD_eq
  intro i hi
  simp only [word, BitVec.getLsbD_append, BitVec.getLsbD_extractLsb']
  by_cases h : i < 8
  · simp [h]
  · simp [h]
    have : i - 8 < 8 := by omega
    have e : 8 + (i - 8) = i := by omega
    simp [this, e]

/-- A serial is read back from its four bytes. -/
theorem serial4_b4 (v : Serial) :
    serial4 (v.extractLsb' 24 8) (v.extractLsb' 16 8) (v.extractLsb' 8 8) (v.extractLsb' 0 8) = v := by
  apply BitVec.eq_of_getLsbD_eq
  intro i hi
  simp only [serial4, BitVec.getLsbD_append, BitVec.getLsbD_extractLsb']
  have h3 : i < 8 ∨ (8 ≤ i ∧ i < 16) ∨ (16 ≤ i ∧ i < 24) ∨ (24 ≤ i ∧ i < 32) := by omega
  rcases h3 with h | h | h | h
  · have a : i < 16 := by omega
    simp [h, a]
  · have a : i < 16 := by omega
    have b : ¬ i < 8 := by omega
    have c : i - 8 < 8 := by omega
    have e : 8 + (i - 8) = i := by omega
    simp [a, b, c, e]
  · have a : ¬ i < 16 := by omega
    have b : i - 16 < 8 := by omega
    have e : 16 + (i - 16) = i := by omega
    simp [a, b, e]
  · have a : ¬ i < 16 := by omega
    have b : ¬ i - 16 < 8 := by omega
    have c : i - 16 - 8 < 8 := by omega
    have e : 24 + (i - 16 - 8) = i := by omega
    simp [a, b, c, e]

theorem assignEntries_bytes (es : List AssignEntry) :
    assignEntries (es.map AssignEntry.bytes).flatten = some es := by
  induction es with
  | nil => rfl
  | cons e es ih =>
    simp only [List.map_cons, List.flatten_cons, AssignEntry.bytes, bw, List.cons_append, List.nil_append]
    unfold assignEntries
    simp [ih, word_bw]

theorem measureEntries_bytes (es : List MeasureEntry) :
    measureEntries (es.map MeasureEntry.bytes).flatten = some es := by
  induction es with
  | nil => rfl
  | cons e es ih =>
    simp only [List.map_cons, List.flatten_cons, MeasureEntry.bytes, bw, List.cons_append, List.nil_append]
    unfold measureEntries
    simp [ih, word_bw]

/-- A request is read back from its code and payload. -/
theorem read_payload (q : Request) : Request.read q.code q.payload = some q := by
  cases q <;> simp [Request.code, Request.payload, Request.read, bw, b4, WireBox.bytes, word_bw, serial4_b4,
    assignEntries_bytes, measureEntries_bytes]

theorem taken_payload (q : Request) (more : Bool) (h : q.channel = .control → more = false) :
    Request.taken q.channel more q.code q.payload = some q := by
  unfold Request.taken
  rw [read_payload]
  simp only [true_and]
  rw [if_pos h]

/-! ## A block at rest -/

/-- What is granted depends on the link alone. -/
theorem nextGrant_congr {s t : State} (h : t.link = s.link) : t.nextGrant = s.nextGrant := by
  unfold State.nextGrant State.placeGranted State.planFront State.planMoves State.outputRoom
  rw [h]

theorem quiet_congr {s t : State} (h : t.link = s.link) (hh : t.handed = s.handed) : t.quiet = s.quiet := by
  unfold State.quiet
  rw [nextGrant_congr h, hh]

theorem outputRoom_congr {s t : State} (h : t.link = s.link) : t.outputRoom = s.outputRoom := by
  unfold State.outputRoom
  rw [h]

theorem ready_congr {s t : State} (h : t.link = s.link) (hh : t.handed = s.handed) : t.ready = s.ready := by
  unfold State.ready
  rw [quiet_congr h hh, outputRoom_congr h]

/-- A block at rest stays as it is. -/
theorem settle_quiet (k : Nat) (s : State) (h : s.quiet = true) : s.settle k = s := by
  unfold State.quiet at h
  simp only [Bool.and_eq_true, List.isEmpty_iff, Option.isNone_iff_eq_none] at h
  cases k with
  | zero => rfl
  | succ k => unfold State.settle; rw [h.1]; dsimp only; rw [h.2]

theorem rest_quiet (s : State) (h : s.quiet = true) : s.rest = s := settle_quiet _ s h

/-- A block at rest with a place free waits for nothing. -/
theorem ready_spec {s : State} (h : s.ready = true) :
    s.handed = [] ∧ s.outputRoom = true ∧ s.link.waitingAnswer = none ∧ s.link.notices = [] ∧ s.link.control = [] ∧
      (s.planMoves = true → s.link.plan = []) := by
  unfold State.ready State.quiet at h
  simp only [Bool.and_eq_true, List.isEmpty_iff, Option.isNone_iff_eq_none] at h
  obtain ⟨⟨hh, hg⟩, hr⟩ := h
  unfold State.nextGrant at hg
  split at hg
  · cases hg
  · next hm =>
    rw [if_pos hr] at hg
    unfold State.placeGranted at hg
    split at hg <;> first
      | (cases hg; done)
      | (next e1 e2 e3 e4 =>
          refine ⟨hh, hr, e1, e2, e3, fun pm => ?_⟩
          unfold State.planFront at hm e4
          rw [if_pos pm] at hm e4
          split at hm
          · assumption
          · next f rest e =>
            rw [e] at e4
            dsimp only at e4
            split at hm
            · cases hm
            · next h1 => split at e4
                         · cases e4
                         · next h2 => cases hf : f.more <;> simp_all)

/-- A block with nothing handed on and nothing waiting is at rest. -/
theorem quiet_of {s : State} (hh : s.handed = []) (hw : s.link.waitingAnswer = none) (hn : s.link.notices = [])
    (hc : s.link.control = []) (hp : s.planMoves = true → s.link.plan = []) : s.quiet = true := by
  have hf : ∀ more, s.planFront more = none := by
    intro more
    unfold State.planFront
    split
    · next pm => rw [hp pm]
    · rfl
  unfold State.quiet State.nextGrant
  rw [hf]
  dsimp only
  unfold State.placeGranted
  rw [hw, hn, hc, hf, hh]
  cases s.outputRoom <;> rfl

/-- An answer that finds a place leaves a block at rest at rest. -/
theorem answered_quiet {s : State} (h : s.ready = true) (tag code : Byte) (st : Status) (p : List Byte) :
    (s.answered tag code st p).quiet = true := by
  obtain ⟨hh, hr, hw, hn, hc, hp⟩ := ready_spec h
  unfold State.answered State.enterOutput
  split <;> exact quiet_of hh hw hn hc hp

theorem settle_answered {s : State} (h : s.ready = true) (k : Nat) (tag code : Byte) (st : Status) (p : List Byte) :
    (s.answered tag code st p).settle k = s.answered tag code st p := settle_quiet k _ (answered_quiet h _ _ _ _)

/-- With a place free a reply enters the output queue. -/
theorem reply_answered {s : State} (h : s.outputRoom = true) (tag : Byte) (q : Request) (st : Status) (p : List Byte) :
    s.reply tag q st p = s.answered tag q.code st p := by
  unfold State.reply State.answer State.answered
  rw [if_pos h]

/-- The answer alone changes: every record but the output queue stays. -/
theorem settle_reply {s : State} (h : s.ready = true) (k : Nat) (tag : Byte) (q : Request) (st : Status)
    (p : List Byte) : (s.reply tag q st p).settle k = s.answered tag q.code st p := by
  rw [reply_answered (ready_spec h).2.1, settle_answered h]

/-- The link after a frame has entered its output queue. -/
def Link.enter (k : Link) (f : OutFrame) : Link :=
  match k.output with
  | [] => { k with output := [{ f with planFree := some (Config.planCapacity - k.plan.length) }] }
  | _ :: _ => { k with output := k.output ++ [f] }

/-- A frame that enters the output queue changes the link alone. -/
theorem enterOutput_eq (s : State) (f : OutFrame) : s.enterOutput f = { s with link := s.link.enter f } := by
  unfold State.enterOutput Link.enter
  cases h : s.link.output with
  | nil => rfl
  | cons a as =>
    show ({ s with link := { s.link with output := s.link.output ++ [f] } } : State) = _
    rw [h]

theorem answered_eq (s : State) (tag code : Byte) (st : Status) (p : List Byte) :
    s.answered tag code st p = { s with link := s.link.enter (answerFrame tag code st p) } := enterOutput_eq s _

theorem enter_output (k : Link) (f : OutFrame) :
    (k.enter f).output = if k.output = [] then
      [{ f with planFree := some (Config.planCapacity - k.plan.length) }] else k.output ++ [f] := by
  unfold Link.enter
  split
  · next h => rw [if_pos h]
  · next h => rw [if_neg (by rw [h]; simp)]

@[simp] theorem enter_control (k : Link) (f : OutFrame) : (k.enter f).control = k.control := by
  unfold Link.enter; split <;> rfl
@[simp] theorem enter_plan (k : Link) (f : OutFrame) : (k.enter f).plan = k.plan := by unfold Link.enter; split <;> rfl
@[simp] theorem enter_notices (k : Link) (f : OutFrame) : (k.enter f).notices = k.notices := by
  unfold Link.enter; split <;> rfl
@[simp] theorem enter_halt (k : Link) (f : OutFrame) : (k.enter f).halt = k.halt := by unfold Link.enter; split <;> rfl
@[simp] theorem enter_current (k : Link) (f : OutFrame) : (k.enter f).current = k.current := by
  unfold Link.enter; split <;> rfl
@[simp] theorem enter_waitingAnswer (k : Link) (f : OutFrame) : (k.enter f).waitingAnswer = k.waitingAnswer := by
  unfold Link.enter; split <;> rfl
@[simp] theorem enter_mask (k : Link) (f : OutFrame) : (k.enter f).mask = k.mask := by unfold Link.enter; split <;> rfl

/-! ## A request sent to a block at rest -/

theorem forThisSegment_own (s : State) : s.forThisSegment s.segmentByte = true := by
  simp [State.forThisSegment]

theorem settleFuel_succ : Config.settleFuel = 99999 + 1 := rfl

/-- A control frame that arrives at a block at rest is taken at once (R193, R194). -/
theorem goodFrame_control {s : State} (h : s.ready = true) {f : LinkFrame} (hf : f.channel = .control) (seg : Byte)
    (hs : s.forThisSegment seg = true) :
    s.goodFrame seg f = (s.takeFrame .control f.more f.tag f.code f.payload).settle (Config.settleFuel - 1) := by
  obtain ⟨hh, hr, hw, hn, hc, hp⟩ := ready_spec h
  have e1 : s.frameArrives seg f = s.modLink fun k => { k with control := [f] } := by
    unfold State.frameArrives State.controlArrives
    rw [if_pos hs, hf]
    dsimp only
    rw [if_pos (by rw [hc]; decide)]
    show ({ s with link := { s.link with control := s.link.control ++ [f] } } : State) = _
    rw [hc]
    rfl
  have e2 : ∀ more, (s.modLink fun k => { k with control := [f] }).planFront more = none := by
    intro more
    unfold State.planFront
    split
    · next pm =>
      have : s.link.plan = [] := hp pm
      rw [modLink_link]
      dsimp only
      rw [this]
    · rfl
  have e3 : (s.modLink fun k => { k with control := [f] }).nextGrant = some (.control f []) := by
    unfold State.nextGrant
    rw [e2]
    dsimp only
    rw [if_pos (show (s.modLink fun k => { k with control := [f] }).outputRoom = true from hr)]
    unfold State.placeGranted
    rw [e2]
    simp only [modLink_link]
    rw [hw, hn]
  have e4 : ({ s.link with control := [] } : Link) = s.link := by rw [← hc]
  unfold State.goodFrame State.rest
  rw [e1, settleFuel_succ]
  show State.settle (99999 + 1) _ = _
  rw [State.settle]
  rw [show (s.modLink fun k => { k with control := [f] }).handed = [] from hh]
  dsimp only
  rw [e3]
  show State.settle 99999 (State.takeFrame { s with link := { s.link with control := [] } } _ _ _ _ _) = _
  rw [e4]

/-- A plan frame that completes a request at a block at rest is moved, and the request is taken at once from it and the
frames assembled before it (R197, R198). -/
theorem goodFrame_plan {s : State} (h : s.ready = true) (hm : s.planMoves = true) {f : LinkFrame}
    (hf : f.channel = .plan) (hmore : f.more = false) (ha : s.link.assembly.length < Config.assemblyCapacity)
    (seg : Byte) (hs : s.forThisSegment seg = true) :
    s.goodFrame seg f = ((s.modLink fun k => { k with assembly := [] }).takeAssembly
      (s.link.assembly ++ [f])).settle (Config.settleFuel - 1) := by
  obtain ⟨hh, hr, hw, hn, hc, hp⟩ := ready_spec h
  have hp := hp hm
  have hhalt : s.link.halt = none := by
    unfold State.planMoves at hm
    simp only [Bool.and_eq_true, Option.isNone_iff_eq_none] at hm
    exact hm.1.1
  have e1 : s.frameArrives seg f = s.modLink fun k => { k with plan := [f] } := by
    unfold State.frameArrives State.planArrives
    rw [if_pos hs, hf]
    dsimp only
    rw [hhalt]
    dsimp only
    rw [if_pos (by rw [hp]; decide)]
    show ({ s with link := { s.link with plan := s.link.plan ++ [f] } } : State) = _
    rw [hp]
    rfl
  have e0 : (s.modLink fun k => { k with plan := [f] }).planMoves = true := hm
  have e2 : (s.modLink fun k => { k with plan := [f] }).nextGrant = some (.plan f []) := by
    unfold State.nextGrant State.placeGranted State.planFront
    rw [if_pos e0, if_pos e0]
    simp only [modLink_link]
    rw [if_neg (by rw [hmore]; decide), if_pos hmore]
    dsimp only
    rw [if_pos (show (s.modLink fun k => { k with plan := [f] }).outputRoom = true from hr), hw, hn, hc]
  have e4 : ({ s.link with plan := [] } : Link) = s.link := by rw [← hp]
  unfold State.goodFrame State.rest
  rw [e1, settleFuel_succ]
  show State.settle (99999 + 1) _ = _
  rw [State.settle]
  rw [show (s.modLink fun k => { k with plan := [f] }).handed = [] from hh]
  dsimp only
  rw [e2]
  show State.settle 99999 (State.moveFrame _ f []) = _
  unfold State.moveFrame
  dsimp only
  rw [if_neg (by show ¬ Config.assemblyCapacity ≤ s.link.assembly.length; omega), if_neg (by rw [hmore]; decide)]
  show State.settle 99999 (State.takeAssembly { s with link := { s.link with plan := [], assembly := [] } }
    (s.link.assembly ++ [f])) = _
  congr 2
  show _ = ({ s with link := { s.link with assembly := [] } } : State)
  congr 1
  rw [← hp]

/-- A plan frame with "more" that arrives at a block at rest joins the assembly (R197). -/
theorem goodFrame_more {s : State} (h : s.ready = true) (hm : s.planMoves = true) {f : LinkFrame}
    (hf : f.channel = .plan) (hmore : f.more = true) (ha : s.link.assembly.length < Config.assemblyCapacity)
    (seg : Byte) (hs : s.forThisSegment seg = true) :
    s.goodFrame seg f = s.modLink fun k => { k with assembly := k.assembly ++ [f] } := by
  obtain ⟨hh, hr, hw, hn, hc, hp⟩ := ready_spec h
  have hp := hp hm
  have hhalt : s.link.halt = none := by
    unfold State.planMoves at hm
    simp only [Bool.and_eq_true, Option.isNone_iff_eq_none] at hm
    exact hm.1.1
  have e1 : s.frameArrives seg f = s.modLink fun k => { k with plan := [f] } := by
    unfold State.frameArrives State.planArrives
    rw [if_pos hs, hf]
    dsimp only
    rw [hhalt]
    dsimp only
    rw [if_pos (by rw [hp]; decide)]
    show ({ s with link := { s.link with plan := s.link.plan ++ [f] } } : State) = _
    rw [hp]
    rfl
  have e0 : (s.modLink fun k => { k with plan := [f] }).planMoves = true := hm
  have e2 : (s.modLink fun k => { k with plan := [f] }).nextGrant = some (.plan f []) := by
    unfold State.nextGrant State.planFront
    rw [if_pos e0]
    simp only [modLink_link]
    rw [if_pos hmore]
  unfold State.goodFrame State.rest
  rw [e1, settleFuel_succ]
  show State.settle (99999 + 1) _ = _
  rw [State.settle]
  rw [show (s.modLink fun k => { k with plan := [f] }).handed = [] from hh]
  dsimp only
  rw [e2]
  show State.settle 99999 (State.moveFrame _ f []) = _
  unfold State.moveFrame
  dsimp only
  rw [if_neg (by show ¬ Config.assemblyCapacity ≤ s.link.assembly.length; omega), if_pos hmore]
  show State.settle 99999 ({ s with link := { s.link with plan := [], assembly := s.link.assembly ++ [f] } } : State) =
    ({ s with link := { s.link with assembly := s.link.assembly ++ [f] } } : State)
  rw [show ({ s.link with plan := [], assembly := s.link.assembly ++ [f] } : Link) =
    { s.link with assembly := s.link.assembly ++ [f] } by rw [← hp]]
  exact settle_quiet _ _ (quiet_of hh hw hn hc fun _ => hp)

/-- A control request sent to a block at rest is taken at once under its own rule. -/
theorem sendRequest_control {s : State} (h : s.ready = true) (tag : Byte) {q : Request} (hq : q.channel = .control)
    (hl : q.payload.length ≤ Config.payloadCapacity) :
    s.sendRequest tag q = (s.take tag q).settle (Config.settleFuel - 1) := by
  have hp : framePayloads q.payload.length q.payload = [q.payload] := by
    cases q.payload.length with
    | zero => rfl
    | succ k => unfold framePayloads; rw [if_pos hl]
  unfold State.sendRequest
  rw [hp]
  show s.goodFrame _ _ = _
  rw [goodFrame_control h (by exact hq) _ (forThisSegment_own s)]
  congr 1
  unfold State.takeFrame
  have := taken_payload q false fun _ => rfl
  rw [hq] at this
  dsimp only
  rw [this]

/-- A one-frame plan request sent to a block at rest is taken at once under its own rule. -/
theorem sendRequest_plan_one {s : State} (h : s.planReady = true) (tag : Byte) {q : Request} (hq : q.channel = .plan)
    (hl : q.payload.length ≤ Config.payloadCapacity) :
    s.sendRequest tag q = (s.take tag q).settle (Config.settleFuel - 1) := by
  unfold State.planReady at h
  simp only [Bool.and_eq_true, List.isEmpty_iff] at h
  obtain ⟨⟨hr, hm⟩, ha⟩ := h
  have hp : framePayloads q.payload.length q.payload = [q.payload] := by
    cases q.payload.length with
    | zero => rfl
    | succ k => unfold framePayloads; rw [if_pos hl]
  unfold State.sendRequest
  rw [hp]
  show s.goodFrame _ _ = _
  rw [goodFrame_plan hr hm (by exact hq) rfl (by rw [ha]; decide) _ (forThisSegment_own s)]
  congr 1
  have hl : (s.modLink fun k => { k with assembly := [] }) = s := by
    show ({ s with link := { s.link with assembly := [] } } : State) = s
    rw [← ha]
  rw [hl, ha]
  show s.takeFrame .plan false tag q.code (joinedPayload [_]) = _
  unfold State.takeFrame
  have := taken_payload q false fun _ => rfl
  rw [hq] at this
  simp only [joinedPayload, List.map_cons, List.map_nil, List.flatten_cons, List.flatten_nil, List.append_nil]
  rw [this]

/-! ## A request of several frames -/

theorem framePayloads_flatten (k : Nat) (p : List Byte) : (framePayloads k p).flatten = p := by
  induction k generalizing p with
  | zero => simp [framePayloads]
  | succ k ih =>
    unfold framePayloads
    split
    · simp
    · simp [ih]

theorem framePayloads_length (k : Nat) (p : List Byte) (m : Nat) (h : p.length ≤ Config.payloadCapacity * (m + 1)) :
    (framePayloads k p).length ≤ m + 1 := by
  induction k generalizing p m with
  | zero => simp [framePayloads]
  | succ k ih =>
    unfold framePayloads
    have e : Config.payloadCapacity = 256 := rfl
    rw [e] at h ⊢
    split
    · simp
    · next hp =>
      cases m with
      | zero => omega
      | succ m =>
        have := ih (p.drop 256) m (by rw [List.length_drop, e]; omega)
        simp only [List.length_cons]
        omega

theorem framePayloads_ne (k : Nat) (p : List Byte) : framePayloads k p ≠ [] := by
  cases k with
  | zero => simp [framePayloads]
  | succ k => unfold framePayloads; split <;> simp

theorem requestFrames_payloads (tag : Byte) (q : Request) (ps : List (List Byte)) :
    joinedPayload (requestFrames tag q ps) = ps.flatten := by
  unfold joinedPayload
  induction ps with
  | nil => rfl
  | cons p ps ih =>
    cases ps with
    | nil => rfl
    | cons r rs =>
      unfold requestFrames
      simp only [List.map_cons, List.flatten_cons]
      rw [ih]
      rfl

/-- The frames of a plan request, arriving one after another at a block at rest, complete its assembly. -/
theorem foldl_requestFrames (tag : Byte) (q : Request) (hq : q.channel = .plan) (ps : List (List Byte))
    (hne : ps ≠ []) (s : State) (h : s.ready = true) (hm : s.planMoves = true)
    (ha : s.link.assembly.length + ps.length ≤ Config.assemblyCapacity) :
    (requestFrames tag q ps).foldl (fun s f => s.goodFrame s.segmentByte f) s =
      ((s.modLink fun k => { k with assembly := [] }).takeAssembly
        (s.link.assembly ++ requestFrames tag q ps)).settle (Config.settleFuel - 1) := by
  induction ps generalizing s with
  | nil => exact absurd rfl hne
  | cons p ps ih =>
    cases ps with
    | nil =>
      simp only [List.length_cons, List.length_nil] at ha
      exact goodFrame_plan h hm hq rfl (by omega) _ (forThisSegment_own s)
    | cons r rs =>
      simp only [List.length_cons] at ha
      unfold requestFrames
      rw [List.foldl_cons]
      rw [goodFrame_more h hm (by exact hq) rfl (by omega) _ (forThisSegment_own s)]
      rw [ih (by simp)]
      · show State.settle _ (State.takeAssembly _ ((s.link.assembly ++ [_]) ++ _)) = _
        rw [List.append_assoc]
        rfl
      · obtain ⟨hh, hr, hw, hn, hc, hp⟩ := ready_spec h
        unfold State.ready
        rw [quiet_of (s := s.modLink fun k => { k with assembly := k.assembly ++ [_] }) hh hw hn hc fun _ => hp hm]
        exact hr
      · exact hm
      · show (s.link.assembly ++ [_]).length + _ ≤ _
        simp only [List.length_append, List.length_cons, List.length_nil]
        omega

/-- A plan request of up to eight frames sent to a block at rest is taken at once under its own rule. -/
theorem sendRequest_plan {s : State} (h : s.planReady = true) (tag : Byte) {q : Request} (hq : q.channel = .plan)
    (hl : q.payload.length ≤ 2048) : s.sendRequest tag q = (s.take tag q).settle (Config.settleFuel - 1) := by
  unfold State.planReady at h
  simp only [Bool.and_eq_true, List.isEmpty_iff] at h
  obtain ⟨⟨hr, hm⟩, ha⟩ := h
  have hne := framePayloads_ne q.payload.length q.payload
  have hlen := framePayloads_length q.payload.length q.payload 7 hl
  unfold State.sendRequest
  rw [foldl_requestFrames tag q hq _ hne s hr hm (by rw [ha]; exact by simpa [Config.assemblyCapacity] using hlen)]
  congr 1
  have e : (s.modLink fun k => { k with assembly := [] }) = s := by
    show ({ s with link := { s.link with assembly := [] } } : State) = s
    rw [← ha]
  rw [e, ha, List.nil_append]
  have hj := requestFrames_payloads tag q (framePayloads q.payload.length q.payload)
  rw [framePayloads_flatten] at hj
  have ht := taken_payload q false fun _ => rfl
  rw [hq] at ht
  revert hj
  cases hps : framePayloads q.payload.length q.payload with
  | nil => exact absurd hps hne
  | cons p ps =>
    intro hj
    cases ps with
    | nil =>
      show s.takeFrame .plan false tag q.code _ = _
      rw [hj]
      unfold State.takeFrame
      rw [ht]
    | cons r rs =>
      show s.takeFrame .plan false tag q.code _ = _
      rw [hj]
      unfold State.takeFrame
      rw [ht]

end Sys2Proof.Machine
end

