-- ==== Sys2Proof/Laws/Records.lean ====
section
/-! SUPPORT. Which records the shared operations leave as they were: for each operation one equation that names the
fields it may write, and what it writes there. -/

namespace Sys2Proof.Machine

/-! ## Notices and answers -/

/-- Raising an event writes the pending notices and nothing else. -/
theorem raise_eq (s : State) (e : Summary) :
    s.raise e = { s with link := { s.link with notices := (s.raise e).link.notices } } := by
  unfold State.raise
  split <;> rfl

theorem raiseContested_eq (zs : List Nat) (s : State) :
    s.raiseContested zs = { s with link := { s.link with notices := (s.raiseContested zs).link.notices } } := by
  have h : ∀ s : State, ∃ ns, s.raiseContested zs = { s with link := { s.link with notices := ns } } := by
    induction zs with
    | nil => exact fun s => ⟨s.link.notices, rfl⟩
    | cons z zs ih =>
      intro s
      obtain ⟨ns, e⟩ := ih (s.raise (.zoneContested 1 z))
      refine ⟨ns, ?_⟩
      show State.raiseContested (s.raise _) zs = _
      rw [e, raise_eq s]
  obtain ⟨ns, e⟩ := h s
  rw [e]

/-- The deferred answer that finds a place: the current request is absent and its answer stands in the queue. -/
theorem answerCurrent_answered {s : State} {c : Current} (h : s.link.current = some c) (hr : s.outputRoom = true)
    (st : Status) (p : List Byte) :
    s.answerCurrent st p =
      ({ s with link := { s.link with current := none } } : State).answered c.tag c.code st p := by
  unfold State.answerCurrent
  rw [h]
  exact if_pos hr

/-- A deferred answer writes the link and nothing else. -/
theorem answerCurrent_eq (s : State) (st : Status) (p : List Byte) :
    s.answerCurrent st p = { s with link := (s.answerCurrent st p).link } := by
  unfold State.answerCurrent
  split
  · rfl
  · unfold State.answer
    split
    · rw [enterOutput_eq]
      rfl
    · rfl

theorem answerRecover_eq (s : State) (n : Nat) (st : Status) (p : List Byte) :
    s.answerRecover n st p = { s with link := (s.answerRecover n st p).link } := by
  unfold State.answerRecover
  split
  · exact answerCurrent_eq s st p
  · rfl

theorem answerAwait_eq (s : State) : s.answerAwait = { s with link := s.answerAwait.link } := by
  unfold State.answerAwait
  split
  · split
    · exact answerCurrent_eq _ _ _
    · rfl
  · rfl

/-- With no AWAIT_BATCH current there is none to answer. -/
theorem answerAwait_other {s : State} (h : ∀ w, s.link.current = some w → w.work ≠ .awaitBatch) :
    s.answerAwait = s := by
  unfold State.answerAwait
  split
  · next c e => exact if_neg (h c e)
  · rfl

/-! ## Outcomes -/

theorem closeBatch_eq (s : State) : s.closeBatch = { s with batch := s.closeBatch.batch, link := s.closeBatch.link } := by
  unfold State.closeBatch
  split
  · rw [answerAwait_eq, raise_eq]
  · rfl
  · rfl

theorem closeBatch_batch {s : State} {b : BatchRec} (h : s.batch = .opened b) :
    s.closeBatch.batch = .closed b s.now := by
  unfold State.closeBatch
  rw [h]
  dsimp only
  rw [answerAwait_eq, raise_eq]

/-- Recording an outcome writes the slot, the batch and the link, and nothing else. -/
theorem recordOutcome_eq (s : State) (n : Nat) (o : RobotOutcome) :
    s.recordOutcome n o =
      { s with
        slots := (s.recordOutcome n o).slots
        batch := (s.recordOutcome n o).batch
        link := (s.recordOutcome n o).link } := by
  unfold State.recordOutcome
  split
  · split
    · dsimp only
      split
      · rw [closeBatch_eq]
        rfl
      · rfl
    · rfl
  · rfl
  · rfl

/-- A robot that is not in the open batch, or has its outcome, is given none. -/
theorem recordOutcome_none {s : State} {n : Nat} (o : RobotOutcome)
    (h : ∀ b, s.batch = .opened b → ¬ ((s.slot n).batchFlag = true ∧ (s.slot n).outcome = .none)) :
    s.recordOutcome n o = s := by
  unfold State.recordOutcome
  split
  · next b e => exact if_neg (h b e)
  · rfl
  · rfl

theorem recordOutcome_slot {s : State} {n : Nat} {b : BatchRec} (o : RobotOutcome) (hb : s.batch = .opened b)
    (h : (s.slot n).batchFlag = true ∧ (s.slot n).outcome = .none) (m : Nat) :
    (s.recordOutcome n o).slot m = (s.modSlot n fun r => r.withOutcome o b.tag).slot m := by
  unfold State.recordOutcome
  rw [hb]
  dsimp only
  rw [if_pos h]
  split
  · rw [closeBatch_eq]
    rfl
  · rfl

theorem recordOutcome_other (s : State) (n : Nat) (o : RobotOutcome) (m : Nat) (h : m ≠ n) :
    (s.recordOutcome n o).slot m = s.slot m := by
  by_cases hb : ∃ b, s.batch = .opened b ∧ (s.slot n).batchFlag = true ∧ (s.slot n).outcome = .none
  · obtain ⟨b, hb, hc⟩ := hb
    rw [recordOutcome_slot o hb hc]
    exact slot_modSlot_other s n m _ (Ne.symm h)
  · rw [recordOutcome_none o fun b e hc => hb ⟨b, e, hc⟩]

/-- With no AWAIT_BATCH current, recording an outcome writes no more of the link than the pending notices. -/
theorem recordOutcome_link {s : State} (n : Nat) (o : RobotOutcome)
    (h : ∀ w, s.link.current = some w → w.work ≠ .awaitBatch) :
    (s.recordOutcome n o).link = { s.link with notices := (s.recordOutcome n o).link.notices } := by
  unfold State.recordOutcome
  split
  · split
    · dsimp only
      split
      · unfold State.closeBatch
        dsimp only
        rw [raise_eq, answerAwait_other]
        · rfl
        · exact h
      · rfl
    · rfl
  · rfl
  · rfl

/-! ## Zones and faults, with no claim waiting -/

theorem writeZones_eq (cs : List (Nat × ZoneStatus × ZoneStatus)) :
    ∀ s : State, s.writeZones cs = { s with zones := (s.writeZones cs).zones } := by
  induction cs with
  | nil => exact fun _ => rfl
  | cons c cs ih =>
    intro s
    show State.writeZones (s.setStatus _ _) cs = _
    rw [ih]
    rfl

theorem reexamine_idle {s : State} (h : s.waitList = []) : s.reexamine = s := by
  unfold State.reexamine
  rw [h]
  rfl

/-- A status write changes the status of the one zone that it names. -/
theorem setStatus_zone (s : State) (z : Nat) (st : ZoneStatus) (y : Nat) :
    (s.setStatus z st).zone y = if y = z then (s.zone z).map fun r => { r with status := st } else s.zone y := by
  by_cases h : z < 384
  · by_cases hy : y = z
    · subst hy
      simp [State.setStatus, State.setZone, State.zone, h]
    · have hz : ¬ z = y := fun e => hy e.symm
      simp [State.setStatus, State.setZone, State.zone, hy, hz]
  · have none : s.zone z = none := by simp [State.zone, Vector.getElem?_eq_none (show 384 ≤ z by omega)]
    have out : s.zones.setIfInBounds z ((s.zone z).map fun r => { r with status := st }) = s.zones := by
      apply Vector.ext
      intro i hi
      rw [Vector.getElem_setIfInBounds]
      split
      · omega
      · rfl
    have same : s.setStatus z st = s := by
      unfold State.setStatus State.setZone
      rw [out]
    rw [same]
    split
    · next e => rw [e, none]; rfl
    · rfl

/-- Changes computed on one state, written into a state whose zones differ from it in the status alone. -/
theorem writeZones_zone (s0 : State) (new : ZoneRec → ZoneStatus) (zs : List Nat) :
    ∀ (s : State) (had : Nat → ZoneRec → ZoneStatus),
      (∀ z, s.zone z = (s0.zone z).map fun r => { r with status := had z r }) →
      ∀ z, (s.writeZones (zs.filterMap fun z => (s0.zone z).map fun r => (z, r.status, new r))).zone z =
        if z ∈ zs then (s0.zone z).map fun r => { r with status := new r } else s.zone z := by
  induction zs with
  | nil => exact fun s had h z => rfl
  | cons a zs ih =>
    intro s had h z
    cases ha : s0.zone a with
    | none =>
      simp only [List.filterMap_cons, ha, Option.map_none]
      rw [ih s had h]
      by_cases hz : z = a
      · subst hz
        simp [h, ha]
      · simp [hz]
    | some r =>
      simp only [List.filterMap_cons, ha, Option.map_some]
      show ((s.setStatus a (new r)).writeZones _).zone z = _
      rw [ih (s.setStatus a (new r)) fun y x => if y = a then new r else had y x]
      · rw [setStatus_zone]
        by_cases hz : z = a
        · subst hz
          simp [ha, h]
        · simp [hz]
      · intro y
        rw [setStatus_zone]
        by_cases hy : y = a
        · subst hy
          cases e : s0.zone y <;> simp [h, e]
        · simp [hy, h]

/-- A table applied to a robot: each zone of its zone list has the status the table gives, any other stands. -/
theorem writeZones_zoneChanges (s : State) (n : Nat) (rule : ZoneStatus → Side → Bool → ZoneStatus) (z : Nat) :
    (s.writeZones (s.zoneChanges n rule)).zone z =
      if z ∈ (s.slot n).zones then
        (s.zone z).map fun r =>
          { r with status := rule r.status (r.sideOf n) (r.occupiedBy n (s.slot n).position) }
      else s.zone z :=
  writeZones_zone s _ _ s (fun _ r => r.status) (fun z => by cases s.zone z <;> rfl) z

theorem zoneReport_idle {s : State} (h : s.waitList = []) (freed fenced : List Nat) :
    s.zoneReport freed fenced = s := by
  unfold State.zoneReport State.handOutcomes
  cases s
  dsimp only at h
  subst h
  dsimp only [List.filter, List.foldl]
  split
  · rfl
  · rfl

/-- An occupancy update with no claim waiting writes the zones and the pending notices, and nothing else. -/
theorem updateZones_eq {s : State} (n : Nat) (h : s.waitList = []) :
    s.updateZones n =
      { s with
        zones := (s.updateZones n).zones
        link := { s.link with notices := (s.updateZones n).link.notices } } := by
  unfold State.updateZones
  split
  · dsimp only
    rw [zoneReport_idle (by rw [writeZones_eq]; exact h), raiseContested_eq, writeZones_eq]
  · rfl

/-- A robot whose position is unknown keeps its zones. -/
theorem updateZones_unknown {s : State} {n : Nat} (h : (s.slot n).position = none) : s.updateZones n = s := by
  unfold State.updateZones
  rw [if_neg]
  simp [h]

/-- A fault report below the fault limit, with no claim waiting: what the slot holds, and the records that stand. -/
theorem faultReport_below {s : State} {n : Nat} (kind : FaultKind) (pos : PosChange) (hn : n < 128)
    (hw : s.waitList = []) (hl : (s.slot n).faultCount + 1 < s.settings.faultLimit) :
    let t := s.faultReport n kind pos
    t = { s with slots := t.slots, zones := t.zones, batch := t.batch, link := t.link } ∧
    (∃ o ts g, t.slot n =
      { s.slot n with
        state := .faulted, fault := some { kind := kind, time := s.now }, remaining := []
        faultCount := (s.slot n).faultCount + 1, position := pos.apply (s.slot n).position
        outcome := o, targets := ts, leg := g } ∧
      (g = (s.slot n).leg ∨ g = (s.slot n).leg.filter fun x => x.stage == .lapsing) ∧
      ∀ b, s.batch = .opened b → (s.slot n).batchFlag = true → (s.slot n).outcome = .none → o = .faulted) ∧
    (∀ m, m ≠ n → t.slot m = s.slot m) ∧
    (pos = .unknown → t.zones = s.zones) ∧
    ((∀ w, s.link.current = some w → w.work ≠ .awaitBatch) →
      t.link = { s.link with notices := t.link.notices }) := by
  obtain ⟨s1, e1⟩ : ∃ x, x = s.raise (.robotFaulted 1 n) := ⟨_, rfl⟩
  obtain ⟨s2, e2⟩ : ∃ x, x = s1.modSlot n fun r =>
    { r with state := .faulted, fault := some { kind := kind, time := s1.now }, remaining := [] } := ⟨_, rfl⟩
  obtain ⟨s3, e3⟩ : ∃ x, x = s2.recordOutcome n .faulted := ⟨_, rfl⟩
  obtain ⟨s4, e4⟩ : ∃ x, x = s3.modSlot n fun r =>
    { r with faultCount := r.faultCount + 1, position := pos.apply r.position } := ⟨_, rfl⟩
  obtain ⟨s5, e5⟩ : ∃ x, x = s4.updateZones n := ⟨_, rfl⟩
  have ef : s.faultReport n kind pos = s5.testFaultLimit n := by rw [e5, e4, e3, e2, e1]; rfl
  have q1 : s1 = { s with link := s1.link } := by rw [e1, raise_eq]
  have q3 := recordOutcome_eq s2 n .faulted
  rw [← e3] at q3
  have q4 : s4 = { s with slots := s4.slots, batch := s4.batch, link := s4.link } := by
    have a : s4 = { s3 with slots := s4.slots } := by rw [e4]; rfl
    have b : s2 = { s1 with slots := s2.slots } := by rw [e2]; rfl
    rw [a, q3, b, q1]
  have w4 : s4.waitList = [] := by rw [q4]; exact hw
  have q5 := updateZones_eq n w4
  rw [← e5] at q5
  have sl1 : ∀ m, s1.slot m = s.slot m := fun m => by rw [q1]; rfl
  have sl2 : s2.slot n =
      { s.slot n with state := .faulted, fault := some { kind := kind, time := s.now }, remaining := [] } := by
    rw [e2, slot_modSlot_same _ _ _ hn, sl1, q1]
  have sl3 : ∃ o ts g, s3.slot n =
      { s.slot n with
        state := .faulted, fault := some { kind := kind, time := s.now }, remaining := []
        outcome := o, targets := ts, leg := g } ∧
      (g = (s.slot n).leg ∨ g = (s.slot n).leg.filter fun x => x.stage == .lapsing) ∧
      ∀ b, s.batch = .opened b → (s.slot n).batchFlag = true → (s.slot n).outcome = .none → o = .faulted := by
    rw [e3]
    by_cases hb : ∃ b, s2.batch = .opened b ∧ (s2.slot n).batchFlag = true ∧ (s2.slot n).outcome = .none
    · obtain ⟨b, hb, hc⟩ := hb
      rw [recordOutcome_slot _ hb hc, slot_modSlot_same _ _ _ hn, sl2]
      exact ⟨.faulted, _, _, rfl, .inr rfl, fun _ _ _ _ => rfl⟩
    · rw [recordOutcome_none _ fun b e hc => hb ⟨b, e, hc⟩, sl2]
      refine ⟨_, _, _, rfl, .inl rfl, fun b x y z => absurd ⟨b, ?_, ?_, ?_⟩ hb⟩
      · rw [e2]
        show s1.batch = _
        rw [q1]
        exact x
      · rw [sl2]
        exact y
      · rw [sl2]
        exact z
  have s5slot : ∀ m, s5.slot m = s4.slot m := fun m => by rw [q5]; rfl
  obtain ⟨o, ts, g, e6, hg⟩ := sl3
  have sl5 : s5.slot n =
      { s.slot n with
        state := .faulted, fault := some { kind := kind, time := s.now }, remaining := []
        faultCount := (s.slot n).faultCount + 1, position := pos.apply (s.slot n).position
        outcome := o, targets := ts, leg := g } := by
    rw [s5slot, e4, slot_modSlot_same _ _ _ hn, e6]
  have q6 : s5 = { s with slots := s5.slots, zones := s5.zones, batch := s5.batch, link := s5.link } := by
    have a : s5 = { s4 with zones := s5.zones, link := s5.link } := by rw [q5]
    rw [a, q4]
  have et : s.faultReport n kind pos = s5 := by
    rw [ef]
    unfold State.testFaultLimit
    rw [if_neg]
    rw [sl5, q6]
    show ¬ s.settings.faultLimit ≤ (s.slot n).faultCount + 1
    omega
  intro t
  have tt : t = s5 := et
  rw [tt]
  refine ⟨q6, ⟨o, ts, g, sl5, hg⟩, fun m hm => ?_, fun hp => ?_, fun hc => ?_⟩
  · rw [s5slot, e4, slot_modSlot_other _ _ _ _ (Ne.symm hm), e3, recordOutcome_other _ _ _ _ hm, e2,
      slot_modSlot_other _ _ _ _ (Ne.symm hm), sl1]
  · rw [e5, updateZones_unknown, q4]
    rw [e4, slot_modSlot_same _ _ _ hn, hp]
    rfl
  · have l1 : s1.link = { s.link with notices := s1.link.notices } := by rw [e1, raise_eq]
    have l3 : s3.link = { s2.link with notices := s3.link.notices } := by
      rw [e3]
      refine recordOutcome_link n _ ?_
      rw [e2]
      show ∀ w, s1.link.current = some w → _
      rw [l1]
      exact hc
    have l2 : s2.link = s1.link := by rw [e2]; rfl
    have l4 : s4.link = s3.link := by rw [e4]; rfl
    have l5 : s5.link = { s4.link with notices := s5.link.notices } := by rw [q5]
    rw [l5, l4, l3, l2, l1]

/-! ## Units kept -/

/-- A held-units entry writes the gate and hands its scans, nothing else. -/
theorem holdUnits_eq (s : State) (e : HeldUnits) :
    s.holdUnits e = { s with gate := (s.holdUnits e).gate, handed := (s.holdUnits e).handed } := by
  have h : ∀ (l : List HeldUnits) (s : State),
      l.foldl (fun s h => s.returnUnits h.units) s =
        { s with
          gate := (l.foldl (fun s h => s.returnUnits h.units) s).gate
          handed := (l.foldl (fun s h => s.returnUnits h.units) s).handed } := by
    intro l
    induction l with
    | nil => exact fun s => rfl
    | cons a l ih =>
      intro s
      rw [List.foldl_cons, ih]
      rfl
  unfold State.holdUnits
  dsimp only
  rw [h]
  rfl

/-- Keeping or returning the units of a LAPSING leg writes the gate and hands its scans, nothing else. -/
theorem keepUnits_eq (s : State) (n : Nat) (g : Option Leg) :
    s.keepUnits n g = { s with gate := (s.keepUnits n g).gate, handed := (s.keepUnits n g).handed } := by
  unfold State.keepUnits
  split
  · rfl
  · split
    · split
      · rfl
      · split
        · rfl
        · rw [holdUnits_eq]
    · rfl

end Sys2Proof.Machine
end

