-- ==== Sys2Proof/WellFormed.lean ====
section
/-! DEFINITION. What a command must meet beyond its operands' types. Field values that a request's own rule
refuses (a slot above 127, an empty list) are well formed: the controller answers them. -/

namespace Sys2Proof

/-- A list request must fit the eight frames of 256 payload bytes of one plan request (R197, and the
capacities table of 00). -/
def Instr.listFits : Instr → Bool
  | .assignList _ entries => decide (8 * entries.length ≤ 2048)
  | .measureList _ entries => decide (5 * entries.length ≤ 2048)
  | _ => true

/-- A REFUSED names a reason from 1 to 255 (R144). -/
def Instr.reasonGiven : Instr → Bool
  | .validAnswer _ _ (.refused reason) => decide (reason ≠ 0)
  | _ => true

/-- A robot bus frame is at least start, drop, kind, length and check, and at most 17 bytes, since its
payload is at most 12 (R142, R213). -/
def Instr.busFrameSized : Instr → Bool
  | .corruptAnswer _ bytes => decide (5 ≤ bytes.length ∧ bytes.length ≤ 17)
  | .busFrameDiscarded _ bytes => decide (5 ≤ bytes.length ∧ bytes.length ≤ 17)
  | _ => true

/-- A link reception brings at least one byte. -/
def Instr.bytesGiven : Instr → Bool
  | .linkFrameReceived bytes => decide (bytes ≠ [])
  | _ => true

/-- The well-formed commands. -/
def Instr.WellFormed (i : Instr) : Bool :=
  i.listFits && i.reasonGiven && i.busFrameSized && i.bytesGiven

end Sys2Proof
end

