-- ==== Sys2Proof/Tests/Slice0.lean ====
section
/-! SUPPORT. Tests: the ill-formed terms that WellFormed refuses, one step of each family on small states, and for
every statement with hypotheses a state and operands that meet them together, clause by clause. -/

namespace Sys2Proof.Tests

set_option Elab.async false

open Sys2Proof Sys2Proof.Machine

/-! ## Small states -/

/-- The state a command is answered with; the reset state for an outcome that is no next state. -/
def after (c : Instr) (s : State) : State :=
  match exec c s with
  | .next t => t
  | .fault _ => State.reset
  | .refused _ => State.reset

/-- A robot at rest on its fold line. -/
def robot (line drop : Nat) : SlotRec :=
  { SlotRec.vacant with
    state := .rest
    addr := some { line := line, drop := drop }
    cal := some { alphaMax := 1000, betaFold := 100, betaMax := 2000 }
    identity := some { serial := 1, revision := 1, alphaSpeed := 300, betaSpeed := 1, pages := 3 }
    position := some { alpha := 0, beta := 100, source := .reported } }

/-- Two robots on line 0. -/
def seg : State := (State.reset.setSlot 0 (robot 0 0)).setSlot 127 (robot 0 15)

def swing : Leg where
  id := 0
  kind := .swing
  axes := .alpha
  start := some { alpha := 0, beta := 100 }
  finish := { alpha := 1000, beta := 100 }
  speed := .normal
  units := 1
  cls := 0
  stage := .queued
  haltCause := none
  stopTime := none
  deadline := none
  claimSet := none

/-- Slot 0 with a leg. -/
def withLeg (state : RobotState) (g : Leg) : State :=
  { seg.modSlot 0 fun r => { r with state := state, leg := some g } with now := 100 }

/-- Slot 0 with its leg past the start queue, its unit in use. -/
def underWay (stage : Stage) (deadline : Option Nat) : State :=
  { withLeg .moving { swing with stage := stage, deadline := deadline } with
    gate := { Gate.fresh with unitsInUse := 1 } }

def entry0 : StartEntry := { slot := 0, kind := .swing, units := 1, line := 0, cls := 0, entryTime := 0 }

/-- Slot 0 with its leg in the start queue, INHIBIT asserted. -/
def queued : State :=
  { withLeg .waiting swing with
    gate := { Gate.fresh with startQueue := [entry0] }
    pins := { State.reset.pins with inhibit := true } }

def ask0 : BusFrame := { slot := 0, drop := 0, body := .ask, owner := .poll 0 }
def go0 : BusFrame := { slot := 0, drop := 0, body := .go .alpha 1000 100 .normal .swing, owner := .leg 0 }
def halt0 : BusFrame := { slot := 0, drop := 0, body := .halt, owner := .noOne }

/-- A frame in transaction on line 0. -/
def sending (f : BusFrame) (attempt : Attempt) (window : Option Nat) (s : State) : State :=
  s.modLine 0 fun r => { r with txn := some { frame := f, attempt := attempt, fromNormal := false, window := window } }

def planFrame (more : Bool) : LinkFrame :=
  { channel := .plan, more := more, tag := 1, code := 0x29, payload := [] }
def controlFrame : LinkFrame := { channel := .control, more := false, tag := 1, code := 0x45, payload := [] }
def out0 : OutFrame := answerFrame 1 0x45 .ok []
def doing (w : Work) (s : State) : State := { s with link := s.link.doing { code := 0x29, tag := 9, work := w } }
def full (s : State) : State := { s with link := { s.link with output := List.replicate 16 out0 } }
def halted (s : State) : State := { s with link := { s.link with halt := some .crc } }
def lineState (st : LineState) (s : State) : State := s.modLine 0 fun r => { r with state := st }
def stopped (s : State) : State := { s with pins := { s.pins with stop := true } }
def zone0 (st : ZoneStatus) : ZoneRec :=
  { lower := 0, higher := 127, lowerBox := ⟨0, 1000, 200, 2000⟩, higherBox := ⟨0, 1000, 200, 2000⟩, status := st }

/-- The two robots share zone 5. -/
def zoned (st : ZoneStatus) : State :=
  ((seg.modSlot 0 fun r => { r with zones := [5] }).modSlot 127 fun r => { r with zones := [5] }).setZone 5
    (some (zone0 st))

def target1 : Target := { tag := 1, alpha := 1000, beta := 100, cls := 3, pinned := true }
def open1 (admitted : Nat) : BatchRec := newBatch 1 admitted 0 0

/-- Slot 0 in an open batch. -/
def inBatch (admitted : Nat) (s : State) : State :=
  { s.modSlot 0 fun r => { r with batchFlag := true, targets := [target1] } with batch := .opened (open1 admitted) }

/-! ## Well-formedness: one ill-formed term for each check -/

theorem test_list_too_long :
    Instr.WellFormed (.assignList 0 (List.replicate 257 ⟨0, 0, 1, 0, 0⟩)) = false ∧
    Instr.WellFormed (.assignList 0 (List.replicate 256 ⟨0, 0, 1, 0, 0⟩)) = true ∧
    Instr.WellFormed (.measureList 0 (List.replicate 410 ⟨0, 0, 0⟩)) = false ∧
    Instr.WellFormed (.measureList 0 (List.replicate 409 ⟨0, 0, 0⟩)) = true := by decide +kernel

theorem test_refused_without_reason :
    Instr.WellFormed (.validAnswer 0 0 (.refused 0)) = false ∧
    Instr.WellFormed (.validAnswer 0 0 (.refused 1)) = true := by decide +kernel

theorem test_bus_frame_size :
    Instr.WellFormed (.corruptAnswer 0 (List.replicate 4 0)) = false ∧
    Instr.WellFormed (.corruptAnswer 0 (List.replicate 17 0)) = true ∧
    Instr.WellFormed (.busFrameDiscarded 0 (List.replicate 18 0)) = false ∧
    Instr.WellFormed (.busFrameDiscarded 0 (List.replicate 5 0)) = true := by decide +kernel

theorem test_reception_without_bytes :
    Instr.WellFormed (.linkFrameReceived []) = false ∧ Instr.WellFormed (.linkFrameReceived [0]) = true := by
  decide +kernel

/-! ## The check values -/

/-- The check values of R213's two generators over the bytes 31h to 39h: known values of these generators, not the
spec's. -/
theorem test_check_values :
    crc16 [0x31, 0x32, 0x33, 0x34, 0x35, 0x36, 0x37, 0x38, 0x39] = 0x29B1 ∧
    crc8 [0x31, 0x32, 0x33, 0x34, 0x35, 0x36, 0x37, 0x38, 0x39] = 0xF4 := by decide +kernel

/-! ## One step of each family -/

theorem test_pin_reset : (after (.pinReset 3 true true false) seg).pins = ⟨true, false, 3, true⟩ ∧
    ((after (.pinReset 3 true true false) seg).link.output.map OutFrame.isNotice) = [true] := by decide +kernel

theorem test_frame_is_command :
    (after (.linkFrameReceived (controlFrame.bytes 255)) seg).link = (after (.readSegment 1) seg).link := by
  decide +kernel

theorem test_define_slot : ((after (.defineSlot 1 5 2 7 900 100 1800 0 0) seg).slot 5).addr = some ⟨2, 7⟩ ∧
    (after (.defineSlot 1 5 0 15 900 100 1800 0 0) seg).link.output.map OutFrame.status = [Status.inUse.byte] := by
  decide +kernel

theorem test_assign_and_execute :
    let s := after (.assignList 1 [⟨0, 3, 7, 1000, 100⟩]) seg
    let t := after (.execute 2 7) s
    (t.slot 0).state = .moving ∧ t.gate.unitsInUse = 2 ∧ t.motion = true ∧
      ((t.line 0).txn.map fun x => x.frame.body) = some (.go .both 1000 100 .normal .direct) := by decide +kernel

theorem test_extend_waits :
    let s := after (.assignList 1 [⟨0, 3, 7, 0, 300⟩]) (zoned (.held .higher))
    let t := after (.execute 2 7) s
    (t.slot 0).state = .waiting ∧ t.waitList.map WaitEntry.wanted = [[5]] ∧
      t.waitList.map WaitEntry.deadline = [45000] := by decide +kernel

theorem test_poll_stalls :
    let s := sending ask0 .first (some 104) (underWay .running (some 9000))
    let t := after (.validAnswer 0 0 (.state .stalled 400 100)) s
    (t.slot 0).fault = some ⟨.stall, 100⟩ ∧ (t.slot 0).position = some ⟨400, 100, .reported⟩ ∧
      t.gate.unitsInUse = 0 := by decide +kernel

theorem test_stop_during_leg :
    let t := after .stopAsserted (underWay .running (some 9000))
    ((t.slot 0).leg.map Leg.stage) = some .stopping ∧ (t.line 0).sendingHaltAll = true ∧
      (t.line 0).normal.map BusFrame.owner = [.readback 0] := by decide +kernel

theorem test_deadline_halts :
    let t := after (.legDeadlineExpiry 0) (underWay .running (some 100))
    ((t.slot 0).leg.map Leg.haltCause) = some (some .deadline) := by decide +kernel

theorem test_probe_pages :
    let s := after (.probe 4 0) seg
    let s := after (.frameSendingEnds 0) s
    (s.slot 0).state = .probing ∧ ((s.line 0).txn.map fun x => x.frame.body) = some (.page 0) ∧
      ((after (.answerWindowExpiry 0) { s with now := 4 }).line 0).txn.map Txn.attempt = some .second := by
  decide +kernel

/-! ## Witnesses: the queue, requests, invariants -/

theorem witness_StepRunsFront :
    ({ seg with pending := [.timeBaseAdvance, .release 1] } : State).pending = .timeBaseAdvance :: [.release 1] ∧
    ({ seg with pending := [.release 1] } : State).pending = .release 1 :: [] ∧ seg.pending = [] := by decide +kernel

theorem witness_RequestTakenAtRest :
    Request.readSegment.channel = .control ∧ seg.ready = true ∧
    (Request.assignList (List.replicate 256 ⟨0, 0, 1, 0, 0⟩)).channel = .plan ∧ seg.planReady = true ∧
    (Request.assignList (List.replicate 256 ⟨0, 0, 1, 0, 0⟩)).payload.length = 2048 ∧
    ((seg.hand .scan).handed = .scan :: [] ∧ seg.handed = [] ∧ seg.nextGrant = none) ∧
    ({ seg with link := { seg.link with control := [controlFrame] } } : State).nextGrant =
      some (.control controlFrame []) ∧
    (let noticed : State := { seg with link := { seg.link with notices := [{ since := 0, summary := .lineDown 1 }] } }
     noticed.link.notices = { since := 0, summary := .lineDown 1 } :: []) ∧
    (let s : Nat → State := fun k =>
        { seg with link := { seg.link with assembly := List.replicate k (planFrame true) } }
     (s 7).link.assembly.length < 8 ∧ 8 ≤ (s 8).link.assembly.length ∧ (planFrame true).more = true ∧
      (planFrame false).more = false ∧ (s 0).link.assembly ++ [planFrame false] = planFrame false :: []) := by
  decide +kernel

/-- A budget wholly in use and settings at the ends of their ranges. -/
def lawfulEdge : State :=
  { seg with
    pending := [.timeBaseAdvance]
    gate := { Gate.fresh with budget := 128, unitsInUse := 128 }
    settings := { claimTimeout := 600, settleAllowance := 100, faultLimit := 7 } }

theorem witness_StepKeepsLawful : lawfulEdge.Lawful ∧ step lawfulEdge = .next (after .timeBaseAdvance
    { lawfulEdge with pending := [] }) := ⟨by unfold State.Lawful; decide +kernel, rfl⟩

/-- A full output queue, a full normal queue, held units of two slots. -/
def fullEdge : State :=
  { full (State.reset.modLine 7 fun r => { r with normal := List.replicate 24 ask0, urgent := [.halt 1, .haltAll] }) with
    pending := [.timeBaseAdvance]
    gate := { Gate.fresh with unitsInUse := 2, heldUnits := [⟨0, 1, 9⟩, ⟨127, 1, 9⟩] } }

theorem witness_StepKeepsCapacities : fullEdge.link.Within ∧ (∀ l, l < 8 → (fullEdge.line l).Ordered) ∧
    (∀ l, 8 ≤ l → (fullEdge.line l).Ordered) ∧ fullEdge.gate.HoldsOnce ∧
    step fullEdge = .next (after .timeBaseAdvance { fullEdge with pending := [] }) := by
  refine ⟨by unfold Link.Within; decide +kernel, by unfold LineRec.Ordered; decide +kernel, ?_,
    by unfold Gate.HoldsOnce; decide +kernel, rfl⟩
  intro l hl
  have h : fullEdge.line l = LineRec.fresh .silent := by
    unfold State.line
    rw [Vector.getElem?_eq_none hl]
    rfl
  rw [h]
  unfold LineRec.Ordered
  decide +kernel

theorem witness_StepKeepsStopped : (stopped seg).pins.stop = true ∧ (stopped seg).waitList = [] ∧
    (stopped seg).gate.startQueue = [] ∧
    step { stopped seg with pending := [.timeBaseAdvance] } = .next (after .timeBaseAdvance (stopped seg)) :=
  ⟨rfl, rfl, rfl, rfl⟩

/-! ## Witnesses: pins and timers -/

theorem witness_StopRaised : seg.pins.stop = false ∧ (stopped seg).pins.stop = true ∧ seg.ready = true ∧
    (stopped seg).ready = true := by decide +kernel

theorem witness_InhibitNegatedIssues :
    queued.quiet = true ∧ queued.pins.inhibit = true ∧ queued.pins.stop = false ∧ queued.stopPassing = false ∧
    queued.gate.startQueue = [entry0] ∧ (queued.slot 0).leg = some swing ∧ swing.stage = .queued ∧
    (queued.line 0).state = .up ∧ queued.lineIdle 0 ∧ (queued.line 0).pollTurn = false ∧
    ({ queued.gate with unitsInUse := 47 } : Gate).unitsInUse + entry0.units ≤ queued.gate.budget ∧
    queued.gate.unitsInUse + entry0.units ≤ queued.gate.budget := by
  unfold State.lineIdle
  decide +kernel

theorem witness_PinsAndClock :
    ((stopped seg).quiet = true ∧ (stopped seg).pins.stop = true ∧ (stopped seg).gate.startQueue = []) ∧
    seg.pins.stop = false ∧
    (({ seg with pins := { seg.pins with inhibit := true } } : State).quiet = true ∧
      ({ seg with pins := { seg.pins with inhibit := true } } : State).gate.startQueue = []) ∧
    seg.pins.inhibit = false ∧ ((queued.slot entry0.slot).leg = some swing ∧ 0 < entry0.units) ∧
    (underWay .issued none).gate.unitsInUse ≤ 1 := by decide +kernel

def claiming : State :=
  { inBatch 2 (withLeg .waiting { swing with kind := .extend, stage := .claiming, claimSet := some [5] }) with
    waitList := [{ slot := 0, cls := 0, entryTime := 0, deadline := 100, wanted := [5] }] }

theorem witness_ClaimTimeout :
    (claiming.quiet = true ∧ (claiming.waitList.map WaitEntry.slot) = [0] ∧
      (∀ e ∈ claiming.waitList, e.deadline ≤ claiming.now) ∧ claiming.batch = .opened (open1 2) ∧
      (claiming.slot 0).batchFlag = true ∧ (claiming.slot 0).outcome = .none ∧
      (open1 2).arrived + (open1 2).blocked + (open1 2).faulted + (open1 2).stopped + 1 < (open1 2).admitted ∧
      (∀ g ∈ (claiming.slot 0).leg, g.stage = .claiming)) ∧
    (({ claiming with now := 99 } : State).quiet = true ∧
      ∀ e ∈ claiming.waitList, e.slot = 0 → ({ claiming with now := 99 } : State).now < e.deadline) := by
  decide +kernel

theorem witness_LegDeadline :
    ((underWay .lapsing (some 100)).quiet = true ∧ (underWay .lapsing (some 100)).gate.startQueue = [] ∧
      ((underWay .lapsing (some 100)).slot 0).leg =
        some { swing with stage := .lapsing, deadline := some 100 } ∧
      100 ≤ (underWay .lapsing (some 100)).now) ∧
    (let s := sending ask0 .first none (underWay .running (some 100))
     s.quiet = true ∧ (s.slot 0).leg = some { swing with stage := .running, deadline := some 100 } ∧
      100 ≤ s.now ∧ (s.line (s.slot 0).lineNo).state = .up ∧ (s.line (s.slot 0).lineNo).txn.isSome = true ∧
      ((s.line (s.slot 0).lineNo).normal.any fun f => f.isReadbackOf 0) = false) ∧
    (let s := (sending ask0 .first none (underWay .running (some 100))).modLine 0 fun r =>
        { r with normal := [{ ask0 with owner := .readback 9 }] }
     s.quiet = true ∧ (s.slot 0).leg = some { swing with stage := .running, deadline := some 100 } ∧
      (s.line 0).state = .up ∧ (s.line 0).txn.isSome = true ∧
      ((s.line 0).normal.any fun f => f.isReadbackOf 0) = true) ∧
    (let s := underWay .running (some 100)
     s.quiet = true ∧ (s.slot 0).lineNo = 0 ∧ (s.line 0).state = .up ∧ (s.line 0).txn = none ∧
      (s.line 0).sendingHaltAll = false ∧ (s.line 0).urgent = [] ∧ (s.line 0).normal = []) ∧
    ((underWay .stopping (some 100)).quiet = true ∧
      ((underWay .stopping (some 100)).slot 0).leg =
        some { swing with stage := .stopping, deadline := some 100 }) ∧
    ((underWay .running (some 101)).quiet = true ∧
      ∀ g ∈ ((underWay .running (some 101)).slot 0).leg, ∀ d ∈ g.deadline,
        (underWay .running (some 101)).now < d) := by decide +kernel

/-- Units of two robots held. -/
def holding : State :=
  { seg with
    now := 100
    gate := { Gate.fresh with
      unitsInUse := 2
      heldUnits := [⟨127, 1, 50⟩, ⟨0, 1, 100⟩] } }

theorem witness_HeldUnitsExpire :
    (holding.quiet = true ∧ holding.gate.startQueue = [] ∧
      holding.gate.heldUnits = [⟨127, 1, 50⟩] ++ ⟨0, 1, 100⟩ :: [] ∧
      (∀ x ∈ [(⟨127, 1, 50⟩ : HeldUnits)], x.slot = 0 → holding.now < x.deadline) ∧
      (⟨0, 1, 100⟩ : HeldUnits) ∉ [(⟨127, 1, 50⟩ : HeldUnits)] ∧ 100 ≤ holding.now) ∧
    (∀ x ∈ holding.gate.heldUnits, x.slot = 0 → ({ holding with now := 99 } : State).now < x.deadline) ∧
    ({ holding with now := 99 } : State).quiet = true := by decide +kernel

/-! ## Witnesses: the link -/

theorem witness_LinkFrameReadBack :
    ({ controlFrame with payload := List.replicate 256 0 } : LinkFrame).payload.length ≤ 256 ∧
    crc16 (controlFrame.body 0) + 1 ≠ crc16 (controlFrame.body 0) ∧
    256 < ({ controlFrame with payload := List.replicate 257 0 } : LinkFrame).payload.length ∧
    ({ controlFrame with payload := List.replicate 257 0 } : LinkFrame).payload.length < 65536 ∧
    11 < (({ controlFrame with payload := List.replicate 257 0 } : LinkFrame).bytes 0).length := by decide +kernel

theorem witness_LinkFrameIsCommand : seg.link.rx = [] ∧
    (Request.assignList (List.replicate 32 ⟨0, 0, 1, 0, 0⟩)).payload.length = 256 ∧
    (0 : Byte) = BitVec.ofNat 8 seg.pins.segment.val ∧ (255 : Byte) = 255 ∧
    ((Request.readSlot 127).code = 0x40 ∧ (Request.readSlot 127).payload = [127] ∧
      (Request.readSlot 127).channel = .control) := by decide +kernel

/-- No request has the code 0Fh, a payload one byte short, or the other channel. -/
theorem test_frames_of_no_request :
    Request.taken .control false 0x0F [] = none ∧ Request.taken .control false 0x40 [] = none ∧
    Request.taken .plan false 0x40 [127] = none ∧ Request.taken .control true 0x40 [127] = none := by decide +kernel

theorem witness_FrameArrival :
    ((1 : Byte) ≠ BitVec.ofNat 8 seg.pins.segment.val ∧ (1 : Byte) ≠ 255 ∧ seg.link.output.length < 16 ∧
      seg.ready = true ∧ seg.link.rx = []) ∧ 16 ≤ (full seg).link.output.length ∧
    ((0 : Byte) = BitVec.ofNat 8 seg.pins.segment.val ∧ controlFrame.channel = .control ∧
      (planFrame true).channel = .plan ∧ seg.link.halt = none ∧ (halted seg).link.halt = some .crc) := by decide +kernel

/-- A waiting answer, a pending notice, a control frame and a plan frame before a free place. -/
def waitingFor (answer : Option OutFrame) (notices : List Notice) (control plan : List LinkFrame) : State :=
  { seg with link := { Link.fresh with waitingAnswer := answer, notices := notices, control := control, plan := plan } }

def notice0 : Notice := { since := 0, summary := .linkError 1 1 }

theorem witness_PlanFrameMoves :
    ((waitingFor (some out0) [] [] []).link.waitingAnswer = some out0 ∧
      (waitingFor (some out0) [] [] []).outputRoom = true) ∧
    ((waitingFor none [] [] [planFrame true]).planMoves = true ∧ (planFrame true).more = true) ∧
    ((waitingFor none [notice0] [] []).planFront true = none ∧ (waitingFor none [notice0] [] []).outputRoom = true ∧
      (waitingFor none [notice0] [] []).link.notices ≠ []) ∧
    ((waitingFor none [] [controlFrame] []).planFront true = none ∧
      (waitingFor none [] [controlFrame] []).link.control = [controlFrame]) ∧
    ((waitingFor none [] [] [planFrame false]).planFront true = none ∧
      (waitingFor none [] [] [planFrame false]).planMoves = true) ∧
    ((full seg).outputRoom = false ∧ (full seg).planFront true = none) ∧
    (let s := full (waitingFor none [] [] [planFrame true])
     let t : Nat → State := fun k => { s with link := { s.link with assembly := List.replicate k (planFrame true) } }
     (t 7).handed = [] ∧ (t 7).planMoves = true ∧ (t 7).link.plan = [planFrame true] ∧ (t 7).outputRoom = false ∧
      (t 7).link.assembly.length < 8 ∧ 8 ≤ (t 8).link.assembly.length ∧
      ({ (t 8) with link := { (t 8).link with mask := 0 } } : State).link.mask.getLsbD 6 = false) ∧
    (let s := waitingFor none [] [] [planFrame false]
     s.planMoves = true ∧ s.link.plan = [planFrame false] ∧ (planFrame false).more = false ∧ s.outputRoom = true ∧
      s.link.notices = [] ∧ s.link.control = [] ∧ s.link.assembly.length < 8 ∧
      s.link.assembly ++ [planFrame false] = planFrame false :: []) ∧
    ((full (waitingFor none [] [] [planFrame false])).planMoves = true ∧
      (full (waitingFor none [] [] [planFrame false])).outputRoom = false ∧
      (waitingFor none [notice0] [] [planFrame false]).planMoves = true ∧
      (waitingFor none [] [controlFrame] [planFrame false]).planMoves = true) ∧
    (halted seg).planMoves = false ∧ seg.link.plan = [] := by decide +kernel

theorem witness_OutputQueueMoves :
    (let s : State := { seg with link := { seg.link with output := [out0, out0] } }
     s.quiet = true ∧ s.link.waitingAnswer = none ∧ s.link.notices = [] ∧ s.link.control = [] ∧
      (s.planMoves = true → s.link.plan = [])) ∧
    (let s := waitingFor (some out0) [] [] []
     s.handed = [] ∧ s.outputRoom = true ∧ s.link.notices = [] ∧ s.link.control = [] ∧
      (s.link.halt = none → s.link.current = none → s.link.plan = [])) ∧
    (let s := waitingFor none [notice0] [] []
     s.handed = [] ∧ s.link.waitingAnswer = none ∧ s.outputRoom = true ∧ s.link.notices = [notice0] ∧
      s.link.control = [] ∧ (s.planMoves = true → s.link.plan = [])) ∧
    ((full seg).outputRoom = false ∧ (seg.quiet = true ∧ seg.link.output = []) ∧ seg.link.waitingAnswer = none ∧
      seg.link.notices = [] ∧ (waitingFor (some out0) [notice0] [] []).link.waitingAnswer ≠ none ∧
      (waitingFor none [notice0] [] [planFrame true]).planFront true ≠ none) ∧
    (let s := full (waitingFor none [notice0] [] [])
     s.handed = [] ∧ s.link.waitingAnswer = none ∧ s.link.control = [] ∧ (s.planMoves = true → s.link.plan = []) ∧
      s.link.output = out0 :: out0 :: List.replicate 14 out0) ∧
    seg.link.output = [] := by decide +kernel

theorem witness_NoticesMerge :
    ((0 : Byte).getLsbD (Summary.linkError 1 1).kind = false) ∧
    (seg.link.mask.getLsbD (Summary.linkError 1 1).kind = true ∧
      ∀ n ∈ seg.link.notices, n.summary.kind ≠ (Summary.linkError 1 1).kind) ∧
    ((waitingFor none [notice0] [] []).link.notices = [] ++ notice0 :: [] ∧
      notice0.summary.kind = (Summary.linkError 1 2).kind) := by decide +kernel

/-! ## Witnesses: control requests -/

/-- Each read at the last number in range and at the first out of it; each answer with the queue empty and not; each
status of a zone, and a zone that is not defined. -/
theorem witness_ReadsAnswered :
    (seg.ready = true ∧ seg.link.output = [] ∧ (full seg).link.output ≠ []) ∧
    ((127 : Byte).toNat ≤ 127 ∧ ¬ (128 : Byte).toNat ≤ 127 ∧ (383 : Word).toNat ≤ 383 ∧ ¬ (384 : Word).toNat ≤ 383 ∧
      (7 : Byte).toNat ≤ 7 ∧ ¬ (8 : Byte).toNat ≤ 7) ∧
    (seg.zone 383 = none ∧ (zoned .free).zone 5 = some (zone0 .free) ∧ (zone0 .free).status = .free ∧
      (zone0 (.held .higher)).status = .held .higher ∧ (zone0 (.contested .lower)).status = .contested .lower ∧
      (zone0 (.fenced .higher false)).status = .fenced .higher false ∧
      (zone0 (.fenced .lower true)).status = .fenced .lower true) := by decide +kernel

/-- A read at the last number in range is answered OK, at the first out of it BAD_REQUEST with no data. -/
theorem test_read_bounds :
    let sent : Instr → List (Byte × Nat) := fun c =>
      (after c seg).link.output.map fun f => (f.status, f.payload.length)
    sent (.readSlot 1 127) = [(0, 74)] ∧ sent (.readSlot 1 128) = [(10, 0)] ∧
    sent (.readTargets 1 127) = [(0, 1)] ∧ sent (.readTargets 1 128) = [(10, 0)] ∧
    sent (.readZone 1 383) = [(0, 3)] ∧ sent (.readZone 1 384) = [(10, 0)] ∧
    sent (.readWaitlist 1 127) = [(0, 5)] ∧ sent (.readWaitlist 1 128) = [(10, 0)] ∧
    sent (.readLine 1 7) = [(0, 19)] ∧ sent (.readLine 1 8) = [(10, 0)] := by decide +kernel

/-- For every statement that asks for a block at rest with a place free, or for a free plan channel. -/
theorem witness_ready : seg.ready = true ∧ seg.planReady = true ∧ (stopped seg).ready = true := by decide +kernel

theorem witness_SetBudget :
    ((1 : Byte).toNat < 2 ∧ 128 < (129 : Byte).toNat) ∧
    (let s : State := { seg with gate := { Gate.fresh with unitsInUse := 3 } }
     s.ready = true ∧ 2 ≤ (2 : Byte).toNat ∧ (2 : Byte).toNat < s.gate.unitsInUse ∧
      (128 : Byte).toNat ≤ 128 ∧ s.gate.unitsInUse ≤ (3 : Byte).toNat ∧ s.gate.startQueue = [] ∧
      (48 : Byte).toNat ≤ s.gate.budget) := by decide +kernel

theorem witness_LinesReleased :
    (seg.ready = true ∧ ∀ l, l < 8 → (seg.line l).state ≠ .silent) ∧
    ((lineState .silent seg).ready = true ∧ ∃ l, l < 8 ∧ ((lineState .silent seg).line l).state = .silent) ∧
    (7 < (8 : Byte).toNat ∧ (7 : Byte).toNat ≤ 7 ∧ ((lineState .silent seg).line (0 : Byte).toNat).state = .silent ∧
      (seg.line (7 : Byte).toNat).state = .up ∧ (lineState .down seg).ready = true ∧
      ((lineState .down seg).line (0 : Byte).toNat).state = .down) := by decide +kernel

theorem witness_Cancel :
    (seg.ready = true ∧ seg.link.current = none) ∧
    (let s := doing .awaitBatch seg
     s.ready = true ∧ s.link.output.length + 2 ≤ 16 ∧ s.link.plan = []) ∧
    (doing (.probe (seg.newProbe none)) seg).ready = true ∧
    (doing (.measure (newMeasure [⟨0, 0, 100⟩])) seg).ready = true ∧
    ((doing (.recover 0) seg).ready = true ∧ (doing (.recover 0) seg).queuedLeg 0 = false) ∧
    (let s := doing (.recover 0) { queued.modSlot 0 fun r => { r with recoveryReturn := some .held } with
        link := { Link.fresh with output := List.replicate 14 out0 } }
     s.ready = true ∧ s.queuedLeg 0 = true ∧ (s.slot 0).recoveryReturn = some .held ∧
      (∀ e ∈ s.gate.startQueue, e.slot = 0) ∧ s.link.output.length + 2 ≤ 16 ∧ s.link.plan = []) := by decide +kernel

theorem witness_PlanChannelCleared :
    (seg.ready = true ∧ seg.link.halt = none) ∧
    ((halted seg).ready = true ∧ (halted seg).link.halt = some .crc ∧ (halted seg).link.plan = []) ∧
    (halted (waitingFor none [] [] [planFrame true])).ready = true := by decide +kernel

theorem witness_ResetSegment :
    ((doing .awaitBatch seg).ready = true ∧ (doing .awaitBatch seg).link.current ≠ none) ∧
    ((underWay .issued none).ready = true ∧ ∃ n, n < 128 ∧ ((underWay .issued none).slot n).busy = true) ∧
    (seg.ready = true ∧ seg.link.current = none ∧ (∀ n, n < 128 → (seg.slot n).busy = false) ∧
      ∀ l, l < 8 → (seg.line l).state ≠ .down) ∧
    ((lineState .down seg).ready = true ∧ ∀ n, n < 128 → ((lineState .down seg).slot n).busy = false) := by
  decide +kernel

/-! ## Witnesses: plan requests on the tables -/

theorem witness_Retire :
    seg.planReady = true ∧ 127 < (128 : Byte).toNat ∧
    ((126 : Byte).toNat ≤ 127 ∧ (seg.slot (126 : Byte).toNat).state = .vacant) ∧
    ((underWay .issued none).planReady = true ∧
      ((underWay .issued none).slot (0 : Byte).toNat).state ∈ [RobotState.probing, .waiting, .moving, .retired]) ∧
    ((127 : Byte).toNat ≤ 127 ∧ (seg.slot (127 : Byte).toNat).state ∈ [RobotState.rest, .held, .faulted, .defined] ∧
      seg.waitList = [] ∧ (seg.slot (127 : Byte).toNat).leg = none) ∧
    (∀ d ∈ [100, 101], ∀ old ∈ [0, 127],
      let s := { (underWay .lapsing (some d)).modSlot 0 fun r => { r with state := .faulted } with
        gate := { Gate.fresh with unitsInUse := 2, heldUnits := [⟨old, 1, 200⟩] } }
      s.planReady = true ∧ (s.slot (0 : Byte).toNat).state = .faulted ∧ s.waitList = [] ∧ s.gate.startQueue = [] ∧
        (s.slot (0 : Byte).toNat).leg = some { swing with stage := .lapsing, deadline := some d } ∧
        (s.now < d ↔ d = 101)) := by
  dsimp only
  decide +kernel

def entryOk : AssignEntry := { slot := 127, cls := 3, tag := 4095, alpha := 1000, beta := 2000 }
def entryBad : AssignEntry := { slot := 128, cls := 0, tag := 1, alpha := 0, beta := 100 }

theorem witness_AssignList :
    (seg.assign entryOk).assignCheck entryBad = some .badRequest ∧
    seg.planReady = true ∧ ([] : List AssignEntry).length ≤ 256 ∧ (List.replicate 256 entryOk).length ≤ 256 ∧
    (assignAll seg 0 [entryOk]).2 = (1, none) ∧
    (assignAll seg 0 [entryOk, entryBad]).2 = (1, some .badRequest) ∧
    (∀ e ∈ [entryOk, entryBad], e.slot.toNat ≠ 0) ∧ seg.assignCheck entryOk = none ∧
    (((zoned (.fenced .higher false)).slot 0).calib.betaFold ≤ 200 ∧
      (zoned (.fenced .higher false)).reachable 0 1000 200 = false ∧
      (zoned (.fenced .higher false)).reachable 0 1000 199 = true) := by decide +kernel

/-- Tag 4095 is the last in range; slot 0 holds tag 1 pinned, slot 127 holds it unpinned. -/
theorem witness_TargetsRemoved :
    let s := (inBatch 1 seg).modSlot 127 fun r => { r with targets := [{ target1 with pinned := false }] }
    s.planReady = true ∧ (127 < (128 : Byte).toNat ∧ (0 : Word).toNat = 0 ∧ 4095 < (4096 : Word).toNat) ∧
    ((s.slot 126).state = .vacant ∧ (∀ t ∈ (s.slot 127).targets, t.tag ≠ (4095 : Word).toNat)) ∧
    (∃ t ∈ (s.slot 0).targets, t.tag = (1 : Word).toNat ∧ t.pinned = true) ∧
    (s.slot 127).targets ≠ [] ∧ s.batch.openTag = some (1 : Word).toNat ∧
    s.batch.openTag ≠ some (4095 : Word).toNat ∧ seg.dropCount 1 = 0 ∧ s.dropCount 1 = 2 ∧ s.dropCount 0 = 1 := by
  decide +kernel

def box : WireBox := { alphaLow := 0, alphaHigh := 1000, betaLow := 200, betaHigh := 2000 }

theorem witness_ZoneRequests :
    seg.planReady = true ∧
    seg.defineZoneCheck (384 : Word).toNat (0 : Byte).toNat (boxOfWire box) (127 : Byte).toNat (boxOfWire box) =
      some .badRequest ∧
    seg.defineZoneCheck (383 : Word).toNat (127 : Byte).toNat (boxOfWire box) (0 : Byte).toNat (boxOfWire box) =
      none ∧
    383 < (384 : Word).toNat ∧ ((383 : Word).toNat ≤ 383 ∧ seg.planReady = true ∧ seg.zone (383 : Word).toNat = none) ∧
    ((zoned .free).planReady = true ∧ (zoned .free).zone (5 : Word).toNat = some (zone0 .free)) ∧
    (insertZone 6 [5, 7] = [5, 6, 7] ∧ [5, 7].Pairwise (· < ·) ∧ 6 ∉ [5, 7]) := by decide +kernel

/-- Zone 5, with slot 0 at this beta count. -/
def standing (beta : Nat) (st : ZoneStatus) : State :=
  (zoned st).modSlot 0 fun r => { r with position := some { alpha := 1000, beta := beta, source := .reported } }

theorem witness_ZoneTables :
    ((zone0 .free).occupiedBy 0 ((standing 200 .free).slot 0).position = true ∧
      (zone0 .free).occupiedBy 0 ((standing 199 .free).slot 0).position = false ∧
      (zone0 .free).occupiedBy 127 none = false ∧ (zone0 .free).sideOf 0 = .lower ∧
      (zone0 .free).sideOf 127 = .higher) ∧
    (freedZones ((standing 199 (.held .lower)).zoneChanges 0 ZoneStatus.update) = [5] ∧
      contestedZones ((standing 200 (.held .higher)).zoneChanges 0 ZoneStatus.update) = [5] ∧
      fencedZones ((standing 200 (.held .lower)).retireChanges 0) = [5]) ∧
    (((standing 200 .free).slot 0).position ≠ none ∧ ((standing 200 .free).slot 0).state ≠ .retired ∧
      (standing 200 .free).waitList = [] ∧ (State.reset.slot 0).position = none ∧
      ((seg.modSlot 0 fun r => { r with state := .retired }).slot 0).state = .retired) ∧
    ((((zoned .free).modSlot 0 fun r => { r with position := none }).slot 0).position = none) ∧
    (∀ d ∈ [100, 101], ∃ g ∈ ((underWay .lapsing (some d)).slot 0).leg,
      g.stage = .lapsing ∧ g.deadline = some d ∧ ((underWay .lapsing (some d)).now < d ↔ d = 101)) ∧
    (∀ g ∈ ((underWay .running (some 101)).slot 0).leg, g.stage ≠ .lapsing) ∧
    (ZoneStatus.heldBy (.held .lower) .lower = true ∧ ∀ i, ZoneStatus.held .lower ≠ .fenced .lower i) ∧
    (ZoneStatus.heldBy (.contested .lower) .higher = true) ∧
    ZoneStatus.heldBy (.held .lower) .higher = false ∧ ZoneStatus.heldBy .free .lower = false := by decide +kernel

theorem witness_FaultReport :
    (0 : Nat) < 128 ∧ seg.waitList = [] ∧ (seg.slot 0).faultCount + 1 < seg.settings.faultLimit ∧
    (let s := seg.modSlot 0 fun r => { r with faultCount := 2 }
     s.waitList = [] ∧ s.settings.faultLimit ≤ (s.slot 0).faultCount + 1) ∧ (127 : Nat) ≠ 0 := by decide +kernel

/-! ## Witnesses: batches, claims, legs -/

theorem witness_BatchRequests :
    seg.planReady = true ∧ ((0 : Word).toNat = 0 ∧ 4095 < (4096 : Word).toNat) ∧
    (1 ≤ (1 : Word).toNat ∧ (4095 : Word).toNat ≤ 4095 ∧ (inBatch 1 seg).planReady = true ∧
      (inBatch 1 seg).batch = .opened (open1 1)) ∧
    (seg.batch.isOpen = false ∧ (stopped seg).planReady = true ∧ (stopped seg).pins.stop = true ∧
      (stopped seg).batch.isOpen = false) ∧
    (seg.pins.stop = false ∧ ∀ n, n < 128 → (seg.slot n).admittedBy 1 = false) ∧
    (let s := seg.modSlot 127 fun r => { r with targets := [{ target1 with pinned := false }] }
     s.planReady = true ∧ s.batch.isOpen = false ∧ ∃ n, n < 128 ∧ (s.slot n).admittedBy 1 = true) := by decide +kernel

/-- Slot 0 with a target two counts away, and slot 127 with one where it stands. -/
def admitting : State :=
  (seg.modSlot 0 fun r => { r with targets := [{ target1 with pinned := false }] }).modSlot 127 fun r =>
    { r with targets := [{ target1 with alpha := 0, pinned := false }] }

theorem witness_AdmissionOfSlots :
    (admitting.slot 1).admittedBy 1 = false ∧ admitting.admittedSlots 1 = [0, 127] ∧
    (admitting.slot 0).admittedBy 1 = true ∧
    admitting.admissionPlan 1 0 = .legs { kind := .direct, finish := ⟨1000, 100⟩ } [] ∧
    (admitting.slot 127).admittedBy 1 = true ∧ admitting.admissionPlan 1 127 = .outcome .arrived ∧
    ((admitting.slot 0).position = some { alpha := 0, beta := 100, source := .reported } ∧
      (admitting.slot 0).targets = [] ++ { target1 with pinned := false } :: []) := by decide +kernel

theorem witness_PlanBuilding :
    let a : Counts := ⟨0, 100⟩
    let b : Counts := ⟨0, 300⟩
    (a ≠ b ∧ (zoned (.contested .higher)).contested 0 = true) ∧
    (seg.contested 0 = false ∧ ((seg.meetSet 0 (pathBox a b)).all fun z => seg.zoneHeldBy 0 z) = true) ∧
    ((zoned (.fenced .higher false)).contested 0 = false ∧
      (((zoned (.fenced .higher false)).meetSet 0 (pathBox a b)).all fun z =>
        (zoned (.fenced .higher false)).zoneHeldBy 0 z) = false ∧
      b.beta ≠ ((zoned (.fenced .higher false)).slot 0).calib.betaFold ∧
      ((zoned (.fenced .higher false)).meetSet 0
        (extensionBox ((zoned (.fenced .higher false)).slot 0).calib b.alpha b.beta)).any
          (zoned (.fenced .higher false)).zoneFenced = true) ∧
    ((zoned .free).contested 0 = false ∧
      (((zoned .free).meetSet 0 (pathBox a b)).all fun z => (zoned .free).zoneHeldBy 0 z) = false ∧
      ¬ (b.beta ≠ ((zoned .free).slot 0).calib.betaFold ∧
        ((zoned .free).meetSet 0 (extensionBox ((zoned .free).slot 0).calib b.alpha b.beta)).any
          (zoned .free).zoneFenced = true)) ∧
    (((zoned .free).meetSet 0 ⟨1000, 1000, 100, 200⟩) = [5] ∧ (zoned .free).meetSet 0 ⟨1000, 1000, 100, 199⟩ = [] ∧
      (⟨1000, 1000, 100, 200⟩ : Box).meets ⟨0, 1000, 200, 2000⟩ = true) ∧
    (seg.slot 0).cal = some { alphaMax := 1000, betaFold := 100, betaMax := 2000 } := by decide +kernel

theorem witness_OutcomeRecorded :
    (0 : Nat) < 128 ∧ (inBatch 2 seg).batch = .opened (open1 2) ∧ RobotOutcome.arrived ≠ .none ∧
    ((inBatch 2 seg).slot 0).batchFlag = true ∧ ((inBatch 2 seg).slot 0).outcome = .none ∧
    (open1 2).arrived + (open1 2).blocked + (open1 2).faulted + (open1 2).stopped + 1 < (open1 2).admitted ∧
    ((inBatch 1 seg).batch = .opened (open1 1) ∧
      (open1 1).admitted ≤ (open1 1).arrived + (open1 1).blocked + (open1 1).faulted + (open1 1).stopped + 1) ∧
    ((inBatch 2 seg).slot 127).batchFlag = false ∧ (inBatch 1 seg).link.current = none ∧
    ((doing .awaitBatch (inBatch 1 seg)).link.current = some { code := 0x29, tag := 9, work := .awaitBatch } ∧
      (doing .awaitBatch (inBatch 1 seg)).outputRoom = true ∧
      (doing .awaitBatch (inBatch 1 seg)).batch = .opened (open1 1)) := by decide +kernel

/-- Slot 0 CLAIMING zone 5. -/
def claim (st : ZoneStatus) : State :=
  (zoned st).modSlot 0 fun r =>
    { r with state := .waiting, leg := some { swing with kind := .extend, stage := .claiming, claimSet := some [5] } }

/-- Slot 127 wants zone 6, which is not defined; slot 0 wants zone 5. -/
def twoWait (st : ZoneStatus) : State :=
  { claim st with
    waitList := [{ slot := 127, cls := 0, entryTime := 0, deadline := 9, wanted := [6] },
      { slot := 0, cls := 1, entryTime := 0, deadline := 9, wanted := [5] }] }

theorem witness_ClaimsServed :
    (((claim .free).slot 0).leg = some { swing with kind := .extend, stage := .claiming, claimSet := some [5] }) ∧
    (stopped (claim .free)).pins.stop = true ∧ (claim .free).pins.stop = false ∧
    (∃ z ∈ [5], (claim (.fenced .higher false)).zoneFenced z = true) ∧
    (∀ z ∈ [5], (claim .free).zoneFree z = true ∧ ∀ e ∈ (claim .free).waitList, z ∉ e.wanted) ∧
    ((∀ z ∈ [5], (claim (.held .higher)).zoneFenced z = false) ∧
      ∃ z ∈ [5], (claim (.held .higher)).zoneFree z = false ∨ ∃ e ∈ (claim (.held .higher)).waitList, z ∈ e.wanted) ∧
    ((0 : Nat) < 128 ∧ (∀ z ∈ [5, 383], z < 384) ∧ (claim .free).zone 5 = some (zone0 .free)) ∧
    ((∀ e ∈ (twoWait (.held .higher)).waitList, ∃ z ∈ e.wanted, (twoWait (.held .higher)).zoneFree z = false) ∧
      (twoWait .free).zoneFree 6 = false ∧ (twoWait .free).zoneFree 5 = true ∧ (5 : Nat) ∉ [6]) ∧
    ((∀ e ∈ (twoWait .free).waitList, ∀ z ∈ e.wanted, z ∉ [7]) ∧
      ∃ e ∈ (twoWait .free).waitList, ∃ z ∈ e.wanted, z ∈ [5]) := by
  decide +kernel

theorem witness_LegDuration :
    (0 : Nat) < 128 ∧ ((underWay .issued none).slot 0).leg = some { swing with stage := .issued } ∧
    ((underWay .issued none).slot 0).identity =
      some { serial := 1, revision := 1, alphaSpeed := 300, betaSpeed := 1, pages := 3 } ∧ 1 ≤ 300 ∧ 1 ≤ 1 ∧
    ({ swing with stage := .issued } : Leg).haltCause = none ∧
    (underWay .issued none).legDuration 0 { swing with stage := .issued } = 1500 + 3334 := by decide +kernel

/-- Slot 0, of the open batch, with a leg of this stage and halt cause. -/
def answering (st : Stage) (cause : Option HaltCause) : State :=
  (inBatch 1 (underWay st none)).modSlot 0 fun r =>
    { r with leg := some { swing with stage := st, haltCause := cause, deadline := some 9000 } }

theorem witness_LegAnswers :
    (∀ st ∈ [Stage.running, .stopping, .issued, .lapsing, .claiming, .queued],
      ∀ cause ∈ [none, some HaltCause.stop, some .deadline],
        let s := answering st cause
        (s.slot 0).leg = some { swing with stage := st, haltCause := cause, deadline := some 9000 } ∧
          s.waitList = [] ∧ s.batch = .opened (open1 1) ∧ (s.slot 0).batchFlag = true ∧ (s.slot 0).outcome = .none ∧
          (s.slot 0).remaining = [] ∧ (s.slot 0).state ≠ .retired ∧
          (s.slot 0).faultCount + 1 < s.settings.faultLimit) ∧
    (0 : Nat) < 128 ∧ swing.kind ≠ .recover ∧ (999 : Nat) ≠ swing.finish.alpha ∧ (99 : Nat) ≠ swing.finish.beta ∧
    (let s := answering .stopping none
     (s.line (s.slot 0).lineNo).state = .up ∧ ((s.line 0).normal.any fun f => f.isReadbackOf 0) = false ∧
       ((lineState .down s).line ((lineState .down s).slot 0).lineNo).state ≠ .up ∧
       let u := s.modLine 0 fun r => { r with normal := [{ ask0 with owner := .readback 9 }] }
       (u.line 0).state = .up ∧ ((u.line 0).normal.any fun f => f.isReadbackOf 0) = true ∧
         ∀ g ∈ (s.slot 0).leg, g.id ≠ 1) := by
  dsimp only
  decide +kernel

theorem witness_LegsBuilt :
    (0 : Nat) < 128 ∧ (127 : Nat) ≠ 0 ∧
    ((seg.modSlot 0 fun r => { r with remaining := [⟨.swing, ⟨9, 100⟩⟩] }).slot 0).remaining =
      ⟨.swing, ⟨9, 100⟩⟩ :: [] ∧ LegKind.swing ≠ .extend ∧ (seg.slot 0).remaining = [] ∧
    (∀ st ∈ [Stage.claiming, .queued],
      ((withLeg .waiting { swing with stage := st }).slot 0).leg = some { swing with stage := st }) ∧
    ((inBatch 1 seg).slot 0).targets = [] ++ target1 :: [] ∧ target1.pinned = true := by decide +kernel

theorem witness_LegLapses :
    (0 : Nat) < 128 ∧
    (∀ st ∈ [Stage.issued, .running, .stopping, .lapsing], ∀ d ∈ [some 100, some 101, none],
      ((underWay st d).slot 0).leg = some { swing with stage := st, deadline := d }) ∧
    swing.kind ≠ .recover ∧ (underWay .running none).waitList = [] ∧
    ((underWay .running none).slot 0).faultCount + 1 < (underWay .running none).settings.faultLimit ∧
    (underWay .running (some 101)).now = 100 ∧
    (let s := inBatch 1 (underWay .running (some 101))
     s.batch = .opened (open1 1) ∧ (s.slot 0).batchFlag = true ∧ (s.slot 0).outcome = .none) := by decide +kernel

/-! ## Witnesses: the Start Gate and the stop event -/

theorem witness_StartGateScans :
    ((stopped seg).pins.stop = true ∧ queued.pins.inhibit = true) ∧
    (let s : State := { queued with pins := seg.pins }
     s.pins.stop = false ∧ s.pins.inhibit = false ∧ s.gate.startQueue = entry0 :: [] ∧ (s.line 0).state = .up ∧
      (s.line 0).normal.length < 24 ∧ s.gate.unitsInUse + entry0.units ≤ s.gate.budget ∧
      ({ s.gate with unitsInUse := 48 } : Gate).budget < 48 + entry0.units) ∧
    24 ≤ ((State.reset.modLine 0 fun r => { r with normal := List.replicate 24 ask0 }).line 0).normal.length ∧
    ((lineState .down queued).line entry0.line).state = .down ∧
    ((queued.slot 0).leg = some swing ∧ swing.stage = .queued ∧ (stopped queued).pins.stop = true ∧
      queued.pins.stop = false) ∧
    (let s := lineState .down (inBatch 1 queued)
     entry0.slot < 128 ∧ (s.slot entry0.slot).leg = some swing ∧ swing.kind ≠ .recover ∧ s.waitList = [] ∧
      s.batch = .opened (open1 1) ∧ (s.slot entry0.slot).batchFlag = true ∧ (s.slot entry0.slot).outcome = .none ∧
      (s.line entry0.line).state = .down) := by decide +kernel

theorem witness_StopAtBlocks :
    (let s := (inBatch 1 (underWay .issued none)).modLine 0 fun r => { r with normal := [ask0, go0] }
     (s.line 0).state = .up ∧ (s.line 0).normal.filter BusFrame.isGo = [go0] ∧
      (s.slot 0).leg = some { swing with stage := .issued } ∧ swing.kind ≠ .recover ∧ s.waitList = [] ∧
      s.batch = .opened (open1 1) ∧ (s.slot 0).batchFlag = true ∧ (s.slot 0).outcome = .none) ∧
    ((lineState .down seg).line 0).state = .down ∧ ((lineState .silent seg).line 0).state = .silent ∧
    ((doing (.recover 127) seg).link.current = some { code := 0x29, tag := 9, work := .recover 127 } ∧
      (doing (.recover 127) seg).outputRoom = true) ∧
    (seg.link.current = none) ∧
    (∀ st ∈ [Stage.issued, .stopping, .running, .claiming, .queued],
      ((underWay st none).slot 0).leg = some { swing with stage := st }) ∧
    ((underWay .lapsing (some 100)).slot 0).leg = some { swing with stage := .lapsing, deadline := some 100 } ∧
    (claiming.batch = .opened (open1 2) ∧ claiming.waitList.length ≤ (open1 2).admitted ∧
      (claiming.waitList.map WaitEntry.slot) = [0] ∧ (claiming.slot 0).batchFlag = true ∧
      (claiming.slot 0).outcome = .none ∧ ∀ g ∈ (claiming.slot 0).leg, g.stage = .claiming) ∧
    (let s := inBatch 1 queued
     s.batch = .opened (open1 1) ∧ s.gate.startQueue = [entry0] ∧ s.gate.startQueue.length ≤ (open1 1).admitted ∧
      s.waitList = [] ∧ (s.slot 0).batchFlag = true ∧ (s.slot 0).outcome = .none ∧ (s.slot 0).leg = some swing ∧
      swing.stage = .queued ∧ ({ s with stopPassing := true } : State).stopPassing = true) ∧
    (seg.handed = [] ∧ ({ seg with handed := [.scan] } : State).handed = .scan :: []) := by
  decide +kernel

/-! ## Witnesses: robot bus lines -/

theorem witness_BusAnswerReadBack :
    (15 : Nat) < 16 ∧ ask0.drop = 0 ∧ ask0.body.admits (.state .arrived 1000 2000) = true ∧ ask0.drop ≠ 15 ∧
    ask0.body.admits .taken = false ∧
    crc8 ((BusAnswer.taken.bytes 0).tail.dropLast) + 1 ≠ crc8 ((BusAnswer.taken.bytes 0).tail.dropLast) ∧
    (0x69 : Byte) ≠ 0x96 ∧ (0x80 : Byte).getLsbD 7 = true ∧ ([] : List Byte).length ≠ (0 : Byte).toNat + 1 ∧
    (0x82 : Byte) = 0x82 ∧ (4 : Byte) ≠ 5 ∧ (1 : Byte) ∉ [0x81, 0x82, 0x83, 0x84] := by
  decide +kernel

/-- Line 0 with these queues and slot 0 polled. -/
def lined (urgent : List UrgentFrame) (normal : List BusFrame) (turn : Bool) (cursor : Option Nat) (s : State) : State :=
  s.modLine 0 fun r => { r with urgent := urgent, normal := normal, pollTurn := turn, pollCursor := cursor }

theorem witness_ArbiterChoice :
    (7 : Nat) < 8 ∧ ((sending ask0 .first none seg).line 0).txn.isSome = true ∧
    ((lineState .silent seg).line 0).state = .silent ∧
    (((lineState .down seg).line 0).state = .down ∧ UrgentFrame.haltAll ∉ ((lineState .down seg).line 0).urgent) ∧
    (let s := lineState .down (lined [.haltAll] [] true none seg)
     (s.line 0).state = .down ∧ UrgentFrame.haltAll ∈ (s.line 0).urgent ∧ (s.line 0).txn = none ∧
      (s.line 0).sendingHaltAll = false) ∧
    ((underWay .running (some 9000)).pollsDue 0 ≠ [] ∧
      nextPoll none ((underWay .running (some 9000)).pollsDue 0) = some 0 ∧
      nextPoll (some 5) ((underWay .running (some 9000)).pollsDue 0) = some 0 ∧
      ((underWay .running (some 9000)).slot 0).leg =
        some { swing with stage := .running, deadline := some 9000 }) ∧
    (let up : State → Prop := fun s =>
        (s.line 0).txn = none ∧ (s.line 0).sendingHaltAll = false ∧ (s.line 0).state = .up
     let run := underWay .running (some 9000)
     up (lined [.halt 0] [] false none seg) ∧
     (up (lined [] [go0] true (some 0) run) ∧
      nextPoll (some 0) ((lined [] [go0] true (some 0) run).pollsDue 0) = some 0) ∧
     up (lined [] [go0] false none seg) ∧ ((lined [] [go0] true none seg).pollsDue 0 = []) ∧
     (up (lined [] [] false none run) ∧ nextPoll none ((lined [] [] false none run).pollsDue 0) = some 0) ∧
     (seg.line 0).normal = [] ∧ seg.pollsDue 0 = []) := by
  dsimp only
  decide +kernel

theorem witness_LineEvents :
    (((sending ask0 .first none seg).line 0).txn =
      some { frame := ask0, attempt := .first, fromNormal := false, window := none }) ∧
    (∀ t ∈ ((sending ask0 .first (some 4) seg).line 0).txn, t.window ≠ none) ∧
    (let s := seg.modLine 0 fun r => { r with sendingHaltAll := true }
     s.quiet = true ∧ (s.line 0).sendingHaltAll = true ∧ (s.line 0).txn = none ∧ (s.line 0).urgent = [] ∧
      (s.line 0).normal = [] ∧ s.pollsDue 0 = []) ∧
    (seg.quiet = true ∧ (seg.line 0).sendingHaltAll = false) ∧
    (let s : Nat → State := fun k => (sending ask0 .first none seg).modLine 0 fun r =>
        { r with normal := List.replicate k ask0, waiting := [ask0] }
     (s 23).quiet = true ∧ ((s 23).line 0).waiting = ask0 :: [] ∧ ((s 23).line 0).normal.length < 24 ∧
      ((s 23).line 0).txn.isSome = true ∧ (s 24).quiet = true ∧ 24 ≤ ((s 24).line 0).normal.length) ∧
    (let s := underWay .running (some 9000)
     s.quiet = true ∧ (s.slot 0).onLine 0 = true ∧ s.pollDue 0 0 = true ∧ (s.line 0).state = .up ∧
      (s.line 0).txn = none ∧ (s.line 0).sendingHaltAll = false ∧ (s.line 0).urgent = [] ∧ (s.line 0).normal = [] ∧
      nextPoll (s.line 0).pollCursor (s.pollsDue 0) = some 0) ∧
    (seg.pollDue (seg.slot 127).lineNo 127 = false) ∧
    (let s : Nat → State := fun asked =>
        (underWay .running (some 9000)).modLine 0 fun r => { r with lastAsk := writeLastAsk 0 asked r.lastAsk }
     (s 75).pollDue 0 0 = true ∧ ((s 75).line 0).lastAskOf 0 = some 75 ∧ (s 75).now = 75 + 25 ∧
      (s 76).pollDue 0 0 = false ∧ (s 76).quiet = true) ∧
    (∀ t ∈ ((sending ask0 .first none seg).line 0).txn, t.window = none) := by decide +kernel

theorem witness_AttemptEnds :
    let s : Attempt → Nat → State := fun a now => { sending go0 a (some 104) (underWay .issued none) with now := now }
    ((s .first 103).line 0).txn =
      some { frame := go0, attempt := .first, fromNormal := false, window := some 104 } ∧
    ((s .first 103).quiet = true ∧ (s .first 103).now < 104) ∧
    ((s .first 104).quiet = true ∧ 104 ≤ (s .first 104).now) ∧ validAnswer? go0 [0x96, 0, 2, 0, 0] = none ∧
    ((s .second 104).link.control = [] ∧
      ((s .second 104).line 0).txn =
        some { frame := go0, attempt := .second, fromNormal := false, window := some 104 }) := by decide +kernel

theorem witness_ValidAnswer :
    (let s := sending halt0 .first (some 4) seg
     (s.line 0).txn = some { frame := halt0, attempt := .first, fromNormal := false, window := some 4 } ∧
      halt0.body.admits (.refused 255) = true ∧ s.link.control = [] ∧ s.quiet = true ∧ (s.line 0).urgent = [] ∧
      (s.line 0).normal = [] ∧ s.pollsDue 0 = []) ∧
    (let s := sending go0 .first (some 104) (underWay .issued none)
     s.quiet = true ∧
      (s.line 0).txn = some { frame := go0, attempt := .first, fromNormal := false, window := some 104 } ∧
      go0.body = .go swing.axes swing.finish.alpha swing.finish.beta swing.speed swing.kind ∧
      (s.slot 0).leg = some { swing with stage := .issued } ∧ (s.line 0).urgent = [] ∧ (s.line 0).normal = [] ∧
      (s.line 0).waiting = []) := by decide +kernel

theorem witness_LineGoesDown :
    (7 : Nat) < 8 ∧ (0 : Nat) ≠ 7 ∧ seg.gate.unitsInUse ≤ seg.gate.budget ∧
    (∀ st ∈ [Stage.issued, .running, .stopping, .claiming, .queued, .lapsing],
      ((underWay st (some 9)).slot 0).leg = some { swing with stage := st, deadline := some 9 }) ∧
    seg.slotsOn 0 = [0, 127] := by decide +kernel

/-! ## Witnesses: probe, measurement, recovery -/

theorem witness_Probe :
    (State.reset.planReady = true ∧ ∀ n, n < 128 → (State.reset.slot n).state = .vacant) ∧
    ((128 : Byte) ≠ 255 ∧ 127 < (128 : Byte).toNat ∧ (254 : Byte) ≠ 255) ∧
    (seg.planReady = true ∧ (seg.slot (126 : Byte).toNat).state = .vacant) ∧
    ((underWay .issued none).planReady = true ∧ ((underWay .issued none).slot (0 : Byte).toNat).state ≠ .vacant ∧
      ((underWay .issued none).slot (0 : Byte).toNat).probeable = false) ∧
    ((seg.slot (127 : Byte).toNat).probeable = true ∧ (seg.slot (127 : Byte).toNat).lineNo = 0 ∧
      (seg.line 0).state = .up ∧ seg.lineIdle 0 ∧ (seg.line 0).pollTurn = false ∧ seg.gate.startQueue = []) ∧
    ((lineState .silent seg).planReady = true ∧ ((lineState .silent seg).slot (127 : Byte).toNat).probeable = true ∧
      ((lineState .silent seg).line 0).state = .silent) ∧
    (let s := after (.pinReset 0 true false false) seg
     let s := s.setSlot 127 (robot 7 15)
     s.planReady = true ∧ (∀ l, l < 8 → (s.line l).state = .silent) ∧ (s.slot 127).onLine 7 = true ∧
      ∀ m, m < 127 → ∀ l, l < 8 → (s.slot m).onLine l = false) ∧
    (seg.slotsOn 0 = [0, 127] ∧ (seg.slot 0).probeable = true ∧
      ∀ l, l < 8 → (seg.line l).state = .up ∧ seg.lineIdle l ∧ (seg.line l).pollTurn = false ∧
        ∀ n ∈ seg.slotsOn l, (seg.slot n).probeable = true) := by
  unfold State.lineIdle
  decide +kernel

/-- A probe of all with slot 0 in hand on line 0 and no slot left. -/
def probing (page : Nat) : ProbeLine := { ProbeLine.idle with inHand := some 0, page := page }
def probe0 (page : Nat) (cancelled : Bool) : ProbeRec :=
  { (State.reset.newProbe none).setLine 0 (probing page) with cancelled := cancelled }

theorem witness_ProbeProceeds :
    (∀ k, k < 8 → (doing (.probe (probe0 k false)) seg).probeInHand 0 0 = some (probing k)) ∧ (seg.line 0).state = .up ∧
    (probing 0).secondAsk = false ∧ (seg.slot 0).expectedSerial = none ∧
    ((doing (.probe (probe0 0 false)) seg).link.current =
        some { code := 0x29, tag := 9, work := .probe (probe0 0 false) } ∧
      (doing (.probe (probe0 0 false)) seg).probeInHand 0 127 = none ∧ seg.probeInHand 0 0 = none) := by decide +kernel

theorem witness_ProbeEnds :
    (∀ c : Bool,
      let s := doing (.probe (probe0 3 c)) seg
      s.link.current = some { code := 0x29, tag := 9, work := .probe (probe0 3 c) } ∧
        (probe0 3 c).line 0 = probing 3 ∧ (probing 3).inHand = some 0 ∧ (probing 3).todo = [] ∧
        (∀ m, m < 8 → m ≠ 0 → ((probe0 3 c).line m).inHand = none ∧ ((probe0 3 c).line m).todo = []) ∧
        s.waitList = [] ∧ s.outputRoom = true ∧ (s.slot 0).faultCount + 1 < s.settings.faultLimit) ∧
    (0 : Nat) < 128 ∧ (0 : Nat) < 8 ∧
    (∀ st ∈ [LineState.up, .down, .silent],
      let s := lineState st (doing (.probe (probe0 3 false)) seg)
      s.link.current = some { code := 0x29, tag := 9, work := .probe (probe0 3 false) } ∧
        (probe0 3 false).cancelled = false ∧ (s.line 0).state = st ∧ (s.slot 127).probeable = true) ∧
    (underWay .running none).link.current = none ∧ ((underWay .running none).slot 0).probeable = false ∧
    (∃ m, m < 8 ∧ ((probe0 3 false).line m).inHand ≠ none) := by
  dsimp only
  decide +kernel

theorem witness_MeasureList :
    seg.planReady = true ∧ (List.replicate 129 (⟨0, 0, 100⟩ : MeasureEntry)).length ≤ 400 ∧
    128 < (List.replicate 129 (⟨0, 0, 100⟩ : MeasureEntry)).length ∧
    seg.measureCheck ⟨0, 0, 99⟩ = some .outOfRange ∧
    (seg.measureCheck ⟨127, 1000, 2000⟩ = none ∧ (List.replicate 128 (⟨127, 1000, 2000⟩ : MeasureEntry)).length ≤ 128 ∧
      (seg.slot (127 : Byte).toNat).lineNo = 0 ∧ (seg.line 0).state = .up ∧ seg.lineIdle 0 ∧
      (seg.line 0).pollTurn = false ∧ seg.gate.startQueue = []) := by
  unfold State.lineIdle
  decide +kernel

/-- A list of these entries with its first one in hand. -/
def measuring (cancelled : Bool) (entries : List MeasureEntry) : MeasureRec :=
  { newMeasure entries with cancelled := cancelled }

theorem witness_MeasureEntrySettled :
    let ok : MeasureEntry := ⟨127, 1000, 2000⟩
    let bad : MeasureEntry := ⟨0, 0, 99⟩
    (∀ es ∈ [[ok], [ok, ok], [ok, bad]], ∀ c : Bool,
      let s := doing (.measure (measuring c es)) seg
      ok.slot.toNat ≤ 127 ∧ s.link.current = some { code := 0x29, tag := 9, work := .measure (measuring c es) } ∧
        (measuring c es).entries[(measuring c es).index]? = some ok ∧ s.waitList = [] ∧ s.outputRoom = true ∧
        (s.line (s.slot 127).lineNo).state = .up ∧ (s.slot 127).faultCount + 1 < s.settings.faultLimit) ∧
    (let u := (seg.modSlot 127 fun r =>
        { r with position := some { alpha := 1000, beta := 2000, source := .loaded } }).updateZones 127
     u.measureCheck bad = some .outOfRange ∧ u.measureCheck ok = none) ∧
    (let s := doing (.measure (measuring false [ok, ok])) (lineState .down seg)
     (s.line (s.slot ok.slot.toNat).lineNo).state ≠ .up) := by
  dsimp only
  decide +kernel

/-- Slot 0 with a RECOVER leg in this stage, its request current. -/
def recovering (st : Stage) (cause : Option HaltCause) : State :=
  doing (.recover 0) ((underWay st (some 9000)).modSlot 0 fun r =>
    { r with
      leg := some { swing with kind := .recover, stage := st, haltCause := cause }
      recoveryReturn := some .held })

theorem witness_RecoverEnds :
    (∀ st ∈ [Stage.running, .issued, .queued, .stopping], ∀ cause ∈ [none, some HaltCause.stop, some .deadline],
      let s := recovering st cause
      (s.slot 0).leg = some { swing with kind := .recover, stage := st, haltCause := cause } ∧ s.waitList = [] ∧
        s.outputRoom = true ∧ s.link.current = some { code := 0x29, tag := 9, work := .recover 0 } ∧
        (s.slot 0).faultCount + 1 < s.settings.faultLimit ∧ (s.slot 0).recoveryReturn = some .held) ∧
    (∀ d ∈ [100, 101],
      let s := (recovering .running none).modSlot 0 fun r =>
        { r with leg := some { swing with kind := .recover, stage := .running, deadline := some d } }
      s.waitList = [] ∧ s.outputRoom = true ∧ (s.now < d ↔ d = 101)) ∧
    ¬ (((recovering .running none).modSlot 0 fun r => { r with faultCount := 2 }).slot 0).faultCount + 1 <
      (recovering .running none).settings.faultLimit ∧
    (0 : Nat) < 128 ∧ (underWay .running none).link.current = none := by
  dsimp only
  decide +kernel

theorem witness_Recover :
    seg.planReady = true ∧ 127 < (128 : Byte).toNat ∧ (127 : Byte).toNat ≤ 127 ∧
    (seg.slot (126 : Byte).toNat).state = .vacant ∧
    ((underWay .issued none).planReady = true ∧
      ((underWay .issued none).slot 0).state ∉ [RobotState.faulted, .held, .rest]) ∧
    ((seg.slot 127).state ∈ [RobotState.faulted, .held, .rest] ∧ (seg.slot 127).leg = none) ∧
    ((seg.modSlot 127 fun r => { r with identity := none }).planReady = true ∧
      ((seg.modSlot 127 fun r => { r with identity := none }).slot 127).identity = none) ∧
    ((stopped seg).planReady = true ∧ ((stopped seg).slot 127).identity ≠ none ∧ (stopped seg).pins.stop = true) ∧
    (seg.pins.stop = false ∧ (lineState .silent seg).planReady = true ∧
      ((lineState .silent seg).line ((lineState .silent seg).slot 127).lineNo).state ≠ .up) ∧
    ((seg.line (seg.slot 127).lineNo).state = .up ∧
      (seg.slot 127).position = some { alpha := 0, beta := 100, source := .reported } ∧
      100 = (seg.slot 127).calib.betaFold ∧ seg.waitList = []) ∧
    (let s : State := { seg.modSlot 127 fun r => { r with position := none } with pins := queued.pins }
     s.planReady = true ∧ (s.slot 127).atFold = false ∧ s.pins.inhibit = true) := by decide +kernel

end Sys2Proof.Tests
end

