-- ==== Sys2Proof/Proofs/LegDuration.lean ====
section
/-! PROOFS. The duration of a leg's deadline (R108): the time of an axis, the travels, the time of a leg, and the
deadline that TAKEN sets. -/

namespace Sys2Proof.Machine

/-- The difference of two counts is the larger less the smaller (R10). -/
theorem countDiff_eq (a b : Nat) : countDiff a b = max a b - min a b := by
  unfold countDiff
  omega

/-- With a speed at hand, the time of an axis is the quotient of R108 rounded up. -/
theorem axisTime_of_speed {v : Nat} (hv : 1 ≤ v) (speed : Speed) (d : Nat) :
    axisTime speed d v = ((if speed = .slow then 4000 else 1000) * d + v - 1) / v := by
  unfold axisTime
  rw [if_neg (Nat.ne_of_gt hv)]
  cases speed <;> rfl

/-- An axis is done within t ms exactly if its speed covers its travel in that time. -/
theorem axisTime_le_iff {v : Nat} (hv : 1 ≤ v) (speed : Speed) (d t : Nat) :
    axisTime speed d v ≤ t ↔ (if speed = .slow then 4000 else 1000) * d ≤ t * v := by
  rw [axisTime_of_speed hv, Nat.div_le_iff_le_mul_add_pred hv, Nat.mul_comm v t]
  omega

/-- The time of an axis is the least whole number of ms in which its speed covers its travel. -/
theorem axisTime_least {v : Nat} (hv : 1 ≤ v) (speed : Speed) (d : Nat) :
    (if speed = .slow then 4000 else 1000) * d ≤ axisTime speed d v * v ∧
      ∀ t, (if speed = .slow then 4000 else 1000) * d ≤ t * v → axisTime speed d v ≤ t :=
  ⟨(axisTime_le_iff hv speed d _).1 (Nat.le_refl _), fun t => (axisTime_le_iff hv speed d t).2⟩

/-- From an unknown position the whole beta travel is given, and no alpha travel. -/
theorem travel_of_unknown {g : Leg} (h : g.start = none) (c : Calibration) :
    g.travel c = (0, c.betaMax - c.betaFold) := by
  unfold Leg.travel
  rw [h]

/-- From a known position each travel is the difference of the start and the end counts. -/
theorem travel_of_known {g : Leg} {p : Counts} (h : g.start = some p) (c : Calibration) :
    g.travel c = (max p.alpha g.finish.alpha - min p.alpha g.finish.alpha,
      max p.beta g.finish.beta - min p.beta g.finish.beta) := by
  unfold Leg.travel
  rw [h]
  exact Prod.ext (countDiff_eq _ _) (countDiff_eq _ _)

/-- The time of a leg by its axes, from its travels and the speeds of the identity standing. -/
theorem travelTime_of_identity {r : SlotRec} {i : Identity} {g : Leg} {da db : Nat} (hident : r.identity = some i)
    (htravel : g.travel r.calib = (da, db)) :
    g.travelTime r = match g.axes with
      | .alpha => axisTime g.speed da i.alphaSpeed
      | .beta => axisTime g.speed db i.betaSpeed
      | .both => max (axisTime g.speed da i.alphaSpeed) (axisTime g.speed db i.betaSpeed) := by
  unfold Leg.travelTime
  rw [hident, htravel]
  cases g.axes <;> rfl

/-- The slot's leg is the one its own number names. -/
theorem legOf_own {s : State} {n : Nat} {g : Leg} (h : (s.slot n).leg = some g) : s.legOf n g.id = some g := by
  simp [State.legOf, h]

/-- A change of the leg that stands writes the changed leg. -/
theorem modLeg_of_leg {s : State} {n : Nat} {g : Leg} (h : (s.slot n).leg = some g) (f : Leg → Leg) :
    s.modLeg n f = s.modSlot n fun r => { r with leg := some (f g) } := by
  simp [State.modLeg, State.modSlot, h]

/-- TAKEN for the GO of an ISSUED leg that no stop event has reached sets the deadline and makes it RUNNING. -/
theorem goTaken_issued {s : State} {n : Nat} {g : Leg} (hleg : (s.slot n).leg = some g) (hstage : g.stage = .issued)
    (hcause : g.haltCause = none) :
    s.goTaken n g.id = s.modSlot n fun r =>
      { r with leg := some { g with stage := .running, deadline := some (s.now + s.legDuration n g) } } := by
  have hhalted : g.halted = false := by simp [Leg.halted, hcause]
  calc s.goTaken n g.id
      = s.legTaken n g := by simp [State.goTaken, legOf_own hleg, hstage]
    _ = s.modLeg n fun q => { q with stage := .running, deadline := some (s.now + s.legDuration n g) } := by
        simp [State.legTaken, hhalted]
    _ = _ := modLeg_of_leg hleg _

/-- Settles O42: the times of the two axes are the model's own, each the least by R108's quotient. -/
theorem legDuration : Obligations.LegDuration := by
  unfold Obligations.LegDuration
  intro s n g i _ hleg hstage hident halpha hbeta k da db
  have htravel : g.travel (s.slot n).calib = (da, db) := by
    cases hstart : g.start with
    | none => simp only [da, db, hstart, travel_of_unknown hstart]
    | some p => simp only [da, db, hstart, travel_of_known hstart]
  refine ⟨axisTime g.speed da i.alphaSpeed, axisTime g.speed db i.betaSpeed, axisTime_least halpha g.speed da,
    axisTime_least hbeta g.speed db, ?_, goTaken_issued hleg hstage⟩
  exact congrArg (s.settings.settleAllowance + ·) (travelTime_of_identity hident htravel)

end Sys2Proof.Machine
end

