-- ==== Sys2Proof/Proofs/PinReset.lean ====
section
/-! PROOFS. What stands after a pin reset (R123, R140): the records written, and that running to rest reaches the link
alone. -/

namespace Sys2Proof.Machine

/-- After a pin reset every slot record is VACANT. -/
theorem pinReset_slot (s : State) (segment : Fin 32) (hold stop inhibit : Bool) (n : Nat) :
    (s.pinReset segment hold stop inhibit).slot n = SlotRec.vacant := by
  unfold State.slot State.pinReset State.reset
  by_cases h : n < 128 <;> simp [h]

/-- After a pin reset no line has a transaction, and so no answer window. -/
theorem pinReset_line_txn (s : State) (segment : Fin 32) (hold stop inhibit : Bool) (l : Nat) :
    ((s.pinReset segment hold stop inhibit).line l).txn = none := by
  unfold State.line State.pinReset
  by_cases h : l < 8 <;> simp [h, LineRec.fresh]

/-- Raising an event changes the link alone. -/
theorem sameRecords_raise (s : State) (e : Summary) : s.SameRecords (s.raise e) := by
  unfold State.SameRecords State.raise
  split <;> rfl

/-- With no event handed on and no request waiting, a raised event run to rest changes the link alone. -/
theorem sameRecords_rest_raise {s : State} (hh : s.handed = []) (hc : s.link.control = []) (hp : s.link.plan = [])
    (e : Summary) : s.SameRecords (s.raise e).rest := by
  have hrest : (s.raise e).SameRecords (s.raise e).rest :=
    sameRecords_settle _ _ (by rw [raise_eq]; exact hh) (by rw [raise_eq]; exact hc) (by rw [raise_eq]; exact hp)
  unfold State.SameRecords at hrest ⊢
  rw [hrest, sameRecords_raise s e]

/-- PIN_RESET is answered with the records of the reset; STOP_TAKEN and what it leads to reach the link alone. -/
theorem exec_pinReset_records (s : State) (segment : Fin 32) (hold stop inhibit : Bool) :
    ∃ t, exec (.pinReset segment hold stop inhibit) s = .next t ∧
      (s.pinReset segment hold stop inhibit).SameRecords t := by
  refine ⟨_, rfl, ?_⟩
  cases stop with
  | false => exact sameRecords_settle _ _ rfl rfl rfl
  | true => exact sameRecords_rest_raise rfl rfl rfl _

/-- Settles O8: the answered state has the records of the reset, whose fields are read off. -/
theorem plannerAfterPinReset : Obligations.PlannerAfterPinReset := by
  unfold Obligations.PlannerAfterPinReset
  intro s segment hold stop inhibit
  obtain ⟨t, hexec, hrec⟩ := exec_pinReset_records s segment hold stop inhibit
  have hslot (n : Nat) : t.slot n = SlotRec.vacant := by
    rw [hrec]
    exact pinReset_slot s segment hold stop inhibit n
  have hline (l : Nat) : (t.line l).txn = none := by
    rw [hrec]
    exact pinReset_line_txn s segment hold stop inhibit l
  refine ⟨t, hexec, ?batch, fun n => by rw [hslot]; exact ⟨rfl, rfl, rfl⟩, ?settle, ?wait, ?held, hline⟩
  all_goals (rw [hrec]; rfl)

end Sys2Proof.Machine
end

