-- ==== Sys2Proof/Proofs/Conditionals.lean ====
section
/-! PROOFS. Conditionals, and decidable bounds, that every part below rewrites: the model's files import core Lean
alone. -/

namespace Sys2Proof.Machine

theorem ite_congr_iff {α : Sort _} {b c : Prop} [Decidable b] [Decidable c] {x y u v : α} (h : b ↔ c) (hx : x = u)
    (hy : y = v) : (if b then x else y) = if c then u else v :=
  ite_congr (propext h) (fun _ => hx) fun _ => hy

theorem ite_conj {α : Sort _} {p q : Prop} [Decidable p] [Decidable q] (x y : α) :
    (if p ∧ q then x else y) = if p then if q then x else y else y := by
  by_cases hp : p
  · rw [if_pos hp]
    exact ite_congr_iff (and_iff_right hp) rfl rfl
  · rw [if_neg hp, if_neg fun h => hp h.1]

end Sys2Proof.Machine
end

