-- ==== Sys2Proof/Proofs/Invariants.lean ====
section
/-! PROOFS. The invariants of every step (Lawful, Within, Stopped) at reset and from command to command, and what a
stop event leaves of the wait list and the start queue. -/

namespace Sys2Proof.Machine

/-! ## The reset state -/

/-- A pin reset leaves the laws, the capacities and the rule of stop in force met, whatever the levels. -/
theorem pinReset_keeps_laws (s : State) (segment : Fin 32) (hold stop inhibit : Bool) :
    (s.pinReset segment hold stop inhibit).Lawful ∧ (s.pinReset segment hold stop inhibit).Within ∧
      (s.pinReset segment hold stop inhibit).Stopped := by
  refine ⟨?lawful, ⟨⟨?control, ?plan, ?assembly, ?output⟩, ?lines, ?held⟩, ?stopped⟩
  case lawful =>
    exact (by decide : (2 ≤ 48 ∧ 48 ≤ 128 ∧ 0 ≤ 48) ∧ (1 ≤ 45 ∧ 45 ≤ 600) ∧ (100 ≤ 1500 ∧ 1500 ≤ 10000) ∧ (1 ≤ 3 ∧ 3 ≤ 7))
  case lines =>
    intro l
    unfold State.line State.pinReset
    by_cases h : l < 8 <;> simp [h, LineRec.Ordered, LineRec.fresh]
  case held => exact List.nodup_nil
  case stopped => exact fun _ => ⟨rfl, rfl⟩
  all_goals exact Nat.zero_le _

/-- The reset state is the one that a pin reset with the straps and the levels of log 7 leaves. -/
theorem reset_eq_pinReset : State.reset = State.reset.pinReset 0 false false false := rfl

/-- Settles O3: the reset state is a pin reset's. -/
theorem resetKeepsLaws : Obligations.ResetKeepsLaws := by
  unfold Obligations.ResetKeepsLaws
  rw [reset_eq_pinReset]
  exact pinReset_keeps_laws _ _ _ _ _

/-! ## A stop event reaches every block -/

/-- The order of a stop event keeps what stands in it. -/
theorem mem_foldl_addNew (b : StopBlock) (bs done : List StopBlock) (h : b ∈ done ∨ b ∈ bs) :
    b ∈ bs.foldl (fun done b => if done.contains b then done else done ++ [b]) done := by
  induction bs generalizing done with
  | nil => simpa using h
  | cons c bs ih =>
    rw [List.foldl_cons]
    apply ih
    rcases h with hd | hc
    · left
      split
      · exact hd
      · exact List.mem_append_left _ hd
    · rcases List.mem_cons.1 hc with rfl | hb
      · left
        split
        · next hin => simpa using hin
        · simp
      · exact .inr hb

/-- Every block stands in the order of a stop event, whatever order is chosen (log 6). -/
theorem mem_fullOrder (chosen : List StopBlock) (b : StopBlock) : b ∈ fullOrder chosen := by
  refine mem_foldl_addNew b _ _ (.inr (List.mem_append_right _ ?_))
  cases b with
  | bus line => revert line; decide
  | _ => decide

/-- The Claim Arbiter empties the wait list, and the robots' outcomes bring no claim into it under stop (R81, R91). -/
theorem stopArbiter_waitList {s : State} (h : s.pins.stop = true) : s.stopArbiter.waitList = [] :=
  (Inner.handOutcomes ({ s with waitList := [] } : State) .stopped s.waitList).wait h rfl

/-- The Start Gate empties the start queue, and no leg joins it under stop (R129, R137). -/
theorem stopGate_startQueue {s : State} (h : s.pins.stop = true) : s.stopGate.gate.startQueue = [] :=
  (Inner.foldl _ (fun s n => Inner.stopEntry s n) (s.gate.startQueue.map StartEntry.slot)
    (s.modGate fun g => { g with startQueue := [] })).start h rfl

theorem Inner.underStop {s t : State} (h : Inner s t) (hs : s.pins.stop = true) : t.pins.stop = true := by
  rw [h.pins]
  exact hs

/-- A property of the states reached under stop that one block's part in the stop event brings about, and that the
events of the other blocks keep, holds once every block has taken it. -/
theorem stopBlocks_establishes (P : State → Prop) (hkeep : ∀ {s t : State}, Inner s t → s.pins.stop = true → P s → P t)
    (b : StopBlock) (hb : ∀ s : State, s.pins.stop = true → P (s.stopBlock b)) (bs : List StopBlock) (s : State)
    (hs : s.pins.stop = true) (hmem : b ∈ bs ∨ P s) : P (stopBlocks s bs) := by
  induction bs generalizing s with
  | nil => simpa [stopBlocks] using hmem
  | cons c bs ih =>
    unfold stopBlocks
    have hpassing := Inner.stopPassing s ((c == .planner && bs.contains .startGate) || s.stopPassing)
    have htaken := Inner.stopBlock
      { s with stopPassing := (c == .planner && bs.contains .startGate) || s.stopPassing } c
    have hdrain := Inner.drain Config.settleFuel (State.stopBlock
      { s with stopPassing := (c == .planner && bs.contains .startGate) || s.stopPassing } c)
    refine ih _ (((hpassing.trans htaken).trans hdrain).underStop hs) ?_
    rcases hmem with hin | hP
    · rcases List.mem_cons.1 hin with rfl | hrest
      · exact .inr (hkeep hdrain (htaken.underStop hs) (hb _ hs))
      · exact .inl hrest
    · exact .inr (hkeep ((hpassing.trans htaken).trans hdrain) hs hP)

/-- Where the stop input is asserted, a stop event leaves no claim waiting and no leg queued. -/
theorem stopEvent_empties {s : State} (h : s.pins.stop = true) (source : StopSource) :
    (s.stopEvent source).waitList = [] ∧ (s.stopEvent source).gate.startQueue = [] := by
  have hraise : (({ s with stopOrders := s.stopOrders.tail } : State).raise (.stopTaken 1 source.bit)).pins.stop = true := by
    rw [raise_eq]
    exact h
  unfold State.stopEvent
  refine ⟨?wait, ?start⟩
  case wait =>
    exact stopBlocks_establishes (fun t => t.waitList = []) (fun hi hs => hi.wait hs) .arbiter
      (fun t ht => stopArbiter_waitList ht) _ _ hraise (.inl (mem_fullOrder _ _))
  case start =>
    exact stopBlocks_establishes (fun t => t.gate.startQueue = []) (fun hi hs => hi.start hs) .startGate
      (fun t ht => stopGate_startQueue (s := { t with stopPassing := false }) ht) _ _ hraise
      (.inl (mem_fullOrder _ _))

/-! ## The commands -/

/-- The three invariants go from s to t. -/
structure Safe (s t : State) : Prop where
  lawful : s.Lawful → t.Lawful
  within : s.Within → t.Within
  stopped : s.Stopped → t.Stopped

namespace Safe

theorem refl (s : State) : Safe s s := ⟨id, id, id⟩

theorem trans {s t u : State} (h : Safe s t) (k : Safe t u) : Safe s u :=
  ⟨k.lawful ∘ h.lawful, k.within ∘ h.within, k.stopped ∘ h.stopped⟩

theorem ite {s t u : State} {c : Prop} [Decidable c] (h : Safe s t) (k : Safe s u) : Safe s (if c then t else u) := by
  split <;> assumption

end Safe

theorem Any.safe {s t : State} (h : Any s t) : Safe s t := ⟨h.lawful, h.within, h.stopped⟩

/-- What runs to rest after a safe event is safe. -/
theorem Safe.rest {s t : State} (h : Safe s t) : Safe s t.rest := h.trans (Any.rest t).safe

/-- The receiver writes the bytes it keeps, and every frame it finds is taken. -/
theorem receiveAll_safe (k : Nat) (s : State) (bytes : List Byte) : Safe s (receiveAll k s bytes) := by
  have hkeep (s : State) (held : List Byte) : Safe s (s.modLink fun l => { l with rx := held }) := ⟨id, id, id⟩
  induction k generalizing s bytes with
  | zero => exact hkeep s bytes
  | succ k ih =>
    unfold receiveAll
    split
    · exact hkeep s _
    · exact (Any.badFrame s).safe.trans (ih _ _)
    · exact (Any.goodFrame s _ _).safe.trans (ih _ _)

/-- STOP_ASSERTED puts stop in force, and its stop event empties the two lists that then must be empty. -/
theorem stopAsserted_safe (s : State) : Safe s ((s.setStop true).stopEvent .line) := by
  have hevent := Any.stopEvent (s.setStop true) .line
  exact ⟨fun h => hevent.lawful h, fun h => hevent.within h, fun _ _ => stopEvent_empties rfl .line⟩

/-- With stop no longer in force there is nothing to keep empty. -/
theorem stopNegated_safe (s : State) : Safe s ((s.setStop false).hand .scan) :=
  ⟨id, id, fun _ h => absurd h (by simp [State.setStop])⟩

theorem setInhibit_safe (s : State) (level : Bool) : Safe s (s.setInhibit level) := ⟨id, id, id⟩

theorem claimTimeout_safe (s : State) (n : Nat) : Safe s (if s.claimDue n then s.claimExpires n else s) :=
  Safe.ite (Inner.claimExpires s n).any.safe (Safe.refl s)

theorem nodup_map_erase (l : List HeldUnits) (h : HeldUnits) (hl : (l.map HeldUnits.slot).Nodup) :
    ((l.erase h).map HeldUnits.slot).Nodup := hl.sublist (List.erase_sublist.map _)

theorem heldExpires_safe (s : State) (n : Nat) : Safe s (s.heldExpires n) := by
  unfold State.heldExpires
  split
  · exact Safe.refl s
  · next h _ =>
    refine Safe.trans (t := s.modGate fun g => { g with heldUnits := g.heldUnits.erase h }) ?_
      (Inner.returnUnits _ _).any.safe
    exact ⟨id, fun x => ⟨x.1, x.2.1, nodup_map_erase _ h x.2.2⟩, id⟩

theorem frontSent_safe (s : State) : Safe s s.frontSent := by
  unfold State.frontSent
  split
  · exact Safe.refl s
  · exact ⟨id, fun x => ⟨⟨x.1.1, x.1.2.1, x.1.2.2.1, Nat.zero_le _⟩, x.2⟩, id⟩
  · next a b rest e =>
    refine ⟨id, fun x => ⟨⟨x.1.1, x.1.2.1, x.1.2.2.1, ?_⟩, x.2⟩, id⟩
    have hcap := x.1.2.2.2
    rw [e] at hcap
    exact Nat.le_trans (Nat.le_succ _) hcap

/-- The three link events that carry out the grant whose turn it is. -/
theorem grantEvent_safe (s : State) (g : Grant) (h : s.nextGrant = some g) : Safe s (s.carryOut g).rest :=
  (Any.carryOut s g (nextGrant_spec h)).safe.rest

/-- Every command keeps the three invariants. -/
theorem exec_safe (c : Instr) (s t : State) (h : exec c s = .next t) : Safe s t := by
  have hrequest (tag : Byte) (q : Request) : Safe s (s.sendRequest tag q) := (Any.sendRequest s tag q).safe
  have hreceive (l : Nat) (bytes : List Byte) : Safe s (s.receiveBus l bytes).rest := (Any.receiveBus s l bytes).safe.rest
  cases c with
  | pinReset segment hold stop inhibit =>
    cases h
    obtain ⟨hlawful, hwithin, hstopped⟩ := pinReset_keeps_laws s segment hold stop inhibit
    have hreset : Safe s (s.pinReset segment hold stop inhibit) :=
      ⟨fun _ => hlawful, fun _ => hwithin, fun _ => hstopped⟩
    exact (hreset.trans (Safe.ite (Inner.raise _ _).any.safe (Safe.refl _))).rest
  | stopAsserted => cases h; exact Safe.ite (Safe.refl s) (stopAsserted_safe s).rest
  | stopNegated => cases h; exact Safe.ite (stopNegated_safe s).rest (Safe.refl s)
  | inhibitAsserted => cases h; exact setInhibit_safe s true
  | inhibitNegated =>
    cases h
    exact Safe.ite ((setInhibit_safe s false).trans (Inner.hand _ _).any.safe).rest (Safe.refl s)
  | linkFrameReceived bytes => cases h; exact receiveAll_safe _ s _
  | planFrameMove =>
    cases h
    split
    · next f rest hg => exact grantEvent_safe s (.plan f rest) hg
    all_goals exact Safe.refl s
  | outputFrameSent => cases h; exact (frontSent_safe s).rest
  | waitingAnswerEntry =>
    cases h
    split
    · next f hg => exact grantEvent_safe s (.waitingAnswer f) hg
    all_goals exact Safe.refl s
  | noticeEntry =>
    cases h
    split
    · next hg => exact grantEvent_safe s .notice hg
    all_goals exact Safe.refl s
  | frameSendingEnds line => cases h; exact (Any.sendingEnds s line.val).safe
  | haltAllSent line => cases h; exact (Any.haltAllSent s line.val).safe.rest
  | validAnswer line drop answer => cases h; exact hreceive _ _
  | corruptAnswer line bytes => cases h; exact hreceive _ _
  | busFrameDiscarded line bytes => cases h; exact hreceive _ _
  | answerWindowExpiry line => cases h; exact (Any.windowExpires s line.val).safe.rest
  | pollIntervalExpiry slot => cases h; exact (Any.pollExpires s slot.val).safe.rest
  | waitingFrameJoin line => cases h; exact (Any.waitingJoins s line.val).safe.rest
  | claimTimeoutExpiry slot => cases h; exact (claimTimeout_safe s slot.val).rest
  | legDeadlineExpiry slot => cases h; exact (Inner.legDeadline s slot.val).any.safe.rest
  | heldUnitsExpiry slot => cases h; exact (heldExpires_safe s slot.val).rest
  | timeBaseAdvance => cases h; exact ⟨id, id, id⟩
  | _ => cases h; exact hrequest _ _

/-- Every step keeps the three invariants: the queue of commands is no part of them. -/
theorem step_safe (s t : State) (h : step s = .next t) : Safe s t := by
  unfold step at h
  split at h
  · cases h
    exact Safe.refl s
  · next c rest _ =>
    have hqueue : Safe s { s with pending := rest } := ⟨id, id, id⟩
    exact hqueue.trans (exec_safe c _ t h)

/-- Settles O4. -/
theorem stepKeepsLawful : Obligations.StepKeepsLawful := fun s t h hstep => (step_safe s t hstep).lawful h

/-- Settles O5. -/
theorem stepKeepsCapacities : Obligations.StepKeepsCapacities := fun s t h hstep => (step_safe s t hstep).within h

/-- Settles O6: a STOP_ASSERTED makes the invariant hold, and every other command keeps it. -/
theorem stepKeepsStopped : Obligations.StepKeepsStopped := fun s t h hstep => (step_safe s t hstep).stopped h

/-! ## The queue of commands and the answer of every command -/

/-- Every command is answered with a next state. -/
theorem exec_next (c : Instr) (s : State) : ∃ t, exec c s = .next t := by
  cases c <;> exact ⟨_, rfl⟩

/-- Settles O1: step is defined by the queue's front, and every arm of exec answers a next state. -/
theorem stepRunsFront : Obligations.StepRunsFront := by
  refine ⟨fun s c rest hp => ?front, exec_next, fun s hp => ?idle⟩
  case front => unfold step; rw [hp]
  case idle => unfold step; rw [hp]

/-! ## Stop raised -/

/-- A stop event keeps the output queue's frames, the clock, the pins, the settings, the budget, and every line's state
and failure run; and it takes no control frame. -/
theorem stopEvent_inner (s : State) (source : StopSource) :
    Inner ({ s with stopOrders := s.stopOrders.tail } : State) (s.stopEvent source) :=
  (Inner.raise _ _).trans (Inner.stopBlocks _ _)

/-- Settles O9. -/
theorem stopRaised : Obligations.StopRaised := by
  refine ⟨⟨fun s hstop => ?asserted, fun s hstop => ?unchanged⟩, fun s tag hready => ?request⟩
  case asserted =>
    have hevent := Any.stopEvent (s.setStop true) .line
    have hrest := Any.rest ((s.setStop true).stopEvent .line)
    have hempty := (hrest.stopped fun _ => stopEvent_empties rfl .line) (by rw [hrest.pins, hevent.pins]; rfl)
    refine ⟨((s.setStop true).stopEvent .line).rest, ?_, ?_, hempty.1, hempty.2, ?_, ?_, rfl⟩
    · show Host.Outcome.next (if s.pins.stop then s else _) = _
      rw [hstop]
      rfl
    · rw [hrest.pins, hevent.pins]; rfl
    · exact (hevent.trans hrest).output
    · exact (hevent.trans hrest).now
  case unchanged =>
    show Host.Outcome.next (if s.pins.stop then s else _) = _
    rw [hstop]
    rfl
  case request =>
    obtain ⟨_, hroom, _, _, hcontrol, _⟩ := ready_spec hready
    have hevent := stopEvent_inner (s.answered tag 0x50 .ok []) .request
    have hrest := Kept.settle (Config.settleFuel - 1) ((s.answered tag 0x50 .ok []).stopEvent .request)
      (by rw [hevent.control, answered_eq]; exact (enter_control _ _).trans hcontrol)
    have hall := hevent.kept.trans hrest
    refine ⟨_, ?_, hall.output, ?_, ?_, ?_, ?_, rfl, fun l => ⟨?_, ?_⟩⟩
    · show Host.Outcome.next (s.sendRequest tag .stop) = _
      rw [sendRequest_control hready tag rfl (by decide)]
      show Host.Outcome.next (State.settle _ ((s.reply tag .stop .ok []).stopEvent .request)) = _
      rw [reply_answered hroom]
      rfl
    · rw [hall.pins, answered_eq]
    · rw [hall.now, answered_eq]
    · rw [hall.settings, answered_eq]
    · rw [hall.budget, answered_eq]
    · rw [hall.lineState, answered_eq]; rfl
    · rw [hall.failureRun, answered_eq]; rfl

end Sys2Proof.Machine
end

