-- ==== Sys2Proof/Proofs/Settling.lean ====
section
/-! PROOFS. Running to rest, event by event (log 1, log 29): one equation for an event handed on, one for a grant, one
for a block at rest; and the request commands, the pins and the clock at rest. -/

namespace Sys2Proof.Machine

/-! ## Running to rest -/

/-- The event handed on first is taken first. -/
theorem settle_handed {s : State} {e : Handed} {rest : List Handed} (h : s.handed = e :: rest) (k : Nat) :
    s.settle (k + 1) = (({ s with handed := rest } : State).takeHanded e).settle k := by
  rw [State.settle, h]

/-- With nothing handed on the next grant is carried out. -/
theorem settle_grant {s : State} {g : Grant} (h : s.handed = []) (hg : s.nextGrant = some g) (k : Nat) :
    s.settle (k + 1) = (s.carryOut g).settle k := by
  rw [State.settle, h]
  dsimp only
  rw [hg]

/-- With nothing handed on and no grant a block is at rest. -/
theorem quiet_of_nextGrant {s : State} (h : s.handed = []) (hg : s.nextGrant = none) : s.quiet = true := by
  simp [State.quiet, h, hg]

theorem quiet_handed {s : State} (h : s.quiet = true) : s.handed = [] := by
  simp only [State.quiet, Bool.and_eq_true, List.isEmpty_iff] at h
  exact h.1

theorem quiet_nextGrant {s : State} (h : s.quiet = true) : s.nextGrant = none := by
  simp only [State.quiet, Bool.and_eq_true, Option.isNone_iff_eq_none] at h
  exact h.2

theorem ready_quiet {s : State} (h : s.ready = true) : s.quiet = true := by
  simp only [State.ready, Bool.and_eq_true] at h
  exact h.1

theorem ready_handed {s : State} (h : s.ready = true) : s.handed = [] := quiet_handed (ready_quiet h)

theorem ready_room {s : State} (h : s.ready = true) : s.outputRoom = true := by
  simp only [State.ready, Bool.and_eq_true] at h
  exact h.2

/-- A state with the link of a quiet one and nothing handed on is quiet. -/
theorem quiet_of_link {s t : State} (h : s.quiet = true) (hl : t.link = s.link) (hh : t.handed = []) :
    t.quiet = true := by
  rw [quiet_congr hl (by rw [hh, quiet_handed h]), h]

/-- An event handed on by a block that had handed on none is the next one taken. -/
theorem settle_hand {s : State} (h : s.handed = []) (e : Handed) (k : Nat) :
    (s.hand e).settle (k + 1) = (s.takeHanded e).settle k := by
  have hrest : ({ s.hand e with handed := [] } : State) = s := by rw [← h]; rfl
  rw [settle_handed (e := e) (rest := []) (by simp [h]), hrest]

/-- An event handed on whose taking leaves the block at rest is all that follows. -/
theorem settle_hand_quiet {s : State} (h : s.handed = []) (e : Handed) (hq : (s.takeHanded e).quiet = true) (k : Nat) :
    (s.hand e).settle (k + 1) = s.takeHanded e := by
  rw [settle_hand h, settle_quiet _ _ hq]

theorem rest_hand_quiet {s : State} (h : s.handed = []) (e : Handed) (hq : (s.takeHanded e).quiet = true) :
    (s.hand e).rest = s.takeHanded e := settle_hand_quiet h e hq 99999

/-- A grant that leaves the block at rest is all that follows. -/
theorem rest_grant_quiet {s : State} {g : Grant} (h : s.handed = []) (hg : s.nextGrant = some g)
    (hq : (s.carryOut g).quiet = true) : s.rest = s.carryOut g := by
  unfold State.rest
  rw [settleFuel_succ, settle_grant h hg, settle_quiet _ _ hq]

/-! ## Grants -/

theorem planFront_iff {s : State} {more : Bool} {f : LinkFrame} {rest : List LinkFrame} :
    s.planFront more = some (f, rest) ↔ s.planMoves = true ∧ s.link.plan = f :: rest ∧ f.more = more := by
  refine ⟨planFront_spec, fun ⟨hm, hp, hf⟩ => ?_⟩
  unfold State.planFront
  rw [if_pos hm, hp]
  exact if_pos hf

/-- No plan frame is to move where the channel may move none or has none. -/
theorem planFront_none {s : State} (h : s.planMoves = true → s.link.plan = []) (more : Bool) :
    s.planFront more = none := by
  unfold State.planFront
  split
  · next hm => rw [h hm]
  · rfl

/-- With no plan frame to move before it, a free place goes by R194's order. -/
theorem nextGrant_of_room {s : State} (h : s.planFront true = none) (hr : s.outputRoom = true) :
    s.nextGrant = s.placeGranted := by
  unfold State.nextGrant
  rw [h]
  exact if_pos hr

theorem placeGranted_waiting {s : State} {f : OutFrame} (h : s.link.waitingAnswer = some f) :
    s.placeGranted = some (.waitingAnswer f) := by
  unfold State.placeGranted
  rw [h]

theorem placeGranted_notice {s : State} (h : s.link.waitingAnswer = none) (hn : s.link.notices ≠ []) :
    s.placeGranted = some .notice := by
  obtain ⟨n, ns, e⟩ := List.exists_cons_of_ne_nil hn
  unfold State.placeGranted
  rw [h, e]

theorem placeGranted_control {s : State} {f : LinkFrame} {rest : List LinkFrame} (h : s.link.waitingAnswer = none)
    (hn : s.link.notices = []) (hc : s.link.control = f :: rest) : s.placeGranted = some (.control f rest) := by
  unfold State.placeGranted
  rw [h, hn, hc]

theorem placeGranted_plan {s : State} (h : s.link.waitingAnswer = none) (hn : s.link.notices = [])
    (hc : s.link.control = []) :
    s.placeGranted = (s.planFront false).map fun p => .plan p.1 p.2 := by
  unfold State.placeGranted
  rw [h, hn, hc]
  cases s.planFront false <;> rfl

theorem carryOut_notice {s : State} {n : Notice} {rest : List Notice} (h : s.link.notices = n :: rest) :
    s.carryOut .notice =
      ({ s with link := { s.link with notices := rest } } : State).enterOutput (noticeFrame s.linesDown n.summary) := by
  show s.enterNotice = _
  unfold State.enterNotice
  rw [h]
  rfl

/-- A ninth frame halts the plan channel (R197). -/
theorem moveFrame_ninth {s : State} (h : Config.assemblyCapacity ≤ s.link.assembly.length) (f : LinkFrame)
    (rest : List LinkFrame) :
    s.moveFrame f rest = ({ s with link := { s.link with plan := rest } } : State).haltPlan .tooLong := by
  unfold State.moveFrame
  exact if_pos h

/-- A frame with "more" joins the assembly (R197). -/
theorem moveFrame_more {s : State} (h : s.link.assembly.length < Config.assemblyCapacity) {f : LinkFrame}
    (hm : f.more = true) (rest : List LinkFrame) :
    s.moveFrame f rest = { s with link := { s.link with plan := rest, assembly := s.link.assembly ++ [f] } } := by
  unfold State.moveFrame
  dsimp only
  rw [if_neg (Nat.not_le.2 h), if_pos hm]
  rfl

/-- A frame without "more" completes the assembly, which is taken with its first frame's tag and code (R197, R198). -/
theorem moveFrame_last {s : State} (h : s.link.assembly.length < Config.assemblyCapacity) {f : LinkFrame}
    (hm : f.more = false) (rest : List LinkFrame) {front : LinkFrame} {back : List LinkFrame}
    (hfs : s.link.assembly ++ [f] = front :: back) :
    s.moveFrame f rest =
      ({ s with link := { s.link with plan := rest, assembly := [] } } : State).takeFrame .plan false front.tag
        front.code ((front :: back).map LinkFrame.payload).flatten := by
  unfold State.moveFrame
  dsimp only
  rw [if_neg (Nat.not_le.2 h), if_neg (by simp [hm]), hfs]
  rfl

/-! ## Requests at rest -/

/-- A request command is the arrival of its frames (log 2). -/
theorem exec_command (s : State) (tag : Byte) (q : Request) : exec (q.command tag) s = .next (s.sendRequest tag q) := by
  cases q <;> rfl

/-- A control request fits one frame. -/
theorem control_payload_length {q : Request} (h : q.channel = .control) : q.payload.length ≤ 256 := by
  cases q with
  | assignList es => exact absurd h (show Channel.plan ≠ Channel.control by decide)
  | measureList es => exact absurd h (show Channel.plan ≠ Channel.control by decide)
  | _ => simp [Request.payload, bw, b4, WireBox.bytes]

/-- A request sent to a block at rest is taken at once. -/
theorem exec_command_taken {s : State} (tag : Byte) {q : Request} (hc : q.channel = .control → s.ready = true)
    (hp : q.channel = .plan → s.planReady = true ∧ q.payload.length ≤ 2048) :
    exec (q.command tag) s = .next ((s.take tag q).settle (Config.settleFuel - 1)) := by
  rw [exec_command]
  cases hq : q.channel with
  | control => rw [sendRequest_control (hc hq) tag hq (control_payload_length hq)]
  | plan => rw [sendRequest_plan (hp hq).1 tag hq (hp hq).2]

/-- A control request at rest. -/
theorem exec_control {s : State} (h : s.ready = true) (tag : Byte) (q : Request) (hq : q.channel = .control) :
    exec (q.command tag) s = .next ((s.take tag q).settle (Config.settleFuel - 1)) :=
  exec_command_taken tag (fun _ => h) fun hp => absurd (hq.symm.trans hp) (by decide)

/-- A plan request at rest. -/
theorem exec_plan {s : State} (h : s.planReady = true) (tag : Byte) (q : Request) (hq : q.channel = .plan)
    (hl : q.payload.length ≤ 2048) :
    exec (q.command tag) s = .next ((s.take tag q).settle (Config.settleFuel - 1)) :=
  exec_command_taken tag (fun hc => absurd (hq.symm.trans hc) (by decide)) fun _ => ⟨h, hl⟩

theorem planReady_ready {s : State} (h : s.planReady = true) : s.ready = true := by
  simp only [State.planReady, Bool.and_eq_true] at h
  exact h.1.1

theorem planReady_moves {s : State} (h : s.planReady = true) : s.planMoves = true := by
  simp only [State.planReady, Bool.and_eq_true] at h
  exact h.1.2

/-- A control request whose rule ends in an answer, on a state that differs in nothing the link's port looks at. -/
theorem settle_reply_of {s t : State} (h : s.ready = true) (hl : t.link = s.link) (hh : t.handed = s.handed) (k : Nat)
    (tag : Byte) (q : Request) (st : Status) (p : List Byte) :
    (t.reply tag q st p).settle k = t.answered tag q.code st p :=
  settle_reply (by rw [ready_congr hl hh, h]) k tag q st p

/-- Settles O2. -/
theorem requestTakenAtRest : Obligations.RequestTakenAtRest := by
  refine ⟨fun s tag q => exec_command_taken tag, fun s => ⟨rfl, rfl⟩, fun s k => ⟨fun e rest h => settle_handed h k,
    fun g hh hg => settle_grant hh hg k, fun hh hg => settle_quiet _ _ (quiet_of_nextGrant hh hg)⟩,
    fun s n l => ⟨rfl, rfl, rfl⟩, fun s => ⟨fun f => rfl, fun n rest h => carryOut_notice h, fun f rest => rfl,
    fun f rest => ⟨fun h => ?ninth, fun h hm => ?more, fun front back h hm hfs => ?last⟩⟩, fun s e => rfl⟩
  case ninth => exact moveFrame_ninth h f rest
  case more => exact moveFrame_more h hm rest
  case last => exact moveFrame_last h hm rest hfs

/-! ## Pins and the clock -/

theorem scan_empty {s : State} (h : s.gate.startQueue = []) : s.scan = s := by
  unfold State.scan
  rw [h]
  split <;> rfl

/-- An issue scan of an empty start queue changes nothing. -/
theorem rest_hand_scan {s : State} (h : s.quiet = true) (hq : s.gate.startQueue = []) : (s.hand .scan).rest = s := by
  have hscan : s.takeHanded .scan = s := scan_empty hq
  rw [rest_hand_quiet (quiet_handed h) .scan (by rw [hscan, h]), hscan]

theorem motion_iff (s : State) : s.motion = true ↔ 0 < s.gate.unitsInUse := by simp [State.motion]

/-- An issued entry's units are in use. -/
theorem issueEntry_unitsInUse {s : State} {e : StartEntry} {g : Leg} (h : (s.slot e.slot).leg = some g) :
    (s.issueEntry e).gate.unitsInUse = s.gate.unitsInUse + e.units := by
  unfold State.issueEntry
  rw [h]
  rfl

/-- Settles O11. -/
theorem pinsAndClock : Obligations.PinsAndClock := by
  refine ⟨⟨fun s hq hstop hempty => ?stopNegated, fun s hstop => ?stopStands⟩,
    ⟨fun s => rfl, fun s hq hinhibit hempty => ?inhibitNegated, fun s hinhibit => ?inhibitStands⟩,
    fun s => ⟨motion_iff s, fun e ⟨g, hg⟩ hu => ?issued, fun u hu => ?returned⟩, fun s => rfl⟩
  case stopNegated =>
    show Host.Outcome.next (if s.pins.stop then ((s.setStop false).hand .scan).rest else s) = _
    rw [if_pos hstop, rest_hand_scan (s := s.setStop false) (quiet_of_link hq rfl (quiet_handed hq)) hempty]
    rfl
  case stopStands =>
    show Host.Outcome.next (if s.pins.stop then ((s.setStop false).hand .scan).rest else s) = _
    rw [if_neg (by simp [hstop])]
  case inhibitNegated =>
    show Host.Outcome.next (if s.pins.inhibit then ((s.setInhibit false).hand .scan).rest else s) = _
    rw [if_pos hinhibit, rest_hand_scan (s := s.setInhibit false) (quiet_of_link hq rfl (quiet_handed hq)) hempty]
    rfl
  case inhibitStands =>
    show Host.Outcome.next (if s.pins.inhibit then ((s.setInhibit false).hand .scan).rest else s) = _
    rw [if_neg (by simp [hinhibit])]
  case issued =>
    rw [motion_iff, issueEntry_unitsInUse hg]
    omega
  case returned => simp [State.motion, hu]

/-! ## Pin reset -/

/-- A pin reset leaves nothing handed on and nothing to grant. -/
theorem pinReset_quiet (s : State) (segment : Fin 32) (hold stop inhibit : Bool) :
    (s.pinReset segment hold stop inhibit).quiet = true := quiet_of rfl rfl rfl rfl fun _ => rfl

/-- No line is DOWN where none has that state. -/
theorem linesDown_none {s : State} (h : ∀ l, (s.line l).state ≠ .down) : s.linesDown = 0 := by
  have hfold (ls : List Nat) :
      ls.foldl (fun b l => if (s.line l).state = .down then b ||| (1#8 <<< l) else b) 0 = 0 := by
    induction ls with
    | nil => rfl
    | cons l ls ih => rw [List.foldl_cons, if_neg (h l), ih]
  exact hfold lineNumbers

theorem pinReset_line_not_down (s : State) (segment : Fin 32) (hold stop inhibit : Bool) (l : Nat) :
    ((s.pinReset segment hold stop inhibit).line l).state ≠ .down := by
  unfold State.line State.pinReset resetLineState
  by_cases h : l < 8 <;> cases hold <;> simp [h, LineRec.fresh]

/-- The one notice of an otherwise resting block with an empty output queue enters it, and nothing follows. -/
theorem rest_of_notice {s : State} (hh : s.handed = []) (hw : s.link.waitingAnswer = none) {n : Notice}
    (hn : s.link.notices = [n]) (hc : s.link.control = []) (hp : s.planMoves = true → s.link.plan = [])
    (hr : s.outputRoom = true) :
    s.rest = ({ s with link := { s.link with notices := [] } } : State).enterOutput
      (noticeFrame s.linesDown n.summary) := by
  have hgrant : s.nextGrant = some .notice := by
    rw [nextGrant_of_room (planFront_none hp true) hr, placeGranted_notice hw (by rw [hn]; simp)]
  have hquiet : (s.carryOut .notice).quiet = true := by
    rw [carryOut_notice hn, enterOutput_eq]
    refine quiet_of hh ?_ ?_ ?_ fun hm => ?_
    · exact (enter_waitingAnswer _ _).trans hw
    · exact enter_notices _ _
    · exact (enter_control _ _).trans hc
    · refine (enter_plan _ _).trans (hp ?_)
      simpa [State.planMoves] using hm
  rw [rest_grant_quiet hh hgrant hquiet, carryOut_notice hn]

/-- Settles O7. -/
theorem pinResetRecords : Obligations.PinResetRecords := by
  intro s segment hold inhibit
  refine ⟨fun stop => rfl, ?negated, ?asserted⟩
  case negated => exact congrArg Host.Outcome.next (rest_quiet _ (pinReset_quiet _ _ _ _ _))
  case asserted =>
    refine congrArg Host.Outcome.next ?_
    show ((s.pinReset segment hold true inhibit).raise (.stopTaken 1 1)).rest = _
    have hraise : (s.pinReset segment hold true inhibit).raise (.stopTaken 1 1) =
        { s.pinReset segment hold true inhibit with
          link := { Link.fresh with notices := [{ since := 0, summary := .stopTaken 1 1 }] } } := by
      unfold State.raise
      exact if_pos (show (255#8).getLsbD 5 = true by decide)
    have hdown : ((s.pinReset segment hold true inhibit).raise (.stopTaken 1 1)).linesDown = 0 := by
      rw [hraise]
      exact linesDown_none (pinReset_line_not_down s segment hold true inhibit)
    rw [hraise] at hdown ⊢
    rw [rest_of_notice rfl rfl (n := { since := 0, summary := .stopTaken 1 1 }) rfl rfl (fun _ => rfl) rfl, hdown]
    rfl

end Sys2Proof.Machine
end

