-- ==== Sys2Proof/Proofs/LinkFrames.lean ====
section
/-! PROOFS. Link frames as bytes (R191, R213): the receiver reads back what the layout writes, and the bytes of a
request's frame are its command (R192, R193, R198). -/

namespace Sys2Proof.Machine

/-! ## Reading a frame back -/

/-- A length below 65536 is read back from its two bytes. -/
theorem word_b2 {n : Nat} (h : n < 65536) :
    (word (BitVec.ofNat 8 (n / 256)) (BitVec.ofNat 8 n)).toNat = n := by
  simp only [word, BitVec.toNat_append, BitVec.toNat_ofNat]
  rw [Nat.shiftLeft_eq, ← Nat.shiftLeft_eq, ← Nat.shiftLeft_add_eq_or_of_lt (by omega), Nat.shiftLeft_eq]
  omega

/-- A sync pair followed by a frame is read as that frame. -/
theorem receive_sync (after : List Byte) : receive (0xC3 :: 0x3C :: after) = receiveFrame after := by
  unfold receive
  exact if_pos ⟨rfl, rfl⟩

/-- The header of a frame with its payload and what follows, as the receiver takes it apart. -/
theorem body_append (f : LinkFrame) (segment : Byte) (rest : List Byte) :
    f.body segment ++ rest =
      segment :: f.flags :: f.tag :: f.code :: BitVec.ofNat 8 (f.payload.length / 256) ::
        BitVec.ofNat 8 f.payload.length :: (f.payload ++ rest) := by
  simp [LinkFrame.body, b2]

theorem body_length (f : LinkFrame) (segment : Byte) : (f.body segment).length = f.payload.length + 6 := by
  simp [LinkFrame.body, b2]

theorem bytes_length (f : LinkFrame) (segment : Byte) : (f.bytes segment).length = f.payload.length + 10 := by
  simp [LinkFrame.bytes, body_length, bw]

/-- The flags byte is read back: bit 0 the channel, bit 1 "more". -/
theorem flags_read (f : LinkFrame) :
    (if f.flags.getLsbD 0 then Channel.plan else Channel.control) = f.channel ∧ f.flags.getLsbD 1 = f.more := by
  unfold LinkFrame.flags
  cases f.channel <;> cases f.more <;> decide

/-- The receiver on a whole frame with the check value given: a length above 256 or a wrong check value makes it bad
(R191). -/
theorem receiveFrame_body (f : LinkFrame) (segment : Byte) (c : Word) (rest : List Byte)
    (h : f.payload.length < 65536) :
    receiveFrame (f.body segment ++ bw c ++ rest) =
      if 256 < f.payload.length then .bad (0x3C :: (f.body segment ++ bw c ++ rest))
      else if crc16 (f.body segment) = c then .good segment f rest
      else .bad (0x3C :: (f.body segment ++ bw c ++ rest)) := by
  have hbody : f.body segment = segment :: f.flags :: f.tag :: f.code :: BitVec.ofNat 8 (f.payload.length / 256) ::
      BitVec.ofNat 8 f.payload.length :: f.payload := by simpa using body_append f segment []
  have hbytes := body_append f segment (bw c ++ rest)
  rw [← List.append_assoc] at hbytes
  rw [hbytes]
  unfold receiveFrame
  dsimp only
  rw [word_b2 h, if_neg (by simp [bw]), List.take_left, ← hbody]
  refine ite_congr_iff Iff.rfl rfl ?_
  have hrest : (f.payload ++ (bw c ++ rest)).drop (f.payload.length + 2) = rest := by
    rw [← List.drop_drop, List.drop_left]
    rfl
  rw [hrest, (flags_read f).1, (flags_read f).2]
  rw [List.drop_left]
  exact ite_congr_iff (iff_of_eq (congrArg (crc16 (f.body segment) = ·) (word_bw c))) rfl rfl

/-- A frame of which bytes are still to come is held. -/
theorem receiveFrame_part (f : LinkFrame) (segment : Byte) (c : Word) (k : Nat) (h : f.payload.length < 65536)
    (hk : k < f.payload.length + 8) :
    receiveFrame ((f.body segment ++ bw c).take k) = .wait (0xC3 :: 0x3C :: (f.body segment ++ bw c).take k) := by
  rw [body_append]
  match k, hk with
  | 0, _ | 1, _ | 2, _ | 3, _ | 4, _ | 5, _ => rfl
  | k + 6, hk =>
    simp only [List.take_succ_cons]
    unfold receiveFrame
    dsimp only
    rw [word_b2 h, if_pos]
    simp only [List.length_take, List.length_append, bw, List.length_cons, List.length_nil]
    omega

/-- The first bytes of a frame, any number of them that is not all, are held. -/
theorem receive_part (f : LinkFrame) (segment : Byte) (k : Nat) (h : f.payload.length < 65536)
    (hk : k < (f.bytes segment).length) : receive ((f.bytes segment).take k) = .wait ((f.bytes segment).take k) := by
  rw [bytes_length] at hk
  match k, hk with
  | 0, _ | 1, _ => rfl
  | k + 2, hk =>
    show receive (0xC3 :: 0x3C :: _) = _
    rw [receive_sync]
    exact receiveFrame_part f segment _ k h (by omega)

/-- A good frame is read back with its segment byte and what follows it. -/
theorem receive_bytes (f : LinkFrame) (segment : Byte) (rest : List Byte) (h : f.payload.length ≤ 256) :
    receive (f.bytes segment ++ rest) = .good segment f rest := by
  show receive (0xC3 :: 0x3C :: (f.body segment ++ bw (crc16 (f.body segment)) ++ rest)) = _
  rw [receive_sync, receiveFrame_body f segment _ rest (by omega), if_neg (by omega), if_pos rfl]

/-- One byte into the check value is eight bit steps. -/
theorem crc16Byte_eq_repeat (c : Word) (b : Byte) :
    crc16Byte c b = Nat.repeat crc16Bit 8 (c ^^^ (b.zeroExtend 16 <<< 8)) := rfl

theorem crc16Bit_eq (c : Word) : crc16Bit c = if c.getLsbD 15 = true then (c <<< 1) ^^^ 0x1021#16 else c <<< 1 := by
  unfold crc16Bit
  rw [BitVec.msb_eq_getLsbD_last]

/-- Settles O15. -/
theorem linkFrameReadBack : Obligations.LinkFrameReadBack := by
  refine ⟨fun f segment rest => ⟨receive_bytes f segment rest, fun c h hc => ?check, fun h hlt => ?long,
    fun k h hk => receive_part f segment k h hk⟩, fun f segment => ⟨rfl, rfl⟩, rfl, fun bytes b => ?crc⟩
  case check => rw [receive_sync, receiveFrame_body f segment c rest (by omega), if_neg (by omega), if_neg (Ne.symm hc)]
  case long =>
    show receive (0xC3 :: 0x3C :: (f.body segment ++ bw (crc16 (f.body segment)) ++ rest)) = _
    rw [receive_sync, receiveFrame_body f segment _ rest hlt, if_pos h]
    rfl
  case crc =>
    dsimp only
    rw [← funext crc16Bit_eq, ← crc16Byte_eq_repeat]
    simp [crc16]

/-! ## A request's frame is its command -/

/-- The receiver finds nothing in no bytes and keeps none. -/
theorem receiveAll_nil (k : Nat) {s : State} (h : s.link.rx = []) : receiveAll k s [] = s := by
  have hsame : (s.modLink fun l => { l with rx := [] }) = s := by
    show ({ s with link := { s.link with rx := [] } } : State) = s
    rw [← h]
  cases k with
  | zero => exact hsame
  | succ k => exact hsame

/-- The bytes of one good frame, none held before, are that frame's arrival. -/
theorem bytesArrive_frame {s : State} (h : s.link.rx = []) (f : LinkFrame) (segment : Byte)
    (hl : f.payload.length ≤ 256) : s.bytesArrive (f.bytes segment) = s.goodFrame segment f := by
  have hread := receive_bytes f segment [] hl
  rw [List.append_nil] at hread
  unfold State.bytesArrive
  rw [h, List.nil_append]
  unfold receiveAll
  rw [hread]
  exact receiveAll_nil _ ((Any.goodFrame s segment f).rx.trans h)

/-- A request of one frame is that frame's arrival (log 2). -/
theorem sendRequest_one (s : State) (tag : Byte) {q : Request} (h : q.payload.length ≤ 256) :
    s.sendRequest tag q = s.goodFrame s.segmentByte
      { channel := q.channel, more := false, tag := tag, code := q.code, payload := q.payload } := by
  have hone : framePayloads q.payload.length q.payload = [q.payload] := by
    cases q.payload.length with
    | zero => rfl
    | succ k => unfold framePayloads; exact if_pos h
  unfold State.sendRequest
  rw [hone]
  rfl

theorem forThisSegment_iff (s : State) (segment : Byte) :
    s.forThisSegment segment = true ↔ segment = BitVec.ofNat 8 s.pins.segment.val ∨ segment = 255 := by
  simp [State.forThisSegment, State.segmentByte]

/-- Every segment byte that names this controller has the same effect (R192). -/
theorem goodFrame_congr {s : State} {seg seg' : Byte} (h : s.forThisSegment seg = true)
    (h' : s.forThisSegment seg' = true) (f : LinkFrame) : s.goodFrame seg f = s.goodFrame seg' f := by
  unfold State.goodFrame State.frameArrives
  rw [if_pos h, if_pos h']

/-- The bits of two bytes side by side. -/
theorem getLsbD_word (hi lo : Byte) (j : Nat) :
    (word hi lo).getLsbD j = if j < 8 then lo.getLsbD j else hi.getLsbD (j - 8) := by
  unfold word
  rw [BitVec.getLsbD_append]

/-- A byte of a word is the byte whose bits stand there. -/
theorem extractByte_eq {w : Nat} (v : BitVec w) (k : Nat) (b : Byte)
    (h : ∀ i, i < 8 → v.getLsbD (k + i) = b.getLsbD i) : v.extractLsb' k 8 = b := by
  apply BitVec.eq_of_getLsbD_eq
  intro i hi
  simp [hi, h i hi]

/-- Two bytes received are the bytes of their word. -/
theorem bw_word (hi lo : Byte) : bw (word hi lo) = [hi, lo] := by
  rw [bw, extractByte_eq _ 8 hi, extractByte_eq _ 0 lo]
  all_goals
    intro i hi
    rw [getLsbD_word]
    grind

/-- Four bytes received are the bytes of their serial. -/
theorem b4_serial4 (d0 d1 d2 d3 : Byte) : b4 (serial4 d0 d1 d2 d3) = [d0, d1, d2, d3] := by
  have hget (j : Nat) : (serial4 d0 d1 d2 d3).getLsbD j =
      if j < 16 then (word d2 d3).getLsbD j else (word d0 d1).getLsbD (j - 16) := by
    unfold serial4 word
    rw [BitVec.getLsbD_append]
  rw [b4, extractByte_eq _ 24 d0, extractByte_eq _ 16 d1, extractByte_eq _ 8 d2, extractByte_eq _ 0 d3]
  all_goals
    intro i hi
    rw [hget, getLsbD_word, getLsbD_word]
    grind

theorem assignEntries_eq_some {payload : List Byte} {es : List AssignEntry} (h : assignEntries payload = some es) :
    (es.map AssignEntry.bytes).flatten = payload := by
  induction payload using assignEntries.induct generalizing es with
  | case1 => cases h; rfl
  | case2 sl c t1 t0 a1 a0 z1 z0 rest ih =>
    rw [assignEntries] at h
    obtain ⟨fs, hf, rfl⟩ := Option.map_eq_some_iff.1 h
    simp [AssignEntry.bytes, bw_word, ih hf]
  | case3 payload hnil hcons => rw [assignEntries] at h <;> simp_all

theorem measureEntries_eq_some {payload : List Byte} {es : List MeasureEntry}
    (h : measureEntries payload = some es) : (es.map MeasureEntry.bytes).flatten = payload := by
  induction payload using measureEntries.induct generalizing es with
  | case1 => cases h; rfl
  | case2 sl a1 a0 z1 z0 rest ih =>
    rw [measureEntries] at h
    obtain ⟨fs, hf, rfl⟩ := Option.map_eq_some_iff.1 h
    simp [MeasureEntry.bytes, bw_word, ih hf]
  | case3 payload hnil hcons => rw [measureEntries] at h <;> simp_all

/-- What a code and a payload are read as has that code and payload. -/
theorem read_eq_some {code : Byte} {payload : List Byte} {q : Request} (h : Request.read code payload = some q) :
    q.code = code ∧ q.payload = payload := by
  have hcode {r : Request} (e : code.toNat = r.code.toNat) : r.code = code := (BitVec.eq_of_toNat_eq e).symm
  unfold Request.read at h
  split at h <;> rename_i hc
  case h_4 =>
    obtain ⟨es, he, rfl⟩ := Option.map_eq_some_iff.1 h
    exact ⟨hcode hc, assignEntries_eq_some he⟩
  case h_12 =>
    obtain ⟨es, he, rfl⟩ := Option.map_eq_some_iff.1 h
    exact ⟨hcode hc, measureEntries_eq_some he⟩
  case h_31 => cases h
  all_goals
    split at h
    · cases h
      exact ⟨hcode hc, by simp [Request.payload, WireBox.bytes, bw_word, b4_serial4]⟩
    · cases h

/-- The request a frame is taken as: the one with its code, payload and channel, a control frame without "more"
(R193). -/
theorem taken_iff {channel : Channel} {more : Bool} {code : Byte} {payload : List Byte} {q : Request} :
    Request.taken channel more code payload = some q ↔
      q.code = code ∧ q.payload = payload ∧ q.channel = channel ∧ (channel = .control → more = false) := by
  constructor
  · intro h
    unfold Request.taken at h
    split at h
    · next r hr =>
      split at h
      · next hc =>
        cases h
        exact ⟨(read_eq_some hr).1, (read_eq_some hr).2, hc⟩
      · cases h
    · cases h
  · rintro ⟨rfl, rfl, rfl, hm⟩
    exact taken_payload q more hm

/-- Settles O16. -/
theorem linkFrameIsCommand : Obligations.LinkFrameIsCommand := by
  refine ⟨fun s tag q segment hrx hl hseg => ?command, fun sl ln dr g a b c e es ms x y => ?catalogue,
    fun s channel more tag code payload => ⟨fun q hq => ?taken, fun hnone => ?refused⟩⟩
  case command =>
    rw [exec_command, sendRequest_one s tag hl]
    show Host.Outcome.next (s.bytesArrive _) = _
    rw [bytesArrive_frame hrx _ segment hl,
      goodFrame_congr ((forThisSegment_iff s segment).2 hseg) (forThisSegment_own s)]
  case catalogue =>
    refine ⟨rfl, ?plan, rfl, ?control, rfl, rfl, rfl⟩
    all_goals
      simp only [List.forall_mem_cons, List.not_mem_nil, false_imp_iff, implies_true, and_true]
      and_intros <;> rfl
  case taken =>
    unfold State.takeFrame
    rw [taken_iff.2 hq]
  case refused =>
    have hnot : Request.taken channel more code payload = none := by
      rw [Option.eq_none_iff_forall_ne_some]
      exact fun q hq => hnone q (taken_iff.1 hq)
    unfold State.takeFrame
    rw [hnot]

end Sys2Proof.Machine
end

