-- ==== Sys2Proof/Proofs/LinkPort.lean ====
section
/-! PROOFS. The Segment Link Port (R192 to R201, R209, R210): arrival and halts, the order of grants, the output queue's
moves, and the merging of notices. -/

namespace Sys2Proof.Machine

/-! ## Arrival -/

theorem outputRoom_iff (s : State) : s.outputRoom = true ↔ s.link.output.length < 16 :=
  decide_eq_true_iff

theorem frameArrives_other {s : State} {segment : Byte} (h : segment ≠ BitVec.ofNat 8 s.pins.segment.val)
    (h' : segment ≠ 255) (f : LinkFrame) : s.frameArrives segment f = s.answerArrival f .wrongSegment [] := by
  unfold State.frameArrives
  rw [if_neg]
  rw [forThisSegment_iff]
  exact fun hor => hor.elim h h'

theorem frameArrives_own {s : State} {segment : Byte} (h : segment = BitVec.ofNat 8 s.pins.segment.val ∨ segment = 255)
    (f : LinkFrame) :
    s.frameArrives segment f = match f.channel with
      | .control => s.controlArrives f
      | .plan => s.planArrives f := by
  unfold State.frameArrives
  exact if_pos ((forThisSegment_iff s segment).2 h)

/-- An answer formed at arrival that finds a place (R195). -/
theorem answerArrival_room {s : State} (h : s.link.output.length < 16) (f : LinkFrame) (st : Status)
    (p : List Byte) : s.answerArrival f st p = s.answered f.tag f.code st p := by
  unfold State.answerArrival
  exact if_pos ((outputRoom_iff s).2 h)

/-- An answer formed at arrival that finds none is not formed, with LINK_ERROR (R195). -/
theorem answerArrival_full {s : State} (h : 16 ≤ s.link.output.length) (f : LinkFrame) (st : Status)
    (p : List Byte) : s.answerArrival f st p = s.raise (.linkError 1 2) := by
  unfold State.answerArrival
  exact if_neg (by rw [outputRoom_iff]; omega)

theorem haltPlan_open {s : State} (h : s.link.halt = none) (reason : HaltReason) :
    s.haltPlan reason =
      ({ s with link := { s.link with halt := some reason, assembly := [] } } : State).raise
        (.planHalted 1 reason) := by
  unfold State.haltPlan
  rw [h]
  rfl

theorem haltPlan_halted {s : State} {r : HaltReason} (h : s.link.halt = some r) (reason : HaltReason) :
    s.haltPlan reason = s := by
  unfold State.haltPlan
  rw [h]

theorem planArrives_halted {s : State} {r : HaltReason} (h : s.link.halt = some r) (f : LinkFrame) :
    s.planArrives f = s.answerArrival f .halted (b1 r.code) := by
  unfold State.planArrives
  rw [h]

theorem planArrives_open {s : State} (h : s.link.halt = none) (f : LinkFrame) :
    s.planArrives f = if s.link.plan.length < 32 then { s with link := { s.link with plan := s.link.plan ++ [f] } }
      else s.haltPlan .overflow := by
  unfold State.planArrives
  rw [h]
  rfl

/-- Settles O17. -/
theorem frameArrival : Obligations.FrameArrival := by
  refine ⟨fun s segment f => ⟨fun h h' hroom => ?answered, fun h h' hfull => ?full, fun h h' hready hrx hl => ?received,
    fun h hc => ?control, fun h hc hhalt => ?plan, fun r h hc hhalt => ?halted⟩,
    fun s reason => ⟨fun h => haltPlan_open h reason, fun r h => haltPlan_halted h reason⟩⟩
  case answered => rw [frameArrives_other h h', answerArrival_room hroom]
  case full => rw [frameArrives_other h h', answerArrival_full hfull]
  case received =>
    show Host.Outcome.next (s.bytesArrive _) = _
    rw [bytesArrive_frame hrx f segment hl]
    unfold State.goodFrame
    rw [frameArrives_other h h', answerArrival_room ((outputRoom_iff s).1 (ready_room hready))]
    exact congrArg _ (settle_answered hready _ _ _ _ _)
  case control => rw [frameArrives_own h, hc]; rfl
  case plan =>
    rw [frameArrives_own h, hc]
    dsimp only
    rw [planArrives_open hhalt, haltPlan_open hhalt]
  case halted =>
    rw [frameArrives_own h, hc]
    dsimp only
    rw [planArrives_halted hhalt]
    split
    · next hroom => exact answerArrival_room hroom _ _ _
    · next hfull => exact answerArrival_full (by omega) _ _ _

/-! ## The order of grants -/

theorem planMoves_iff (s : State) :
    s.planMoves = true ↔ s.link.halt = none ∧ s.link.current = none ∧ s.link.waitingAnswer = none := by
  simp [State.planMoves, and_assoc]

theorem planFront_of_waiting {s : State} {f : OutFrame} (h : s.link.waitingAnswer = some f) (more : Bool) :
    s.planFront more = none := by
  refine planFront_none (fun hm => ?_) more
  rw [planMoves_iff, h] at hm
  exact absurd hm.2.2 (by simp)

/-- A front frame is not one with the other "more" mark. -/
theorem planFront_other {s : State} {f : LinkFrame} {rest : List LinkFrame} {more : Bool}
    (hp : s.link.plan = f :: rest) (hm : f.more ≠ more) : s.planFront more = none := by
  rw [Option.eq_none_iff_forall_ne_some]
  rintro ⟨g, gs⟩ hg
  obtain ⟨-, hplan, hmore⟩ := planFront_spec hg
  rw [hp] at hplan
  cases hplan
  exact hm hmore

theorem nextGrant_waiting {s : State} {f : OutFrame} (h : s.link.waitingAnswer = some f) (hr : s.outputRoom = true) :
    s.nextGrant = some (.waitingAnswer f) := by
  rw [nextGrant_of_room (planFront_of_waiting h true) hr, placeGranted_waiting h]

theorem nextGrant_more {s : State} {f : LinkFrame} {rest : List LinkFrame} (hm : s.planMoves = true)
    (hp : s.link.plan = f :: rest) (hf : f.more = true) : s.nextGrant = some (.plan f rest) := by
  unfold State.nextGrant
  rw [planFront_iff.2 ⟨hm, hp, hf⟩]

theorem nextGrant_notice {s : State} (hw : s.link.waitingAnswer = none) (hf : s.planFront true = none)
    (hr : s.outputRoom = true) (hn : s.link.notices ≠ []) : s.nextGrant = some .notice := by
  rw [nextGrant_of_room hf hr, placeGranted_notice hw hn]

theorem nextGrant_control {s : State} (hw : s.link.waitingAnswer = none) (hf : s.planFront true = none)
    (hr : s.outputRoom = true) (hn : s.link.notices = []) {f : LinkFrame} {rest : List LinkFrame}
    (hc : s.link.control = f :: rest) : s.nextGrant = some (.control f rest) := by
  rw [nextGrant_of_room hf hr, placeGranted_control hw hn hc]

/-- A front plan frame that needs a place is granted it last. -/
theorem nextGrant_plan {s : State} (hw : s.link.waitingAnswer = none) (hf : s.planFront true = none)
    (hr : s.outputRoom = true) (hn : s.link.notices = []) (hc : s.link.control = []) (hm : s.planMoves = true)
    {f : LinkFrame} {rest : List LinkFrame} (hp : s.link.plan = f :: rest) : s.nextGrant = some (.plan f rest) := by
  have hmore : f.more = false := by
    cases hfm : f.more with
    | false => rfl
    | true => exact absurd hf (by rw [planFront_iff.2 ⟨hm, hp, hfm⟩]; simp)
  rw [nextGrant_of_room hf hr, placeGranted_plan hw hn hc, planFront_iff.2 ⟨hm, hp, hmore⟩]
  rfl

theorem nextGrant_full {s : State} (hr : s.outputRoom = false) (hf : s.planFront true = none) :
    s.nextGrant = none := by
  unfold State.nextGrant
  rw [hf]
  exact if_neg (by simp [hr])

/-- PLAN_FRAME_MOVE moves the plan frame whose turn it is. -/
theorem exec_planFrameMove {s : State} {f : LinkFrame} {rest : List LinkFrame}
    (h : s.nextGrant = some (.plan f rest)) : exec .planFrameMove s = .next (s.moveFrame f rest).rest := by
  show execPlanFrameMove s = _
  unfold execPlanFrameMove
  rw [h]

theorem exec_planFrameMove_idle {s : State} (h : ∀ f rest, s.nextGrant ≠ some (.plan f rest)) :
    exec .planFrameMove s = .next s := by
  show execPlanFrameMove s = _
  unfold execPlanFrameMove
  split
  · next hg => exact absurd hg (h _ _)
  all_goals rfl

/-- A plan frame is granted only where the channel may move its front frame. -/
theorem nextGrant_ne_plan {s : State} (h : s.planMoves = false ∨ s.link.plan = []) (f : LinkFrame)
    (rest : List LinkFrame) : s.nextGrant ≠ some (.plan f rest) := by
  intro hg
  obtain ⟨hm, hp⟩ : s.planMoves = true ∧ s.link.plan = f :: rest := nextGrant_spec hg
  rcases h with h | h
  · simp [h] at hm
  · simp [h] at hp

/-- Settles O18. -/
theorem planFrameMoves : Obligations.PlanFrameMoves := by
  refine ⟨fun s => ⟨fun f => nextGrant_waiting, fun f rest => nextGrant_more, fun hw hf hr =>
      ⟨nextGrant_notice hw hf hr, fun f rest hn hc => nextGrant_control hw hf hr hn hc,
        fun f rest hn hc hm hp => nextGrant_plan hw hf hr hn hc hm hp⟩, nextGrant_full⟩,
    ⟨fun s f hh hm hp hmore hr ha => ?more, fun s f hh hm hp hmore hr ha hmask => ?ninth,
      fun s f rest hm hp hmore => ⟨fun hr hn hc ha front back hfs => ?last, fun hwhy => ?later⟩,
      fun s h => exec_planFrameMove_idle (nextGrant_ne_plan h)⟩,
    fun s more f rest => ⟨planMoves_iff s, planFront_iff, outputRoom_iff s⟩⟩
  case more =>
    rw [exec_planFrameMove (nextGrant_more hm hp hmore), moveFrame_more ha hmore, rest_quiet]
    exact quiet_of_nextGrant hh (nextGrant_full hr (planFront_none (fun _ => rfl) true))
  case ninth =>
    have hopen := ((planMoves_iff s).1 hm).1
    rw [exec_planFrameMove (nextGrant_more hm hp hmore), moveFrame_ninth ha,
      haltPlan_open (s := { s with link := { s.link with plan := [] } }) hopen]
    unfold State.raise
    rw [if_neg (by simpa [Summary.kind] using hmask), rest_quiet]
    exact quiet_of_nextGrant hh (nextGrant_full hr (planFront_none (fun _ => rfl) true))
  case last =>
    have hw := ((planMoves_iff s).1 hm).2.2
    have hf := planFront_other (more := true) hp (by simp [hmore])
    rw [exec_planFrameMove (nextGrant_plan hw hf hr hn hc hm hp), moveFrame_last ha hmore rest hfs]
  case later =>
    have hw := ((planMoves_iff s).1 hm).2.2
    have hf := planFront_other (more := true) hp (by simp [hmore])
    refine exec_planFrameMove_idle fun g gs hg => ?_
    cases hr : s.outputRoom with
    | false => simp [nextGrant_full hr hf] at hg
    | true =>
      by_cases hn : s.link.notices = []
      · obtain ⟨c, cs, hc⟩ := List.exists_cons_of_ne_nil (hwhy.resolve_left (by simp [hr]) |>.resolve_left (by simp [hn]))
        simp [nextGrant_control hw hf hr hn hc] at hg
      · simp [nextGrant_notice hw hf hr hn] at hg

/-! ## The output queue -/

/-- The frames left behind a frame sent: the first of them begins to be sent with the plan free count given (R194). -/
def beginNext (free : Nat) : List OutFrame → List OutFrame
  | [] => []
  | r :: rs => r.beginSending free :: rs

/-- The front frame leaves, and the next begins to be sent. -/
theorem frontSent_eq {s : State} {f : OutFrame} {rest : List OutFrame} (h : s.link.output = f :: rest) :
    s.frontSent = { s with link := { s.link with output := beginNext s.planFree rest } } := by
  unfold State.frontSent
  rw [h]
  cases rest <;> rfl

/-- A state whose port waits for nothing, but for the channel that may then move no frame, is at rest after a frame has
entered its output queue. -/
theorem enterOutput_quiet {s : State} (hh : s.handed = []) (hw : s.link.waitingAnswer = none)
    (hn : s.link.notices = []) (hc : s.link.control = []) (hp : s.planMoves = true → s.link.plan = []) (f : OutFrame) :
    (s.enterOutput f).quiet = true := by
  rw [enterOutput_eq]
  refine quiet_of hh ?_ ?_ ?_ fun hm => ?_
  · exact (enter_waitingAnswer _ _).trans hw
  · exact (enter_notices _ _).trans hn
  · exact (enter_control _ _).trans hc
  · refine (enter_plan _ _).trans (hp ?_)
    simpa [State.planMoves] using hm

theorem exec_waitingAnswerEntry_idle {s : State} (h : ∀ f, s.nextGrant ≠ some (.waitingAnswer f)) :
    exec .waitingAnswerEntry s = .next s := by
  show execWaitingAnswerEntry s = _
  unfold execWaitingAnswerEntry
  split
  · next hg => exact absurd hg (h _)
  all_goals rfl

theorem exec_noticeEntry_idle {s : State} (h : s.nextGrant ≠ some .notice) : exec .noticeEntry s = .next s := by
  show execNoticeEntry s = _
  unfold execNoticeEntry
  split
  · next hg => exact absurd hg h
  all_goals rfl

/-- A notice is granted only where no plan frame with "more" and no waiting answer stands before it. -/
theorem nextGrant_notice_spec {s : State} (h : s.nextGrant = some .notice) :
    s.outputRoom = true ∧ s.link.notices ≠ [] ∧ s.link.waitingAnswer = none ∧ s.planFront true = none := by
  obtain ⟨hr, hn⟩ := nextGrant_spec h
  have hw : s.link.waitingAnswer = none := by
    cases hwait : s.link.waitingAnswer with
    | none => rfl
    | some f => simp [nextGrant_waiting hwait hr] at h
  refine ⟨hr, hn, hw, ?_⟩
  rw [Option.eq_none_iff_forall_ne_some]
  rintro ⟨f, rest⟩ hf
  obtain ⟨hm, hp, hmore⟩ := planFront_spec hf
  simp [nextGrant_more hm hp hmore] at h

/-- A set of lines gathered one by one holds the lines gathered and those it began with. -/
theorem getLsbD_gather (P : Nat → Prop) [DecidablePred P] (ls : List Nat) (b : Byte) (i : Nat) (hi : i < 8) :
    (ls.foldl (fun b l => if P l then b ||| (1#8 <<< l) else b) b).getLsbD i = true ↔
      b.getLsbD i = true ∨ (i ∈ ls ∧ P i) := by
  have hbit (l : Nat) : (1#8 <<< l).getLsbD i = true ↔ i = l := by
    rw [BitVec.getLsbD_shiftLeft, BitVec.getLsbD_one]
    simp only [hi, decide_true, Bool.true_and, Bool.and_eq_true, Bool.not_eq_eq_eq_not, Bool.not_true,
      decide_eq_false_iff_not, decide_eq_true_eq]
    omega
  induction ls generalizing b with
  | nil => simp
  | cons l ls ih =>
    rw [List.foldl_cons]
    refine (ih _).trans ?_
    split
    · next hl =>
      rw [BitVec.getLsbD_or, Bool.or_eq_true, hbit, List.mem_cons]
      constructor
      · rintro ((h | rfl) | h)
        · exact .inl h
        · exact .inr ⟨.inl rfl, hl⟩
        · exact .inr ⟨.inr h.1, h.2⟩
      · rintro (h | ⟨rfl | h, hP⟩)
        · exact .inl (.inl h)
        · exact .inl (.inr rfl)
        · exact .inr ⟨h, hP⟩
    · next hl =>
      rw [List.mem_cons]
      constructor
      · rintro (h | h)
        · exact .inl h
        · exact .inr ⟨.inr h.1, h.2⟩
      · rintro (h | ⟨rfl | h, hP⟩)
        · exact .inl h
        · exact absurd hP hl
        · exact .inr ⟨h, hP⟩

theorem linesDown_getLsbD (s : State) {l : Nat} (hl : l < 8) :
    s.linesDown.getLsbD l = true ↔ (s.line l).state = .down := by
  unfold State.linesDown
  rw [getLsbD_gather _ _ _ _ hl]
  simp [lineNumbers, hl]

/-- Settles O19. -/
theorem outputQueueMoves : Obligations.OutputQueueMoves := by
  refine ⟨⟨fun s f rest hq hw hn hc hp ho => ?sent, fun s f hh hw hr hn hc hp => ?answerEnters,
      fun s n hh hw hr hn hc hp => ?noticeEnters, fun s hq ho => ?sentIdle, fun s h => ?answerIdle, fun s h => ?noticeIdle⟩,
    fun s f g rest n hh hw hn hc hp ho hl => ?sentThenNotice, fun s => ⟨fun h => ?silent, fun f rest h => ?carries⟩,
    fun down e => ⟨rfl, ?batch, ?robot, ?zone, ?line, ?set, ?halt⟩, fun s f segment l => ⟨linesDown_getLsbD s, rfl⟩⟩
  case sent =>
    show Host.Outcome.next s.frontSent.rest = _
    have hh := quiet_handed hq
    rw [frontSent_eq ho, rest_quiet]
    · cases rest <;> rfl
    · exact quiet_of hh hw hn hc hp
  case answerEnters =>
    show execWaitingAnswerEntry s = _
    unfold execWaitingAnswerEntry
    rw [nextGrant_waiting hw hr]
    have hmoves (hm : ({ s with link := { s.link with waitingAnswer := none } } : State).planMoves = true) :
        s.link.plan = [] := by
      obtain ⟨hhalt, hcurrent, -⟩ := (planMoves_iff _).1 hm
      exact hp hhalt hcurrent
    have hquiet := enterOutput_quiet (s := { s with link := { s.link with waitingAnswer := none } }) hh rfl hn hc
      hmoves f
    exact congrArg Host.Outcome.next (rest_quiet _ hquiet)
  case noticeEnters =>
    show execNoticeEntry s = _
    unfold execNoticeEntry
    rw [nextGrant_notice hw (planFront_none hp true) hr (by simp [hn])]
    dsimp only
    rw [show s.enterNotice = _ from carryOut_notice hn]
    have hquiet := enterOutput_quiet (s := { s with link := { s.link with notices := [] } }) hh hw rfl hc hp
      (noticeFrame s.linesDown n.summary)
    exact congrArg Host.Outcome.next (rest_quiet _ hquiet)
  case sentIdle =>
    show Host.Outcome.next s.frontSent.rest = _
    unfold State.frontSent
    rw [ho]
    exact congrArg _ (rest_quiet s hq)
  case answerIdle =>
    refine exec_waitingAnswerEntry_idle fun f hg => ?_
    obtain ⟨hr, hw⟩ := nextGrant_spec hg
    rcases h with h | h
    · simp [h] at hr
    · simp [h] at hw
  case noticeIdle =>
    refine exec_noticeEntry_idle fun hg => ?_
    obtain ⟨hr, hn, hw, hf⟩ := nextGrant_notice_spec hg
    rcases h with h | h | h | h
    · simp [h] at hr
    · exact hn h
    · exact h hw
    · exact h hf
  case sentThenNotice =>
    show Host.Outcome.next s.frontSent.rest = _
    rw [frontSent_eq ho]
    have hlt : (beginNext s.planFree (g :: rest)).length < 16 := by
      show (_ :: rest).length < 16
      rw [List.length_cons]
      omega
    have hrest := rest_of_notice (s := { s with link := { s.link with output := beginNext s.planFree (g :: rest) } })
      hh hw hn hc hp ((outputRoom_iff _).2 hlt)
    exact congrArg Host.Outcome.next hrest
  case silent => unfold State.transmitting; rw [h]
  case carries =>
    unfold State.transmitting
    rw [h]
    exact ⟨rfl, rfl⟩
  case batch => rintro t a k r b f st c rfl; rfl
  case robot => rintro c n (rfl | rfl) <;> rfl
  case zone => rintro c z rfl; rfl
  case line => rintro lost rfl; rfl
  case set => rintro c x (rfl | rfl) <;> rfl
  case halt => rintro c reason rfl; rfl

/-! ## Notices -/

theorem raise_masked {s : State} {e : Summary} (h : s.link.mask.getLsbD e.kind = false) : s.raise e = s := by
  unfold State.raise
  exact if_neg (by simp [h])

theorem raise_enabled {s : State} {e : Summary} (h : s.link.mask.getLsbD e.kind = true) :
    s.raise e = { s with link := { s.link with notices := mergeNotice s.now e s.link.notices } } := by
  unfold State.raise
  exact if_pos h

/-- With none of its kind pending an event starts a notice behind those pending. -/
theorem mergeNotice_new (now : Nat) {e : Summary} {ns : List Notice} (h : ∀ n ∈ ns, n.summary.kind ≠ e.kind) :
    mergeNotice now e ns = ns ++ [{ since := now, summary := e }] := by
  induction ns with
  | nil => rfl
  | cons n ns ih =>
    unfold mergeNotice
    rw [if_neg (h n (by simp)), ih fun m hm => h m (by simp [hm])]
    rfl

/-- The first notice of its kind takes the event up in its place. -/
theorem mergeNotice_merged (now : Nat) {e : Summary} {front : List Notice} {n : Notice} (back : List Notice)
    (h : ∀ m ∈ front, m.summary.kind ≠ e.kind) (hn : n.summary.kind = e.kind) :
    mergeNotice now e (front ++ n :: back) =
      front ++ { since := n.since, summary := n.summary.merge e } :: back := by
  induction front with
  | nil => exact if_pos hn
  | cons m front ih =>
    rw [List.cons_append]
    unfold mergeNotice
    rw [if_neg (h m (by simp)), ih fun k hk => h k (by simp [hk])]
    rfl

/-- Settles O20. -/
theorem noticesMerge : Obligations.NoticesMerge := by
  intro s e
  refine ⟨raise_masked, fun hm hnone => ?starts, fun front back n hm hs hfront hn => ?merges,
    fun _ _ _ _ _ _ _ _ _ _ _ _ _ _ _ _ => rfl, fun _ _ _ _ => ⟨rfl, rfl, rfl⟩,
    fun _ _ _ _ _ _ => ⟨rfl, rfl, rfl, rfl⟩, fun _ _ _ _ _ _ _ _ _ _ _ => rfl⟩
  case starts => rw [raise_enabled hm, mergeNotice_new _ hnone]
  case merges => rw [raise_enabled hm, hs, mergeNotice_merged _ back hfront hn]

end Sys2Proof.Machine
end

