-- ==== Sys2Proof/Proofs/Updates.lean ====
section
/-! PROOFS. Updates of the records put together: two changes of one record, a change that changes nothing, and what the
arbiter of a line chooses (R151). -/

namespace Sys2Proof.Machine

/-! ## Changes of one record -/

/-- A slot's change is what it makes of the record that stands. -/
theorem modSlot_congr {s : State} {n : Nat} {f g : SlotRec → SlotRec} (h : f (s.slot n) = g (s.slot n)) :
    s.modSlot n f = s.modSlot n g := congrArg (s.setSlot n) h

theorem modLine_congr {s : State} {l : Nat} {f g : LineRec → LineRec} (h : f (s.line l) = g (s.line l)) :
    s.modLine l f = s.modLine l g := congrArg (s.setLine l) h

/-- The state whose slots differ is the same where they do not. -/
theorem setSlot_slot (s : State) (n : Nat) : s.setSlot n (s.slot n) = s := by
  have hsame : s.slots.setIfInBounds n (s.slot n) = s.slots := by
    apply Vector.ext
    intro i hi
    rw [Vector.getElem_setIfInBounds]
    split
    · next h => subst h; simp [State.slot, hi]
    · rfl
  unfold State.setSlot
  rw [hsame]

theorem setLine_line (s : State) (l : Nat) : s.setLine l (s.line l) = s := by
  have hsame : s.lines.setIfInBounds l (s.line l) = s.lines := by
    apply Vector.ext
    intro i hi
    rw [Vector.getElem_setIfInBounds]
    split
    · next h => subst h; simp [State.line, hi]
    · rfl
  unfold State.setLine
  rw [hsame]

theorem modSlot_same {s : State} {n : Nat} {f : SlotRec → SlotRec} (h : f (s.slot n) = s.slot n) :
    s.modSlot n f = s := by
  unfold State.modSlot
  rw [h, setSlot_slot]

theorem modLine_same {s : State} {l : Nat} {f : LineRec → LineRec} (h : f (s.line l) = s.line l) :
    s.modLine l f = s := by
  unfold State.modLine
  rw [h, setLine_line]

theorem setSlot_setSlot (s : State) (n : Nat) (r q : SlotRec) : (s.setSlot n r).setSlot n q = s.setSlot n q := by
  unfold State.setSlot
  rw [Vector.setIfInBounds_setIfInBounds]

theorem setLine_setLine (s : State) (l : Nat) (r q : LineRec) : (s.setLine l r).setLine l q = s.setLine l q := by
  unfold State.setLine
  rw [Vector.setIfInBounds_setIfInBounds]

theorem modSlot_modSlot {s : State} {n : Nat} (h : n < 128) (f g : SlotRec → SlotRec) :
    (s.modSlot n f).modSlot n g = s.modSlot n fun r => g (f r) := by
  unfold State.modSlot
  rw [slot_setSlot_same _ _ _ h, setSlot_setSlot]

theorem modLine_modLine {s : State} {l : Nat} (h : l < 8) (f g : LineRec → LineRec) :
    (s.modLine l f).modLine l g = s.modLine l fun r => g (f r) := by
  have hread : (s.setLine l (f (s.line l))).line l = f (s.line l) := by simp [line_setLine, h]
  unfold State.modLine
  rw [hread, setLine_setLine]

theorem line_modLine_other (s : State) {l m : Nat} (f : LineRec → LineRec) (h : l ≠ m) :
    (s.modLine l f).line m = s.line m := by simp [line_modLine, h]

/-- A line above 7 reads as SILENT (log 32). -/
theorem line_beyond (s : State) {l : Nat} (h : ¬ l < 8) : s.line l = LineRec.fresh .silent := by
  simp [State.line, h]

theorem lt_of_line_state {s : State} {l : Nat} (h : (s.line l).state ≠ .silent) : l < 8 := by
  refine Classical.byContradiction fun hl => ?_
  rw [line_beyond s hl] at h
  exact h rfl

theorem lt_of_up {s : State} {l : Nat} (h : (s.line l).state = .up) : l < 8 :=
  lt_of_line_state (s := s) (by simp [h])

/-- A slot above 127 reads as VACANT (log 32). -/
theorem slot_beyond (s : State) {n : Nat} (h : ¬ n < 128) : s.slot n = SlotRec.vacant := by
  simp [State.slot, h]

theorem lt_of_leg {s : State} {n : Nat} {g : Leg} (h : (s.slot n).leg = some g) : n < 128 := by
  refine Classical.byContradiction fun hn => ?_
  rw [slot_beyond s hn] at h
  cases h

theorem hand_modLine (s : State) (e : Handed) (l : Nat) (f : LineRec → LineRec) :
    (s.hand e).modLine l f = (s.modLine l f).hand e := rfl

theorem hand_modSlot (s : State) (e : Handed) (n : Nat) (f : SlotRec → SlotRec) :
    (s.hand e).modSlot n f = (s.modSlot n f).hand e := rfl

theorem modLine_modSlot (s : State) (l n : Nat) (f : LineRec → LineRec) (g : SlotRec → SlotRec) :
    (s.modLine l f).modSlot n g = (s.modSlot n g).modLine l f := rfl

/-! ## The arbiter's choice -/

/-- A frame joins a queue with room, and waits for room otherwise. -/
theorem offer_eq (r : LineRec) (f : BusFrame) :
    r.offer f = if r.normal.length < 24 then { r with normal := r.normal ++ [f] }
      else { r with waiting := r.waiting ++ [f] } := ite_congr_iff decide_eq_true_iff rfl rfl

/-- A line that is sending or waits for an answer makes no choice. -/
theorem choose_busy {s : State} {l : Nat} (h : (s.line l).txn.isSome = true ∨ (s.line l).sendingHaltAll = true) :
    s.choose l = s := by
  unfold State.choose
  exact if_pos (by simpa using h)

theorem choose_hand_busy {s : State} {l : Nat} (h : (s.line l).txn.isSome = true) (e : Handed) :
    (s.hand e).choose l = s.hand e := choose_busy (s := s.hand e) (.inl h)

/-- A HALT taken begins a transaction (R153). -/
theorem takeUrgent_halt (s : State) (l d : Nat) (rest : List UrgentFrame) :
    s.takeUrgent l (.halt d) rest = s.modLine l fun r =>
      { r with
        urgent := rest
        txn := some (Txn.begin { slot := 0, drop := d, body := .halt, owner := .noOne } false) } := rfl

theorem choose_silent {s : State} {l : Nat} (h : (s.line l).state = .silent) : s.choose l = s := by
  unfold State.choose
  dsimp only
  rw [h]
  split <;> rfl

/-- A free UP line chooses by R151. -/
theorem choose_up {s : State} {l : Nat} (ht : (s.line l).txn = none) (hs : (s.line l).sendingHaltAll = false)
    (hup : (s.line l).state = .up) : s.choose l = s.chooseUp l := by
  unfold State.choose
  dsimp only
  rw [if_neg (by simp [ht, hs]), hup]

theorem chooseUp_urgent {s : State} {l : Nat} {f : UrgentFrame} {rest : List UrgentFrame}
    (h : (s.line l).urgent = f :: rest) : s.chooseUp l = s.takeUrgent l f rest := by
  unfold State.chooseUp
  dsimp only
  rw [h]

/-- With no urgent frame and no poll that comes first, the front of the normal queue is taken. -/
theorem chooseUp_normal {s : State} {l : Nat} (hu : (s.line l).urgent = [])
    (hp : (s.line l).pollTurn = false ∨ nextPoll (s.line l).pollCursor (s.pollsDue l) = none) {f : BusFrame}
    {rest : List BusFrame} (h : (s.line l).normal = f :: rest) : s.chooseUp l = s.takeNormal l f rest := by
  have hnone : (if (s.line l).pollTurn then nextPoll (s.line l).pollCursor (s.pollsDue l) else none) = none := by
    rcases hp with hp | hp
    · simp [hp]
    · rw [hp]
      exact ite_self none
  unfold State.chooseUp
  dsimp only
  rw [hu, hnone, h]

theorem nextPoll_none {cursor : Option Nat} {due : List Nat} : nextPoll cursor due = none ↔ due = [] := by
  unfold nextPoll
  cases cursor with
  | none => cases due <;> simp
  | some c =>
    dsimp only
    split
    · next n hfind => simp only [reduceCtorEq, false_iff]; rintro rfl; simp at hfind
    · cases due <;> simp

/-- A free UP line with nothing queued and no poll due takes nothing. -/
theorem chooseUp_idle {s : State} {l : Nat} (hu : (s.line l).urgent = []) (hn : (s.line l).normal = [])
    (hp : s.pollsDue l = []) : s.chooseUp l = s := by
  have hnone : nextPoll (s.line l).pollCursor (s.pollsDue l) = none := nextPoll_none.2 hp
  unfold State.chooseUp
  dsimp only
  rw [hu, hnone, hn, ite_self]

/-- A line that is free of frames and has no poll due stays as it is, whatever its state. -/
theorem choose_nothing {s : State} {l : Nat} (hu : (s.line l).urgent = []) (hn : (s.line l).normal = [])
    (hp : s.pollsDue l = []) : s.choose l = s := by
  unfold State.choose
  dsimp only
  split
  · rfl
  · split
    · exact chooseUp_idle hu hn hp
    · rw [hu]
      rfl
    · rfl

/-- A normal queue with nothing waiting behind it is what it is after it gives up a frame. -/
theorem fill_no_waiting {r : LineRec} (h : r.waiting = []) : r.fill = r := by
  unfold LineRec.fill
  rw [h]
  show ({ r with normal := r.normal, waiting := [] } : LineRec) = r
  rw [← h]

end Sys2Proof.Machine
end

