-- ==== Sys2Proof/Proofs/Timers.lean ====
section
/-! PROOFS. The timers (R12): a held-units entry, a claim, a leg at its deadline; and the leg issued as INHIBIT is
negated. -/

namespace Sys2Proof.Machine

/-! ## Held units -/

/-- The entry of a slot that has reached its deadline is the first such in the list. -/
theorem heldDue_of_split {s : State} {n : Nat} {front back : List HeldUnits} {h : HeldUnits}
    (hs : s.gate.heldUnits = front ++ h :: back) (hfront : ∀ x ∈ front, x.slot = n → s.now < x.deadline)
    (hslot : h.slot = n) (hdue : h.deadline ≤ s.now) : s.heldDue n = some h := by
  have hnone : front.find? (fun h => h.slot == n && decide (h.deadline ≤ s.now)) = none := by
    rw [List.find?_eq_none]
    intro x hx
    simp only [Bool.and_eq_true, beq_iff_eq, decide_eq_true_eq, not_and, Nat.not_le]
    exact hfront x hx
  unfold State.heldDue
  rw [hs, List.find?_append, hnone]
  simp [hslot, hdue]

theorem heldDue_none {s : State} {n : Nat} (h : ∀ x ∈ s.gate.heldUnits, x.slot = n → s.now < x.deadline) :
    s.heldDue n = none := by
  unfold State.heldDue
  rw [List.find?_eq_none]
  intro x hx
  simp only [Bool.and_eq_true, beq_iff_eq, decide_eq_true_eq, not_and, Nat.not_le]
  exact h x hx

/-- Units returned to a block at rest with no leg queued: they fall, and the scan due finds nothing. -/
theorem rest_returnUnits {s : State} (h : s.quiet = true) (hq : s.gate.startQueue = []) (u : Nat) :
    (s.returnUnits u).rest = { s with gate := { s.gate with unitsInUse := s.gate.unitsInUse - u } } :=
  rest_hand_scan (s := s.modGate fun g => { g with unitsInUse := g.unitsInUse - u })
    (quiet_of_link h rfl (quiet_handed h)) hq

/-- Settles O14. -/
theorem heldUnitsExpire : Obligations.HeldUnitsExpire := by
  refine ⟨fun s n front back h hq hempty hs hfront hnot hslot hdue => ?due, fun s n hnone => ?notDue⟩
  case due =>
    show Host.Outcome.next (s.heldExpires n.val).rest = _
    unfold State.heldExpires
    rw [heldDue_of_split hs hfront hslot hdue]
    have hrest := rest_returnUnits
      (s := s.modGate fun g => { g with heldUnits := g.heldUnits.erase h })
      (quiet_of_link hq rfl (quiet_handed hq)) hempty h.units
    have herase : s.gate.heldUnits.erase h = front ++ back := by
      rw [hs, List.erase_append_right _ hnot, List.erase_cons_head]
    dsimp only
    rw [hrest, modGate_gate, herase]
    rfl
  case notDue =>
    intro hdue
    show Host.Outcome.next (s.heldExpires n.val).rest = _
    unfold State.heldExpires
    rw [heldDue_none hdue]
    exact congrArg _ (rest_quiet s hnone)

/-! ## Claims -/

/-- Recording the outcome of a robot in the open batch that is not its last leaves the batch open. -/
theorem recordOutcome_counted {s : State} {n : Nat} {b : BatchRec} {o : RobotOutcome} (hb : s.batch = .opened b)
    (hf : (s.slot n).batchFlag = true) (ho : (s.slot n).outcome = .none)
    (h : (b.count o).settled < (b.count o).admitted) :
    s.recordOutcome n o =
      { s.modSlot n fun r => r.withOutcome o b.tag with batch := .opened (b.count o) } := by
  unfold State.recordOutcome
  rw [hb]
  dsimp only
  rw [if_pos ⟨hf, ho⟩, if_neg (by omega)]

/-- Recording the outcome of the last robot of the open batch closes it. -/
theorem recordOutcome_closed {s : State} {n : Nat} {b : BatchRec} {o : RobotOutcome} (hb : s.batch = .opened b)
    (hf : (s.slot n).batchFlag = true) (ho : (s.slot n).outcome = .none)
    (h : (b.count o).admitted ≤ (b.count o).settled) :
    s.recordOutcome n o =
      ({ s.modSlot n fun r => r.withOutcome o b.tag with batch := .opened (b.count o) } : State).closeBatch := by
  unfold State.recordOutcome
  rw [hb]
  dsimp only
  rw [if_pos ⟨hf, ho⟩, if_pos h]

/-- Settles O12. -/
theorem claimTimeout : Obligations.ClaimTimeout := by
  refine ⟨fun s n e b hq hwait hslot hdue hb hflag hnone hmore hleg => ?expires, fun s n hq hnot => ?stands⟩
  case expires =>
    have hcd : s.claimDue n.val = true := by simp [State.claimDue, hwait, hslot, hdue]
    have hgone : (s.waitList.filter fun e => e.slot != n.val) = [] := by simp [hwait, hslot]
    have hrecord := recordOutcome_counted (s := { s with waitList := [] }) (n := n.val)
      (o := .blocked .claimTimeout) hb hflag hnone (by simp only [BatchRec.settled, BatchRec.count]; omega)
    have hslotRec : (s.slot n.val).withOutcome (.blocked .claimTimeout) b.tag =
        { s.slot n.val with
          outcome := .blocked .claimTimeout, remaining := [], leg := none, state := .rest
          targets := (s.slot n.val).targets.map fun t => if t.tag = b.tag then { t with pinned := false } else t } := by
      have hnoleg : ((s.slot n.val).leg.filter fun g => g.stage == .lapsing) = none := by
        cases hl : (s.slot n.val).leg with
        | none => rfl
        | some g => simp [Option.filter, hleg g hl]
      unfold SlotRec.withOutcome
      rw [hnoleg]
      rfl
    show Host.Outcome.next (if s.claimDue n.val then s.claimExpires n.val else s).rest = _
    rw [if_pos hcd]
    unfold State.claimExpires
    rw [hgone, hrecord, reexamine_idle rfl, rest_quiet]
    · refine congrArg Host.Outcome.next ?_
      exact congrArg (fun r => ({ s.setSlot n.val r with
        waitList := [], batch := .opened { b with blocked := b.blocked + 1 } } : State)) hslotRec
    · exact quiet_of_link hq rfl (quiet_handed hq)
  case stands =>
    have hcd : s.claimDue n.val = false := by
      rw [State.claimDue, List.any_eq_false]
      intro e he
      simp only [Bool.and_eq_true, beq_iff_eq, decide_eq_true_eq, not_and, Nat.not_le]
      exact hnot e he
    show Host.Outcome.next (if s.claimDue n.val then s.claimExpires n.val else s).rest = _
    rw [if_neg (by simp [hcd])]
    exact congrArg _ (rest_quiet s hq)

/-! ## A leg's deadline -/

/-- A leg record written where a leg stands. -/
theorem slot_setLeg {s : State} {n : Nat} (h : n < 128) (g : Option Leg) :
    (s.modSlot n fun r => { r with leg := g }).slot n = { s.slot n with leg := g } := slot_modSlot_same _ _ _ h

theorem placeHalt_up {s : State} {n : Nat} (h : (s.line (s.slot n).lineNo).state = .up) :
    s.placeHalt n = s.placeUrgent (s.slot n).lineNo (.halt (s.slot n).dropNo) := by
  unfold State.placeHalt
  rw [h]

theorem placeReadback_up {s : State} {n : Nat} (h : (s.line (s.slot n).lineNo).state = .up) (g : Leg) :
    s.placeReadback n g = s.placeReadbackUp (s.slot n).lineNo n g.id := by
  unfold State.placeReadback
  rw [h]

/-- The HALT of a RUNNING leg at its deadline stands in the urgent queue when the readback is placed, and the leg is
STOPPING with cause DEADLINE (R113, R158). -/
theorem deadlineHalt_eq {s : State} {n : Nat} {g : Leg} (hleg : (s.slot n).leg = some g)
    (hup : (s.line (s.slot n).lineNo).state = .up) :
    s.deadlineHalt n g =
      (((s.modSlot n fun r =>
          { r with leg := some { g with stage := .stopping, haltCause := some .deadline } }).modLine (s.slot n).lineNo
          fun r => { r with urgent := joinUrgent (.halt (s.slot n).dropNo) r.urgent }).hand
        (.choose (s.slot n).lineNo)).placeReadbackUp (s.slot n).lineNo n g.id := by
  obtain ⟨t, ht⟩ : ∃ t, t = ((s.modSlot n fun r =>
      { r with leg := some { g with stage := .stopping, haltCause := some .deadline } }).modLine (s.slot n).lineNo
      fun r => { r with urgent := joinUrgent (.halt (s.slot n).dropNo) r.urgent }).hand
    (.choose (s.slot n).lineNo) := ⟨_, rfl⟩
  have hslot : t.slot n =
      { s.slot n with leg := some { g with stage := .stopping, haltCause := some .deadline } } := by
    rw [ht]
    exact slot_setLeg (lt_of_leg hleg) _
  have hno : (t.slot n).lineNo = (s.slot n).lineNo := by rw [hslot]; rfl
  have hstate : (t.line (t.slot n).lineNo).state = .up := by
    rw [hno, ht, hand_line, line_modLine_same _ _ _ (lt_of_up hup)]
    exact hup
  have hmid : (s.placeHalt n).modLeg n (fun q => { q.haltFor .deadline (s.placeHalt n).now with stage := .stopping }) =
      t := by
    have hleg' : ((s.placeHalt n).slot n).leg = some g := by
      rw [placeHalt_up hup]
      exact hleg
    rw [modLeg_of_leg hleg', placeHalt_up hup, ht]
    rfl
  unfold State.deadlineHalt State.haltLeg
  rw [hmid, placeReadback_up hstate, hno, ht]

/-- A merged readback serves the new leg (R148, log 17). -/
theorem mergeReadback_eq (n id : Nat) (q : List BusFrame) :
    mergeReadback n id q = q.map fun f => if f.isReadbackOf n then { f with owner := .readback id } else f := by
  refine List.map_congr_left fun f _ => ?_
  unfold BusFrame.isReadbackOf
  cases f.owner <;> simp

theorem placeReadbackUp_merge {s : State} {l n : Nat} (h : ((s.line l).normal.any fun f => f.isReadbackOf n) = true)
    (id : Nat) :
    s.placeReadbackUp l n id = s.modLine l fun r =>
      { r with normal := r.normal.map fun f => if f.isReadbackOf n then { f with owner := .readback id } else f } := by
  unfold State.placeReadbackUp
  rw [if_pos h]
  exact modLine_congr (by rw [mergeReadback_eq])

theorem placeReadbackUp_new {s : State} {l n : Nat} (h : ((s.line l).normal.any fun f => f.isReadbackOf n) = false)
    (id : Nat) :
    s.placeReadbackUp l n id = (s.modLine l fun r =>
      ({ r with urgent := joinUrgent (.halt (s.slot n).dropNo) r.urgent } : LineRec).offer
        { slot := n, drop := (s.slot n).dropNo, body := .ask, owner := .readback id }).hand (.choose l) := by
  unfold State.placeReadbackUp
  exact if_neg (by simp [h])

/-- A frame that stands in the urgent queue joins it no second time (R147). -/
theorem joinUrgent_twice (f : UrgentFrame) (q : List UrgentFrame) : joinUrgent f (joinUrgent f q) = joinUrgent f q := by
  have hmem : (joinUrgent f q).contains f = true := by
    unfold joinUrgent
    split
    · assumption
    · simp
  rw [joinUrgent, if_pos hmem]

theorem legDeadline_running {s : State} {n : Nat} {g : Leg} {d : Nat} (hleg : (s.slot n).leg = some g)
    (hstage : g.stage = .running) (hd : g.deadline = some d) (hnow : d ≤ s.now) :
    s.legDeadline n = s.deadlineHalt n g := by
  unfold State.legDeadline
  rw [hleg]
  dsimp only
  rw [if_pos (by simp [hd, hnow]), hstage]

theorem legDeadline_lapsing {s : State} {n : Nat} {g : Leg} {d : Nat} (hleg : (s.slot n).leg = some g)
    (hstage : g.stage = .lapsing) (hd : g.deadline = some d) (hnow : d ≤ s.now) : s.legDeadline n = s.endLeg n g := by
  unfold State.legDeadline
  rw [hleg]
  dsimp only
  rw [if_pos (by simp [hd, hnow]), hstage]

theorem legDeadline_stopping {s : State} {n : Nat} {g : Leg} (hleg : (s.slot n).leg = some g)
    (hstage : g.stage = .stopping) : s.legDeadline n = s := by
  unfold State.legDeadline
  rw [hleg]
  dsimp only
  rw [hstage, ite_self]

theorem legDeadline_early {s : State} {n : Nat}
    (h : ∀ g d, (s.slot n).leg = some g → g.deadline = some d → s.now < d) : s.legDeadline n = s := by
  unfold State.legDeadline
  split
  · rfl
  · next g hleg =>
    refine if_neg ?_
    cases hd : g.deadline with
    | none => simp
    | some d => simpa using h g d hleg hd

theorem isReadbackOf_iff (f : BusFrame) (n : Nat) :
    f.isReadbackOf n = true ↔ (∃ id, f.owner = .readback id) ∧ f.slot = n := by
  unfold BusFrame.isReadbackOf
  cases f.owner <;> simp

theorem joinUrgent_eq (f : UrgentFrame) (q : List UrgentFrame) : joinUrgent f q = if f ∈ q then q else q ++ [f] := by
  simp [joinUrgent]

/-- A choice due on a line that makes none, at a block otherwise at rest, is all that follows. -/
theorem settle_choose_same {s : State} (h : s.handed = []) {l : Nat} (hc : s.choose l = s) (k : Nat) :
    (s.hand (.choose l)).settle (k + 1) = s.settle k := by
  rw [settle_hand h]
  exact congrArg (State.settle k) hc

/-- The first of two events handed on is taken with the other standing behind it. -/
theorem settle_hand_hand {s : State} (h : s.handed = []) (a b : Handed) (k : Nat) :
    ((s.hand a).hand b).settle (k + 1) = ((s.hand b).takeHanded a).settle k := by
  have hrest : ({ (s.hand a).hand b with handed := [b] } : State) = s.hand b := by
    unfold State.hand
    rw [h]
    rfl
  rw [settle_handed (e := a) (rest := [b]) (by simp [h]), hrest]

section
variable {s : State} {n : Nat} {g : Leg}

/-- The leg of a slot halted at its deadline, the lines and all else as they were. -/
def State.haltedLeg (s : State) (n : Nat) (g : Leg) : State :=
  s.modSlot n fun r => { r with leg := some { g with stage := .stopping, haltCause := some .deadline } }

/-- A line with a HALT for a drop placed and the readback of a leg offered (R148, R158). -/
def LineRec.withReadback (r : LineRec) (drop n id : Nat) : LineRec :=
  ({ r with urgent := joinUrgent (.halt drop) r.urgent } : LineRec).offer
    { slot := n, drop := drop, body := .ask, owner := .readback id }

/-- With no readback of the slot queued, the HALT and the readback are placed and two choices are due. -/
theorem deadlineHalt_new (hleg : (s.slot n).leg = some g) (hup : (s.line (s.slot n).lineNo).state = .up)
    (hnone : ((s.line (s.slot n).lineNo).normal.any fun f => f.isReadbackOf n) = false) :
    s.deadlineHalt n g =
      ((((s.haltedLeg n g).modLine (s.slot n).lineNo fun r => r.withReadback (s.slot n).dropNo n g.id).hand
        (.choose (s.slot n).lineNo)).hand (.choose (s.slot n).lineNo)) := by
  have hl := lt_of_up hup
  have hline : ((s.haltedLeg n g).modLine (s.slot n).lineNo fun r =>
      { r with urgent := joinUrgent (.halt (s.slot n).dropNo) r.urgent }).line (s.slot n).lineNo =
        { s.line (s.slot n).lineNo with
          urgent := joinUrgent (.halt (s.slot n).dropNo) (s.line (s.slot n).lineNo).urgent } :=
    line_modLine_same _ _ _ hl
  have hdrop : ((s.haltedLeg n g).slot n).dropNo = (s.slot n).dropNo := by
    rw [State.haltedLeg, slot_setLeg (lt_of_leg hleg)]
    rfl
  rw [deadlineHalt_eq hleg hup]
  show (((s.haltedLeg n g).modLine _ _).hand _).placeReadbackUp _ n g.id = _
  rw [placeReadbackUp_new (by rw [hand_line, hline]; exact hnone)]
  have hjoin : ((s.haltedLeg n g).modLine (s.slot n).lineNo fun r =>
      { r with urgent := joinUrgent (.halt (s.slot n).dropNo) r.urgent }).modLine (s.slot n).lineNo
        (fun r => r.withReadback (s.slot n).dropNo n g.id) =
      (s.haltedLeg n g).modLine (s.slot n).lineNo fun r => r.withReadback (s.slot n).dropNo n g.id := by
    rw [modLine_modLine hl]
    refine modLine_congr ?_
    unfold LineRec.withReadback
    dsimp only
    rw [joinUrgent_twice]
  rw [← hjoin, hand_slot, modLine_slot, hdrop]
  rfl

/-- With a readback of the slot queued, the HALT is placed, the queued one serves the leg, and a choice is due. -/
theorem deadlineHalt_merge (hleg : (s.slot n).leg = some g) (hup : (s.line (s.slot n).lineNo).state = .up)
    (hsome : ((s.line (s.slot n).lineNo).normal.any fun f => f.isReadbackOf n) = true) :
    s.deadlineHalt n g =
      ((s.haltedLeg n g).modLine (s.slot n).lineNo fun r =>
        { r with
          urgent := joinUrgent (.halt (s.slot n).dropNo) r.urgent
          normal := r.normal.map fun f => if f.isReadbackOf n then { f with owner := .readback g.id } else f }).hand
        (.choose (s.slot n).lineNo) := by
  have hl := lt_of_up hup
  have hline : ((s.haltedLeg n g).modLine (s.slot n).lineNo fun r =>
      { r with urgent := joinUrgent (.halt (s.slot n).dropNo) r.urgent }).line (s.slot n).lineNo =
        { s.line (s.slot n).lineNo with
          urgent := joinUrgent (.halt (s.slot n).dropNo) (s.line (s.slot n).lineNo).urgent } :=
    line_modLine_same _ _ _ hl
  rw [deadlineHalt_eq hleg hup]
  show (((s.haltedLeg n g).modLine _ _).hand _).placeReadbackUp _ n g.id = _
  rw [placeReadbackUp_merge (by rw [hand_line, hline]; exact hsome)]
  rw [hand_modLine, modLine_modLine hl]

theorem withReadback_txn (r : LineRec) (drop n id : Nat) : (r.withReadback drop n id).txn = r.txn := by
  unfold LineRec.withReadback LineRec.offer
  split <;> rfl

/-- A free line with nothing queued has the HALT in its urgent queue and the readback in its normal queue. -/
theorem withReadback_free {r : LineRec} (hu : r.urgent = []) (hn : r.normal = []) (drop n id : Nat) :
    r.withReadback drop n id =
      { r with
        urgent := [.halt drop]
        normal := [{ slot := n, drop := drop, body := .ask, owner := .readback id }] } := by
  unfold LineRec.withReadback LineRec.offer
  rw [if_pos (by simp [LineRec.hasRoom, hn, Config.normalCapacity])]
  simp [hu, hn, joinUrgent]

end

/-- Settles O13. -/
theorem legDeadline : Obligations.LegDeadline := by
  refine ⟨fun s n g d hq hempty hleg hstage hd hnow => ?lapsing, fun s n g d hq hleg hstage hd hnow hup => ?running,
    fun s n g hq hleg hstage => ?stopping, fun s n hq hearly => ?early, fun r f n => ⟨offer_eq r f, isReadbackOf_iff f n⟩,
    joinUrgent_eq⟩
  case lapsing =>
    show Host.Outcome.next (s.legDeadline n.val).rest = _
    rw [legDeadline_lapsing hleg hstage hd hnow]
    exact congrArg _ (rest_returnUnits (s := s.dropLeg n.val) (quiet_of_link hq rfl (quiet_handed hq)) hempty g.units)
  case stopping =>
    show Host.Outcome.next (s.legDeadline n.val).rest = _
    rw [legDeadline_stopping hleg hstage, rest_quiet s hq]
  case early =>
    show Host.Outcome.next (s.legDeadline n.val).rest = _
    rw [legDeadline_early hearly, rest_quiet s hq]
  case running =>
    have hl := lt_of_up hup
    have hh := quiet_handed hq
    have hquiet (f : LineRec → LineRec) : ((s.haltedLeg n.val g).modLine (s.slot n.val).lineNo f).quiet = true :=
      quiet_of_link hq rfl hh
    have hhand (f : LineRec → LineRec) : ((s.haltedLeg n.val g).modLine (s.slot n.val).lineNo f).handed = [] := hh
    have hread (f : LineRec → LineRec) : ((s.haltedLeg n.val g).modLine (s.slot n.val).lineNo f).line
        (s.slot n.val).lineNo = f (s.line (s.slot n.val).lineNo) := line_modLine_same _ _ _ hl
    have hexec : exec (.legDeadlineExpiry n) s = .next (s.deadlineHalt n.val g).rest := by
      show Host.Outcome.next (s.legDeadline n.val).rest = _
      rw [legDeadline_running hleg hstage hd hnow]
    intro l drop t ask
    refine ⟨fun ht hnone => ?joins, fun ht hsome => ?merges, fun _ ht hs hu hn => ?free⟩
    case joins =>
      have hbusy : (((s.haltedLeg n.val g).modLine l fun r => r.withReadback drop n.val g.id).line l).txn.isSome = true := by
        rw [hread, withReadback_txn]
        exact ht
      rw [hexec, deadlineHalt_new hleg hup hnone]
      refine congrArg Host.Outcome.next ?_
      show State.settle (99998 + 1 + 1) _ = _
      rw [settle_hand_hand (hhand _)]
      show State.settle _ (State.choose _ _) = _
      rw [choose_hand_busy hbusy, settle_choose_same (hhand _) (choose_busy (.inl hbusy)), settle_quiet _ _ (hquiet _)]
      rfl
    case merges =>
      rw [hexec, deadlineHalt_merge hleg hup hsome]
      refine congrArg Host.Outcome.next ?_
      show State.settle (99999 + 1) _ = _
      rw [settle_choose_same (hhand _) (choose_busy (.inl (by rw [hread]; exact ht))), settle_quiet _ _ (hquiet _)]
      rfl
    case free =>
      have hnone : ((s.line l).normal.any fun f => f.isReadbackOf n.val) = false := by rw [hn]; rfl
      have hrec := hread fun r => r.withReadback drop n.val g.id
      rw [withReadback_free hu hn] at hrec
      rw [hexec, deadlineHalt_new hleg hup hnone]
      refine congrArg Host.Outcome.next ?_
      show State.settle (99998 + 1 + 1) _ = _
      rw [settle_hand_hand (hhand _)]
      show State.settle _ (State.choose _ _) = _
      rw [choose_up (by rw [hand_line, hrec]; exact ht) (by rw [hand_line, hrec]; exact hs)
        (by rw [hand_line, hrec]; exact hup), chooseUp_urgent (by rw [hand_line, hrec])]
      rw [takeUrgent_halt, hand_modLine, modLine_modLine hl, settle_choose_same (hhand _) (choose_busy (.inl (by rw [hread]; rfl))),
        settle_quiet _ _ (hquiet _)]
      refine modLine_congr ?_
      rw [show ((s.haltedLeg n.val g).line (s.slot n.val).lineNo).withReadback (s.slot n.val).dropNo n.val g.id = _ from
        withReadback_free hu hn _ _ _]
      congr 1
      exact hu.symm

/-! ## INHIBIT negated -/

theorem leaveStart_startQueue (s : State) (n : Nat) :
    (s.leaveStart n).gate.startQueue = s.gate.startQueue.filter fun e => e.slot != n := rfl

/-- A scan while stop is not in force and INHIBIT is negated passes over the start queue from its front. -/
theorem scan_eq {s : State} (hs : s.pins.stop = false) (hi : s.pins.inhibit = false) :
    s.scan = scanEntries s s.gate.startQueue := by
  unfold State.scan
  exact if_neg (by simp [State.stopInForce, hs, hi])

/-- An entry whose line can take its GO and whose units fit the budget is issued (R130, R131). -/
theorem scanEntries_issue {s : State} {e : StartEntry} {rest : List StartEntry} (hup : (s.line e.line).state = .up)
    (hroom : (s.line e.line).hasRoom = true) (hu : s.gate.unitsInUse + e.units ≤ s.gate.budget) :
    scanEntries s (e :: rest) = scanEntries (s.issueEntry e) rest := by
  rw [scanEntries, if_neg (by simp [hup]), if_neg (by simp [State.passedOver, hup, hroom]), if_neg (by omega)]

/-- What issuing an entry changes: it leaves the queue, its units are in use, its GO is queued and a choice is due, and
its leg is ISSUED and its robot MOVING (R131). -/
theorem issueEntry_eq {s : State} {e : StartEntry} {g : Leg} (hleg : (s.slot e.slot).leg = some g)
    (hp : s.stopPassing = false) :
    s.issueEntry e =
      (({ s.modSlot e.slot fun r => { r with state := .moving, leg := some { g with stage := .issued } } with
          gate := { s.gate with
            startQueue := s.gate.startQueue.filter fun x => x.slot != e.slot
            unitsInUse := s.gate.unitsInUse + e.units } } : State).modLine e.line fun r =>
        { r with normal := r.normal ++ [s.goFrame e.slot g] }).hand (.choose e.line) := by
  unfold State.issueEntry
  rw [hleg]
  dsimp only
  have hpassing : (s.leaveStart e.slot).stopPassing = false := hp
  simp only [modSlot_stopPassing, hand_stopPassing, modLine_stopPassing, modGate_stopPassing, hpassing,
    Bool.false_eq_true, if_false]
  rfl

/-- Settles O10. -/
theorem inhibitNegatedIssues : Obligations.InhibitNegatedIssues := by
  intro s e g hq hinhibit hstop hpassing hqueue hslot hline hleg hstage hup hidle hturn hbudget
  obtain ⟨ht, hsending, hurgent, hnormal, hwaiting, -⟩ := hidle
  obtain ⟨u, hu⟩ : ∃ u : State, u =
      { (s.setInhibit false).modSlot e.slot fun r => { r with state := .moving, leg := some { g with stage := .issued } }
        with gate := { s.gate with startQueue := [], unitsInUse := s.gate.unitsInUse + e.units } } := ⟨_, rfl⟩
  have hh : u.handed = [] := by rw [hu]; exact quiet_handed hq
  have huline : u.line e.line = s.line e.line := by rw [hu]; rfl
  have hroom : ((s.setInhibit false).line e.line).hasRoom = true := by
    show decide ((s.line e.line).normal.length < _) = true
    rw [hnormal]
    rfl
  have hissue : (s.setInhibit false).scan =
      (u.modLine e.line fun r => { r with normal := [s.goFrame e.slot g] }).hand (.choose e.line) := by
    have hgone : ([e].filter fun x => x.slot != e.slot) = [] := by simp
    rw [scan_eq (s := s.setInhibit false) hstop rfl, show (s.setInhibit false).gate.startQueue = [e] from hqueue,
      scanEntries_issue (s := s.setInhibit false) hup hroom hbudget,
      issueEntry_eq (s := s.setInhibit false) hleg hpassing, scanEntries,
      show (s.setInhibit false).gate.startQueue = [e] from hqueue, hgone, hu]
    refine congrArg (State.hand · _) (modLine_congr ?_)
    show ({ s.line e.line with normal := (s.line e.line).normal ++ [s.goFrame e.slot g] } : LineRec) = _
    rw [hnormal]
    rfl
  have hchoose : (u.modLine e.line fun r => { r with normal := [s.goFrame e.slot g] }).choose e.line =
      (u.modLine e.line fun r =>
        { r with normal := [], pollTurn := false, txn := some (Txn.begin (s.goFrame e.slot g) true) }).hand .scan := by
    have hread : (u.modLine e.line fun r => { r with normal := [s.goFrame e.slot g] }).line e.line =
        { s.line e.line with normal := [s.goFrame e.slot g] } := by rw [line_modLine_same _ _ _ hline, huline]
    rw [choose_up (by rw [hread]; exact ht) (by rw [hread]; exact hsending) (by rw [hread]; exact hup),
      chooseUp_normal (by rw [hread]; exact hurgent) (.inl (by rw [hread]; exact hturn)) (by rw [hread])]
    unfold State.takeNormal
    rw [modLine_modLine hline]
    refine congrArg (State.hand · _) (modLine_congr (fill_no_waiting ?_))
    rw [huline]
    exact hwaiting
  have hquiet : (u.modLine e.line fun r =>
      { r with normal := [], pollTurn := false, txn := some (Txn.begin (s.goFrame e.slot g) true) }).quiet = true :=
    quiet_of_link hq (by rw [hu]; rfl) hh
  have hrest : ((s.setInhibit false).hand .scan).rest = u.modLine e.line fun r =>
      { r with normal := [], pollTurn := false, txn := some (Txn.begin (s.goFrame e.slot g) true) } := by
    show State.settle (99997 + 1 + 1 + 1) _ = _
    rw [settle_hand (s := s.setInhibit false) (quiet_handed hq)]
    show State.settle _ (State.scan _) = _
    rw [hissue, settle_hand (s := u.modLine _ _) hh]
    show State.settle _ (State.choose _ _) = _
    rw [hchoose, settle_hand (s := u.modLine _ _) hh]
    show State.settle _ (State.scan _) = _
    rw [scan_empty (by rw [hu]; rfl), settle_quiet _ _ hquiet]
  have hexec : exec .inhibitNegated s = .next (u.modLine e.line fun r =>
      { r with normal := [], pollTurn := false, txn := some (Txn.begin (s.goFrame e.slot g) true) }) := by
    show Host.Outcome.next (if s.pins.inhibit then ((s.setInhibit false).hand .scan).rest else s) = _
    rw [if_pos hinhibit, hrest]
  have hline' := line_modLine_same u e.line
    (fun r => { r with normal := [], pollTurn := false, txn := some (Txn.begin (s.goFrame e.slot g) true) }) hline
  refine ⟨_, hexec, ?_, ?_, fun n hn => ?_, ?_, ?_, ?_, ?_⟩
  · rw [hu]; rfl
  · rw [modLine_slot, hu]
    exact slot_modSlot_same (s.setInhibit false) e.slot
      (fun r => { r with state := .moving, leg := some { g with stage := .issued } }) hslot
  · rw [modLine_slot, hu]
    exact slot_modSlot_other (s.setInhibit false) e.slot n
      (fun r => { r with state := .moving, leg := some { g with stage := .issued } }) (Ne.symm hn)
  · rw [hline']; rfl
  · rw [hline']
  · rw [hu]; rfl
  · rw [hu]; rfl

end Sys2Proof.Machine
end

