-- ==== Sys2Proof/Proofs/ControlRequests.lean ====
section
/-! PROOFS. The control requests at rest (R30, R133, R139, R164, R202 to R208, R211): each is its rule's answer, and what
follows from it. -/

namespace Sys2Proof.Machine

/-! ## A request that its rule answers at once -/

/-- A state whose port looks at rest as that of a block at rest is at rest with a place free. -/
theorem ready_of {s : State} (hh : s.handed = []) (hr : s.outputRoom = true) (hw : s.link.waitingAnswer = none)
    (hn : s.link.notices = []) (hc : s.link.control = []) (hp : s.planMoves = true → s.link.plan = []) :
    s.ready = true := by
  unfold State.ready
  rw [quiet_of hh hw hn hc hp, hr]
  rfl

/-- A control request whose rule answers a state at rest is that state with the answer. -/
theorem exec_control_reply {s t : State} (h : s.ready = true) (ht : t.ready = true) (tag : Byte) {q : Request}
    (hq : q.channel = .control) {st : Status} {p : List Byte} (htake : s.take tag q = t.reply tag q st p) :
    exec (q.command tag) s = .next (t.answered tag q.code st p) := by
  rw [exec_control h tag q hq, htake, settle_reply ht]

/-- A plan request whose rule answers a state at rest is that state with the answer. -/
theorem exec_plan_reply {s t : State} (h : s.planReady = true) (ht : t.ready = true) (tag : Byte) {q : Request}
    (hq : q.channel = .plan) (hl : q.payload.length ≤ 2048) {st : Status} {p : List Byte}
    (htake : s.take tag q = t.reply tag q st p) :
    exec (q.command tag) s = .next (t.answered tag q.code st p) := by
  rw [exec_plan h tag q hq hl, htake, settle_reply ht]

theorem b1_toNat (b : Byte) : b1 b.toNat = [b] := by simp [b1]

/-- What stands in the output queue after an answer depends on the output queue and the plan queue alone. -/
theorem answered_output_congr {s t : State} (ho : t.link.output = s.link.output) (hp : t.link.plan = s.link.plan)
    (tag code : Byte) (st : Status) (p : List Byte) :
    (t.answered tag code st p).link.output = (s.answered tag code st p).link.output := by
  rw [answered_eq, answered_eq]
  show (t.link.enter _).output = (s.link.enter _).output
  rw [enter_output, enter_output, ho, hp]

/-! ## RESUME -/

/-- A HELD robot becomes REST and any other stands. -/
theorem resumed_eq (r : SlotRec) : r.resumed = { r with state := if r.state = .held then .rest else r.state } := by
  unfold SlotRec.resumed
  split <;> rfl

/-- Settles O22. -/
theorem resume : Obligations.Resume := by
  refine ⟨fun s tag slot hready => ?_, fun s st => rfl⟩
  have hreply (st : Status) (p : List Byte) :
      (s.reply tag (.resume slot) st p).settle (Config.settleFuel - 1) = s.answered tag 0x51 st p :=
    settle_reply hready _ tag (.resume slot) st p
  show exec ((Request.resume slot).command tag) s = _
  rw [exec_control hready tag (.resume slot) rfl]
  refine congrArg Host.Outcome.next ?_
  show State.settle _ (s.takeResume tag slot) = _
  unfold State.takeResume
  dsimp only
  simp only [apply_ite (State.settle (Config.settleFuel - 1))]
  refine ite_congr rfl (fun _ => hreply _ _) fun _ => ite_congr rfl
    (fun _ => ite_congr rfl (fun _ => hreply _ _) fun _ => ?all) fun _ => ite_congr rfl (fun _ => hreply _ _)
      fun _ => ite_congr rfl (fun _ => hreply _ _) fun _ => ite_congr rfl (fun _ => hreply _ _) fun hheld => ?one
  case all =>
    rw [settle_reply_of (s := s) (t := s.mapSlots SlotRec.resumed) hready rfl rfl, funext resumed_eq]
    rfl
  case one =>
    have hheld' : (s.slot slot.toNat).state = .held := by simpa using hheld
    have hrest : s.modSlot slot.toNat SlotRec.resumed = s.modSlot slot.toNat fun r => { r with state := .rest } :=
      modSlot_congr (if_pos hheld')
    rw [settle_reply_of (s := s) (t := s.modSlot slot.toNat SlotRec.resumed) hready rfl rfl, hrest]
    rfl

/-! ## SET_BUDGET -/

/-- SET_BUDGET accepted: the answer, and a scan for a raised budget. -/
theorem takeSetBudget_accepted {s : State} (hroom : s.outputRoom = true) (tag : Byte) {units : Byte}
    (h2 : 2 ≤ units.toNat) (h128 : units.toNat ≤ 128) (hin : s.gate.unitsInUse ≤ units.toNat) :
    s.takeSetBudget tag units =
      if s.gate.budget < units.toNat then
        (({ s with gate := { s.gate with budget := units.toNat } } : State).answered tag 0x52 .ok
          [units, BitVec.ofNat 8 s.gate.unitsInUse]).hand .scan
      else ({ s with gate := { s.gate with budget := units.toNat } } : State).answered tag 0x52 .ok
        [units, BitVec.ofNat 8 s.gate.unitsInUse] := by
  unfold State.takeSetBudget
  dsimp only
  rw [if_neg (by omega), if_neg (by omega), b1_toNat,
    reply_answered (s := s.modGate fun g => { g with budget := units.toNat }) hroom]
  rfl

/-- Settles O23. -/
theorem setBudget : Obligations.SetBudget := by
  intro s tag units hready
  have hroom := ready_room hready
  refine ⟨fun hout => ?range, fun h2 h128 hlow => ?budget, fun h2 h128 hin => ?accepted⟩
  case range =>
    refine exec_control_reply hready hready tag (q := .setBudget units) rfl ?_
    exact if_pos hout
  case budget =>
    refine exec_control_reply hready hready tag (q := .setBudget units) rfl ?_
    show s.takeSetBudget tag units = _
    unfold State.takeSetBudget
    dsimp only
    rw [if_neg (by omega), if_pos hlow]
  case accepted =>
    obtain ⟨u, hu⟩ : ∃ u : State, u = ({ s with gate := { s.gate with budget := units.toNat } } : State).answered tag
      0x52 .ok [units, BitVec.ofNat 8 s.gate.unitsInUse] := ⟨_, rfl⟩
    have hquiet : u.quiet = true := by
      rw [hu]
      exact answered_quiet (s := { s with gate := { s.gate with budget := units.toNat } })
        (by rw [ready_congr rfl rfl]; exact hready) _ _ _ _
    have hgate : u.gate = { s.gate with budget := units.toNat } := by rw [hu, answered_eq]
    have hexec : exec (.setBudget tag units) s =
        .next ((if s.gate.budget < units.toNat then u.hand .scan else u).settle (Config.settleFuel - 1)) := by
      show exec ((Request.setBudget units).command tag) s = _
      rw [exec_control hready tag (.setBudget units) rfl]
      show Host.Outcome.next (State.settle _ (s.takeSetBudget tag units)) = _
      rw [takeSetBudget_accepted hroom tag h2 h128 hin, hu]
    refine ⟨fun hnone => ?alone, ?kept⟩
    case alone =>
      rw [hexec, ← hu]
      refine congrArg Host.Outcome.next ?_
      split
      · next hraised =>
        have hscan : u.takeHanded .scan = u := scan_empty (by rw [hgate]; exact hnone.resolve_right (by omega))
        exact (settle_hand_quiet (quiet_handed hquiet) .scan (by rw [hscan]; exact hquiet) 99998).trans hscan
      · exact settle_quiet _ _ hquiet
    case kept =>
      have hafter : Inner u (if s.gate.budget < units.toNat then u.hand .scan else u) :=
        Inner.ite (Inner.hand u .scan) (Inner.refl u)
      have hcontrol : u.link.control = [] := by
        rw [hu, answered_eq]
        exact (enter_control _ _).trans (ready_spec hready).2.2.2.2.1
      have hkept := hafter.kept.trans (Kept.settle (Config.settleFuel - 1) _ (by rw [hafter.control, hcontrol]))
      have hbudget : u.gate.budget = units.toNat := by rw [hgate]
      refine ⟨_, hexec, by rw [hkept.budget, hbudget], ?_, ?_⟩
      · have hle := hkept.units (by rw [hgate]; exact hin)
        rw [hkept.budget, hbudget] at hle
        exact hle
      · have hfront : u.link.output =
            (s.answered tag 0x52 .ok [units, BitVec.ofNat 8 s.gate.unitsInUse]).link.output := by
          rw [hu]
          exact answered_output_congr (s := s)
            (t := { s with gate := { s.gate with budget := units.toNat } }) rfl rfl _ _ _ _
        rw [← hfront]
        exact hkept.output

/-! ## Lines released and reset -/

/-- Lines made UP one after another, each record changed first (R139, R208). -/
def State.linesUp (s : State) (f : LineRec → LineRec) (ls : List Nat) : State :=
  ls.foldl (fun s l => (s.modLine l f).lineGoesUp l) s

theorem linesUp_cons (s : State) (f : LineRec → LineRec) (a : Nat) (ls : List Nat) :
    s.linesUp f (a :: ls) = ((s.modLine a f).lineGoesUp a).linesUp f ls := rfl

/-- A line made UP: nothing but the lines and the events handed on differs. -/
theorem lineGoesUp_eq (f : LineRec → LineRec) (s : State) (a : Nat) :
    ∃ ls' hs', (s.modLine a f).lineGoesUp a = { s with lines := ls', handed := hs' } := ⟨_, _, rfl⟩

/-- Lines made UP: nothing but the lines and the events handed on differs. -/
theorem linesUp_eq (f : LineRec → LineRec) (ls : List Nat) (s : State) :
    ∃ ls' hs', s.linesUp f ls = { s with lines := ls', handed := hs' } := by
  induction ls generalizing s with
  | nil => exact ⟨_, _, rfl⟩
  | cons a ls ih =>
    obtain ⟨ls', hs', h⟩ := ih ((s.modLine a f).lineGoesUp a)
    obtain ⟨ls₁, hs₁, h₁⟩ := lineGoesUp_eq f s a
    rw [h₁] at h
    exact ⟨ls', hs', (linesUp_cons s f a ls).trans (h₁ ▸ h)⟩

/-- One line made UP has its record changed, the others stand. -/
theorem lineGoesUp_line (f : LineRec → LineRec) (s : State) (a l : Nat) :
    ((s.modLine a f).lineGoesUp a).line l =
      if a = l ∧ a < 8 then { f (s.line a) with state := .up, failureRun := [] } else s.line l := by
  unfold State.lineGoesUp
  rw [hand_line, hand_line]
  by_cases ha : a < 8
  · rw [modLine_modLine ha, line_modLine]
  · simp [line_modLine, ha]

/-- A line that is not made UP stands as it was. -/
theorem linesUp_others (f : LineRec → LineRec) (ls : List Nat) (s : State) {l : Nat} (h : l ∉ ls) :
    (s.linesUp f ls).line l = s.line l := by
  induction ls generalizing s with
  | nil => rfl
  | cons a ls ih =>
    rw [linesUp_cons, ih _ fun hl => h (List.mem_cons_of_mem _ hl), lineGoesUp_line,
      if_neg fun he => h (by simp [he.1])]

/-- A line made UP is UP with an empty failure run. -/
theorem linesUp_named (f : LineRec → LineRec) (ls : List Nat) (s : State) {l : Nat} (h : l ∈ ls) (hl : l < 8) :
    ((s.linesUp f ls).line l).state = .up ∧ ((s.linesUp f ls).line l).failureRun = [] := by
  induction ls generalizing s with
  | nil => cases h
  | cons a ls ih =>
    rw [linesUp_cons]
    by_cases hin : l ∈ ls
    · exact ih _ hin
    · obtain rfl : l = a := (List.mem_cons.1 h).resolve_right hin
      rw [linesUp_others _ _ _ hin, lineGoesUp_line, if_pos ⟨rfl, hl⟩]
      exact ⟨rfl, rfl⟩

theorem mem_silentLines {s : State} {l : Nat} : l ∈ s.silentLines ↔ l < 8 ∧ (s.line l).state = .silent := by
  simp [State.silentLines, lineNumbers]

theorem lineSet_getLsbD (ls : List Nat) {l : Nat} (h : l < 8) : (lineSet ls).getLsbD l = true ↔ l ∈ ls := by
  have hgather := getLsbD_gather (fun _ => True) ls 0 l h
  simpa [lineSet, lineBit] using hgather

/-- RELEASE with a SILENT line: the answer, then each SILENT line UP. -/
theorem takeRelease_silent {s : State} (hroom : s.outputRoom = true) (tag : Byte) (h : s.silentLines ≠ []) :
    s.takeRelease tag =
      (s.answered tag 0x53 .ok [lineSet s.silentLines]).linesUp LineRec.released s.silentLines := by
  unfold State.takeRelease
  cases hs : s.silentLines with
  | nil => exact absurd hs h
  | cons l ls =>
    show ((s.reply tag .release .ok [lineSet (l :: ls)]).linesUp LineRec.released (l :: ls)) = _
    rw [reply_answered hroom]
    rfl

theorem takeResetLine_at {s : State} (tag : Byte) {line : Byte} (h : line.toNat ≤ 7) :
    s.takeResetLine tag line = match (s.line line.toNat).state with
      | .silent => s.reply tag (.resetLine line) .state []
      | .up => (s.modLine line.toNat fun r => { r with failureRun := [] }).reply tag (.resetLine line) .ok [0]
      | .down => (s.reply tag (.resetLine line) .ok [1]).lineGoesUp line.toNat := by
  unfold State.takeResetLine
  exact if_neg (by omega)

theorem answered_line (s : State) (tag code : Byte) (st : Status) (p : List Byte) (l : Nat) :
    (s.answered tag code st p).line l = s.line l := by rw [answered_eq]; rfl

theorem answered_gate (s : State) (tag code : Byte) (st : Status) (p : List Byte) :
    (s.answered tag code st p).gate = s.gate := by rw [answered_eq]

theorem answered_pins (s : State) (tag code : Byte) (st : Status) (p : List Byte) :
    (s.answered tag code st p).pins = s.pins := by rw [answered_eq]

theorem answered_control (s : State) (tag code : Byte) (st : Status) (p : List Byte) :
    (s.answered tag code st p).link.control = s.link.control := by
  rw [answered_eq]
  exact enter_control _ _

theorem ready_control {s : State} (h : s.ready = true) : s.link.control = [] := (ready_spec h).2.2.2.2.1

/-- Settles O24. -/
theorem linesReleased : Obligations.LinesReleased := by
  refine ⟨fun s tag hready => ⟨fun hnone => ?nothing, fun hsome => ?released⟩,
    fun s tag line hready => ⟨fun h => ?beyond, fun h hstate => ?silent, fun h hstate => ?up, fun h hstate => ?down⟩,
    fun s l hl => ?set⟩
  case nothing =>
    have hempty : s.silentLines = [] := by
      rw [List.eq_nil_iff_forall_not_mem]
      exact fun l hl => hnone l (mem_silentLines.1 hl).1 (mem_silentLines.1 hl).2
    refine exec_control_reply hready hready tag (q := .release) rfl ?_
    show s.takeRelease tag = _
    unfold State.takeRelease
    rw [hempty]
  case released =>
    obtain ⟨l₀, hl₀, hsilent⟩ := hsome
    have hne : s.silentLines ≠ [] := List.ne_nil_of_mem (mem_silentLines.2 ⟨hl₀, hsilent⟩)
    obtain ⟨u, hu⟩ : ∃ u, u = (s.answered tag 0x53 .ok [lineSet s.silentLines]).linesUp LineRec.released
      s.silentLines := ⟨_, rfl⟩
    obtain ⟨ls', hs', hsame⟩ :=
      linesUp_eq LineRec.released s.silentLines (s.answered tag 0x53 .ok [lineSet s.silentLines])
    rw [← hu] at hsame
    have hlink : u.link = (s.answered tag 0x53 .ok [lineSet s.silentLines]).link := by rw [hsame]
    have hkept := Kept.settle (Config.settleFuel - 1) u (by rw [hlink, answered_control, ready_control hready])
    refine ⟨u.settle (Config.settleFuel - 1), ?_, ?_, ?_, ?_, fun l hl => ⟨fun hs => ?_, fun hs => ?_⟩⟩
    · show exec (Request.release.command tag) s = _
      rw [exec_control hready tag .release rfl]
      show Host.Outcome.next (State.settle _ (s.takeRelease tag)) = _
      rw [takeRelease_silent (ready_room hready) tag hne, hu]
    · rw [← hlink]
      exact hkept.output
    · rw [hkept.pins, hsame]
      exact answered_pins _ _ _ _ _
    · rw [hkept.budget, hsame]
      exact congrArg Gate.budget (answered_gate _ _ _ _ _)
    · rw [hkept.lineState, hkept.failureRun, hu]
      exact linesUp_named _ _ _ (mem_silentLines.2 ⟨hl, hs⟩) hl
    · rw [hkept.lineState, hkept.failureRun, hu, linesUp_others _ _ _ fun h => hs (mem_silentLines.1 h).2,
        answered_line]
      exact ⟨rfl, rfl⟩
  case beyond =>
    refine exec_control_reply hready hready tag (q := .resetLine line) rfl ?_
    exact if_pos h
  case silent =>
    refine exec_control_reply hready hready tag (q := .resetLine line) rfl ?_
    show s.takeResetLine tag line = _
    rw [takeResetLine_at tag h, hstate]
  case up =>
    refine exec_control_reply (t := s.modLine line.toNat fun r => { r with failureRun := [] }) hready
      (by rw [ready_congr rfl rfl]; exact hready) tag (q := .resetLine line) rfl ?_
    show s.takeResetLine tag line = _
    rw [takeResetLine_at tag h, hstate]
  case down =>
    obtain ⟨u, hu⟩ : ∃ u, u = (s.answered tag 0x54 .ok [1]).linesUp id [line.toNat] := ⟨_, rfl⟩
    have hone : (s.answered tag 0x54 .ok [1]).lineGoesUp line.toNat = u := by
      rw [hu, linesUp_cons, modLine_same (f := id) rfl]
      rfl
    obtain ⟨ls', hs', hsame⟩ := linesUp_eq id [line.toNat] (s.answered tag 0x54 .ok [1])
    rw [← hu] at hsame
    have hlink : u.link = (s.answered tag 0x54 .ok [1]).link := by rw [hsame]
    have hkept := Kept.settle (Config.settleFuel - 1) u (by rw [hlink, answered_control, ready_control hready])
    have hnamed := linesUp_named id [line.toNat] (s.answered tag 0x54 .ok [1]) (by simp)
      (show line.toNat < 8 by omega)
    rw [← hu] at hnamed
    refine ⟨u.settle (Config.settleFuel - 1), ?_, ?_, ?_, ?_, ?_, fun l hl => ?_⟩
    · show exec ((Request.resetLine line).command tag) s = _
      rw [exec_control hready tag (.resetLine line) rfl]
      show Host.Outcome.next (State.settle _ (s.takeResetLine tag line)) = _
      rw [takeResetLine_at tag h, hstate, ← hone]
      dsimp only
      rw [reply_answered (ready_room hready)]
      rfl
    · rw [← hlink]
      exact hkept.output
    · rw [hkept.lineState]
      exact hnamed.1
    · rw [hkept.failureRun]
      exact hnamed.2
    · rw [hkept.budget, hsame]
      exact congrArg Gate.budget (answered_gate _ _ _ _ _)
    · rw [hkept.lineState, hkept.failureRun, hu, linesUp_others _ _ _ (by simpa using hl), answered_line]
      exact ⟨rfl, rfl⟩
  case set =>
    rw [lineSet_getLsbD _ hl, mem_silentLines]
    exact and_iff_right hl

end Sys2Proof.Machine
end

