-- ==== Sys2Proof/Proofs/CancelReset.lean ====
section
/-! PROOFS. SET_TIMING, SET_NOTICES, CANCEL, CLEAR_HALT, FLUSH and RESET_SEGMENT at rest (R202 to R208, R211). -/

namespace Sys2Proof.Machine

/-! ## SET_TIMING, SET_NOTICES -/

theorem timingOk_iff (v low high : Nat) : timingOk v low high = true ↔ v = 0 ∨ (low ≤ v ∧ v ≤ high) := by
  simp [timingOk]

/-- An answer leaves the notice mask as it is. -/
theorem reply_mask (s : State) (tag : Byte) (q : Request) (st : Status) (p : List Byte) :
    (s.reply tag q st p).link.mask = s.link.mask := (Inner.reply s tag q st p).mask

/-- An answer leaves the pending notices as they are. -/
theorem reply_notices (s : State) (tag : Byte) (q : Request) (st : Status) (p : List Byte) :
    (s.reply tag q st p).link.notices = s.link.notices := by
  unfold State.reply State.answer
  split
  · rw [enterOutput_eq]
    exact enter_notices _ _
  · rfl

/-- Settles O25. -/
theorem settingsWritten : Obligations.SettingsWritten := by
  refine ⟨fun s tag c e f hready => ?timing, fun s tag mask => ⟨fun hready => ?notices, ?mask, ?pending⟩⟩
  case timing =>
    have hok : (timingOk c.toNat 1 600 && timingOk e.toNat 100 10000 && timingOk f.toNat 1 7) = true ↔
        (c.toNat = 0 ∨ c.toNat ≤ 600) ∧ (e.toNat = 0 ∨ (100 ≤ e.toNat ∧ e.toNat ≤ 10000)) ∧
          (f.toNat = 0 ∨ f.toNat ≤ 7) := by
      simp only [Bool.and_eq_true, timingOk_iff]
      omega
    show exec ((Request.setTiming c e f).command tag) s = _
    rw [exec_control hready tag (.setTiming c e f) rfl]
    refine congrArg Host.Outcome.next ?_
    show State.settle _ (s.takeSetTiming tag c e f) = _
    unfold State.takeSetTiming
    dsimp only
    simp only [apply_ite (State.settle (Config.settleFuel - 1))]
    refine ite_congr (propext hok) (fun _ => ?_) fun _ => settle_reply hready _ tag (.setTiming c e f) _ _
    exact settle_reply_of (s := s)
      (t := { s with settings := ⟨timingNew c.toNat _, timingNew e.toNat _, timingNew f.toNat _⟩ })
      hready rfl rfl _ tag (.setTiming c e f) .ok _
  case notices =>
    have hempty : s.link.notices = [] := (ready_spec hready).2.2.2.1
    refine exec_control_reply (t := { s with link := { s.link with mask := mask } }) hready ?_ tag
      (q := .setNotices mask) rfl ?_
    · obtain ⟨hh, hr, hw, hn, hc, hp⟩ := ready_spec hready
      exact ready_of hh hr hw hn hc hp
    · have hlink : (s.modLink fun k =>
          { k with mask := mask, notices := k.notices.filter fun n => mask.getLsbD n.summary.kind }) =
          { s with link := { s.link with mask := mask } } := by
        unfold State.modLink
        dsimp only
        rw [hempty, List.filter_nil, ← hempty]
      exact congrArg (fun t : State => t.reply tag (.setNotices mask) .ok [s.link.mask, mask]) hlink
  case mask => exact reply_mask _ _ _ _ _
  case pending => exact reply_notices _ _ _ _ _

/-! ## CANCEL -/

/-- A frame enters the output queue whatever request is current. -/
theorem enter_withCurrent (k : Link) (f : OutFrame) (c : Option Current) :
    { k.enter f with current := c } = ({ k with current := c } : Link).enter f := by
  unfold Link.enter
  dsimp only
  split <;> rfl

/-- An answer and a change of the current request, in either order. -/
theorem answered_withCurrent (s : State) (tag code : Byte) (st : Status) (p : List Byte) (c : Option Current) :
    ({ s.answered tag code st p with link := { (s.answered tag code st p).link with current := c } } : State) =
      ({ s with link := { s.link with current := c } } : State).answered tag code st p := by
  rw [answered_eq, answered_eq]
  dsimp only
  rw [enter_withCurrent]

theorem answered_current (s : State) (tag code : Byte) (st : Status) (p : List Byte) :
    (s.answered tag code st p).link.current = s.link.current := by
  rw [answered_eq]
  exact enter_current _ _

/-- An answer takes one place of the output queue. -/
theorem answered_output_length (s : State) (tag code : Byte) (st : Status) (p : List Byte) :
    (s.answered tag code st p).link.output.length = s.link.output.length + 1 := by
  rw [answered_eq]
  show (s.link.enter _).output.length = _
  rw [enter_output]
  split
  · next h => simp [h]
  · simp

theorem outputRoom_answered {s : State} (h : s.link.output.length + 2 ≤ 16) (tag code : Byte) (st : Status)
    (p : List Byte) : (s.answered tag code st p).outputRoom = true := by
  rw [outputRoom_iff, answered_output_length]
  exact h

/-- A block at rest that answers, with a place left and no plan frame waiting, is at rest again. -/
theorem answered_ready {s : State} (h : s.ready = true) (hroom : s.link.output.length + 2 ≤ 16)
    (tag code : Byte) (st : Status) (p : List Byte) : (s.answered tag code st p).ready = true := by
  unfold State.ready
  rw [answered_quiet h, outputRoom_answered hroom]
  rfl

/-- A block at rest with no plan frame waiting is at rest whatever request is current. -/
theorem ready_withCurrent {s : State} (h : s.ready = true) (hplan : s.link.plan = []) (c : Option Current) :
    ({ s with link := { s.link with current := c } } : State).ready = true := by
  obtain ⟨hh, hr, hw, hn, hc, _⟩ := ready_spec h
  exact ready_of hh hr hw hn hc fun _ => hplan

/-- A block at rest with a current request is at rest with any other one current. -/
theorem ready_doing {s : State} (h : s.ready = true) (c : Current) :
    ({ s with link := s.link.doing c } : State).ready = true := by
  obtain ⟨hh, hr, hw, hn, hc, _⟩ := ready_spec h
  refine ready_of hh hr hw hn hc fun hmoves => ?_
  simp [State.planMoves, Link.doing] at hmoves

/-- The current request answered at once after another answer: both answers stand, in order, and none is current. -/
theorem answerCurrent_after {s : State} {c : Current} (h : s.link.current = some c)
    (hroom : s.link.output.length + 2 ≤ 16) (tag code : Byte) (st st' : Status) (p p' : List Byte) :
    (s.answered tag code st p).answerCurrent st' p' =
      (({ s with link := { s.link with current := none } } : State).answered tag code st p).answered c.tag c.code st'
        p' := by
  rw [answerCurrent_answered (by rw [answered_current, h]) (outputRoom_answered hroom _ _ _ _), answered_withCurrent]

/-- The work of the current request written. -/
theorem modLink_work {s : State} {c : Current} (h : s.link.current = some c) (w : Work) :
    (s.modLink fun k => { k with current := k.current.map fun c => { c with work := w } }) =
      { s with link := { s.link with current := some { c with work := w } } } := by
  unfold State.modLink
  dsimp only
  rw [h]
  rfl

/-- CANCEL of a probe marks it. -/
theorem takeCancel_probe {s : State} (hroom : s.outputRoom = true) {c : Current} {p : ProbeRec}
    (hc : s.link.current = some c) (hw : c.work = .probe p) (tag : Byte) :
    s.takeCancel tag = ({ s with link := s.link.doing { c with work := .probe { p with cancelled := true } } } :
      State).answered tag 0x5A .ok ([c.code] ++ b2 c.tag.toNat ++ [1]) := by
  have hrec : (s.replyCancel tag c .marked).probeRec = some p := by
    unfold State.replyCancel State.probeRec
    rw [reply_answered hroom, answered_current, hc]
    dsimp only
    rw [hw]
  have hcur : (s.replyCancel tag c .marked).link.current = some c := by
    unfold State.replyCancel
    rw [reply_answered hroom, answered_current, hc]
  have htake : s.takeCancel tag = (s.replyCancel tag c .marked).modProbe fun p => { p with cancelled := true } := by
    unfold State.takeCancel
    rw [hc]
    dsimp only
    rw [hw]
  rw [htake]
  unfold State.modProbe
  rw [hrec]
  dsimp only
  rw [modLink_work hcur]
  unfold State.replyCancel
  rw [reply_answered hroom]
  exact answered_withCurrent s _ _ _ _ _

/-- CANCEL of a measured list marks it. -/
theorem takeCancel_measure {s : State} (hroom : s.outputRoom = true) {c : Current} {m : MeasureRec}
    (hc : s.link.current = some c) (hw : c.work = .measure m) (tag : Byte) :
    s.takeCancel tag = ({ s with link := s.link.doing { c with work := .measure { m with cancelled := true } } } :
      State).answered tag 0x5A .ok ([c.code] ++ b2 c.tag.toNat ++ [1]) := by
  have hcur : (s.replyCancel tag c .marked).link.current = some c := by
    unfold State.replyCancel
    rw [reply_answered hroom, answered_current, hc]
  have htake : s.takeCancel tag = (s.replyCancel tag c .marked).setMeasure { m with cancelled := true } := by
    unfold State.takeCancel
    rw [hc]
    dsimp only
    rw [hw]
  rw [htake]
  unfold State.setMeasure
  rw [modLink_work hcur]
  unfold State.replyCancel
  rw [reply_answered hroom]
  exact answered_withCurrent s _ _ _ _ _

/-- CANCEL of a RECOVER: a QUEUED leg is removed, one further on is not reached. -/
theorem takeCancel_recover {s : State} {c : Current} {n : Nat} (hc : s.link.current = some c)
    (hw : c.work = .recover n) (tag : Byte) :
    s.takeCancel tag =
      if s.queuedLeg n then (s.replyCancel tag c .answered).cancelRecover n else s.replyCancel tag c .none := by
  unfold State.takeCancel
  rw [hc]
  dsimp only
  rw [hw]

/-- A robot whose QUEUED recovery leg CANCEL removed: the return state is used, and the start queue, which held no
other entry, is empty (R19, R189). -/
def State.recoveryRemoved (s : State) (n : Nat) (t : ReturnState) : State :=
  (s.modSlot n fun r => { r with leg := none, recoveryReturn := none, state := t.toState }).modGate
    fun g => { g with startQueue := [] }

/-- A QUEUED recovery leg leaves the start queue and its robot returns. -/
theorem recoverReturns_removed {s : State} {n : Nat} {t : ReturnState} (ht : (s.slot n).recoveryReturn = some t)
    (honly : ∀ e ∈ s.gate.startQueue, e.slot = n) : (s.leaveStart n).recoverReturns n = s.recoveryRemoved n t := by
  have hqueue : (s.gate.startQueue.filter fun e => e.slot != n) = [] := by
    rw [List.filter_eq_nil_iff]
    intro e he
    simp [honly e he]
  have hslot : (s.leaveStart n).slot n = s.slot n := rfl
  have hmod : (s.leaveStart n).recoverReturns n =
      (s.leaveStart n).modSlot n fun r => { r with leg := none, recoveryReturn := none, state := t.toState } :=
    modSlot_congr (by rw [hslot, ht])
  have hleave : s.leaveStart n = s.modGate fun g => { g with startQueue := [] } := by
    unfold State.leaveStart State.modGate
    dsimp only
    rw [hqueue]
  rw [hmod, hleave]
  rfl

/-- An answer and the removal of a QUEUED recovery leg, in either order. -/
theorem recoveryRemoved_answered (s : State) (n : Nat) (r : ReturnState) (tag code : Byte) (st : Status)
    (p : List Byte) :
    (s.answered tag code st p).recoveryRemoved n r = (s.recoveryRemoved n r).answered tag code st p := by
  rw [answered_eq, answered_eq]
  rfl

/-- The link after a queued recovery was cancelled is that of the block before. -/
theorem recoveryRemoved_ready {s : State} (h : s.ready = true) (n : Nat) (t : ReturnState) :
    (s.recoveryRemoved n t).ready = true := (ready_congr (s := s) rfl rfl).trans h

theorem ReturnState.toState_cases : [ReturnState.rest, .held, .faulted].map ReturnState.toState = [.rest, .held, .faulted] :=
  rfl

/-- Settles O26. -/
theorem cancel : Obligations.Cancel := by
  refine ⟨fun s tag hready => ⟨fun hnone => ?nothing, fun c hc => ⟨fun hw hroom hplan => ?await,
    fun p hw => ?probe, fun m hw => ?measure, fun n hw hq => ?later, fun n t hw hq ht honly hroom hplan => ?queued⟩⟩,
    fun s n => ?leg, ReturnState.toState_cases⟩
  case nothing =>
    refine exec_control_reply hready hready tag (q := .cancel) rfl ?_
    show s.takeCancel tag = _
    unfold State.takeCancel
    rw [hnone]
  case await =>
    have htake : s.takeCancel tag =
        (s.answered tag 0x5A .ok ([c.code] ++ b2 c.tag.toNat ++ [2])).answerCurrent .cancelled [] := by
      unfold State.takeCancel
      rw [hc]
      dsimp only
      rw [hw]
      dsimp only
      unfold State.replyCancel
      rw [reply_answered (ready_room hready)]
      rfl
    show exec (Request.cancel.command tag) s = _
    rw [exec_control hready tag .cancel rfl]
    refine congrArg Host.Outcome.next ?_
    show State.settle _ (s.takeCancel tag) = _
    rw [htake, answerCurrent_after hc hroom]
    exact settle_answered (answered_ready (ready_withCurrent hready hplan none) hroom _ _ _ _) _ _ _ _ _
  case probe =>
    show exec (Request.cancel.command tag) s = _
    rw [exec_control hready tag .cancel rfl]
    refine congrArg Host.Outcome.next ?_
    show State.settle _ (s.takeCancel tag) = _
    rw [takeCancel_probe (ready_room hready) hc hw]
    exact settle_answered (ready_doing hready _) _ _ _ _ _
  case measure =>
    show exec (Request.cancel.command tag) s = _
    rw [exec_control hready tag .cancel rfl]
    refine congrArg Host.Outcome.next ?_
    show State.settle _ (s.takeCancel tag) = _
    rw [takeCancel_measure (ready_room hready) hc hw]
    exact settle_answered (ready_doing hready _) _ _ _ _ _
  case later =>
    refine exec_control_reply hready hready tag (q := .cancel) rfl ?_
    show s.takeCancel tag = _
    rw [takeCancel_recover hc hw, hq]
    rfl
  case queued =>
    obtain ⟨base, hbase⟩ : ∃ base, base = s.recoveryRemoved n t := ⟨_, rfl⟩
    have hbready : base.ready = true := by rw [hbase, recoveryRemoved_ready hready]
    have hblink : base.link = s.link := by rw [hbase]; rfl
    have hbroom : base.link.output.length + 2 ≤ 16 := by rw [hblink]; exact hroom
    have hremoved : ((s.answered tag 0x5A .ok ([c.code] ++ b2 c.tag.toNat ++ [2])).leaveStart n).recoverReturns n =
        base.answered tag 0x5A .ok ([c.code] ++ b2 c.tag.toNat ++ [2]) := by
      rw [recoverReturns_removed (t := t) (by rw [answered_eq]; exact ht) (by rw [answered_eq]; exact honly),
        recoveryRemoved_answered, hbase]
    obtain ⟨u, hu⟩ : ∃ u, u = (({ base with link := { base.link with current := none } } : State).answered tag 0x5A .ok
      ([c.code] ++ b2 c.tag.toNat ++ [2])).answered c.tag c.code .cancelled [] := ⟨_, rfl⟩
    have htake : s.takeCancel tag = u.hand .scan := by
      rw [takeCancel_recover hc hw, hq, if_pos rfl]
      unfold State.replyCancel
      rw [reply_answered (ready_room hready)]
      show ((((s.answered tag 0x5A .ok ([c.code] ++ b2 c.tag.toNat ++ [2])).leaveStart n).recoverReturns
        n).answerCurrent .cancelled []).hand .scan = _
      rw [hremoved, answerCurrent_after (by rw [hblink, hc]) hbroom, hu]
    have hquiet : u.quiet = true := by
      rw [hu]
      exact answered_quiet (answered_ready (ready_withCurrent hbready (by rw [hblink, hplan]) none) hbroom _ _ _ _)
        _ _ _ _
    have hscan : u.takeHanded .scan = u := scan_empty (by rw [hu, answered_eq, answered_eq, hbase]; rfl)
    show exec (Request.cancel.command tag) s = _
    rw [exec_control hready tag .cancel rfl]
    refine congrArg Host.Outcome.next ?_
    show State.settle _ (s.takeCancel tag) = _
    rw [htake]
    refine ((settle_hand_quiet (quiet_handed hquiet) .scan (by rw [hscan]; exact hquiet) 99998).trans hscan).trans ?_
    rw [hu, hbase]
    rfl
  case leg =>
    unfold State.queuedLeg
    cases (s.slot n).leg <;> simp

/-! ## CLEAR_HALT, FLUSH -/

/-- Settles O27. -/
theorem planChannelCleared : Obligations.PlanChannelCleared := by
  refine ⟨fun s tag hready => ⟨fun hopen => ?opened, fun r hhalt => ?halted⟩, fun s tag hready => ?flushed⟩
  case opened =>
    refine exec_control_reply hready hready tag (q := .clearHalt) rfl ?_
    show s.takeClearHalt tag = _
    unfold State.takeClearHalt
    rw [hopen]
  case halted =>
    obtain ⟨u, hu⟩ : ∃ u : State, u = { s with link := { s.link with halt := none } } := ⟨_, rfl⟩
    have htake : s.takeClearHalt tag = u.reply tag .clearHalt .ok [BitVec.ofNat 8 r.code] := by
      unfold State.takeClearHalt
      rw [hhalt, hu]
      rfl
    obtain ⟨hh, hr, hw, hn, hc, _⟩ := ready_spec hready
    refine ⟨fun hplan => ?alone, ?kept⟩
    case alone =>
      rw [← hu]
      refine exec_control_reply hready ?_ tag (q := .clearHalt) rfl htake
      rw [hu]
      exact ready_of hh hr hw hn hc fun _ => hplan
    case kept =>
      have hroom : u.outputRoom = true := by rw [hu]; exact hr
      have hcontrol : u.link.control = [] := by rw [hu]; exact hc
      have hkept := Kept.settle (Config.settleFuel - 1) (u.answered tag 0x5B .ok [BitVec.ofNat 8 r.code])
        (by rw [answered_control, hcontrol])
      refine ⟨_, ?_, ?_, hkept.settings.trans (by rw [answered_eq, hu]),
        hkept.pins.trans (by rw [answered_eq, hu])⟩
      · show exec (Request.clearHalt.command tag) s = _
        rw [exec_control hready tag .clearHalt rfl]
        show Host.Outcome.next (State.settle _ (s.takeClearHalt tag)) = _
        rw [htake, reply_answered hroom]
        rfl
      · rw [← answered_output_congr (s := s) (t := u) (by rw [hu]) (by rw [hu])]
        exact hkept.output
  case flushed =>
    obtain ⟨hh, hr, hw, hn, hc, _⟩ := ready_spec hready
    exact exec_control_reply (t := { s with link := { s.link with plan := [], assembly := [] } }) hready
      (ready_of hh hr hw hn hc fun _ => rfl) tag (q := .flush) rfl rfl

/-! ## RESET_SEGMENT -/

theorem mem_slotNumbers {n : Nat} : n ∈ slotNumbers ↔ n < 128 := List.mem_range

theorem mem_lineNumbers {l : Nat} : l ∈ lineNumbers ↔ l < 8 := List.mem_range

theorem segmentBusy_iff (s : State) :
    s.segmentBusy = true ↔ s.link.current ≠ none ∨ ∃ n, n < 128 ∧ (s.slot n).busy = true := by
  simp [State.segmentBusy, mem_slotNumbers, Option.isSome_iff_ne_none]

/-- Line records changed one after another. -/
def State.modLines (s : State) (f : LineRec → LineRec) (ls : List Nat) : State := ls.foldl (fun s l => s.modLine l f) s

/-- Line records changed: nothing but the lines differs. -/
theorem modLines_eq (f : LineRec → LineRec) (ls : List Nat) (s : State) :
    ∃ ls', s.modLines f ls = { s with lines := ls' } := by
  induction ls generalizing s with
  | nil => exact ⟨_, rfl⟩
  | cons a ls ih => exact ih (s.modLine a f)

/-- Each line named once is changed once, the others stand. -/
theorem modLines_line (f : LineRec → LineRec) (ls : List Nat) (hls : ls.Nodup) (s : State) {l : Nat} (hl : l < 8) :
    (s.modLines f ls).line l = if l ∈ ls then f (s.line l) else s.line l := by
  induction ls generalizing s with
  | nil => rfl
  | cons a ls ih =>
    obtain ⟨ha, hls'⟩ := List.nodup_cons.1 hls
    refine (ih hls' (s.modLine a f)).trans ?_
    rw [line_modLine]
    by_cases hla : a = l
    · subst hla
      simp [ha, hl]
    · simp [hla, Ne.symm hla]

/-- The records of every block but the port after a segment reset, the DOWN lines still DOWN. -/
def State.segmentCleared (s : State) : State :=
  ({ (s.mapSlots SlotRec.segmentReset) with
    batch := .none
    settings := Settings.default
    gate := { s.gate with budget := s.gate.resetBudget } } : State).modLines LineRec.segmentReset lineNumbers

/-- The port after a segment reset (R208). -/
def Link.segmentReset (k : Link) : Link := { k with plan := [], assembly := [], halt := none, mask := 255, notices := [] }

/-- The segment reset clears the records and then makes the DOWN lines UP. -/
theorem resetSegment_eq (s : State) :
    s.resetSegment = (s.segmentCleared.modLink Link.segmentReset).linesUp id s.downLines := by
  have hup : (fun (s : State) l => s.lineGoesUp l) = fun s l => (s.modLine l id).lineGoesUp l := by
    funext s l
    rw [modLine_same (f := id) rfl]
  show s.downLines.foldl (fun s l => s.lineGoesUp l) (s.segmentCleared.modLink Link.segmentReset) = _
  rw [hup]
  rfl

theorem segmentCleared_eq (s : State) :
    ∃ ls', s.segmentCleared = { (s.mapSlots SlotRec.segmentReset) with
      batch := .none
      settings := Settings.default
      gate := { s.gate with budget := s.gate.resetBudget }
      lines := ls' } := modLines_eq _ _ _

theorem segmentCleared_line (s : State) {l : Nat} (hl : l < 8) :
    s.segmentCleared.line l = (s.line l).segmentReset := by
  unfold State.segmentCleared
  exact (modLines_line _ _ (List.nodup_range : lineNumbers.Nodup) _ hl).trans (if_pos (mem_lineNumbers.2 hl))

theorem segmentCleared_slot (s : State) {n : Nat} (hn : n < 128) :
    s.segmentCleared.slot n = (s.slot n).segmentReset := by
  obtain ⟨ls', h⟩ := segmentCleared_eq s
  rw [h]
  exact slot_mapSlots s SlotRec.segmentReset n hn

theorem mem_downLines {s : State} {l : Nat} : l ∈ s.downLines ↔ l < 8 ∧ (s.line l).state = .down := by
  simp [State.downLines, mem_lineNumbers]

theorem batch_none_of_header {b : Batch} (h : b.header = none) : b = .none := by
  cases b with
  | none => rfl
  | opened b => cases h
  | closed b w => cases h

/-- Settles O28. -/
theorem resetSegment : Obligations.ResetSegment := by
  refine ⟨fun s tag hready => ⟨fun hbusy => ?busy, fun hcur hfree => ?free⟩, fun r => ?busySlot⟩
  case busy =>
    refine exec_control_reply hready hready tag (q := .resetSegment) rfl ?_
    exact if_pos ((segmentBusy_iff s).2 hbusy)
  case free =>
    have hnot : ¬ s.segmentBusy = true := by
      rw [segmentBusy_iff, not_or]
      exact ⟨fun h => h hcur, fun ⟨n, hn, hb⟩ => by rw [hfree n hn] at hb; cases hb⟩
    have htake : s.takeResetSegment tag =
        s.resetSegment.reply tag .resetSegment .reset (b1 (max 48 s.gate.unitsInUse)) := if_neg hnot
    obtain ⟨hh, hr, hw, hn, hc, _⟩ := ready_spec hready
    obtain ⟨c, hcleared⟩ : ∃ c : State, c = s.segmentCleared.modLink Link.segmentReset := ⟨_, rfl⟩
    obtain ⟨ls', hbase⟩ := segmentCleared_eq s
    have hfields : c = { (s.mapSlots SlotRec.segmentReset) with
        batch := .none
        settings := Settings.default
        gate := { s.gate with budget := s.gate.resetBudget }
        lines := ls'
        link := s.link.segmentReset } := by rw [hcleared, hbase]; rfl
    have hline (l : Nat) (hl : l < 8) : c.line l = (s.line l).segmentReset := by
      rw [hcleared, modLink_line, segmentCleared_line s hl]
    have hslot (n : Nat) (hn : n < 128) : c.slot n = (s.slot n).segmentReset := by
      rw [hcleared, modLink_slot, segmentCleared_slot s hn]
    have hreset : s.resetSegment = c.linesUp id s.downLines := by rw [resetSegment_eq, hcleared]
    refine ⟨fun hup => ?whole, ?named⟩
    case whole =>
      have hnone : s.downLines = [] := by
        rw [List.eq_nil_iff_forall_not_mem]
        exact fun l hl => hup l (mem_downLines.1 hl).1 (mem_downLines.1 hl).2
      have hsame : s.resetSegment = c := by rw [hreset, hnone]; rfl
      refine ⟨c, exec_control_reply hready ?_ tag (q := .resetSegment) rfl (by rw [← hsame]; exact htake), hslot, hline,
        congrArg State.batch hfields, congrArg State.settings hfields, congrArg State.gate hfields,
        congrArg State.link hfields, (congrArg State.zones hfields).trans rfl,
        (congrArg State.pins hfields).trans rfl, (congrArg State.waitList hfields).trans rfl,
        (congrArg State.now hfields).trans rfl⟩
      rw [hfields]
      exact ready_of hh hr hw rfl hc fun _ => rfl
    case named =>
      obtain ⟨u, hu⟩ : ∃ u, u = c.linesUp id s.downLines := ⟨_, rfl⟩
      obtain ⟨ls, hs, hup⟩ := linesUp_eq id s.downLines c
      rw [← hu, hfields] at hup
      have hulink : u.link = s.link.segmentReset := by rw [hup]
      have hlines (l : Nat) (hl : l < 8) : (u.line l).failureRun = [] ∧
          (u.line l).state = if (s.line l).state = .down then .up else (s.line l).state := by
        by_cases hdown : (s.line l).state = .down
        · obtain ⟨hstate, hrun⟩ := linesUp_named id s.downLines c (mem_downLines.2 ⟨hl, hdown⟩) hl
          rw [hu, if_pos hdown]
          exact ⟨hrun, hstate⟩
        · rw [hu, if_neg hdown, linesUp_others _ _ _ fun h => hdown (mem_downLines.1 h).2, hline l hl]
          exact ⟨rfl, rfl⟩
      have hkept := Inner.settle (Config.settleFuel - 1)
        (u.answered tag 0x5F .reset (b1 (max 48 s.gate.unitsInUse)))
        (by rw [answered_control, hulink]; exact hc) (by rw [answered_eq, hulink]; exact enter_plan _ _)
      have hbatch := hkept.batch
      refine ⟨(u.answered tag 0x5F .reset (b1 (max 48 s.gate.unitsInUse))).settle (Config.settleFuel - 1), ?_, ?_, ?_,
        ?_, ?_, ?_, ?_, fun l hl => ⟨?_, ?_⟩⟩
      · show exec (Request.resetSegment.command tag) s = _
        rw [exec_control hready tag .resetSegment rfl]
        show Host.Outcome.next (State.settle _ (s.takeResetSegment tag)) = _
        rw [htake, hreset, ← hu, reply_answered (by rw [outputRoom_iff, hulink]; exact (outputRoom_iff s).1 hr)]
        rfl
      · have hnone : (u.answered tag 0x5F .reset (b1 (max 48 s.gate.unitsInUse))).batch = .none := by
          rw [answered_eq, hup]
        exact batch_none_of_header (hbatch.trans (by rw [hnone]; rfl))
      · rw [hkept.settings, answered_eq, hup]
        rfl
      · rw [hkept.budget, answered_eq, hup]
        rfl
      · rw [hkept.mask, answered_eq, hulink]
        exact enter_mask _ _
      · rw [hkept.halt, answered_eq, hulink]
        exact enter_halt _ _
      · rw [hkept.pins, answered_eq, hup]
        rfl
      · rw [hkept.failureRun, answered_line]
        exact (hlines l hl).1
      · rw [hkept.lineState, answered_line]
        exact (hlines l hl).2
  case busySlot =>
    unfold SlotRec.busy
    cases r.state <;> simp

end Sys2Proof.Machine
end

