-- ==== Sys2Proof/Proofs/Reads.lean ====
section
/-! PROOFS. The six reads and their payloads, field by field (R37, R55, R75, R94, R97, R166, R207, R213). -/

namespace Sys2Proof.Machine

/-! ## The answers -/

/-- An answer that finds a place changes the output queue alone. -/
theorem answered_onlySends (s : State) (tag code : Byte) (st : Status) (p : List Byte) :
    s.OnlySends (s.answered tag code st p) := by
  have hlink (f : OutFrame) : s.link.enter f = { s.link with output := (s.link.enter f).output } := by
    unfold Link.enter
    split <;> rfl
  refine ⟨?_, ?_⟩
  · rw [answered_eq]
    exact congrArg (fun k : Link => { s with link := k }) (hlink _)
  · rw [answered_eq]
    show s.link.output <+: (s.link.enter _).output
    rw [enter_output]
    split
    · next h => rw [h]; exact List.nil_prefix
    · exact List.prefix_append _ _

/-- A read of a record whose number is in range answers it, and BAD_REQUEST otherwise. -/
theorem exec_read {s : State} (h : s.ready = true) (tag : Byte) {q : Request} (hq : q.channel = .control)
    {low high : Prop} [Decidable low] [Decidable high] (hrange : high ↔ ¬ low) {p : List Byte}
    (htake : s.take tag q = if high then s.reply tag q .badRequest [] else s.reply tag q .ok p) :
    exec (q.command tag) s =
      .next (if low then s.answered tag q.code .ok p else s.answered tag q.code .badRequest []) := by
  by_cases hlow : low
  · rw [if_pos hlow]
    exact exec_control_reply h h tag hq (htake.trans (if_neg fun hh => hrange.1 hh hlow))
  · rw [if_neg hlow]
    exact exec_control_reply h h tag hq (htake.trans (if_pos (hrange.2 hlow)))

/-! ## Lists with places -/

/-- A list numbered from a place. -/
theorem withPlaces_eq {α : Type} (l : List α) (k : Nat) : withPlaces k l = (l.zipIdx k).map Prod.swap := by
  induction l generalizing k with
  | nil => rfl
  | cons x xs ih => rw [withPlaces, ih, List.zipIdx_cons, List.map_cons]; rfl

/-! ## READ_ZONE -/

theorem bOpt_none (width : Nat) : bOpt width none = 0 :: List.replicate width 0 := rfl

theorem bOpt_some (width : Nat) (field : List Byte) : bOpt width (some field) = 1 :: field := rfl

theorem occupiedBy_iff (r : ZoneRec) (n : Nat) (p : Position) :
    r.occupiedBy n (some p) = true ↔
      let own := if r.lower = n then r.lowerBox else r.higherBox
      own.alphaLow ≤ p.alpha ∧ p.alpha ≤ own.alphaHigh ∧ own.betaLow ≤ p.beta ∧ p.beta ≤ own.betaHigh := by
  have hbox : r.boxOf (r.sideOf n) = if r.lower = n then r.lowerBox else r.higherBox := by
    unfold ZoneRec.sideOf
    split <;> rfl
  simp [ZoneRec.occupiedBy, hbox, Box.holds]

/-- Whether a robot occupies its side box: unknown without a position (R75). -/
theorem occupancyCode_eq (s : State) (r : ZoneRec) (n : Nat) :
    s.occupancyCode r n =
      let own := if r.lower = n then r.lowerBox else r.higherBox
      match (s.slot n).position with
      | none => 2
      | some p =>
        if own.alphaLow ≤ p.alpha ∧ p.alpha ≤ own.alphaHigh ∧ own.betaLow ≤ p.beta ∧ p.beta ≤ own.betaHigh then 1
        else 0 := by
  unfold State.occupancyCode
  cases (s.slot n).position with
  | none => rfl
  | some p =>
    show (if r.occupiedBy n (some p) then 1 else 0) = _
    exact ite_congr_iff (occupiedBy_iff r n p) rfl rfl

theorem wanting_eq (s : State) (z : Nat) :
    (s.wanting z).map b1 = (s.waitList.filter fun e => decide (z ∈ e.wanted)).map fun e => b1 e.slot := by
  simp [State.wanting]

theorem zoneBytes_none {s : State} {z : Nat} (h : s.zone z = none) : s.zoneBytes z = b2 z ++ b1 4 := by
  unfold State.zoneBytes
  rw [h]

theorem zoneBytes_some {s : State} {z : Nat} {r : ZoneRec} (h : s.zone z = some r) :
    s.zoneBytes z = b2 z ++ b1 r.status.code ++ b1 r.lower ++ r.lowerBox.bytes ++ b1 r.higher ++ r.higherBox.bytes ++
      r.partyBytes ++ b1 (s.occupancyCode r r.lower) ++ b1 (s.occupancyCode r r.higher) ++
      bList ((s.wanting z).map b1) := by
  unfold State.zoneBytes
  rw [h]

/-- A zone's holder and intruder as READ_ZONE gives them. -/
theorem partyBytes_eq (r : ZoneRec) :
    let slot : Side → Nat := fun x => if x = .lower then r.lower else r.higher
    let other : Side → Nat := fun x => if x = .lower then r.higher else r.lower
    let shows : Nat → List Byte → List Byte → Prop := fun code holder intruder =>
      b1 r.status.code = b1 code ∧ r.partyBytes = holder ++ intruder
    (r.status = .free → shows 0 [0, 0] [0, 0]) ∧
    (∀ h, r.status = .held h → shows 1 (1 :: b1 (slot h)) [0, 0]) ∧
    (∀ h, r.status = .contested h → shows 2 (1 :: b1 (slot h)) (1 :: b1 (other h))) ∧
    (∀ h, r.status = .fenced h false → shows 3 (1 :: b1 (slot h)) [0, 0]) ∧
    (∀ h, r.status = .fenced h true → shows 3 (1 :: b1 (slot h)) (1 :: b1 (other h))) := by
  unfold ZoneRec.partyBytes
  refine ⟨fun h => ?_, fun h hs => ?_, fun h hs => ?_, fun h hs => ?_, fun h hs => ?_⟩
  · rw [h]; exact ⟨rfl, rfl⟩
  all_goals rw [hs]; cases h <;> exact ⟨rfl, rfl⟩

/-! ## READ_WAITLIST -/

theorem waitListBytes_eq (s : State) (index : Nat) :
    s.waitListBytes index =
      b2 s.waitList.length ++ b2 s.settings.claimTimeout ++
        bList ((((s.waitList.drop index).take 30).zipIdx index).map fun x =>
          b2 x.2 ++ b1 x.1.slot ++ b1 x.1.cls ++ b6 x.1.entryTime ++ b6 x.1.deadline ++
            bList (x.1.wanted.map s.wantedBytes)) := by
  unfold State.waitListBytes
  rw [withPlaces_eq, List.map_map]
  rfl

theorem wantedBytes_eq (s : State) (z : Nat) :
    s.wantedBytes z =
      match s.zone z with
      | none => b2 z ++ b1 4 ++ [0, 0]
      | some r =>
        b2 z ++ b1 r.status.code ++
          match r.status with
          | .held h => 1 :: b1 (if h = .lower then r.lower else r.higher)
          | .free => [0, 0]
          | .contested _ => [0, 0]
          | .fenced _ _ => [0, 0] := by
  unfold State.wantedBytes
  cases s.zone z with
  | none => rfl
  | some r =>
    dsimp only
    cases r.status with
    | held h => cases h <;> rfl
    | free => rfl
    | contested h => rfl
    | fenced h i => rfl

/-! ## READ_LINE -/

/-- A slot is on a line when it is not VACANT and its address names the line. -/
theorem onLine_eq (r : SlotRec) (l : Nat) :
    r.onLine l = decide (r.state ≠ .vacant ∧ r.addr.map BusAddr.line = some l) := by
  unfold SlotRec.onLine
  cases r.addr with
  | none => simp
  | some a => simp [Bool.decide_and, Bool.beq_eq_decide_eq]

theorem slotsOn_eq (s : State) (l : Nat) :
    s.slotsOn l = (List.range 128).filter fun n =>
      decide ((s.slot n).state ≠ .vacant ∧ (s.slot n).addr.map BusAddr.line = some l) :=
  congrArg (List.filter · slotNumbers) (funext fun n => onLine_eq (s.slot n) l)

theorem urgentFrame_bytes (f : UrgentFrame) : f.bytes = match f with
    | .halt d => [3, 1] ++ b1 d
    | .haltAll => [4, 0, 0] := by cases f <;> rfl

theorem readBytes_eq (f : BusFrame) :
    f.readBytes = b1 f.body.code ++ b1 f.drop ++ b1 f.slot ++
      match f.body with
      | .go _ _ _ _ kind => 1 :: b1 kind.code
      | .ask => [0, 0]
      | .halt => [0, 0]
      | .page _ => [0, 0]
      | .setCount _ _ => [0, 0] := by
  unfold BusFrame.readBytes
  cases f.body <;> rfl

/-- The start queue entries of a line's slots, with their places. -/
theorem startEntries_eq (on : List Nat) (q : List StartEntry) :
    (((withPlaces 0 q).filter fun p => on.contains p.2.slot).map fun p => startEntryBytes p.1 p.2) =
      (q.zipIdx.filter fun x => decide (x.1.slot ∈ on)).map fun x =>
        b2 x.2 ++ b1 x.1.slot ++ b1 x.1.kind.code ++ b1 x.1.units ++ b1 x.1.cls ++ b6 x.1.entryTime := by
  rw [withPlaces_eq, List.filter_map, List.map_map]
  simp only [List.contains_eq_mem, Function.comp_def, Prod.swap, startEntryBytes]

theorem lineBytes_eq (s : State) (l : Nat) :
    let r := s.line l
    let on := (List.range 128).filter fun n =>
      decide ((s.slot n).state ≠ .vacant ∧ (s.slot n).addr.map BusAddr.line = some l)
    s.lineBytes l =
      b1 l ++ b1 r.state.code ++
        bList (r.urgent.map fun f =>
          match f with
          | .halt d => [3, 1] ++ b1 d
          | .haltAll => [4, 0, 0]) ++
        bList (r.normal.map fun f =>
          b1 f.body.code ++ b1 f.drop ++ b1 f.slot ++
            match f.body with
            | .go _ _ _ _ kind => 1 :: b1 kind.code
            | .ask => [0, 0]
            | .halt => [0, 0]
            | .page _ => [0, 0]
            | .setCount _ _ => [0, 0]) ++
        bOpt 3 (r.txn.map fun t => b1 t.frame.body.code ++ b1 t.frame.drop ++ b1 t.attempt.number) ++
        bList (r.failureRun.map b1) ++ bBool r.pollTurn ++ bOpt 1 (r.pollCursor.map b1) ++
        bList (on.map fun n =>
          b1 (s.slot n).dropNo ++ bOpt 6 ((r.lastAskOf n).map b6) ++ bBool (s.pollDue l n)) ++
        bList ((s.gate.startQueue.zipIdx.filter fun x => decide (x.1.slot ∈ on)).map fun x =>
          b2 x.2 ++ b1 x.1.slot ++ b1 x.1.kind.code ++ b1 x.1.units ++ b1 x.1.cls ++ b6 x.1.entryTime) ++
        bList ((s.gate.heldUnits.filter fun h => decide (h.slot ∈ on)).map fun h =>
          b1 h.slot ++ b1 h.units ++ b6 h.deadline) ++
        bOpt 3 (r.lastRefusal.map fun x => b1 x.drop ++ b1 x.kind ++ b1 x.reason) := by
  intro r on
  have hon : s.slotsOn l = on := slotsOn_eq s l
  unfold State.lineBytes
  dsimp only
  rw [hon, startEntries_eq, funext urgentFrame_bytes, funext readBytes_eq]
  simp only [List.contains_eq_mem]
  rfl

/-! ## READ_SEGMENT -/

theorem sum_of_foldl (l : List HeldUnits) (k : Nat) :
    l.foldl (fun n h => n + h.units) k = k + (l.map HeldUnits.units).sum := by
  induction l generalizing k with
  | nil => rfl
  | cons x xs ih => rw [List.foldl_cons, ih, List.map_cons, List.sum_cons, Nat.add_assoc]

theorem heldSum_eq (g : Gate) : g.heldSum = (g.heldUnits.map HeldUnits.units).sum :=
  (sum_of_foldl _ _).trans (Nat.zero_add _)

/-- The zone records, by their numbers. -/
theorem zones_toList (s : State) : s.zones.toList = (List.range 384).map s.zone := by
  refine List.ext_getElem (by simp) fun i h₁ h₂ => ?_
  have hi : i < 384 := by simpa using h₁
  simp [State.zone, hi]

theorem countZones_eq (s : State) (code : Nat) :
    s.countZones code =
      ((List.range 384).filter fun z => decide ((s.zone z).map (fun r => r.status.code) = some code)).length := by
  have hcode (o : Option ZoneRec) :
      (o.any fun r => r.status.code == code) = decide (o.map (fun r => r.status.code) = some code) := by
    cases o <;> simp [Bool.beq_eq_decide_eq]
  unfold State.countZones
  rw [zones_toList, List.filter_map, List.length_map]
  simp only [Function.comp_def, hcode]

theorem isSome_eq_decide {α : Type} [DecidableEq α] (o : Option α) : o.isSome = decide (o ≠ none) := by
  cases o <;> simp

/-- The bits of the pending kinds byte are the kinds pending. -/
theorem pendingKinds_getLsbD (s : State) {k : Nat} (hk : k < 8) :
    s.pendingKinds.getLsbD k = true ↔ ∃ m ∈ s.link.notices, m.summary.kind = k := by
  have hfold : s.pendingKinds =
      (s.link.notices.map fun m => m.summary.kind).foldl (fun b n => if True then b ||| (1#8 <<< n) else b) 0 := by
    rw [List.foldl_map]
    rfl
  rw [hfold, getLsbD_gather (fun _ => True) _ _ _ hk]
  simp

theorem segmentBytes_eq (s : State) :
    let slots : RobotState → Nat := fun st => ((List.range 128).filter fun n => decide ((s.slot n).state = st)).length
    let zones : Nat → Nat := fun code =>
      ((List.range 384).filter fun z => decide ((s.zone z).map (fun r => r.status.code) = some code)).length
    s.segmentBytes =
      (b1 s.pins.segment.val ++ bBool s.pins.hold ++ b6 s.now ++ bBool s.pins.stop ++ bBool s.pins.inhibit ++
        bBool s.pins.stop ++ bBool (decide (0 < s.gate.unitsInUse))) ++
      (b1 s.gate.budget ++ b1 s.gate.unitsInUse ++ b2 s.gate.startQueue.length ++ b2 s.gate.heldUnits.length ++
        b1 (s.gate.heldUnits.map HeldUnits.units).sum ++ b2 s.waitList.length) ++
      s.batch.bytes ++
      (b2 s.settings.claimTimeout ++ b2 s.settings.settleAllowance ++ b1 s.settings.faultLimit) ++
      (((List.range 8).map fun l => b1 (s.line l).state.code).flatten ++
        (b2 (slots .vacant) ++ b2 (slots .defined) ++ b2 (slots .probing) ++ b2 (slots .rest) ++
          b2 (slots .waiting) ++ b2 (slots .moving) ++ b2 (slots .held) ++ b2 (slots .faulted) ++
          b2 (slots .retired)) ++
        (b2 (zones 0) ++ b2 (zones 1) ++ b2 (zones 2) ++ b2 (zones 3))) ++
      (b1 (if s.link.halt = none then 0 else 1) ++ bOpt 1 (s.link.halt.map fun x => b1 x.code) ++
        b2 s.link.plan.length ++ b2 s.link.assembly.length ++
        bOpt 3 (s.link.current.map fun c => [c.code] ++ b2 c.tag.toNat) ++
        bBool (decide (s.link.waitingAnswer ≠ none)) ++ b2 s.link.control.length ++ b2 s.link.output.length ++
        [s.link.mask] ++ [s.pendingKinds]) := by
  intro slots zones
  have hgate : s.gateBytes = b1 s.gate.budget ++ b1 s.gate.unitsInUse ++ b2 s.gate.startQueue.length ++
      b2 s.gate.heldUnits.length ++ b1 (s.gate.heldUnits.map HeldUnits.units).sum ++ b2 s.waitList.length := by
    unfold State.gateBytes
    rw [heldSum_eq]
  have htables : s.tableBytes = ((List.range 8).map fun l => b1 (s.line l).state.code).flatten ++
      (b2 (slots .vacant) ++ b2 (slots .defined) ++ b2 (slots .probing) ++ b2 (slots .rest) ++
        b2 (slots .waiting) ++ b2 (slots .moving) ++ b2 (slots .held) ++ b2 (slots .faulted) ++ b2 (slots .retired)) ++
      (b2 (zones 0) ++ b2 (zones 1) ++ b2 (zones 2) ++ b2 (zones 3)) := by
    have hslots (st : RobotState) : s.countState st = slots st := rfl
    have hzones (c : Nat) : s.countZones c = zones c := countZones_eq s c
    unfold State.tableBytes
    simp only [hslots, hzones, List.map_cons, List.map_nil, List.flatten_cons, List.flatten_nil, List.append_assoc,
      List.append_nil]
    rfl
  have hlink : s.linkBytes = b1 (if s.link.halt = none then 0 else 1) ++ bOpt 1 (s.link.halt.map fun x => b1 x.code) ++
      b2 s.link.plan.length ++ b2 s.link.assembly.length ++
      bOpt 3 (s.link.current.map fun c => [c.code] ++ b2 c.tag.toNat) ++
      bBool (decide (s.link.waitingAnswer ≠ none)) ++ b2 s.link.control.length ++ b2 s.link.output.length ++
      [s.link.mask] ++ [s.pendingKinds] := by
    have hhalt : (if s.link.halt.isSome then 1 else 0) = if s.link.halt = none then 0 else 1 := by
      cases s.link.halt <;> rfl
    unfold State.linkBytes
    rw [hhalt, isSome_eq_decide]
  unfold State.segmentBytes
  rw [hgate, htables, hlink]
  rfl

/-- Settles O21. -/
theorem readsAnswered : Obligations.ReadsAnswered := by
  refine ⟨fun s tag code st p => ⟨answered_onlySends s tag code st p, ?output⟩,
    fun s tag hready => ⟨fun slot => ?slot, fun slot => ?targets, fun zone => ?zone, fun index => ?waits,
      fun line => ?line, ?segment⟩,
    fun r n => ?slotBytes, fun r => rfl,
    ⟨fun s z => ⟨fun h => zoneBytes_none h, fun r hr => ?zoneBytes⟩, fun r => partyBytes_eq r⟩,
    fun s index z => ⟨waitListBytes_eq s index, wantedBytes_eq s z⟩, fun s l => lineBytes_eq s l,
    fun s => ⟨segmentBytes_eq s, fun k hk => pendingKinds_getLsbD s hk⟩, fun b close => ⟨rfl, rfl, rfl⟩,
    ⟨fun n => ⟨rfl, rfl, rfl⟩, fun v => rfl, ⟨rfl, rfl⟩, fun width field => ⟨rfl, rfl⟩, fun entries => rfl⟩, ?codes⟩
  case output =>
    rw [answered_eq]
    exact enter_output _ _
  case slot => exact exec_read hready tag (q := .readSlot slot) rfl Nat.not_le.symm rfl
  case targets => exact exec_read hready tag (q := .readTargets slot) rfl Nat.not_le.symm rfl
  case zone => exact exec_read hready tag (q := .readZone zone) rfl Nat.not_le.symm rfl
  case waits => exact exec_read hready tag (q := .readWaitlist index) rfl Nat.not_le.symm rfl
  case line => exact exec_read hready tag (q := .readLine line) rfl Nat.not_le.symm rfl
  case segment => exact exec_control_reply hready hready tag (q := .readSegment) rfl rfl
  case slotBytes => rfl
  case zoneBytes =>
    rw [zoneBytes_some hr, occupancyCode_eq, occupancyCode_eq, wanting_eq]
    rfl
  case codes =>
    refine ⟨rfl, rfl, rfl, rfl, rfl, ⟨rfl, fun k => rfl⟩, rfl, rfl, rfl, rfl, rfl, rfl, rfl, rfl,
      fun _ _ _ _ _ => rfl, fun _ _ _ => ⟨rfl, rfl⟩, fun _ => rfl, rfl⟩

end Sys2Proof.Machine
end

