-- ==== Sys2Proof/Proofs/ZoneTables.lean ====
section
/-! PROOFS. The occupancy update, the trim and retirement at the Zone Table (R62, R65 to R73). -/

namespace Sys2Proof.Machine

/-! ## The tables for one zone -/

theorem update_occupied (me : Side) :
    ZoneStatus.update .free me true = .held me ∧ ZoneStatus.update (.held me.other) me true = .contested me.other ∧
    ZoneStatus.update (.fenced me.other false) me true = .fenced me.other true := by
  cases me <;> exact ⟨rfl, rfl, rfl⟩

theorem update_released (me : Side) :
    ZoneStatus.update (.held me) me false = .free ∧ ZoneStatus.update (.contested me) me false = .held me.other ∧
    ZoneStatus.update (.contested me.other) me false = .held me.other ∧
    ZoneStatus.update (.fenced me.other true) me false = .fenced me.other false := by
  cases me <;> exact ⟨rfl, rfl, rfl, rfl⟩

/-- A zone that the robot is already in, and not its fence, stays as it is while the robot stands in it. -/
theorem update_kept (st : ZoneStatus) (me : Side) (h : st.heldBy me = true) (hf : ∀ i, st ≠ .fenced me i) :
    st.update me true = st := by
  cases st with
  | free => simp [ZoneStatus.heldBy, ZoneStatus.holder, ZoneStatus.intruder] at h
  | held a =>
    have ha : a = me := by simpa [ZoneStatus.heldBy, ZoneStatus.holder, ZoneStatus.intruder] using h
    exact if_pos ha
  | contested a => rfl
  | fenced a i =>
    have ha : a ≠ me := fun e => hf i (by rw [e])
    have hi : i = true := by
      simp only [ZoneStatus.heldBy, ZoneStatus.holder, ZoneStatus.intruder] at h
      cases i <;> simp_all
    rw [hi]
    exact if_neg ha

/-- A zone that the robot is not in stays as it is while the robot stands outside it. -/
theorem update_outside (st : ZoneStatus) (me : Side) (h : st.heldBy me = false) : st.update me false = st := by
  cases st with
  | free => rfl
  | held a =>
    have ha : a ≠ me := by simpa [ZoneStatus.heldBy, ZoneStatus.holder, ZoneStatus.intruder] using h
    exact if_neg ha
  | contested a => cases a <;> cases me <;> cases h
  | fenced a i =>
    have ha : a ≠ me := fun e => by simp [ZoneStatus.heldBy, ZoneStatus.holder, e] at h
    have hi : i = false := by
      cases i with
      | false => rfl
      | true => cases a <;> cases me <;> cases h
    rw [hi]
    exact if_neg ha

/-- A zone that a robot retiring at an unknown position is not in stays as it is. -/
theorem retireUnknown_outside (st : ZoneStatus) (me : Side) (h : st.heldBy me = false) : st.retireUnknown me = st := by
  cases st with
  | free => rfl
  | held a =>
    have ha : a ≠ me := by simpa [ZoneStatus.heldBy, ZoneStatus.holder, ZoneStatus.intruder] using h
    exact if_neg ha
  | contested a => cases a <;> cases me <;> cases h
  | fenced a i => rfl

theorem retire_table (me : Side) :
    ZoneStatus.retireKnown .free me true = .fenced me false ∧
    ZoneStatus.retireKnown (.held me) me true = .fenced me false ∧
    ZoneStatus.retireKnown (.held me.other) me true = .fenced me true ∧
    (∀ h, ZoneStatus.retireKnown (.contested h) me true = .fenced me true) ∧
    (∀ i, ZoneStatus.retireKnown (.fenced me.other i) me true = .fenced me.other true) ∧
    (∀ st, ZoneStatus.retireKnown st me false = st.update me false) ∧
    ZoneStatus.retireUnknown (.held me) me = .fenced me false ∧
    (∀ h, ZoneStatus.retireUnknown (.contested h) me = .fenced me true) ∧
    ZoneStatus.retireUnknown (.fenced me.other true) me = .fenced me.other true ∧
    (∀ st : ZoneStatus, st.heldBy me = false → st.retireUnknown me = st) := by
  cases me <;>
    exact ⟨rfl, rfl, rfl, fun _ => rfl, fun _ => rfl, fun _ => rfl, rfl, fun _ => rfl, rfl,
      fun st => retireUnknown_outside st _⟩

theorem initialStatus_table (a b : Bool) :
    initialStatus false false a b = .free ∧
    initialStatus true false a b = (if a then .fenced .lower false else .held .lower) ∧
    initialStatus false true a b = (if b then .fenced .higher false else .held .higher) := ⟨rfl, rfl, rfl⟩

theorem isFenced_iff (st : ZoneStatus) : st.isFenced = true ↔ ∃ h i, st = .fenced h i := by
  cases st <;> simp [ZoneStatus.isFenced]

theorem isContested_iff (st : ZoneStatus) : st.isContested = true ↔ ∃ h, st = .contested h := by
  cases st <;> simp [ZoneStatus.isContested]

/-- Which side of a zone a robot is on, and whether it stands in its own side box. -/
theorem occupiedBy_spec (r : ZoneRec) (n : Nat) (p : Option Position) :
    r.occupiedBy n p = true ↔ ∃ q, p = some q ∧
      let own := if r.lower = n then r.lowerBox else r.higherBox
      own.alphaLow ≤ q.alpha ∧ q.alpha ≤ own.alphaHigh ∧ own.betaLow ≤ q.beta ∧ q.beta ≤ own.betaHigh := by
  cases p with
  | none => simp [ZoneRec.occupiedBy]
  | some q =>
    refine (occupiedBy_iff r n q).trans ⟨fun h => ⟨q, rfl, h⟩, ?_⟩
    rintro ⟨q', hq, h⟩
    cases hq
    exact h

/-! ## A table applied to a robot -/

/-- The zones that a table changes in some way, each once, in the order of the zone list. -/
theorem zoneChanges_sublist (s : State) (n : Nat) (rule : ZoneStatus → Side → Bool → ZoneStatus)
    (p : Nat × ZoneStatus × ZoneStatus → Bool) :
    (((s.zoneChanges n rule).filter p).map Prod.fst).Sublist (s.slot n).zones := by
  have hall : ((s.zoneChanges n rule).map Prod.fst).Sublist (s.slot n).zones := by
    unfold State.zoneChanges
    induction (s.slot n).zones with
    | nil => exact List.Sublist.refl []
    | cons z zs ih =>
      rw [List.filterMap_cons]
      cases s.zone z with
      | none => exact ih.cons z
      | some r => exact ih.cons_cons z
  exact (List.filter_sublist.map Prod.fst).trans hall

/-- A zone is changed in some way by a table when it is a defined one of the robot's zone list whose status and new
status are such. -/
theorem mem_zoneChanges (s : State) (n : Nat) (rule : ZoneStatus → Side → Bool → ZoneStatus)
    (p : Nat × ZoneStatus × ZoneStatus → Bool) (z : Nat) :
    z ∈ ((s.zoneChanges n rule).filter p).map Prod.fst ↔
      z ∈ (s.slot n).zones ∧ ∃ r, s.zone z = some r ∧
        p (z, r.status, rule r.status (r.sideOf n) (r.occupiedBy n (s.slot n).position)) = true := by
  simp only [List.mem_map, List.mem_filter, State.zoneChanges, List.mem_filterMap, Option.map_eq_some_iff]
  constructor
  · rintro ⟨c, ⟨⟨y, hy, r, hr, rfl⟩, hp⟩, rfl⟩
    exact ⟨hy, r, hr, hp⟩
  · rintro ⟨hz, r, hr, hp⟩
    exact ⟨_, ⟨⟨z, hz, r, hr, rfl⟩, hp⟩, rfl⟩

/-- The occupancy update with a known position of a robot that is not RETIRED. -/
theorem updateZones_known {s : State} {n : Nat} (hp : (s.slot n).position ≠ none) (hs : (s.slot n).state ≠ .retired) :
    s.updateZones n =
      ((s.writeZones (s.zoneChanges n ZoneStatus.update)).zoneReport
        (freedZones (s.zoneChanges n ZoneStatus.update)) []).raiseContested
          (contestedZones (s.zoneChanges n ZoneStatus.update)) := by
  unfold State.updateZones
  exact if_pos ⟨Option.isSome_iff_ne_none.2 hp, hs⟩

theorem updateZones_none {s : State} {n : Nat} (h : (s.slot n).position = none ∨ (s.slot n).state = .retired) :
    s.updateZones n = s := by
  unfold State.updateZones
  refine if_neg fun hk => ?_
  rcases h with h | h
  · simp [h] at hk
  · exact hk.2 h

/-- Writing zones leaves the wait list as it is. -/
theorem writeZones_waitList (s : State) (cs : List (Nat × ZoneStatus × ZoneStatus)) :
    (s.writeZones cs).waitList = s.waitList := by rw [writeZones_eq]

theorem raiseContested_zone (s : State) (zs : List Nat) (z : Nat) : (s.raiseContested zs).zone z = s.zone z := by
  rw [raiseContested_eq]
  rfl

/-- With no claim waiting, the zones after an occupancy update are as its table leaves them. -/
theorem updateZones_zone {s : State} {n : Nat} (hw : s.waitList = []) (hp : (s.slot n).position ≠ none)
    (hs : (s.slot n).state ≠ .retired) (z : Nat) :
    (s.updateZones n).zone z =
      if z ∈ (s.slot n).zones then (s.zone z).map fun r =>
        { r with status := r.status.update (r.sideOf n) (r.occupiedBy n (s.slot n).position) }
      else s.zone z := by
  rw [updateZones_known hp hs, zoneReport_idle (by rw [writeZones_waitList, hw]), raiseContested_zone,
    writeZones_zoneChanges]

/-! ## Retirement -/

/-- The record of a retiring robot, its leg kept unless LAPSING. -/
theorem retired_eq (r : SlotRec) (why : RetireReason) : r.retired why =
    { r with state := .retired, retireReason := some why, targets := [], remaining := []
             leg := r.leg.filter fun g => decide (g.stage ≠ .lapsing) } := by
  have hstage (g : Leg) : (g.stage != .lapsing) = decide (g.stage ≠ .lapsing) := by
    rw [bne, Bool.beq_eq_decide_eq, decide_not]
  unfold SlotRec.retired
  simp only [hstage]

/-- The robot retired and its units kept, before the Zone Table takes it up. -/
def State.retiring (s : State) (n : Nat) (why : RetireReason) : State :=
  (s.modSlot n fun r => r.retired why).keepUnits n (s.slot n).leg

theorem retiring_eq (s : State) (n : Nat) (why : RetireReason) :
    ∃ g h, s.retiring n why = { s.modSlot n (fun r => r.retired why) with gate := g, handed := h } :=
  ⟨_, _, keepUnits_eq _ _ _⟩

/-- A retiring robot keeps its zone list and its position. -/
theorem retiring_slot (s : State) (n : Nat) (why : RetireReason) :
    ((s.retiring n why).slot n).zones = (s.slot n).zones ∧
      ((s.retiring n why).slot n).position = (s.slot n).position := by
  obtain ⟨g, h, he⟩ := retiring_eq s n why
  have hslot : (s.retiring n why).slot n = (s.modSlot n fun r => r.retired why).slot n := by rw [he]; rfl
  rw [hslot, slot_modSlot]
  split <;> exact ⟨rfl, rfl⟩

theorem retiring_zone (s : State) (n : Nat) (why : RetireReason) (z : Nat) :
    (s.retiring n why).zone z = s.zone z := by
  obtain ⟨g, h, he⟩ := retiring_eq s n why
  rw [he]
  rfl

theorem retiring_waitList (s : State) (n : Nat) (why : RetireReason) : (s.retiring n why).waitList = s.waitList := by
  obtain ⟨g, h, he⟩ := retiring_eq s n why
  rw [he]
  rfl

/-- The changes of a table are those of any state with the robot's zones, the zone list and the position. -/
theorem zoneChanges_congr {s t : State} {n : Nat} (hz : (t.slot n).zones = (s.slot n).zones)
    (hp : (t.slot n).position = (s.slot n).position) (h : ∀ z, t.zone z = s.zone z)
    (rule : ZoneStatus → Side → Bool → ZoneStatus) : t.zoneChanges n rule = s.zoneChanges n rule := by
  unfold State.zoneChanges
  rw [hz, hp, funext h]

theorem retireChanges_congr {s t : State} {n : Nat} (hz : (t.slot n).zones = (s.slot n).zones)
    (hp : (t.slot n).position = (s.slot n).position) (h : ∀ z, t.zone z = s.zone z) :
    t.retireChanges n = s.retireChanges n := by
  unfold State.retireChanges
  rw [zoneChanges_congr hz hp h, zoneChanges_congr hz hp h, hp]

theorem retireChanges_known {s : State} {n : Nat} (h : (s.slot n).position ≠ none) :
    s.retireChanges n = s.zoneChanges n ZoneStatus.retireKnown := by
  unfold State.retireChanges
  exact if_pos (Option.isSome_iff_ne_none.2 h)

theorem retireChanges_unknown {s : State} {n : Nat} (h : (s.slot n).position = none) :
    s.retireChanges n = s.zoneChanges n fun st me _ => st.retireUnknown me := by
  unfold State.retireChanges
  exact if_neg (by simp [h])

/-- Retirement: the robot is RETIRED, its zones change, ROBOT_RETIRED is raised and the Arbiter takes the report. -/
theorem retire_eq (s : State) (n : Nat) (why : RetireReason) :
    s.retire n why =
      ((((s.retiring n why).writeZones (s.retireChanges n)).raise (.robotRetired 1 n)).zoneReport
        (freedZones (s.retireChanges n)) (fencedZones (s.retireChanges n))) := by
  rw [← retireChanges_congr (retiring_slot s n why).1 (retiring_slot s n why).2 (retiring_zone s n why)]
  rfl

/-- Retirement with no claim waiting: the zones change and ROBOT_RETIRED is raised. -/
theorem retire_idle {s : State} (hw : s.waitList = []) (n : Nat) (why : RetireReason) :
    s.retire n why = ((s.retiring n why).writeZones (s.retireChanges n)).raise (.robotRetired 1 n) := by
  rw [retire_eq, zoneReport_idle]
  rw [raise_eq]
  exact (writeZones_waitList _ _).trans ((retiring_waitList s n why).trans hw)

/-- The zones that the changes of a retiring robot leave. -/
theorem writeZones_retireChanges (s : State) (n : Nat) (z : Nat) :
    (s.writeZones (s.retireChanges n)).zone z =
      if z ∈ (s.slot n).zones then (s.zone z).map fun x =>
        { x with status :=
          if (s.slot n).position = none then x.status.retireUnknown (x.sideOf n)
          else x.status.retireKnown (x.sideOf n) (x.occupiedBy n (s.slot n).position) }
      else s.zone z := by
  by_cases hp : (s.slot n).position = none
  · rw [retireChanges_unknown hp, writeZones_zoneChanges]
    simp only [if_pos hp]
  · rw [retireChanges_known hp, writeZones_zoneChanges]
    simp only [if_neg hp]

/-- With no claim waiting the zones of a retired robot are as R72 and R73 leave them. -/
theorem retire_zone {s : State} (hw : s.waitList = []) (n : Nat) (why : RetireReason) (z : Nat) :
    (s.retire n why).zone z =
      if z ∈ (s.slot n).zones then (s.zone z).map fun x =>
        { x with status :=
          if (s.slot n).position = none then x.status.retireUnknown (x.sideOf n)
          else x.status.retireKnown (x.sideOf n) (x.occupiedBy n (s.slot n).position) }
      else s.zone z := by
  obtain ⟨hz, hp⟩ := retiring_slot s n why
  have hraise (t : State) (e : Summary) : (t.raise e).zone z = t.zone z := by rw [raise_eq]; rfl
  rw [retire_idle hw, hraise, ← retireChanges_congr hz hp (retiring_zone s n why), writeZones_retireChanges, hz, hp,
    retiring_zone]

/-- Units are kept or returned for a LAPSING leg alone. -/
theorem keepUnits_other {o : Option Leg} (h : ∀ g, o = some g → g.stage ≠ .lapsing) (n : Nat) (s : State) :
    s.keepUnits n o = s := by
  cases o with
  | none => rfl
  | some g => exact if_neg (h g rfl)

/-- The units of a LAPSING leg come back at once when its deadline has passed, and are held until then otherwise. -/
theorem keepUnits_lapsing {g : Leg} (hg : g.stage = .lapsing) {d : Nat} (hd : g.deadline = some d) (n : Nat)
    (s : State) :
    s.keepUnits n (some g) =
      if d ≤ s.now then s.returnUnits g.units else s.holdUnits { slot := n, units := g.units, deadline := d } := by
  unfold State.keepUnits
  dsimp only
  rw [if_pos hg, hd]

/-- Settles O35. -/
theorem zoneTables : Obligations.ZoneTables := by
  refine ⟨fun me => ⟨(update_occupied me).1, (update_occupied me).2.1, (update_occupied me).2.2, update_released me⟩,
    update_kept, update_outside, retire_table, initialStatus_table, rfl, rfl, rfl, rfl,
    fun r n p => ⟨rfl, occupiedBy_spec r n p⟩, fun s n rule => ⟨writeZones_eq _ s, writeZones_zoneChanges s n rule,
      fun z => ⟨?freed, ?fenced, ?contested⟩, zoneChanges_sublist s n rule _, zoneChanges_sublist s n rule _,
      zoneChanges_sublist s n rule _⟩,
    fun s n => ⟨updateZones_none, fun hp hs => ⟨updateZones_known hp hs, fun hw => ⟨?alone, updateZones_zone hw hp hs⟩⟩⟩,
    fun s n why => ⟨retireChanges_known, retireChanges_unknown, ?retire, fun h v => keepUnits_other h n v, fun g d hg hst hd => ?units,
      fun hw => retire_zone hw n why⟩⟩
  case freed =>
    refine (mem_zoneChanges s n rule _ z).trans ?_
    simp only [Bool.and_eq_true, decide_eq_true_eq]
  case fenced =>
    refine (mem_zoneChanges s n rule _ z).trans ?_
    simp only [Bool.and_eq_true, Bool.not_eq_true', ← Bool.not_eq_true, isFenced_iff, not_exists, ne_eq]
  case contested =>
    refine (mem_zoneChanges s n rule _ z).trans ?_
    simp only [Bool.and_eq_true, Bool.not_eq_true', ← Bool.not_eq_true, isContested_iff, not_exists, ne_eq]
  case alone =>
    exact (updateZones_eq n hw).trans (by rw [updateZones_eq n hw])
  case retire =>
    rw [retire_eq]
    unfold State.retiring
    rw [funext fun r => retired_eq r why]
  case units =>
    rw [hg, keepUnits_lapsing hst hd]
    exact ⟨fun h => if_pos h, fun h => if_neg (by omega)⟩

end Sys2Proof.Machine
end

