-- ==== Sys2Proof/Proofs/SlotRequests.lean ====
section
/-! PROOFS. The plan requests on the Robot Table and the targets, sent to a block at rest: DEFINE_SLOT, FORGET_SLOT,
RETIRE, ASSIGN_LIST, CLEAR_TARGET, DROP_TARGETS (R25 to R29, R47 to R53). -/

namespace Sys2Proof.Machine

/-! ## Requests with checks in order -/

/-- The answer of a request whose checks give a refusal, or none: then OK, from the state that the request leaves. -/
def State.checked (s t : State) (tag code : Byte) (p : List Byte) : Option Status → State
  | some st => s.answered tag code st []
  | none => t.answered tag code .ok p

/-- A plan request with checks, taken by a block at rest, is its refusal or what it writes. -/
theorem exec_plan_checked {s t : State} (h : s.planReady = true) (ht : t.ready = true) (tag : Byte) {q : Request}
    (hq : q.channel = .plan) (hl : q.payload.length ≤ 2048) {p : List Byte} {check : Option Status}
    (htake : s.take tag q = match check with
      | some st => s.reply tag q st []
      | none => t.reply tag q .ok p) :
    exec (q.command tag) s = .next (s.checked t tag q.code p check) := by
  cases check with
  | some st => exact exec_plan_reply h (planReady_ready h) tag hq hl htake
  | none => exact exec_plan_reply h ht tag hq hl htake

/-- A block at rest whose slots and zones differ is at rest. -/
theorem ready_records {s t : State} (h : s.planReady = true) (hl : t.link = s.link) (hh : t.handed = s.handed) :
    t.ready = true := by rw [ready_congr hl hh, planReady_ready h]

/-! ## DEFINE_SLOT, FORGET_SLOT -/

theorem consistent_words (alphaMax betaFold betaMax : Word) :
    Calibration.consistent { alphaMax := alphaMax.toNat, betaFold := betaFold.toNat, betaMax := betaMax.toNat } = false ↔
      alphaMax.toNat = 0 ∨ betaMax.toNat ≤ betaFold.toNat := by
  have ha := alphaMax.isLt
  have hm := betaMax.isLt
  simp only [Calibration.consistent, decide_eq_false_iff_not]
  omega

theorem addressInUse_iff (s : State) (n line drop : Nat) :
    s.addressInUse n line drop = true ↔ ∃ m ∈ slotNumbers, m ≠ n ∧ (s.slot m).state ≠ .vacant ∧
      (s.slot m).addr = some { line := line, drop := drop } := by
  simp [State.addressInUse, and_assoc]

/-- Settles O29. -/
theorem defineSlot : Obligations.DefineSlot := by
  intro s tag slot line drop alphaMax betaFold betaMax given serial hready
  refine (exec_plan_checked hready (t := s.setSlot slot.toNat (SlotRec.defined line.toNat drop.toNat
      { alphaMax := alphaMax.toNat, betaFold := betaFold.toNat, betaMax := betaMax.toNat }
      (if given = 0 then none else some serial))) (ready_records hready rfl rfl) tag
    (q := .defineSlot slot line drop alphaMax betaFold betaMax given serial) rfl (by simp [Request.payload, bw, b4]) (p := [])
    (check := s.defineSlotCheck slot.toNat line.toNat drop.toNat
      { alphaMax := alphaMax.toNat, betaFold := betaFold.toNat, betaMax := betaMax.toNat }) rfl).trans
    (congrArg Host.Outcome.next ?_)
  simp only [State.defineSlotCheck, apply_ite (State.checked _ _ _ _ _)]
  exact ite_congr rfl (fun _ => rfl) fun _ => ite_congr (propext (consistent_words _ _ _)) (fun _ => rfl) fun _ =>
    ite_congr rfl (fun _ => rfl) fun _ => ite_congr (propext (addressInUse_iff _ _ _ _)) (fun _ => rfl) fun _ => rfl

/-- Settles O30. -/
theorem forgetSlot : Obligations.ForgetSlot := by
  intro s tag slot hready
  refine (exec_plan_checked hready (t := s.setSlot slot.toNat SlotRec.vacant) (ready_records hready rfl rfl) tag
    (q := .forgetSlot slot) rfl (by simp [Request.payload]) (p := []) (check := s.forgetSlotCheck slot.toNat)
    rfl).trans (congrArg Host.Outcome.next ?_)
  simp only [State.forgetSlotCheck, apply_ite (State.checked _ _ _ _ _)]
  rfl

/-! ## RETIRE: more held-units entries than the step has internal events -/

/-- Units returned one after another. -/
def State.returnAll (s : State) (hs : List HeldUnits) : State := hs.foldl (fun s h => s.returnUnits h.units) s

/-- Each return hands one issue scan; the start queue stands. -/
theorem returnAll_handed (hs : List HeldUnits) (s : State) :
    (s.returnAll hs).handed = s.handed ++ List.replicate hs.length .scan ∧
      (s.returnAll hs).gate.startQueue = s.gate.startQueue := by
  induction hs generalizing s with
  | nil => exact ⟨(List.append_nil _).symm, rfl⟩
  | cons a hs ih =>
    obtain ⟨hhanded, hqueue⟩ := ih (s.returnUnits a.units)
    refine ⟨hhanded.trans ?_, hqueue⟩
    show (s.handed ++ [Handed.scan]) ++ List.replicate hs.length .scan = _
    rw [List.append_assoc]
    rfl

/-- With no leg queued, scans are taken one a time and change nothing: those beyond the fuel are left. -/
theorem settle_scans (k m : Nat) {s : State} (hq : s.gate.startQueue = []) (hs : s.handed = List.replicate (k + m) .scan) :
    (s.settle k).handed = List.replicate m .scan := by
  induction k generalizing s with
  | zero => rw [State.settle, hs, Nat.zero_add]
  | succ k ih =>
    have hcons : s.handed = .scan :: List.replicate (k + m) .scan := by rw [hs, Nat.add_right_comm]; rfl
    have hscan : ({ s with handed := List.replicate (k + m) .scan } : State).takeHanded .scan =
        { s with handed := List.replicate (k + m) .scan } := scan_empty hq
    rw [settle_handed hcons, hscan]
    exact ih hq rfl

/-- A LAPSING leg of slot 0 whose deadline is ahead. -/
def lapsingLeg : Leg where
  id := 0
  kind := .fold
  axes := .beta
  start := none
  finish := { alpha := 0, beta := 0 }
  speed := .normal
  units := 0
  cls := 0
  stage := .lapsing
  haltCause := none
  stopTime := none
  deadline := some 1
  claimSet := none

/-- A number of held-units entries of slot 0. -/
def crowdedHeld (m : Nat) : List HeldUnits := List.replicate m { slot := 0, units := 0, deadline := 0 }

/-- A block at rest, slot 0 FAULTED with a LAPSING leg, and a number of held-units entries of that slot. -/
def crowded (m : Nat) : State :=
  { (State.reset.setSlot 0 { SlotRec.vacant with state := .faulted, leg := some lapsingLeg }) with
    gate := { State.reset.gate with heldUnits := crowdedHeld m } }

theorem crowded_slot (m : Nat) :
    (crowded m).slot 0 = { SlotRec.vacant with state := .faulted, leg := some lapsingLeg } :=
  slot_setSlot_same State.reset 0 _ (by decide)

theorem crowded_link (m : Nat) : (crowded m).link = State.reset.link := rfl

theorem crowded_handed (m : Nat) : (crowded m).handed = [] := rfl

theorem crowded_outputRoom (m : Nat) : (crowded m).outputRoom = true :=
  (outputRoom_congr (crowded_link m)).trans (by decide)

theorem crowded_planReady (m : Nat) : (crowded m).planReady = true := by
  have hready : (crowded m).ready = true := (ready_congr (crowded_link m) (crowded_handed m)).trans rfl
  unfold State.planReady State.planMoves
  rw [hready, crowded_link]
  rfl

/-- Every entry of the crowded list is the slot's. -/
theorem crowdedHeld_filter (m : Nat) : (crowdedHeld m).filter (fun h => h.slot == 0) = crowdedHeld m := by
  rw [List.filter_eq_self]
  intro h hh
  rw [List.eq_of_mem_replicate hh]
  rfl

/-- The crowded block with the answer of RETIRE. -/
def crowdedAnswered (m : Nat) : State := (crowded m).answered 0 0x12 .ok []

theorem crowdedAnswered_eq (m : Nat) : ∃ k, crowdedAnswered m = { crowded m with link := k } :=
  ⟨_, answered_eq _ _ _ _ _⟩

/-- RETIRE of slot 0 is taken: answered OK and the robot retired. -/
theorem take_retire_crowded (m : Nat) : (crowded m).take 0 (.retire 0) = (crowdedAnswered m).retire 0 .byRequest := by
  have hcheck : (crowded m).retireCheck (0 : Byte).toNat = none := by
    show (if 127 < 0 then _ else if ((crowded m).slot 0).state = .vacant then _ else
      if ((crowded m).slot 0).state.retirable = false then _ else none) = _
    rw [crowded_slot]
    rfl
  show (crowded m).takeRetire 0 0 = _
  unfold State.takeRetire
  rw [hcheck]
  dsimp only
  rw [reply_answered (crowded_outputRoom m)]
  rfl

/-- The LAPSING leg's units are held, each older entry of the slot returned. -/
theorem retiring_crowded (m : Nat) :
    (crowdedAnswered m).retiring 0 .byRequest =
      (((crowdedAnswered m).modSlot 0 fun r => r.retired .byRequest).returnAll (crowdedHeld m)).modGate fun g =>
        { g with heldUnits := (g.heldUnits.filter fun h => h.slot != 0) ++
          [{ slot := 0, units := 0, deadline := 1 }] } := by
  obtain ⟨k, hrec⟩ := crowdedAnswered_eq m
  have hleg : ((crowdedAnswered m).slot 0).leg = some lapsingLeg := by
    rw [hrec]
    exact congrArg SlotRec.leg (crowded_slot m)
  have hnow : ((crowdedAnswered m).modSlot 0 fun r => r.retired .byRequest).now = 0 := by rw [hrec]; rfl
  have hheld : ((crowdedAnswered m).modSlot 0 fun r => r.retired .byRequest).gate.heldUnits = crowdedHeld m := by
    rw [hrec]
    rfl
  unfold State.retiring
  rw [hleg, keepUnits_lapsing rfl rfl, hnow, if_neg (by decide)]
  unfold State.holdUnits
  dsimp only
  rw [hheld]
  have hold : (crowdedHeld m).filter (fun h => h.slot == 0) = crowdedHeld m := crowdedHeld_filter m
  rw [hold]
  rfl

/-- The retirement hands on one issue scan for each entry. -/
theorem retire_crowded_handed (m : Nat) :
    ((crowdedAnswered m).retire 0 .byRequest).handed = List.replicate m .scan ∧
      ((crowdedAnswered m).retire 0 .byRequest).gate.startQueue = [] := by
  obtain ⟨k, hrec⟩ := crowdedAnswered_eq m
  obtain ⟨hhanded, hqueue⟩ :=
    returnAll_handed (crowdedHeld m) ((crowdedAnswered m).modSlot 0 fun r => r.retired .byRequest)
  have hnone : ((crowdedAnswered m).modSlot 0 fun r => r.retired .byRequest).handed = [] := by rw [hrec]; rfl
  have hempty : ((crowdedAnswered m).modSlot 0 fun r => r.retired .byRequest).gate.startQueue = [] := by
    rw [hrec]
    rfl
  have hlen : (crowdedHeld m).length = m := List.length_replicate
  rw [retire_idle (by rw [hrec]; rfl), raise_eq, writeZones_eq, retiring_crowded]
  refine ⟨hhanded.trans ?_, hqueue.trans hempty⟩
  rw [hnone, hlen]
  rfl

/-- With an entry more than a step has internal events, an issue scan is left. -/
theorem exec_retire_crowded {k : Nat} (hk : Config.settleFuel - 1 = k) {t : State}
    (h : exec (.retire 0 0) (crowded (k + 1)) = .next t) : t.handed = [.scan] := by
  have hrun : exec (.retire 0 0) (crowded (k + 1)) =
      .next (((crowded (k + 1)).take 0 (.retire 0)).settle (Config.settleFuel - 1)) :=
    exec_plan (crowded_planReady (k + 1)) 0 (.retire 0) rfl (by decide)
  rw [take_retire_crowded, hk, h] at hrun
  obtain ⟨hhanded, hqueue⟩ := retire_crowded_handed (k + 1)
  rw [Host.Outcome.next.inj hrun]
  exact settle_scans k 1 hqueue hhanded

/-- Settles O31, by a refutation: the held-units list of a state is unbounded, and with as many entries of the slot as
the fuel of a step its RETIRE hands on more issue scans than the step takes, so that one is still handed on where the
statement's state has none. -/
theorem not_retire : ¬ Obligations.Retire := by
  intro hall
  obtain ⟨k, hk⟩ : ∃ k, Config.settleFuel - 1 = k := ⟨_, rfl⟩
  obtain ⟨t, hexec, _, hsame⟩ := (hall (crowded (k + 1)) 0 0 (crowded_planReady _)).2.2.2.2 lapsingLeg 1 (by decide)
    (congrArg SlotRec.state (crowded_slot _)) rfl rfl (congrArg SlotRec.leg (crowded_slot _)) rfl rfl
  have hnone : t.handed = [] := by
    rw [hsame]
    dsimp only
    rw [writeZones_eq]
    dsimp only
    rw [modSlot_handed, crowded_handed]
  rw [exec_retire_crowded hk hexec] at hnone
  cases hnone

end Sys2Proof.Machine
end

