-- ==== Sys2Proof/Proofs/TargetRequests.lean ====
section
/-! PROOFS. The requests on the targets, sent to a block at rest: ASSIGN_LIST, CLEAR_TARGET, DROP_TARGETS (R47 to R53),
and when a target is reachable (R51). -/

namespace Sys2Proof.Machine

/-! ## The entries of an ASSIGN_LIST -/

theorem assignAll_pass {s : State} {e : AssignEntry} (h : s.assignCheck e = none) (k : Nat) (rest : List AssignEntry) :
    assignAll s k (e :: rest) = assignAll (s.assign e) (k + 1) rest := by
  rw [assignAll, h]

theorem assignAll_fail {s : State} {e : AssignEntry} {st : Status} (h : s.assignCheck e = some st) (k : Nat)
    (rest : List AssignEntry) : assignAll s k (e :: rest) = (s, k, some st) := by
  rw [assignAll, h]

/-- With every entry applied, the number applied is that of the entries. -/
theorem assignAll_all {s t : State} {k m : Nat} {entries : List AssignEntry}
    (h : assignAll s k entries = (t, m, none)) : m = k + entries.length := by
  induction entries generalizing s k with
  | nil =>
    simp only [assignAll, Prod.mk.injEq] at h
    exact h.2.1.symm
  | cons e rest ih =>
    cases hc : s.assignCheck e with
    | some st => rw [assignAll_fail hc] at h; cases h
    | none =>
      rw [assignAll_pass hc] at h
      rw [ih h, List.length_cons]
      omega

/-- The first entry that fails: those before it are applied, and it fails against the records they left. -/
theorem assignAll_first {s t : State} {k m : Nat} {st : Status} {entries : List AssignEntry}
    (h : assignAll s k entries = (t, m, some st)) :
    k ≤ m ∧ m < k + entries.length ∧ assignAll s k (entries.take (m - k)) = (t, m, none) ∧
      ∃ e, entries[m - k]? = some e ∧ t.assignCheck e = some st := by
  induction entries generalizing s k with
  | nil => cases h
  | cons e rest ih =>
    cases hc : s.assignCheck e with
    | some st' =>
      rw [assignAll_fail hc] at h
      cases h
      refine ⟨Nat.le_refl _, ?_, ?_, e, ?_, hc⟩
      · rw [List.length_cons]; omega
      · rw [Nat.sub_self]; rfl
      · rw [Nat.sub_self]; rfl
    | none =>
      rw [assignAll_pass hc] at h
      obtain ⟨hlow, hhigh, htake, e', he', hfail⟩ := ih h
      have hsub : m - k = (m - (k + 1)) + 1 := by omega
      refine ⟨by omega, by rw [List.length_cons]; omega, ?_, e', ?_, hfail⟩
      · rw [hsub, List.take_succ_cons, assignAll_pass hc, htake]
      · rw [hsub, List.getElem?_cons_succ, he']

/-- Applying entries changes the targets of the slots they name, and nothing else. -/
theorem assignAll_slots (s : State) (k : Nat) (entries : List AssignEntry) :
    (∃ v, (assignAll s k entries).1 = { s with slots := v }) ∧
      ∀ n, (∃ ts, (assignAll s k entries).1.slot n = { s.slot n with targets := ts }) ∧
        ((∀ e ∈ entries, e.slot.toNat ≠ n) → (assignAll s k entries).1.slot n = s.slot n) := by
  induction entries generalizing s k with
  | nil => exact ⟨⟨_, rfl⟩, fun n => ⟨⟨_, rfl⟩, fun _ => rfl⟩⟩
  | cons e rest ih =>
    cases hc : s.assignCheck e with
    | some st =>
      rw [assignAll_fail hc]
      exact ⟨⟨_, rfl⟩, fun n => ⟨⟨_, rfl⟩, fun _ => rfl⟩⟩
    | none =>
      rw [assignAll_pass hc]
      obtain ⟨⟨v, hv⟩, hslots⟩ := ih (s.assign e) (k + 1)
      refine ⟨⟨v, hv⟩, fun n => ?_⟩
      obtain ⟨⟨ts, hts⟩, hothers⟩ := hslots n
      refine ⟨?_, fun hn => ?_⟩
      · rw [hts]
        unfold State.assign
        rw [slot_modSlot]
        split
        · next h => rw [← h.1]; exact ⟨_, rfl⟩
        · exact ⟨_, rfl⟩
      · rw [hothers fun e' he' => hn e' (List.mem_cons_of_mem e he')]
        exact slot_modSlot_other s _ n _ (hn e List.mem_cons_self)

/-! ## The checks of an entry -/

theorem any_tag_iff (ts : List Target) (tag : Nat) : (ts.any fun t => t.tag == tag) = true ↔ ∃ t ∈ ts, t.tag = tag := by
  simp

theorem any_pinned_iff (ts : List Target) (tag : Nat) :
    (ts.any fun t => t.tag == tag && t.pinned) = true ↔ ∃ t ∈ ts, t.tag = tag ∧ t.pinned = true := by
  simp

theorem any_tag_eq_false (ts : List Target) (tag : Nat) :
    (ts.any fun t => t.tag == tag) = false ↔ ∀ t ∈ ts, t.tag ≠ tag := by
  simp

theorem assignCheck_eq (s : State) (e : AssignEntry) :
    s.assignCheck e = (
      if 127 < e.slot.toNat then some .badRequest
      else if (s.slot e.slot.toNat).state = .vacant ∨ (s.slot e.slot.toNat).state = .retired then some .noRobot
      else if e.tag.toNat = 0 ∨ 4095 < e.tag.toNat ∨ 3 < e.cls.toNat then some .badRequest
      else if ¬ (e.alpha.toNat ≤ (s.slot e.slot.toNat).calib.alphaMax ∧
          (s.slot e.slot.toNat).calib.betaFold ≤ e.beta.toNat ∧
          e.beta.toNat ≤ (s.slot e.slot.toNat).calib.betaMax) then some .outOfRange
      else if ∃ t ∈ (s.slot e.slot.toNat).targets, t.tag = e.tag.toNat ∧ t.pinned = true then some .pinned
      else if (∀ t ∈ (s.slot e.slot.toNat).targets, t.tag ≠ e.tag.toNat) ∧
          2 ≤ (s.slot e.slot.toNat).targets.length then some .targetsFull
      else if s.reachable e.slot.toNat e.alpha.toNat e.beta.toNat = false then some .unreachable
      else none) := by
  unfold State.assignCheck
  refine ite_congr_iff Iff.rfl rfl (ite_congr_iff Iff.rfl rfl (ite_congr_iff (or_congr_left Nat.lt_one_iff) rfl
    (ite_congr_iff decide_eq_false_iff_not rfl
      (ite_congr_iff (any_pinned_iff _ _) rfl (ite_congr_iff (and_congr ?_ Iff.rfl) rfl rfl)))))
  rw [Bool.not_eq_true', any_tag_eq_false]

/-- An entry's target in place of the one of its tag, or behind those held. -/
theorem putTarget_eq (t : Target) (ts : List Target) :
    putTarget t ts = if ∃ u ∈ ts, u.tag = t.tag then ts.map fun u => if u.tag = t.tag then t else u else ts ++ [t] :=
  ite_congr_iff (any_tag_iff ts t.tag) rfl rfl

theorem assignCheck_slot {s : State} {e : AssignEntry} (h : s.assignCheck e = none) : e.slot.toNat < 128 := by
  unfold State.assignCheck at h
  refine Classical.byContradiction fun hslot => ?_
  rw [if_pos (by omega)] at h
  cases h

/-! ## Reachability -/

/-- The extension box of a target beyond the fold line is from beta_fold to its beta count. -/
theorem extensionBox_eq {c : Calibration} {alpha beta : Nat} (h : c.betaFold ≤ beta) :
    extensionBox c alpha beta = { alphaLow := alpha, alphaHigh := alpha, betaLow := c.betaFold, betaHigh := beta } := by
  simp [extensionBox, pathBox, h]

theorem other_sideOf (r : ZoneRec) (n : Nat) : (r.sideOf n).other = if r.lower = n then .higher else .lower := by
  unfold ZoneRec.sideOf
  split <;> rfl

theorem boxOf_sideOf (r : ZoneRec) (n : Nat) :
    r.boxOf (r.sideOf n) = if r.lower = n then r.lowerBox else r.higherBox := by
  unfold ZoneRec.sideOf
  split <;> rfl

/-- A zone is FENCED with a side as holder. -/
theorem fenced_holder_iff (st : ZoneStatus) (x : Side) :
    (st.isFenced && decide (st.holder = some x)) = true ↔ ∃ i, st = .fenced x i := by
  cases st <;> simp [ZoneStatus.isFenced, ZoneStatus.holder]

theorem meets_extension {own : Box} {alpha low beta : Nat} :
    Box.meets { alphaLow := alpha, alphaHigh := alpha, betaLow := low, betaHigh := beta } own = true ↔
      own.alphaLow ≤ alpha ∧ alpha ≤ own.alphaHigh ∧ own.betaLow ≤ beta ∧ low ≤ own.betaHigh := by
  simp only [Box.meets, decide_eq_true_eq]
  omega

theorem option_any_iff {α : Type} (o : Option α) (p : α → Bool) : o.any p = true ↔ ∃ r, o = some r ∧ p r = true := by
  cases o <;> simp

/-- A target is unreachable exactly when a zone of its robot, FENCED by the other robot, meets its extension box. -/
theorem unreachable_iff {s : State} {n alpha beta : Nat} (h : (s.slot n).calib.betaFold ≤ beta) :
    s.reachable n alpha beta = false ↔
      ∃ z ∈ (s.slot n).zones, ∃ r i, s.zone z = some r ∧
        r.status = .fenced (if r.lower = n then .higher else .lower) i ∧
        let own := if r.lower = n then r.lowerBox else r.higherBox
        own.alphaLow ≤ alpha ∧ alpha ≤ own.alphaHigh ∧ own.betaLow ≤ beta ∧
          (s.slot n).calib.betaFold ≤ own.betaHigh := by
  unfold State.reachable State.meetSet
  rw [List.all_eq_false, extensionBox_eq h]
  constructor
  · rintro ⟨z, hz, hfenced⟩
    obtain ⟨hzone, hmeets⟩ := List.mem_filter.1 hz
    obtain ⟨r, hr, hmeets⟩ := (option_any_iff _ _).1 hmeets
    obtain ⟨r', hr', hfenced⟩ := (option_any_iff _ _).1 (by simpa using hfenced)
    obtain rfl : r = r' := Option.some.inj (hr.symm.trans hr')
    obtain ⟨i, hi⟩ := (fenced_holder_iff _ _).1 hfenced
    rw [boxOf_sideOf] at hmeets
    exact ⟨z, hzone, r, i, hr, by rw [hi, other_sideOf], meets_extension.1 hmeets⟩
  · rintro ⟨z, hzone, r, i, hr, hstatus, hbox⟩
    have hmeets : ((s.zone z).any fun r => Box.meets
        { alphaLow := alpha, alphaHigh := alpha, betaLow := (s.slot n).calib.betaFold, betaHigh := beta }
        (r.boxOf (r.sideOf n))) = true :=
      (option_any_iff _ _).2 ⟨r, hr, by rw [boxOf_sideOf]; exact meets_extension.2 hbox⟩
    have hfenced : ((s.zone z).any fun r => r.status.isFenced && decide (r.status.holder = some (r.sideOf n).other)) =
        true :=
      (option_any_iff _ _).2 ⟨r, hr, (fenced_holder_iff _ _).2 ⟨i, by rw [hstatus, other_sideOf]⟩⟩
    exact ⟨z, List.mem_filter.2 ⟨hzone, hmeets⟩, by simp [hfenced]⟩

/-! ## ASSIGN_LIST -/

theorem listSized_iff {α : Type} (l : List α) : listSized l = true ↔ ¬ (l = [] ∨ 128 < l.length) := by
  unfold listSized
  rw [decide_eq_true_iff, not_or, Nat.not_lt, ← List.length_eq_zero_iff]
  omega

theorem assignBytes_length (entries : List AssignEntry) :
    (Request.assignList entries).payload.length = 8 * entries.length := by
  show ((entries.map AssignEntry.bytes).flatten).length = _
  induction entries with
  | nil => rfl
  | cons e rest ih =>
    rw [List.map_cons, List.flatten_cons, List.length_append, ih, List.length_cons]
    show 8 + _ = _
    omega

/-- ASSIGN_LIST of a number of entries that it accepts. -/
theorem takeAssignList_sized {s : State} {entries : List AssignEntry} (h : listSized entries = true) (tag : Byte) :
    s.takeAssignList tag entries = match assignAll s 0 entries with
      | (t, m, none) => t.reply tag (.assignList entries) .ok (b2 m)
      | (t, m, some st) => t.reply tag (.assignList entries) .part (b2 m ++ b2 m ++ b1 st.code) := by
  unfold State.takeAssignList
  exact if_pos h

/-- Settles O32. -/
theorem assignList : Obligations.AssignList := by
  refine ⟨fun s k entries => ⟨fun t m => assignAll_all, fun t m st => assignAll_first, rfl, fun e rest =>
      ⟨fun h => assignAll_pass h k rest, fun st h => assignAll_fail h k rest⟩⟩,
    fun s tag entries hready hlen => ⟨?exec, fun k t m o h => ?records⟩,
    fun s e => ⟨assignCheck_eq s e, fun h => ⟨?written, rfl, fun n hn => slot_modSlot_other s _ n _ hn.symm⟩⟩,
    fun s n alpha beta h => unreachable_iff h⟩
  case exec =>
    by_cases hsize : entries = [] ∨ 128 < entries.length
    · rw [if_pos hsize]
      refine exec_plan_reply hready (planReady_ready hready) tag (q := .assignList entries) rfl
        (by rw [assignBytes_length]; omega) ?_
      exact if_neg fun h => (listSized_iff entries).1 h hsize
    · rw [if_neg hsize]
      obtain ⟨⟨v, hv⟩, _⟩ := assignAll_slots s 0 entries
      have hready' : (assignAll s 0 entries).1.ready = true := by
        rw [hv]
        exact ready_records hready rfl rfl
      have htake : s.take tag (.assignList entries) = _ := takeAssignList_sized ((listSized_iff entries).2 hsize) tag
      have hpayload : (Request.assignList entries).payload.length ≤ 2048 := by rw [assignBytes_length]; omega
      generalize assignAll s 0 entries = applied at hready' htake
      obtain ⟨t, m, o⟩ := applied
      cases o with
      | none => exact exec_plan_reply hready hready' tag rfl hpayload htake
      | some st => exact exec_plan_reply hready hready' tag rfl hpayload htake
  case records =>
    have hslots := assignAll_slots s k entries
    rw [h] at hslots
    exact hslots
  case written =>
    refine (slot_modSlot_same s _ _ (assignCheck_slot h)).trans ?_
    rw [putTarget_eq]
    rfl

/-! ## CLEAR_TARGET, DROP_TARGETS -/

theorem clearTargetCheck_eq (s : State) (slot tag : Nat) :
    s.clearTargetCheck slot tag =
      if 127 < slot ∨ tag = 0 ∨ 4095 < tag then some .badRequest
      else if (s.slot slot).state = .vacant then some .noRobot
      else if ∀ t ∈ (s.slot slot).targets, t.tag ≠ tag then some .nothing
      else if ∃ t ∈ (s.slot slot).targets, t.tag = tag ∧ t.pinned = true then some .pinned
      else none :=
  ite_congr_iff (or_congr_right (or_congr_left Nat.lt_one_iff)) rfl (ite_congr_iff Iff.rfl rfl
    (ite_congr_iff (any_tag_eq_false _ _) rfl (ite_congr_iff (any_pinned_iff _ _) rfl rfl)))

/-- A sum over the slots, counted one after another. -/
theorem foldl_count (f : Nat → Nat) (ns : List Nat) (k : Nat) :
    ns.foldl (fun k n => k + f n) k = k + (ns.map f).sum := by
  induction ns generalizing k with
  | nil => rfl
  | cons n ns ih => rw [List.foldl_cons, ih, List.map_cons, List.sum_cons, Nat.add_assoc]

theorem dropped_eq (t : Target) (tag : Nat) : t.dropped tag = if tag = 0 then !t.pinned else decide (t.tag = tag) := by
  unfold Target.dropped
  rw [Bool.beq_eq_decide_eq]

theorem dropCount_eq (s : State) (tag : Nat) :
    s.dropCount tag =
      ((List.range 128).map fun n =>
        ((s.slot n).targets.filter fun t => if tag = 0 then !t.pinned else decide (t.tag = tag)).length).sum := by
  have hdropped : (fun t : Target => t.dropped tag) = fun t => if tag = 0 then !t.pinned else decide (t.tag = tag) :=
    funext fun t => dropped_eq t tag
  unfold State.dropCount
  rw [foldl_count, Nat.zero_add, hdropped]
  rfl

/-- The targets that DROP_TARGETS leaves. -/
theorem not_dropped_eq (tag : Nat) :
    (fun t : Target => !t.dropped tag) = fun t => if tag = 0 then t.pinned else decide (t.tag ≠ tag) := by
  funext t
  rw [dropped_eq]
  split
  · exact Bool.not_not _
  · exact (decide_not).symm

theorem openTag_iff (b : Batch) (tag : Nat) : b.openTag = some tag ↔ ∃ r, b = .opened r ∧ r.tag = tag := by
  cases b <;> simp [Batch.openTag]

/-- Settles O33. -/
theorem targetsRemoved : Obligations.TargetsRemoved := by
  refine ⟨fun s tag hready => ⟨fun slot cfgTag => ?clear, fun cfgTag => ?drop⟩,
    fun s tag => ⟨dropCount_eq s tag, openTag_iff s.batch tag⟩⟩
  case clear =>
    have hne (t : Target) : (t.tag != cfgTag.toNat) = decide (t.tag ≠ cfgTag.toNat) := by
      rw [bne, Bool.beq_eq_decide_eq, decide_not]
    refine (exec_plan_checked hready (t := s.modSlot slot.toNat fun r =>
        { r with targets := r.targets.filter fun t => t.tag != cfgTag.toNat }) (ready_records hready rfl rfl) tag
      (q := .clearTarget slot cfgTag) rfl (by simp [Request.payload, bw]) (p := [])
      (check := s.clearTargetCheck slot.toNat cfgTag.toNat) rfl).trans (congrArg Host.Outcome.next ?_)
    rw [clearTargetCheck_eq]
    simp only [apply_ite (State.checked _ _ _ _ _), hne]
    rfl
  case drop =>
    show exec ((Request.dropTargets cfgTag).command tag) s = _
    rw [exec_plan hready tag (.dropTargets cfgTag) rfl (by simp [Request.payload, bw])]
    refine congrArg Host.Outcome.next ?_
    show State.settle _ (s.takeDropTargets tag cfgTag) = _
    have hs := planReady_ready hready
    unfold State.takeDropTargets
    dsimp only
    rw [not_dropped_eq]
    simp only [apply_ite (State.settle (Config.settleFuel - 1))]
    exact ite_congr rfl (fun _ => settle_reply hs _ _ _ _ _) fun _ =>
      ite_congr rfl (fun _ => settle_reply hs _ _ _ _ _) fun _ =>
        settle_reply_of (s := s) (t := s.mapSlots _) hs rfl rfl _ _ _ _ _

end Sys2Proof.Machine
end

