-- ==== Sys2Proof/Proofs/ZoneRequests.lean ====
section
/-! PROOFS. DEFINE_ZONE and FORGET_ZONE, sent to a block at rest (R59 to R64, R71). -/

namespace Sys2Proof.Machine

/-! ## The checks of DEFINE_ZONE -/

/-- Every zone of the table, by its number. -/
theorem any_zones (s : State) (p : ZoneRec → Bool) :
    (s.zones.toList.any fun z => z.any p) = true ↔ ∃ y ∈ List.range 384, ∃ r ∈ s.zone y, p r = true := by
  rw [zones_toList, List.any_map, List.any_eq_true]
  exact exists_congr fun y => and_congr_right fun _ => option_any_iff _ _

theorem zoneShared_iff (s : State) (m n : Nat) :
    s.zoneShared m n = true ↔ ∃ y ∈ List.range 384, ∃ r ∈ s.zone y, r.lower = min m n ∧ r.higher = max m n := by
  unfold State.zoneShared
  rw [any_zones]
  simp only [Bool.and_eq_true, beq_iff_eq]

theorem busy_iff (r : SlotRec) : r.busy = true ↔ r.state ∈ [RobotState.probing, .waiting, .moving] := by
  unfold SlotRec.busy
  cases r.state <;> simp

theorem wellFormedFor_iff (b : Box) (c : Calibration) :
    b.wellFormedFor c = true ↔ b.alphaLow ≤ b.alphaHigh ∧ b.betaLow ≤ b.betaHigh ∧ b.alphaHigh ≤ c.alphaMax ∧
      c.betaFold < b.betaLow ∧ b.betaHigh ≤ c.betaMax := decide_eq_true_iff

theorem defineZoneCheck_eq (s : State) (z m : Nat) (boxM : Box) (n : Nat) (boxN : Box) :
    s.defineZoneCheck z m boxM n boxN = (
      if 383 < z ∨ 127 < m ∨ 127 < n then some .badRequest
      else if s.zone z ≠ none then some .already
      else if m = n ∨ (s.slot m).state = .vacant ∨ (s.slot n).state = .vacant then some .badRequest
      else if 6 ≤ (s.slot m).zones.length ∨ 6 ≤ (s.slot n).zones.length then some .zoneLimit
      else if ∃ y ∈ List.range 384, ∃ r ∈ s.zone y, r.lower = min m n ∧ r.higher = max m n then some .duplicate
      else if ¬ ((boxM.alphaLow ≤ boxM.alphaHigh ∧ boxM.betaLow ≤ boxM.betaHigh ∧
           boxM.alphaHigh ≤ (s.slot m).calib.alphaMax ∧ (s.slot m).calib.betaFold < boxM.betaLow ∧
           boxM.betaHigh ≤ (s.slot m).calib.betaMax) ∧
         (boxN.alphaLow ≤ boxN.alphaHigh ∧ boxN.betaLow ≤ boxN.betaHigh ∧
           boxN.alphaHigh ≤ (s.slot n).calib.alphaMax ∧ (s.slot n).calib.betaFold < boxN.betaLow ∧
           boxN.betaHigh ≤ (s.slot n).calib.betaMax)) then some .zoneBounds
      else if (s.slot m).state ∈ [RobotState.probing, .waiting, .moving] ∨
         (s.slot n).state ∈ [RobotState.probing, .waiting, .moving] then some .busy
      else none) := by
  unfold State.defineZoneCheck
  refine ite_congr_iff Iff.rfl rfl (ite_congr_iff Option.isSome_iff_ne_none rfl (ite_congr_iff Iff.rfl rfl
    (ite_congr_iff Iff.rfl rfl (ite_congr_iff (zoneShared_iff s m n) rfl
      (ite_congr_iff ?_ rfl (ite_congr_iff ?_ rfl rfl))))))
  · rw [← wellFormedFor_iff, ← wellFormedFor_iff, Classical.not_and_iff_not_or_not, Bool.not_eq_true, Bool.not_eq_true]
  · rw [Bool.or_eq_true, busy_iff, busy_iff]

/-- A DEFINE_ZONE that passes names two slots of the table. -/
theorem defineZoneCheck_slots {s : State} {z m : Nat} {boxM : Box} {n : Nat} {boxN : Box}
    (h : s.defineZoneCheck z m boxM n boxN = none) : m ≠ n := by
  rw [defineZoneCheck_eq] at h
  split at h
  · cases h
  split at h
  · cases h
  split at h
  · cases h
  · next hne => exact fun e => hne (.inl e)

/-! ## The zone made -/

/-- The zone record of two slots, the smaller one lower, with its initial status. -/
def State.madeZone (s : State) (m : Nat) (boxM : Box) (n : Nat) (boxN : Box) : ZoneRec :=
  { newZone m boxM n boxN with status := s.initialStatusOf (newZone m boxM n boxN) }

theorem newZone_first {m n : Nat} (h : m ≠ n) (boxM boxN : Box) :
    (newZone m boxM n boxN).boxOf ((newZone m boxM n boxN).sideOf m) = boxM := by
  unfold newZone ZoneRec.sideOf
  rcases Nat.lt_or_gt_of_ne h with hlt | hgt
  · simp [ZoneRec.boxOf, hlt, Nat.le_of_lt hlt]
  · simp [ZoneRec.boxOf, Nat.min_eq_right (Nat.le_of_lt hgt), h.symm, Nat.lt_asymm hgt]

theorem newZone_second {m n : Nat} (h : m ≠ n) (boxM boxN : Box) :
    (newZone m boxM n boxN).boxOf ((newZone m boxM n boxN).sideOf n) = boxN := by
  unfold newZone ZoneRec.sideOf
  rcases Nat.lt_or_gt_of_ne h with hlt | hgt
  · simp [ZoneRec.boxOf, hlt, Nat.min_eq_left (Nat.le_of_lt hlt), h]
  · simp [ZoneRec.boxOf, Nat.min_eq_right (Nat.le_of_lt hgt), Nat.lt_asymm hgt]

/-- A zone in the zone lists of both its robots and in the table. -/
def State.withZone (s : State) (z : Nat) (r : ZoneRec) : State :=
  ((s.modSlot r.lower fun x => { x with zones := insertZone z x.zones }).modSlot r.higher fun x =>
    { x with zones := insertZone z x.zones }).setZone z (some r)

/-- A zone made by a state that differs in the link: besides the records, ZONE_CONTESTED at most is raised. -/
theorem putZone_eq (s : State) (k : Link) (z m : Nat) (boxM : Box) (n : Nat) (boxN : Box) :
    ∃ k', ({ s with link := k } : State).putZone z (newZone m boxM n boxN) =
        { s.withZone z (s.madeZone m boxM n boxN) with link := k' } ∧
      k'.control = k.control ∧ k'.plan = k.plan := by
  have hput : ({ s with link := k } : State).putZone z (newZone m boxM n boxN) =
      if (s.madeZone m boxM n boxN).status.isContested then
        ({ s.withZone z (s.madeZone m boxM n boxN) with link := k } : State).raise (.zoneContested 1 z)
      else { s.withZone z (s.madeZone m boxM n boxN) with link := k } := rfl
  rw [hput]
  split
  · exact ⟨_, raise_eq _ _, rfl, rfl⟩
  · exact ⟨k, rfl, rfl, rfl⟩

/-! ## The zone list -/

theorem mem_insertZone {z y : Nat} (zs : List Nat) : y ∈ insertZone z zs ↔ y = z ∨ y ∈ zs := by
  induction zs with
  | nil => simp [insertZone]
  | cons x xs ih =>
    unfold insertZone
    split
    · exact List.mem_cons
    · rw [List.mem_cons, ih, List.mem_cons]
      exact or_left_comm

theorem insertZone_length (z : Nat) (zs : List Nat) : (insertZone z zs).length = zs.length + 1 := by
  induction zs with
  | nil => rfl
  | cons x xs ih =>
    unfold insertZone
    split
    · rfl
    · rw [List.length_cons, ih, List.length_cons]

/-- A zone list stays ascending. -/
theorem insertZone_pairwise {z : Nat} (zs : List Nat) (h : zs.Pairwise (· < ·)) (hz : z ∉ zs) :
    (insertZone z zs).Pairwise (· < ·) := by
  induction zs with
  | nil => exact List.pairwise_singleton _ _
  | cons x xs ih =>
    obtain ⟨hx, hxs⟩ := List.pairwise_cons.1 h
    unfold insertZone
    split
    · next hlt =>
      refine List.pairwise_cons.2 ⟨fun y hy => ?_, h⟩
      rcases List.mem_cons.1 hy with rfl | hy
      · exact hlt
      · exact Nat.lt_trans hlt (hx y hy)
    · next hge =>
      have hne : z ≠ x := fun e => hz (e ▸ List.mem_cons_self)
      refine List.pairwise_cons.2 ⟨fun y hy => ?_, ih hxs fun hm => hz (List.mem_cons_of_mem x hm)⟩
      rcases (mem_insertZone xs).1 hy with rfl | hy
      · omega
      · exact hx y hy

/-! ## FORGET_ZONE -/

theorem underLeg_iff (s : State) (n : Nat) :
    s.underLeg n = true ↔ (s.slot n).state = .waiting ∨ (s.slot n).state = .moving := by
  simp [State.underLeg]

theorem zoneInUse_iff (s : State) (z : Nat) (r : ZoneRec) :
    ((s.waitList.any fun e => e.wanted.contains z) || s.underLeg r.lower || s.underLeg r.higher) = true ↔
      (∃ e ∈ s.waitList, z ∈ e.wanted) ∨ (s.slot r.lower).state = .waiting ∨ (s.slot r.lower).state = .moving ∨
        (s.slot r.higher).state = .waiting ∨ (s.slot r.higher).state = .moving := by
  simp only [Bool.or_eq_true, underLeg_iff, List.any_eq_true, List.contains_iff_mem, or_assoc]

/-- Settles O34. -/
theorem zoneRequests : Obligations.ZoneRequests := by
  refine ⟨defineZoneCheck_eq, fun s tag zone slot1 box1 slot2 box2 hready => ⟨fun st hcheck => ?refused,
      fun hcheck => ?defined⟩,
    fun s tag zone hready => ⟨fun h => ?beyond, fun h hz => ?undefined, fun r h hz => ?forgotten⟩,
    fun z zs => ⟨fun y => mem_insertZone zs, insertZone_length z zs, insertZone_pairwise zs⟩, fun b => rfl⟩
  case refused =>
    refine exec_plan_reply hready (planReady_ready hready) tag (q := .defineZone zone slot1 box1 slot2 box2) rfl
      (by simp [Request.payload, WireBox.bytes, bw]) ?_
    show s.takeDefineZone tag zone slot1 box1 slot2 box2 = _
    unfold State.takeDefineZone
    dsimp only
    rw [hcheck]
  case defined =>
    have hne := defineZoneCheck_slots hcheck
    obtain ⟨hh, hroom, _, _, hc, hp⟩ := ready_spec (planReady_ready hready)
    obtain ⟨r, hr⟩ : ∃ r, r = s.madeZone slot1.toNat (boxOfWire box1) slot2.toNat (boxOfWire box2) := ⟨_, rfl⟩
    obtain ⟨u, hu⟩ : ∃ u, u = s.answered tag 0x20 .ok (b1 r.status.code ++ r.partyBytes) := ⟨_, rfl⟩
    have htake : s.take tag (.defineZone zone slot1 box1 slot2 box2) =
        u.putZone zone.toNat (newZone slot1.toNat (boxOfWire box1) slot2.toNat (boxOfWire box2)) := by
      show s.takeDefineZone tag zone slot1 box1 slot2 box2 = _
      unfold State.takeDefineZone
      dsimp only
      rw [hcheck]
      dsimp only
      rw [reply_answered hroom, hu, hr]
      rfl
    have hulink : u.link.control = [] ∧ u.link.plan = [] := by
      rw [hu, answered_eq]
      exact ⟨(enter_control _ _).trans hc, (enter_plan _ _).trans (hp (planReady_moves hready))⟩
    obtain ⟨v, hv⟩ : ∃ v, v = u.putZone zone.toNat (newZone slot1.toNat (boxOfWire box1) slot2.toNat (boxOfWire box2)) :=
      ⟨_, rfl⟩
    have hinner : Inner u v := by
      rw [hv]
      exact Inner.putZone u _ _
    have hvrec : v = { s.withZone zone.toNat r with link := v.link } := by
      obtain ⟨k', hk, _, _⟩ := putZone_eq s u.link zone.toNat slot1.toNat (boxOfWire box1) slot2.toNat (boxOfWire box2)
      have hus : u = { s with link := u.link } := by rw [hu, answered_eq]
      rw [hv, hus, hk, hr]
    have hsame : v.SameRecords (v.settle (Config.settleFuel - 1)) :=
      sameRecords_settle _ v (by rw [hvrec]; exact hh) (by rw [hinner.control, hulink.1]) (by rw [hinner.plan, hulink.2])
    refine ⟨v.settle (Config.settleFuel - 1), r, ?_, by rw [hr]; rfl, by rw [hr]; rfl, ?_, ?_, by rw [hr]; rfl, ?_, ?_⟩
    · refine (exec_plan hready tag (.defineZone zone slot1 box1 slot2 box2) rfl
        (by simp [Request.payload, WireBox.bytes, bw])).trans ?_
      rw [htake, hv]
    · rw [hr]
      exact newZone_first hne _ _
    · rw [hr]
      exact newZone_second hne _ _
    · rw [← hu]
      exact hinner.output.trans (Kept.settle _ v (by rw [hinner.control, hulink.1])).output
    · exact hsame.trans
        (congrArg (fun w : State => { w with link := (v.settle (Config.settleFuel - 1)).link }) hvrec)
  case beyond =>
    exact exec_plan_reply hready (planReady_ready hready) tag (q := .forgetZone zone) rfl
      (by simp [Request.payload, bw]) (if_pos h)
  case undefined =>
    refine exec_plan_reply hready (planReady_ready hready) tag (q := .forgetZone zone) rfl
      (by simp [Request.payload, bw]) ?_
    show s.takeForgetZone tag zone = _
    unfold State.takeForgetZone
    dsimp only
    rw [if_neg (by omega), hz]
  case forgotten =>
    have htake : s.take tag (.forgetZone zone) =
        if (s.waitList.any fun e => e.wanted.contains zone.toNat) || s.underLeg r.lower || s.underLeg r.higher then
          s.reply tag (.forgetZone zone) .busy []
        else (s.dropZone zone.toNat r).reply tag (.forgetZone zone) .ok r.answerBytes := by
      show s.takeForgetZone tag zone = _
      unfold State.takeForgetZone
      dsimp only
      rw [if_neg (by omega), hz]
    refine (exec_plan hready tag (.forgetZone zone) rfl (by simp [Request.payload, bw])).trans
      (congrArg Host.Outcome.next ?_)
    rw [htake, apply_ite (State.settle (Config.settleFuel - 1))]
    exact ite_congr (propext (zoneInUse_iff s zone.toNat r))
      (fun _ => settle_reply (planReady_ready hready) _ _ _ _ _) fun _ =>
        settle_reply_of (s := s) (t := s.dropZone zone.toNat r) (planReady_ready hready) rfl rfl _ _ _ _ _

end Sys2Proof.Machine
end

