-- ==== Sys2Proof/Proofs/Outcomes.lean ====
section
/-! PROOFS. Outcomes of the batch robots and its close (R116 to R118), and fault reports (R31, R32). -/

namespace Sys2Proof.Machine

/-! ## Outcomes -/

/-- An outcome is one count of the batch more. -/
theorem settled_count (b : BatchRec) {o : RobotOutcome} (h : o ≠ .none) : (b.count o).settled = b.settled + 1 := by
  cases o with
  | none => exact absurd rfl h
  | arrived => simp only [BatchRec.count, BatchRec.settled]; omega
  | blocked r => simp only [BatchRec.count, BatchRec.settled]; omega
  | faulted => simp only [BatchRec.count, BatchRec.settled]; omega
  | stopped => simp only [BatchRec.count, BatchRec.settled]; omega

theorem admitted_count (b : BatchRec) (o : RobotOutcome) : (b.count o).admitted = b.admitted := by cases o <;> rfl

/-- The slot record with an outcome, field by field. -/
theorem withOutcome_eq (r : SlotRec) (o : RobotOutcome) (tag : Nat) : o ≠ .none → r.withOutcome o tag =
    { r with
      outcome := o
      remaining := []
      leg := r.leg.filter fun g => g.stage == .lapsing
      targets :=
        if o = .arrived then r.targets.filter fun t => t.tag != tag
        else r.targets.map fun t => if t.tag = tag then { t with pinned := false } else t
      state :=
        match o with
        | .none => r.state
        | .arrived => .rest
        | .blocked _ => .rest
        | .faulted => r.state
        | .stopped => .held
      faultCount := if o = .arrived then 0 else r.faultCount } := by
  intro h
  cases o with
  | none => exact absurd rfl h
  | arrived => rfl
  | blocked r => rfl
  | faulted => rfl
  | stopped => rfl

/-- What an event raises depends on the time and the link. -/
theorem raise_link_congr {s t : State} (hn : t.now = s.now) (hl : t.link = s.link) (e : Summary) :
    (t.raise e).link = (s.raise e).link := by
  unfold State.raise
  rw [hl, hn]
  split
  · rw [modLink_link, modLink_link, hl]
  · exact hl

/-- The answer of an AWAIT_BATCH that is current, with a place free. -/
theorem answerAwait_await {s : State} {w : Current} (h : s.link.current = some w) (hw : w.work = .awaitBatch)
    (hroom : s.outputRoom = true) :
    s.answerAwait =
      ({ s with link := { s.link with current := none } } : State).answered w.tag w.code .ok s.batch.bytes := by
  rw [← answerCurrent_answered h hroom]
  unfold State.answerAwait
  rw [h]
  exact if_pos hw

theorem closeBatch_opened {s : State} {b : BatchRec} (h : s.batch = .opened b) :
    s.closeBatch = (({ s with batch := .closed b s.now } : State).raise
      (.batchClosed b.tag b.admitted b.skipped b.arrived b.blocked b.faulted b.stopped 1)).answerAwait := by
  unfold State.closeBatch
  rw [h]

/-- The link after an answer depends on the link. -/
theorem answered_link_congr {s t : State} (h : t.link = s.link) (tag code : Byte) (st : Status) (p : List Byte) :
    (t.answered tag code st p).link = (s.answered tag code st p).link := by
  rw [answered_eq, answered_eq, h]

/-- The event that a batch's close raises. -/
def BatchRec.closedEvent (c : BatchRec) : Summary :=
  .batchClosed c.tag c.admitted c.skipped c.arrived c.blocked c.faulted c.stopped 1

/-- The close of a batch, no AWAIT_BATCH being current, reaches the link by its event alone. -/
theorem closeBatch_link {s : State} {c : BatchRec} (hc : s.batch = .opened c)
    (h : ∀ w, s.link.current = some w → w.work ≠ .awaitBatch) : s.closeBatch.link = (s.raise c.closedEvent).link := by
  rw [closeBatch_opened hc, answerAwait_other]
  · exact raise_link_congr (s := s) (t := { s with batch := .closed c s.now }) rfl rfl _
  · rw [raise_eq]
    exact h

/-- The close of a batch answers the AWAIT_BATCH that is current. -/
theorem closeBatch_link_await {s : State} {c : BatchRec} (hc : s.batch = .opened c) {w : Current}
    (hw : s.link.current = some w) (hwork : w.work = .awaitBatch) (hroom : s.outputRoom = true) :
    s.closeBatch.link =
      (({ s with link := { (s.raise c.closedEvent).link with current := none } } : State).answered w.tag w.code .ok
        (Batch.closed c s.now).bytes).link := by
  obtain ⟨v, hv⟩ : ∃ v, v = ({ s with batch := .closed c s.now } : State).raise c.closedEvent := ⟨_, rfl⟩
  have hlink : v.link = (s.raise c.closedEvent).link := by
    rw [hv]
    exact raise_link_congr (s := s) (t := { s with batch := .closed c s.now }) rfl rfl _
  have hbatch : v.batch = .closed c s.now := by rw [hv, raise_eq]
  have hcur : v.link.current = some w := by rw [hlink, raise_eq]; exact hw
  have hvroom : v.outputRoom = true := by
    unfold State.outputRoom
    rw [hlink, raise_eq]
    exact hroom
  rw [closeBatch_opened hc]
  show (State.answerAwait (State.raise _ c.closedEvent)).link = _
  rw [← hv, answerAwait_await hcur hwork hvroom, hbatch]
  refine answered_link_congr ?_ _ _ _ _
  rw [hlink]

/-- Settles O40. -/
theorem outcomeRecorded : Obligations.OutcomeRecorded := by
  refine ⟨fun s n o b hn hb ho => ⟨fun hflag hnone => ⟨?slot, fun m hm => recordOutcome_other s n o m hm,
      fun hmore => ?more, fun hlast => ?last⟩, fun hnot => recordOutcome_none o fun _ _ hc => ?not⟩,
    fun b => ⟨rfl, fun _ => rfl, rfl, rfl⟩⟩
  case slot =>
    exact (recordOutcome_slot o hb ⟨hflag, hnone⟩ n).trans
      ((slot_modSlot_same _ _ _ hn).trans (withOutcome_eq _ _ _ ho))
  case more =>
    rw [recordOutcome_counted hb hflag hnone]
    rw [settled_count b ho, admitted_count]
    exact hmore
  case last =>
    have hclosed := recordOutcome_closed hb hflag hnone (o := o) (by
      rw [settled_count b ho, admitted_count]
      exact hlast)
    obtain ⟨v, hv⟩ : ∃ v : State, v = { s.modSlot n fun r => r.withOutcome o b.tag with batch := .opened (b.count o) } :=
      ⟨_, rfl⟩
    have hbatch : v.batch = .opened (b.count o) := by rw [hv]
    have hlink : v.link = s.link := by rw [hv]; rfl
    have hnow : v.now = s.now := by rw [hv]; rfl
    rw [hclosed, ← hv, ← hnow]
    refine ⟨closeBatch_batch hbatch, fun hother => ?_, fun w hw hwork hroom => ?_⟩
    · exact (closeBatch_link hbatch (by rw [hlink]; exact hother)).trans (raise_link_congr hnow hlink _)
    · refine (closeBatch_link_await hbatch (by rw [hlink]; exact hw) hwork
        (by rw [outputRoom_congr hlink]; exact hroom)).trans (answered_link_congr ?_ _ _ _ _)
      exact congrArg (fun k : Link => { k with current := none }) (raise_link_congr hnow hlink _)
  case not =>
    rcases hnot with h | h
    · rw [h] at hc
      cases hc.1
    · exact h hc.2

/-! ## Fault reports -/

/-- The records of a fault report before its zones change (R31). -/
def State.faultRecorded (s : State) (n : Nat) (kind : FaultKind) (pos : PosChange) : State :=
  (((s.raise (.robotFaulted 1 n)).modSlot n fun r =>
    { r with state := .faulted, fault := some { kind := kind, time := s.now }, remaining := [] }).recordOutcome n
      .faulted).modSlot n fun r => { r with faultCount := r.faultCount + 1, position := pos.apply r.position }

theorem faultReport_eq (s : State) (n : Nat) (kind : FaultKind) (pos : PosChange) :
    s.faultReport n kind pos = ((s.faultRecorded n kind pos).updateZones n).testFaultLimit n := by
  have hnow : (s.raise (.robotFaulted 1 n)).now = s.now := by rw [raise_eq]
  unfold State.faultReport State.faultRecorded
  dsimp only
  rw [hnow]

/-- A fault report writes slots, the batch and the link before its zones change. -/
theorem faultRecorded_eq (s : State) (n : Nat) (kind : FaultKind) (pos : PosChange) :
    ∃ ss b k, s.faultRecorded n kind pos = { s with slots := ss, batch := b, link := k } := by
  unfold State.faultRecorded
  rw [recordOutcome_eq, raise_eq]
  exact ⟨_, _, _, rfl⟩

theorem faultRecorded_other (s : State) {n m : Nat} (h : m ≠ n) (kind : FaultKind) (pos : PosChange) :
    (s.faultRecorded n kind pos).slot m = s.slot m := by
  unfold State.faultRecorded
  rw [slot_modSlot_other _ _ _ _ (Ne.symm h), recordOutcome_other _ _ _ _ h, slot_modSlot_other _ _ _ _ (Ne.symm h),
    raise_eq]
  rfl

/-- The record of an outcome leaves all but six fields of a slot. -/
theorem recordOutcome_faulted_slot (s : State) (n : Nat) :
    ∃ o ts g, (s.recordOutcome n .faulted).slot n =
      { s.slot n with outcome := o, targets := ts, leg := g, remaining := ((s.recordOutcome n .faulted).slot n).remaining } ∧
      ((s.slot n).remaining = [] → ((s.recordOutcome n .faulted).slot n).remaining = []) := by
  by_cases hb : ∃ b, s.batch = .opened b ∧ (s.slot n).batchFlag = true ∧ (s.slot n).outcome = .none
  · obtain ⟨b, hb, hc⟩ := hb
    rw [recordOutcome_slot _ hb hc, slot_modSlot]
    split
    · exact ⟨.faulted, _, _, rfl, fun _ => rfl⟩
    · exact ⟨_, _, _, rfl, id⟩
  · rw [recordOutcome_none _ fun b e hc => hb ⟨b, e, hc⟩]
    exact ⟨_, _, _, rfl, id⟩

/-- What the slot of a fault report holds. -/
theorem faultRecorded_slot (s : State) {n : Nat} (hn : n < 128) (kind : FaultKind) (pos : PosChange) :
    ((s.faultRecorded n kind pos).slot n).state = .faulted ∧
    ((s.faultRecorded n kind pos).slot n).fault = some { kind := kind, time := s.now } ∧
    ((s.faultRecorded n kind pos).slot n).faultCount = (s.slot n).faultCount + 1 ∧
    ((s.faultRecorded n kind pos).slot n).position = pos.apply (s.slot n).position ∧
    ((s.faultRecorded n kind pos).slot n).remaining = [] ∧
    ((s.faultRecorded n kind pos).slot n).zones = (s.slot n).zones := by
  obtain ⟨u, hu⟩ : ∃ u, u = (s.raise (.robotFaulted 1 n)).modSlot n fun r =>
    { r with state := .faulted, fault := some { kind := kind, time := s.now }, remaining := [] } := ⟨_, rfl⟩
  have huslot : u.slot n =
      { s.slot n with state := .faulted, fault := some { kind := kind, time := s.now }, remaining := [] } := by
    rw [hu, slot_modSlot_same _ _ _ hn, raise_eq]
    rfl
  obtain ⟨o, ts, g, hslot, hrem⟩ := recordOutcome_faulted_slot u n
  have hrem' := hrem (by rw [huslot])
  unfold State.faultRecorded
  rw [← hu, slot_modSlot_same _ _ _ hn]
  dsimp only
  rw [hrem', hslot, huslot]
  exact ⟨rfl, rfl, rfl, rfl, rfl, rfl⟩

/-- The zones that changes leave depend on the zones before. -/
theorem writeZones_zones_congr (cs : List (Nat × ZoneStatus × ZoneStatus)) {s t : State} (h : t.zones = s.zones) :
    (t.writeZones cs).zones = (s.writeZones cs).zones := by
  induction cs generalizing s t with
  | nil => exact h
  | cons c cs ih =>
    refine ih (t := t.setStatus c.1 c.2.2) (s := s.setStatus c.1 c.2.2) ?_
    unfold State.setStatus State.setZone State.zone
    dsimp only
    rw [h]

theorem zone_congr {s t : State} (h : t.zones = s.zones) (z : Nat) : t.zone z = s.zone z := by
  unfold State.zone
  rw [h]

/-- The zones after an occupancy update that runs, with no claim waiting. -/
theorem updateZones_zones {s : State} {n : Nat} (hw : s.waitList = []) (hp : (s.slot n).position ≠ none)
    (hs : (s.slot n).state ≠ .retired) :
    (s.updateZones n).zones = (s.writeZones (s.zoneChanges n ZoneStatus.update)).zones := by
  rw [updateZones_known hp hs, zoneReport_idle (by rw [writeZones_waitList, hw]), raiseContested_eq]

/-- The zones after an occupancy update, with no claim waiting, depend on the zones and on the robot's zone list,
position and retirement. -/
theorem updateZones_zones_congr {s t : State} {n : Nat} (hs : s.waitList = []) (ht : t.waitList = [])
    (hz : t.zones = s.zones) (hlist : (t.slot n).zones = (s.slot n).zones)
    (hpos : (t.slot n).position = (s.slot n).position)
    (hst : (t.slot n).state = .retired ↔ (s.slot n).state = .retired) :
    (t.updateZones n).zones = (s.updateZones n).zones := by
  by_cases h : (s.slot n).position = none ∨ (s.slot n).state = .retired
  · rw [updateZones_none h, updateZones_none (by rw [hpos, hst]; exact h), hz]
  · obtain ⟨hp, hr⟩ := not_or.1 h
    rw [updateZones_zones hs hp hr, updateZones_zones ht (by rw [hpos]; exact hp) (mt hst.1 hr),
      zoneChanges_congr hlist hpos (zone_congr hz)]
    exact writeZones_zones_congr _ hz

/-- A fault report's robot, its zones changed: what the limit is tested on. -/
theorem faultUpdated_eq {s : State} (hw : s.waitList = []) (n : Nat) (kind : FaultKind) (pos : PosChange) :
    ∃ b k, (s.faultRecorded n kind pos).updateZones n =
      { s with
        slots := (s.faultRecorded n kind pos).slots
        zones := ((s.faultRecorded n kind pos).updateZones n).zones
        batch := b
        link := k } := by
  obtain ⟨ss, b, k, h⟩ := faultRecorded_eq s n kind pos
  have hidle : (s.faultRecorded n kind pos).waitList = [] := by rw [h]; exact hw
  rw [updateZones_eq n hidle, h]
  exact ⟨_, _, rfl⟩

/-- Settles O36. -/
theorem faultReport : Obligations.FaultReport := by
  intro s n kind pos hn hw
  obtain ⟨u, hu⟩ : ∃ u, u = (s.faultRecorded n kind pos).updateZones n := ⟨_, rfl⟩
  obtain ⟨b, k, hrec⟩ := faultUpdated_eq hw n kind pos
  rw [← hu] at hrec
  have hslot (m : Nat) : u.slot m = (s.faultRecorded n kind pos).slot m := by rw [hrec]; rfl
  obtain ⟨hstate, hfault, hcount, hposition, hremaining, hlist⟩ := faultRecorded_slot s hn kind pos
  have huwait : u.waitList = [] := by rw [hrec]; exact hw
  have hlimit : s.faultReport n kind pos =
      if s.settings.faultLimit ≤ (s.slot n).faultCount + 1 then u.retire n .faultLimit else u := by
    rw [faultReport_eq, ← hu]
    unfold State.testFaultLimit
    rw [hslot, hcount]
    have hset : u.settings = s.settings := by rw [hrec]
    rw [hset]
  have hretire : u.retire n .faultLimit =
      ((u.retiring n .faultLimit).writeZones (u.retireChanges n)).raise (.robotRetired 1 n) := retire_idle huwait n _
  obtain ⟨g, hd, hretiring⟩ := retiring_eq u n .faultLimit
  have hretired (m : Nat) :
      (u.retire n .faultLimit).slot m = (u.modSlot n fun r => r.retired .faultLimit).slot m := by
    rw [hretire, raise_eq, writeZones_eq, hretiring]
    rfl
  obtain ⟨v, hv⟩ : ∃ v, v = s.modSlot n fun r => { r with state := .faulted, position := pos.apply r.position } :=
    ⟨_, rfl⟩
  have hvslot : v.slot n = { s.slot n with state := .faulted, position := pos.apply (s.slot n).position } := by
    rw [hv, slot_modSlot_same _ _ _ hn]
  have hzones : u.zones = (v.updateZones n).zones := by
    obtain ⟨ss, b', k', h⟩ := faultRecorded_eq s n kind pos
    rw [hu]
    refine updateZones_zones_congr (by rw [hv]; exact hw) (by rw [h]; exact hw) (by rw [h, hv]; rfl) ?_ ?_ ?_
    · rw [hlist, hvslot]
    · rw [hposition, hvslot]
    · rw [hstate, hvslot]
  refine ⟨fun hbelow => ?below, fun hat => ?atLimit, by cases pos <;> rfl, fun m hm => ?others, ?lines, ?pins⟩
  case below =>
    rw [hlimit, if_neg (by omega), hslot, ← hv]
    exact ⟨hstate, hfault, hcount, hposition, hremaining, by rw [hrec], hzones⟩
  case atLimit =>
    rw [hlimit, if_pos hat, hretired, slot_modSlot_same _ _ _ hn, ← hv]
    refine ⟨rfl, rfl, rfl, ?_⟩
    have hchanges : u.retireChanges n = (v.updateZones n).retireChanges n := by
      have hvupdated : (v.updateZones n).slot n = v.slot n := by
        rw [updateZones_eq n (by rw [hv]; exact hw)]
        rfl
      refine retireChanges_congr ?_ ?_ (zone_congr hzones)
      · rw [hslot, hlist, hvupdated, hvslot]
      · rw [hslot, hposition, hvupdated, hvslot]
    show _ = ((v.updateZones n).writeZones ((v.updateZones n).retireChanges n)).zones
    rw [← hchanges, hretire, raise_eq]
    exact writeZones_zones_congr _ ((by rw [hretiring]; rfl : (u.retiring n .faultLimit).zones = u.zones).trans hzones)
  case others =>
    have hother : u.slot m = s.slot m := (hslot m).trans (faultRecorded_other s hm kind pos)
    rw [hlimit]
    split
    · rw [hretired, slot_modSlot_other _ _ _ _ (Ne.symm hm), hother]
    · exact hother
  case lines =>
    rw [hlimit]
    split
    · rw [hretire, raise_eq, writeZones_eq, hretiring, hrec]
      rfl
    · rw [hrec]
  case pins =>
    rw [hlimit]
    split
    · rw [hretire, raise_eq, writeZones_eq, hretiring, hrec]
      rfl
    · rw [hrec]

end Sys2Proof.Machine
end

