-- ==== Sys2Proof/Proofs/PlanBuilding.lean ====
section
/-! PROOFS. Plan building, test by test, and what its tests mean (R7 to R9, R101 to R103). -/

namespace Sys2Proof.Machine

/-! ## The tests -/

theorem mem_meetSet {s : State} {n : Nat} {path : Box} {z : Nat} :
    z ∈ s.meetSet n path ↔
      z ∈ (s.slot n).zones ∧ ∃ r, s.zone z = some r ∧
        let own := if r.lower = n then r.lowerBox else r.higherBox
        path.alphaLow ≤ own.alphaHigh ∧ own.alphaLow ≤ path.alphaHigh ∧
          path.betaLow ≤ own.betaHigh ∧ own.betaLow ≤ path.betaHigh := by
  unfold State.meetSet
  rw [List.mem_filter, option_any_iff]
  refine and_congr_right fun _ => exists_congr fun r => and_congr_right fun _ => ?_
  rw [boxOf_sideOf]
  exact decide_eq_true_iff

/-- Two boxes with no low bound above its high bound meet when they share a position. -/
theorem meets_iff_share {p q : Box} (hpa : p.alphaLow ≤ p.alphaHigh) (hpb : p.betaLow ≤ p.betaHigh)
    (hqa : q.alphaLow ≤ q.alphaHigh) (hqb : q.betaLow ≤ q.betaHigh) :
    p.meets q = true ↔
      (∃ x, p.alphaLow ≤ x ∧ x ≤ p.alphaHigh ∧ q.alphaLow ≤ x ∧ x ≤ q.alphaHigh) ∧
        ∃ y, p.betaLow ≤ y ∧ y ≤ p.betaHigh ∧ q.betaLow ≤ y ∧ y ≤ q.betaHigh := by
  unfold Box.meets
  rw [decide_eq_true_iff]
  constructor
  · rintro ⟨h₁, h₂, h₃, h₄⟩
    exact ⟨⟨max p.alphaLow q.alphaLow, by omega⟩, ⟨max p.betaLow q.betaLow, by omega⟩⟩
  · rintro ⟨⟨x, hx⟩, ⟨y, hy⟩⟩
    omega

/-- The robot is intruder of a FENCED zone when the other robot fenced it with this one in it. -/
theorem fenced_intruder_iff (r : ZoneRec) (n : Nat) :
    (r.status.isFenced && decide (r.status.intruder = some (r.sideOf n))) = true ↔
      r.status = .fenced (if r.lower = n then .higher else .lower) true := by
  rw [← other_sideOf]
  cases r.status with
  | free => simp [ZoneStatus.isFenced]
  | held h => simp [ZoneStatus.isFenced]
  | contested h => simp [ZoneStatus.isFenced]
  | fenced h i =>
    cases i with
    | false => simp [ZoneStatus.isFenced, ZoneStatus.intruder]
    | true => cases h <;> cases r.sideOf n <;> simp [ZoneStatus.isFenced, ZoneStatus.intruder, Side.other]

theorem contested_iff (s : State) (n : Nat) :
    s.contested n = true ↔
      ∃ z ∈ (s.slot n).zones, ∃ r, s.zone z = some r ∧
        ((∃ h, r.status = .contested h) ∨ r.status = .fenced (if r.lower = n then .higher else .lower) true) := by
  unfold State.contested
  rw [List.any_eq_true]
  refine exists_congr fun z => and_congr_right fun _ => (option_any_iff _ _).trans ?_
  refine exists_congr fun r => and_congr_right fun _ => ?_
  rw [Bool.or_eq_true, isContested_iff, fenced_intruder_iff]

theorem zoneHeldBy_iff (s : State) (n z : Nat) :
    s.zoneHeldBy n z = true ↔ ∃ r, s.zone z = some r ∧ r.status = .held (if r.lower = n then .lower else .higher) := by
  unfold State.zoneHeldBy
  rw [option_any_iff]
  exact exists_congr fun r => and_congr_right fun _ => decide_eq_true_iff

theorem zoneFenced_iff (s : State) (z : Nat) :
    s.zoneFenced z = true ↔ ∃ r h i, s.zone z = some r ∧ r.status = .fenced h i := by
  unfold State.zoneFenced State.status
  cases s.zone z with
  | none => simp
  | some r => simp [isFenced_iff]

/-! ## The legs of a plan -/

theorem legWhen_eq {p : Prop} [Decidable p] {b : Bool} (h : b = true ↔ p) (kind : LegKind) (finish : Counts) :
    legWhen b kind finish = if p then [{ kind := kind, finish := finish }] else [] := by
  unfold legWhen
  exact ite_congr_iff h rfl rfl

theorem foldSwingExtend_eq (a b : Counts) (fold : Nat) :
    foldSwingExtend a b fold =
      (if a.beta ≠ fold then [{ kind := .fold, finish := { alpha := a.alpha, beta := fold } }] else []) ++
      (if a.alpha ≠ b.alpha then [{ kind := .swing, finish := { alpha := b.alpha, beta := fold } }] else []) ++
      (if b.beta ≠ fold then [{ kind := .extend, finish := b }] else []) := by
  unfold foldSwingExtend
  rw [legWhen_eq bne_iff_ne, legWhen_eq bne_iff_ne, legWhen_eq bne_iff_ne]

theorem eq_of_leg_nil {a b : Nat} {l : RemLeg} (h : (if a ≠ b then [l] else []) = []) : a = b := by
  by_cases hab : a = b
  · exact hab
  · rw [if_pos hab] at h
    cases h

/-- A plan to other counts has a leg. -/
theorem foldSwingExtend_ne {a b : Counts} (h : a ≠ b) (fold : Nat) : foldSwingExtend a b fold ≠ [] := by
  intro hnil
  rw [foldSwingExtend_eq, List.append_eq_nil_iff, List.append_eq_nil_iff] at hnil
  obtain ⟨⟨hfold, hswing⟩, hextend⟩ := hnil
  have ha : a.beta = fold := eq_of_leg_nil hfold
  have hs : a.alpha = b.alpha := eq_of_leg_nil hswing
  have hb : b.beta = fold := eq_of_leg_nil hextend
  refine h ?_
  cases a
  cases b
  simp_all

/-- The plan when it has legs other than one DIRECT leg. -/
theorem planFor_legs {s : State} {n : Nat} {a b : Counts} (hne : a ≠ b) (hc : s.contested n = false)
    (hd : ((s.meetSet n (pathBox a b)).all fun z => s.zoneHeldBy n z) = false)
    (hf : ¬ (b.beta ≠ (s.slot n).calib.betaFold ∧
      (s.meetSet n (extensionBox (s.slot n).calib b.alpha b.beta)).any s.zoneFenced = true)) :
    ∃ l rest, s.planFor n a b = .legs l rest ∧ l :: rest = foldSwingExtend a b (s.slot n).calib.betaFold := by
  unfold State.planFor
  dsimp only
  rw [if_neg hne, if_neg (by simp [hc]), if_neg (by simp [hd]), if_neg hf]
  cases hlegs : foldSwingExtend a b (s.slot n).calib.betaFold with
  | nil => exact absurd hlegs (foldSwingExtend_ne hne _)
  | cons l rest => exact ⟨l, rest, rfl, rfl⟩

/-- Settles O39. -/
theorem planBuilding : Obligations.PlanBuilding := by
  refine ⟨fun s n a b => ⟨fun h => if_pos h, fun hne hc => ?contested, fun hne hc hd => ?direct,
      fun hne hc hd hf => ?fenced, fun hne hc hd hf => ?legs⟩,
    fun a b => rfl, fun c alpha beta h => extensionBox_eq h,
    fun s n path => ⟨List.filter_sublist, fun z => mem_meetSet⟩, fun p q => meets_iff_share,
    fun s n => ⟨contested_iff s n, fun z => ⟨zoneHeldBy_iff s n z, zoneFenced_iff s z⟩⟩, fun r c h => ?calib⟩
  case contested =>
    unfold State.planFor
    exact (if_neg hne).trans (if_pos hc)
  case direct =>
    unfold State.planFor
    exact (if_neg hne).trans ((if_neg (by simp [hc])).trans (if_pos hd))
  case fenced =>
    unfold State.planFor
    exact (if_neg hne).trans ((if_neg (by simp [hc])).trans ((if_neg (Bool.eq_false_iff.1 hd)).trans (if_pos hf)))
  case legs =>
    obtain ⟨l, rest, hplan, hlegs⟩ := planFor_legs hne hc hd hf
    exact ⟨l, rest, hplan, by rw [hlegs, foldSwingExtend_eq]⟩
  case calib =>
    unfold SlotRec.calib
    rw [h]
    rfl

end Sys2Proof.Machine
end

