-- ==== Sys2Proof/Proofs/Admission.lean ====
section
/-! PROOFS. The event that opens a batch (R99, R100) and the requests EXECUTE and AWAIT_BATCH (R98, R118). -/

namespace Sys2Proof.Machine

/-! ## What a plan depends on -/

theorem meetSet_congr {s t : State} {n : Nat} (hz : t.zones = s.zones) (hl : (t.slot n).zones = (s.slot n).zones)
    (path : Box) : t.meetSet n path = s.meetSet n path := by
  unfold State.meetSet
  rw [hl, funext (zone_congr hz)]

/-- A plan depends on the zones, and on the robot's zone list and calibration. -/
theorem planFor_congr {s t : State} {n : Nat} (hz : t.zones = s.zones) (hl : (t.slot n).zones = (s.slot n).zones)
    (hc : (t.slot n).calib = (s.slot n).calib) (a b : Counts) : t.planFor n a b = s.planFor n a b := by
  have hcontested : t.contested n = s.contested n := by
    unfold State.contested
    rw [hl, funext (zone_congr hz)]
  have hheld : t.zoneHeldBy n = s.zoneHeldBy n := by
    unfold State.zoneHeldBy
    rw [funext (zone_congr hz)]
  have hfenced : t.zoneFenced = s.zoneFenced := by
    unfold State.zoneFenced State.status
    rw [funext (zone_congr hz)]
  unfold State.planFor
  rw [hcontested, hc, meetSet_congr hz hl, meetSet_congr hz hl, hheld, hfenced]

/-- The counts of the first target of a tag. -/
def SlotRec.targetCounts (r : SlotRec) (tag : Nat) : Option Counts :=
  (r.targets.find? fun t => t.tag == tag).map fun t => { alpha := t.alpha, beta := t.beta }

theorem admissionPlan_eq (s : State) (tag n : Nat) :
    s.admissionPlan tag n =
      let a := ((s.slot n).position.map Position.counts).getD { alpha := 0, beta := 0 }
      s.planFor n a (((s.slot n).targetCounts tag).getD a) := rfl

/-- The plan of an admission depends on the zones, and on the robot's zone list, calibration, position and target. -/
theorem admissionPlan_congr {s t : State} {tag n : Nat} (hz : t.zones = s.zones)
    (hl : (t.slot n).zones = (s.slot n).zones) (hc : (t.slot n).calib = (s.slot n).calib)
    (hp : (t.slot n).position = (s.slot n).position)
    (ht : (t.slot n).targetCounts tag = (s.slot n).targetCounts tag) :
    t.admissionPlan tag n = s.admissionPlan tag n := by
  rw [admissionPlan_eq, admissionPlan_eq, hp, ht]
  exact planFor_congr hz hl hc _ _

/-- A slot's record as it is admitted. -/
def SlotRec.admitted (r : SlotRec) (tag : Nat) : SlotRec := { r with batchFlag := true, targets := pinTag tag r.targets }

/-- Pinning leaves the counts of a target. -/
theorem admitted_targetCounts (r : SlotRec) (tag : Nat) : (r.admitted tag).targetCounts tag = r.targetCounts tag := by
  have htag : (fun t : Target => (if t.tag = tag then { t with pinned := true } else t).tag == tag) =
      fun t => t.tag == tag := by
    funext t
    split <;> rfl
  have hcounts : (fun t : Target => ({ alpha := (if t.tag = tag then { t with pinned := true } else t).alpha
                                       beta := (if t.tag = tag then { t with pinned := true } else t).beta } : Counts)) =
      fun t => { alpha := t.alpha, beta := t.beta } := by
    funext t
    split <;> rfl
  show (List.find? _ (r.targets.map _)).map _ = _
  rw [List.find?_map, Option.map_map]
  show ((r.targets.find? fun t : Target => (if t.tag = tag then { t with pinned := true } else t).tag == tag).map
    fun t : Target => ({ alpha := (if t.tag = tag then { t with pinned := true } else t).alpha
                         beta := (if t.tag = tag then { t with pinned := true } else t).beta } : Counts)) = _
  rw [htag, hcounts]
  rfl

/-- The plan is the same with the target pinned. -/
theorem admissionPlan_admitted (u : State) (tag n : Nat) :
    (u.modSlot n fun r => r.admitted tag).admissionPlan tag n = u.admissionPlan tag n := by
  have hslot : (u.modSlot n fun r => r.admitted tag).slot n = (u.slot n).admitted tag ∨
      (u.modSlot n fun r => r.admitted tag).slot n = u.slot n := by
    rw [slot_modSlot]
    split
    · exact .inl rfl
    · exact .inr rfl
  rcases hslot with h | h
  · refine admissionPlan_congr (s := u) rfl ?_ ?_ ?_ ?_ <;> rw [h]
    · rfl
    · rfl
    · rfl
    · exact admitted_targetCounts _ _
  · refine admissionPlan_congr (s := u) rfl ?_ ?_ ?_ ?_ <;> rw [h]

/-- An immediate outcome is ARRIVED or BLOCKED. -/
theorem planFor_outcome {s : State} {n : Nat} {a b : Counts} {o : RobotOutcome} (h : s.planFor n a b = .outcome o) :
    o = .arrived ∨ ∃ r, o = .blocked r := by
  unfold State.planFor at h
  dsimp only at h
  split at h
  · exact .inl (Plan.outcome.inj h).symm
  split at h
  · exact .inr ⟨_, (Plan.outcome.inj h).symm⟩
  split at h
  · cases h
  split at h
  · exact .inr ⟨_, (Plan.outcome.inj h).symm⟩
  split at h
  · exact .inl (Plan.outcome.inj h).symm
  · cases h

theorem firstStage_eq (k : LegKind) : k.firstStage = if k = .extend then .claiming else .queued := by cases k <;> rfl

/-! ## One robot admitted -/

theorem admitRobot_outcome {u : State} {tag n : Nat} {o : RobotOutcome} (h : u.admissionPlan tag n = .outcome o) :
    u.admitRobot tag n = (u.modSlot n fun r => r.admitted tag).recordOutcome n o := by
  have hplan := (admissionPlan_admitted u tag n).trans h
  show (match (u.modSlot n fun r => r.admitted tag).admissionPlan tag n with
    | .outcome o => (u.modSlot n fun r => r.admitted tag).recordOutcome n o
    | .legs l rest => _) = _
  rw [hplan]

theorem admitRobot_legs {u : State} {tag n : Nat} {l : RemLeg} {rest : List RemLeg}
    (h : u.admissionPlan tag n = .legs l rest) :
    u.admitRobot tag n =
      ((u.modSlot n fun r => r.admitted tag).modSlot n fun r => { r with remaining := rest }).buildLeg n l.kind l.finish
        ((u.modSlot n fun r => r.admitted tag).slot n).pinnedClass := by
  have hplan := (admissionPlan_admitted u tag n).trans h
  unfold State.admitRobot
  show (match (u.modSlot n fun r => r.admitted tag).admissionPlan tag n with
    | .outcome o => _
    | .legs l rest => ((u.modSlot n fun r => r.admitted tag).modSlot n fun r =>
        { r with remaining := rest }).buildLeg n l.kind l.finish
          ((u.modSlot n fun r => r.admitted tag).slot n).pinnedClass) = _
  rw [hplan]

/-- An admission writes slots, the batch, the link and the number of the next leg. -/
theorem admitRobot_eq (u : State) (tag n : Nat) :
    ∃ ss b k i, u.admitRobot tag n = { u with slots := ss, batch := b, link := k, nextLegId := i } := by
  cases h : u.admissionPlan tag n with
  | outcome o =>
    rw [admitRobot_outcome h, recordOutcome_eq]
    exact ⟨_, _, _, _, rfl⟩
  | legs l rest =>
    rw [admitRobot_legs h]
    exact ⟨_, _, _, _, rfl⟩

/-- A leg built reaches the slot of its robot alone. -/
theorem buildLeg_other {s : State} {n m : Nat} (h : m ≠ n) (kind : LegKind) (finish : Counts) (cls : Nat) :
    (s.buildLeg n kind finish cls).slot m = s.slot m :=
  slot_modSlot_other { s with nextLegId := s.nextLegId + 1 } n m _ h.symm

theorem admitRobot_other {u : State} {tag n m : Nat} (hm : m ≠ n) : (u.admitRobot tag n).slot m = u.slot m := by
  cases h : u.admissionPlan tag n with
  | outcome o => rw [admitRobot_outcome h, recordOutcome_other _ _ _ _ hm, slot_modSlot_other _ _ _ _ hm.symm]
  | legs l rest =>
    rw [admitRobot_legs h, buildLeg_other hm, slot_modSlot_other _ _ _ _ hm.symm, slot_modSlot_other _ _ _ _ hm.symm]

/-- With no request current, an admission reaches the link by notices alone. -/
theorem admitRobot_link {u : State} (h : u.link.current = none) (tag n : Nat) :
    ∃ ns, (u.admitRobot tag n).link = { u.link with notices := ns } := by
  cases hp : u.admissionPlan tag n with
  | outcome o =>
    obtain ⟨v, hv⟩ : ∃ v, v = u.modSlot n fun r => r.admitted tag := ⟨_, rfl⟩
    have hlink : v.link = u.link := by rw [hv, modSlot_link]
    have hnone (w : Current) (hw : v.link.current = some w) : w.work ≠ .awaitBatch := by
      rw [hlink, h] at hw
      cases hw
    rw [admitRobot_outcome hp, ← hv, recordOutcome_link n o hnone, hlink]
    exact ⟨_, rfl⟩
  | legs l rest =>
    rw [admitRobot_legs hp]
    exact ⟨_, rfl⟩

/-! ## The robots admitted one after another -/

/-- A slot's record as the batch opens: flag set, no outcome yet, its target of the tag pinned. -/
def SlotRec.entering (r : SlotRec) (tag : Nat) : SlotRec :=
  { r with
    batchFlag := true
    outcome := .none
    targets := r.targets.map fun x => if x.tag = tag then { x with pinned := true } else x }

/-- The record that its plan gives a slot admitted: its immediate outcome, or its first leg (R100). -/
def State.AdmittedAs (s : State) (tag n : Nat) (r : SlotRec) : Prop :=
  (∀ o, s.admissionPlan tag n = .outcome o → r = ((s.slot n).entering tag).withOutcome o tag) ∧
  ∀ l rest, s.admissionPlan tag n = .legs l rest →
    ∃ g, r = { (s.slot n).entering tag with state := .waiting, remaining := rest, leg := some g } ∧ g.kind = l.kind ∧
      g.finish = l.finish ∧ g.cls = ((s.slot n).entering tag).pinnedClass ∧
      g.start = ((s.slot n).position.map fun p => { alpha := p.alpha, beta := p.beta }) ∧
      g.stage = (if l.kind = .extend then .claiming else .queued)

/-- A batch that is opening: the slots still to be admitted have their flags and outcomes cleared, and the batch is
OPEN with room for an outcome of each. -/
structure Opening (s : State) (tag : Nat) (u : State) (b : BatchRec) (ns : List Nat) : Prop where
  nodup : ns.Nodup
  inTable : ∀ m ∈ ns, m < 128
  zones : u.zones = s.zones
  slots : ∀ m ∈ ns, u.slot m = { s.slot m with batchFlag := false, outcome := .none }
  opened : u.batch = .opened b
  tagged : b.tag = tag
  low : b.settled < b.admitted
  cap : b.settled + ns.length ≤ b.admitted

namespace Opening

variable {s u : State} {tag n : Nat} {b : BatchRec} {ns : List Nat}

/-- The plan built in the event is that of the state before it. -/
theorem plan (h : Opening s tag u b (n :: ns)) : u.admissionPlan tag n = s.admissionPlan tag n := by
  have hslot := h.slots n List.mem_cons_self
  refine admissionPlan_congr h.zones ?_ ?_ ?_ ?_ <;> rw [hslot] <;> rfl

theorem admitted_slot (h : Opening s tag u b (n :: ns)) :
    (u.modSlot n fun r => r.admitted tag).slot n = (s.slot n).entering tag := by
  rw [slot_modSlot_same _ _ _ (h.inTable n List.mem_cons_self), h.slots n List.mem_cons_self]
  rfl

theorem admitted_batch (h : Opening s tag u b (n :: ns)) :
    (u.modSlot n fun r => r.admitted tag).batch = .opened b := h.opened

theorem flagged (h : Opening s tag u b (n :: ns)) :
    ((u.modSlot n fun r => r.admitted tag).slot n).batchFlag = true ∧
      ((u.modSlot n fun r => r.admitted tag).slot n).outcome = .none := by
  rw [h.admitted_slot]
  exact ⟨rfl, rfl⟩

/-- The robot admitted has what its plan gives. -/
theorem admittedAs (h : Opening s tag u b (n :: ns)) : s.AdmittedAs tag n ((u.admitRobot tag n).slot n) := by
  have hn : n < 128 := h.inTable n List.mem_cons_self
  refine ⟨fun o ho => ?_, fun l rest hl => ?_⟩
  · rw [admitRobot_outcome (h.plan.trans ho), recordOutcome_slot o h.admitted_batch h.flagged,
      slot_modSlot_same _ _ _ hn, h.admitted_slot, h.tagged]
  · rw [admitRobot_legs (h.plan.trans hl), h.admitted_slot]
    obtain ⟨v, hv⟩ : ∃ v, v = (u.modSlot n fun r => r.admitted tag).modSlot n fun r => { r with remaining := rest } :=
      ⟨_, rfl⟩
    have hvslot : v.slot n = { (s.slot n).entering tag with remaining := rest } := by
      rw [hv, slot_modSlot_same _ _ _ hn, h.admitted_slot]
    rw [← hv]
    unfold State.buildLeg
    rw [slot_modSlot_same _ _ _ hn]
    have hbase : ({ v with nextLegId := v.nextLegId + 1 } : State).slot n = v.slot n := rfl
    rw [hbase, hvslot]
    refine ⟨v.newLeg n l.kind l.finish _, rfl, rfl, rfl, rfl, ?_, firstStage_eq l.kind⟩
    show (v.slot n).position.map Position.counts = _
    rw [hvslot]
    rfl

/-- The slots still to be admitted, and the zones, stand. -/
theorem rest_of (h : Opening s tag u b (n :: ns)) {b' : BatchRec} (hb : (u.admitRobot tag n).batch = .opened b')
    (ht : b'.tag = tag) (hlow : b'.settled < b'.admitted) (hcap : b'.settled + ns.length ≤ b'.admitted) :
    Opening s tag (u.admitRobot tag n) b' ns where
  nodup := (List.nodup_cons.1 h.nodup).2
  inTable := fun m hm => h.inTable m (List.mem_cons_of_mem n hm)
  zones := by
    obtain ⟨ss, b, k, i, he⟩ := admitRobot_eq u tag n
    rw [he]
    exact h.zones
  slots := fun m hm => by
    have hne : m ≠ n := by
      rintro rfl
      exact (List.nodup_cons.1 h.nodup).1 hm
    rw [admitRobot_other hne, h.slots m (List.mem_cons_of_mem n hm)]
  opened := hb
  tagged := ht
  low := hlow
  cap := hcap

theorem outcome_ne {o : RobotOutcome} (ho : s.admissionPlan tag n = .outcome o) : o ≠ .none := by
  rcases planFor_outcome ho with rfl | ⟨r, rfl⟩ <;> intro h <;> cases h

/-- An immediate outcome is counted; the batch closes when it was the last. -/
theorem step_outcome (h : Opening s tag u b (n :: ns)) {o : RobotOutcome} (ho : s.admissionPlan tag n = .outcome o) :
    (ns = [] ∧ b.settled + 1 = b.admitted ∧ (u.admitRobot tag n).batch = .closed (b.count o) u.now) ∨
      Opening s tag (u.admitRobot tag n) (b.count o) ns := by
  have hcap := h.cap
  have hlow := h.low
  rw [List.length_cons] at hcap
  have hsettled := settled_count b (outcome_ne ho)
  have hadmitted := admitted_count b o
  by_cases hlast : b.settled + 1 < b.admitted
  · refine .inr (h.rest_of ?_ ?_ (by omega) (by omega))
    · rw [admitRobot_outcome (h.plan.trans ho),
        recordOutcome_counted h.admitted_batch h.flagged.1 h.flagged.2 (by omega)]
    · have htag : (b.count o).tag = b.tag := by cases o <;> rfl
      rw [htag, h.tagged]
  · refine .inl ⟨List.length_eq_zero_iff.1 (by omega), by omega, ?_⟩
    rw [admitRobot_outcome (h.plan.trans ho),
      recordOutcome_closed h.admitted_batch h.flagged.1 h.flagged.2 (by omega)]
    exact closeBatch_batch rfl

/-- A robot with legs leaves the batch as it was. -/
theorem step_legs (h : Opening s tag u b (n :: ns)) {l : RemLeg} {rest : List RemLeg}
    (hl : s.admissionPlan tag n = .legs l rest) : Opening s tag (u.admitRobot tag n) b ns := by
  have hcap := h.cap
  rw [List.length_cons] at hcap
  refine h.rest_of ?_ h.tagged h.low (by omega)
  rw [admitRobot_legs (h.plan.trans hl)]
  exact h.opened

end Opening

/-- The robots admitted, in the order given. -/
def State.admitAll (u : State) (tag : Nat) (ns : List Nat) : State := ns.foldl (fun s n => s.admitRobot tag n) u

/-- The plan of a slot ends in an immediate outcome. -/
def State.immediate (s : State) (tag m : Nat) : Bool :=
  match s.admissionPlan tag m with
  | .outcome _ => true
  | .legs _ _ => false

theorem admitAll_eq (tag : Nat) (ns : List Nat) (u : State) :
    ∃ ss b k i, u.admitAll tag ns = { u with slots := ss, batch := b, link := k, nextLegId := i } := by
  induction ns generalizing u with
  | nil => exact ⟨_, _, _, _, rfl⟩
  | cons n ns ih =>
    obtain ⟨ss, b, k, i, h⟩ := ih (u.admitRobot tag n)
    obtain ⟨ss₁, b₁, k₁, i₁, h₁⟩ := admitRobot_eq u tag n
    rw [h₁] at h
    exact ⟨ss, b, k, i, (congrArg (fun v : State => v.admitAll tag ns) h₁).trans h⟩

theorem admitAll_link (tag : Nat) (ns : List Nat) {u : State} (h : u.link.current = none) :
    ∃ ms, (u.admitAll tag ns).link = { u.link with notices := ms } := by
  induction ns generalizing u with
  | nil => exact ⟨_, rfl⟩
  | cons n ns ih =>
    obtain ⟨ms₁, h₁⟩ := admitRobot_link h tag n
    obtain ⟨ms, hms⟩ := ih (u := u.admitRobot tag n) (by rw [h₁]; exact h)
    rw [h₁] at hms
    exact ⟨ms, hms⟩

theorem admitAll_other (tag : Nat) (ns : List Nat) (u : State) {m : Nat} (h : m ∉ ns) :
    (u.admitAll tag ns).slot m = u.slot m := by
  induction ns generalizing u with
  | nil => rfl
  | cons n ns ih =>
    refine (ih (u.admitRobot tag n) fun hm => h (List.mem_cons_of_mem n hm)).trans (admitRobot_other ?_)
    exact fun e => h (e ▸ List.mem_cons_self)

/-- Every robot admitted has what its plan gives. -/
theorem admitAll_slots {s u : State} {tag : Nat} {b : BatchRec} {ns : List Nat} (h : Opening s tag u b ns) {m : Nat}
    (hm : m ∈ ns) : s.AdmittedAs tag m ((u.admitAll tag ns).slot m) := by
  induction ns generalizing u b with
  | nil => cases hm
  | cons n ns ih =>
    show s.AdmittedAs tag m (((u.admitRobot tag n).admitAll tag ns).slot m)
    have hnot := (List.nodup_cons.1 h.nodup).1
    rcases List.mem_cons.1 hm with rfl | hm
    · rw [admitAll_other _ _ _ hnot]
      exact h.admittedAs
    · cases hplan : s.admissionPlan tag n with
      | outcome o =>
        rcases h.step_outcome hplan with ⟨rfl, _⟩ | hrest
        · cases hm
        · exact ih hrest hm
      | legs l rest => exact ih (h.step_legs hplan) hm

/-- The counts of a batch that has opened, over the robots admitted. -/
theorem admitAll_batch {s u : State} {tag : Nat} {b : BatchRec} {ns : List Nat} (h : Opening s tag u b ns) :
    (u.admitAll tag ns).batch.record.arrived =
      b.arrived + (ns.filter fun m => decide (s.admissionPlan tag m = .outcome .arrived)).length ∧
    (u.admitAll tag ns).batch.record.arrived + (u.admitAll tag ns).batch.record.blocked =
      b.arrived + b.blocked + (ns.filter fun m => s.immediate tag m).length ∧
    (u.admitAll tag ns).batch.record.faulted = b.faulted ∧ (u.admitAll tag ns).batch.record.stopped = b.stopped ∧
    ((u.admitAll tag ns).batch.isOpen = true ↔
      b.settled + (ns.filter fun m => s.immediate tag m).length < b.admitted) := by
  induction ns generalizing u b with
  | nil =>
    show (u.batch.record.arrived = _ ∧ u.batch.record.arrived + u.batch.record.blocked = _ ∧ u.batch.record.faulted = _ ∧
      u.batch.record.stopped = _ ∧ (u.batch.isOpen = true ↔ _))
    rw [h.opened]
    exact ⟨rfl, rfl, rfl, rfl, iff_of_true rfl h.low⟩
  | cons n ns ih =>
    show ((u.admitRobot tag n).admitAll tag ns).batch.record.arrived = _ ∧ _
    cases hplan : s.admissionPlan tag n with
    | legs l rest =>
      have himmediate : s.immediate tag n = false := by unfold State.immediate; rw [hplan]
      have hfilter : ((n :: ns).filter fun m => s.immediate tag m) = ns.filter fun m => s.immediate tag m :=
        List.filter_cons_of_neg (by rw [himmediate]; simp)
      have harrive : ((n :: ns).filter fun m => decide (s.admissionPlan tag m = .outcome .arrived)) =
          ns.filter fun m => decide (s.admissionPlan tag m = .outcome .arrived) :=
        List.filter_cons_of_neg (by simp [hplan])
      rw [hfilter, harrive]
      exact ih (h.step_legs hplan)
    | outcome o =>
      have himmediate : s.immediate tag n = true := by unfold State.immediate; rw [hplan]
      have hfilter : ((n :: ns).filter fun m => s.immediate tag m).length =
          (ns.filter fun m => s.immediate tag m).length + 1 := by
        rw [List.filter_cons_of_pos himmediate, List.length_cons]
      have harrive : b.arrived + ((n :: ns).filter fun m => decide (s.admissionPlan tag m = .outcome .arrived)).length =
          (b.count o).arrived + (ns.filter fun m => decide (s.admissionPlan tag m = .outcome .arrived)).length := by
        rcases planFor_outcome hplan with rfl | ⟨r, rfl⟩
        · rw [List.filter_cons_of_pos (by simp [hplan]), List.length_cons]
          simp only [BatchRec.count]
          omega
        · rw [List.filter_cons_of_neg (by simp [hplan])]
          rfl
      have hsum : (b.count o).arrived + (b.count o).blocked = b.arrived + b.blocked + 1 ∧
          (b.count o).faulted = b.faulted ∧ (b.count o).stopped = b.stopped := by
        rcases planFor_outcome hplan with rfl | ⟨r, rfl⟩
        · simp only [BatchRec.count, and_self, and_true]; omega
        · simp only [BatchRec.count, and_self, and_true]; omega
      have hsettled := settled_count b (Opening.outcome_ne hplan)
      have hadmitted := admitted_count b o
      rw [harrive, hfilter]
      rcases h.step_outcome hplan with ⟨rfl, hlast, hclosed⟩ | hrest
      · show ((u.admitRobot tag n).batch.record.arrived = _ ∧
          (u.admitRobot tag n).batch.record.arrived + (u.admitRobot tag n).batch.record.blocked = _ ∧
          (u.admitRobot tag n).batch.record.faulted = _ ∧ (u.admitRobot tag n).batch.record.stopped = _ ∧
          ((u.admitRobot tag n).batch.isOpen = true ↔ _))
        rw [hclosed]
        refine ⟨rfl, ?_, hsum.2.1, hsum.2.2, iff_of_false (by simp [Batch.isOpen]) ?_⟩
        · exact hsum.1
        · rw [List.filter_nil, List.length_nil]
          omega
      · obtain ⟨ha, hb, hf, hs, ho⟩ := ih hrest
        refine ⟨ha, hb.trans (by rw [hsum.1]; omega), hf.trans hsum.2.1, hs.trans hsum.2.2, ho.trans ?_⟩
        rw [hsettled, hadmitted]
        omega

/-! ## The batch opens -/

/-- The records as the batch opens, before the robots are admitted. -/
def State.batchOpened (s : State) (tag : Nat) : State :=
  { (s.mapSlots fun r => { r with batchFlag := false, outcome := .none }) with
    batch := .opened (newBatch tag (s.admittedSlots tag).length (s.skippedCount tag) s.now) }

theorem openBatch_eq (s : State) (tag : Nat) : s.openBatch tag = (s.batchOpened tag).admitAll tag (s.admittedSlots tag) :=
  rfl

theorem mem_admittedSlots {s : State} {tag n : Nat} :
    n ∈ s.admittedSlots tag ↔ n < 128 ∧ (s.slot n).admittedBy tag = true := by
  unfold State.admittedSlots
  rw [List.mem_filter, mem_slotNumbers]

theorem batchOpened_slot (s : State) (tag : Nat) {n : Nat} (hn : n < 128) :
    (s.batchOpened tag).slot n = { s.slot n with batchFlag := false, outcome := .none } :=
  slot_mapSlots s _ n hn

/-- The batch of an EXECUTE that admits a robot is opening. -/
theorem opening (s : State) (tag : Nat) (h : s.admittedSlots tag ≠ []) :
    Opening s tag (s.batchOpened tag) (newBatch tag (s.admittedSlots tag).length (s.skippedCount tag) s.now)
      (s.admittedSlots tag) where
  nodup := List.nodup_range.filter _
  inTable := fun _ hm => (mem_admittedSlots.1 hm).1
  zones := rfl
  slots := fun _ hm => batchOpened_slot s tag (mem_admittedSlots.1 hm).1
  opened := rfl
  tagged := rfl
  low := List.length_pos_iff.2 h
  cap := Nat.le_of_eq (Nat.zero_add _)

theorem admittedBy_iff (r : SlotRec) (tag : Nat) :
    r.admittedBy tag = true ↔ r.state = .rest ∧ ∃ x ∈ r.targets, x.tag = tag := by
  simp [SlotRec.admittedBy, SlotRec.holdsTag]

theorem skippedBy_eq (r : SlotRec) (tag : Nat) :
    r.skippedBy tag = decide ((∃ x ∈ r.targets, x.tag = tag) ∧
      r.state ∈ [RobotState.defined, .probing, .waiting, .moving, .held, .faulted]) := by
  have hheld : r.holdsTag tag = decide (∃ x ∈ r.targets, x.tag = tag) := by
    unfold SlotRec.holdsTag
    rw [Bool.eq_iff_iff, any_tag_iff, decide_eq_true_iff]
  rw [Bool.decide_and, ← hheld]
  unfold SlotRec.skippedBy
  cases r.state <;> rfl

/-- The plan runs to the first target of the tag. -/
theorem admissionPlan_target {s : State} {tag n : Nat} {p : Position} {x : Target} {front back : List Target}
    (hp : (s.slot n).position = some p) (ht : (s.slot n).targets = front ++ x :: back) (hx : x.tag = tag)
    (hfront : ∀ y ∈ front, y.tag ≠ tag) :
    s.admissionPlan tag n = s.planFor n { alpha := p.alpha, beta := p.beta } { alpha := x.alpha, beta := x.beta } := by
  have hfind : (s.slot n).targets.find? (fun t => t.tag == tag) = some x := by
    rw [ht, List.find?_append, List.find?_eq_none.2 (by simpa using hfront), Option.none_or,
      List.find?_cons_of_pos (by simp [hx])]
  have hcounts : (s.slot n).targetCounts tag = some { alpha := x.alpha, beta := x.beta } := by
    unfold SlotRec.targetCounts
    rw [hfind]
    rfl
  rw [admissionPlan_eq, hcounts, hp]
  rfl

/-- Settles O38. -/
theorem admissionOfSlots : Obligations.AdmissionOfSlots := by
  intro s tag n hn
  obtain ⟨ss, b, k, i, hframe⟩ := admitAll_eq tag (s.admittedSlots tag) (s.batchOpened tag)
  rw [← openBatch_eq] at hframe
  refine ⟨fun hnot => ?cleared, fun hyes => ?admitted, fun hne => ?counts, by rw [hframe]; rfl, by rw [hframe]; rfl,
    by rw [hframe]; rfl, by rw [hframe]; rfl, admittedBy_iff _ tag, rfl, ?skipped,
    fun p x front back hp ht hx hfront => admissionPlan_target hp ht hx hfront, ?arrived, fun reason => rfl⟩
  case cleared =>
    rw [openBatch_eq, admitAll_other _ _ _ fun hm => ?_, batchOpened_slot s tag hn]
    rw [(mem_admittedSlots.1 hm).2] at hnot
    cases hnot
  case admitted =>
    have hm : n ∈ s.admittedSlots tag := mem_admittedSlots.2 ⟨hn, hyes⟩
    exact admitAll_slots (opening s tag (List.ne_nil_of_mem hm)) hm
  case counts =>
    obtain ⟨ha, hb, hf, hs, ho⟩ := admitAll_batch (opening s tag hne)
    refine ⟨ha.trans (Nat.zero_add _), hb.trans (Nat.zero_add _), hf, hs, ho.trans ?_⟩
    rw [show (newBatch tag (s.admittedSlots tag).length (s.skippedCount tag) s.now).settled = 0 from rfl, Nat.zero_add]
    exact Iff.rfl
  case skipped =>
    unfold State.skippedCount
    rw [funext fun m => skippedBy_eq (s.slot m) tag]
    rfl
  case arrived =>
    have hne (x : Target) : (x.tag != tag) = decide (x.tag ≠ tag) := by rw [bne, Bool.beq_eq_decide_eq, decide_not]
    simp only [SlotRec.withOutcome, settleTargets, RobotOutcome.robotState, hne, if_true]

end Sys2Proof.Machine
end

