-- ==== Sys2Proof/Proofs/BatchRequests.lean ====
section
/-! PROOFS. EXECUTE and AWAIT_BATCH, sent to a block at rest (R98 to R100, R118). -/

namespace Sys2Proof.Machine

/-! ## The header of the batch record -/

/-- A batch record's header gives its tag, its numbers of robots and its time, and that there is one. -/
theorem record_of_header {b : Batch} {tag admitted skipped time : Nat}
    (h : b.header = some (tag, admitted, skipped, time)) :
    b.record.tag = tag ∧ b.record.admitted = admitted ∧ b.record.skipped = skipped ∧ b.record.openTime = time ∧
      b ≠ .none := by
  cases b with
  | none => cases h
  | opened r =>
    cases h
    exact ⟨rfl, rfl, rfl, rfl, by simp⟩
  | closed r w =>
    cases h
    exact ⟨rfl, rfl, rfl, rfl, by simp⟩

/-- The header of a batch is that of its opening, whatever follows. -/
theorem openBatch_inner (s : State) (tag : Nat) : Inner (s.batchOpened tag) (s.openBatch tag) :=
  Inner.foldl (fun s n => s.admitRobot tag n) (fun s n => Inner.admitRobot s tag n) _ _

/-- With no request current, the event that opens a batch reaches the link by notices alone. -/
theorem openBatch_link {s : State} (h : s.link.current = none) (tag : Nat) :
    ∃ ms, (s.openBatch tag).link = { s.link with notices := ms } :=
  admitAll_link tag (s.admittedSlots tag) (u := s.batchOpened tag) h

/-! ## EXECUTE -/

theorem executeCheck_tag {s : State} {tag : Nat} (h : tag = 0 ∨ 4095 < tag) : s.executeCheck tag = some .badRequest := by
  unfold State.executeCheck
  exact if_pos (by omega)

theorem executeCheck_range {s : State} {tag : Nat} (hlow : 1 ≤ tag) (hhigh : tag ≤ 4095) :
    s.executeCheck tag =
      if s.batch.isOpen then some .busy else if s.stopInForce then some .stopped else none := by
  unfold State.executeCheck
  exact if_neg (by omega)

theorem takeExecute_refused {s : State} {cfgTag : Word} {st : Status} (h : s.executeCheck cfgTag.toNat = some st)
    (tag : Byte) : s.takeExecute tag cfgTag = s.reply tag (.execute cfgTag) st [] := by
  unfold State.takeExecute
  dsimp only
  rw [h]

theorem takeExecute_nothing {s : State} {cfgTag : Word} (h : s.executeCheck cfgTag.toNat = none)
    (hnone : s.admittedSlots cfgTag.toNat = []) (tag : Byte) :
    s.takeExecute tag cfgTag =
      s.reply tag (.execute cfgTag) .nothing (b2 (s.skippedCount cfgTag.toNat)) := by
  unfold State.takeExecute
  dsimp only
  rw [h]
  dsimp only
  rw [hnone]

theorem takeExecute_opens {s : State} {cfgTag : Word} (h : s.executeCheck cfgTag.toNat = none)
    (hsome : s.admittedSlots cfgTag.toNat ≠ []) (tag : Byte) :
    s.takeExecute tag cfgTag =
      ((s.openBatch cfgTag.toNat).reply tag (.execute cfgTag) .ok
        (s.openBatch cfgTag.toNat).batch.executeBytes).handFirstLegs (s.admittedSlots cfgTag.toNat) := by
  unfold State.takeExecute
  dsimp only
  rw [h]
  dsimp only
  cases hslots : s.admittedSlots cfgTag.toNat with
  | nil => exact absurd hslots hsome
  | cons n ns => rfl

theorem admittedSlots_eq_nil {s : State} {tag : Nat} (h : ∀ n, n < 128 → (s.slot n).admittedBy tag = false) :
    s.admittedSlots tag = [] := by
  rw [List.eq_nil_iff_forall_not_mem]
  intro n hn
  obtain ⟨hlt, hadm⟩ := mem_admittedSlots.1 hn
  rw [h n hlt] at hadm
  cases hadm

/-- The current request of a block at rest that takes a plan request is absent. -/
theorem planReady_current {s : State} (h : s.planReady = true) : s.link.current = none :=
  ((planMoves_iff s).1 (planReady_moves h)).2.1

/-- An EXECUTE that admits a robot: the batch has opened, and the answer is that of its opening. -/
theorem exec_execute_opens {s : State} (hready : s.planReady = true) {cfgTag : Word}
    (hcheck : s.executeCheck cfgTag.toNat = none) (hsome : s.admittedSlots cfgTag.toNat ≠ []) (tag : Byte) :
    ∃ t, exec (.execute tag cfgTag) s = .next t ∧
      t.batch.header =
        some (cfgTag.toNat, (s.admittedSlots cfgTag.toNat).length, s.skippedCount cfgTag.toNat, s.now) ∧
      t.pins = s.pins ∧
      (s.answered tag 0x28 .ok (s.openBatch cfgTag.toNat).batch.executeBytes).link.output <+: t.link.output := by
  obtain ⟨hh, hroom, _, _, hc, hp⟩ := ready_spec (planReady_ready hready)
  obtain ⟨o, ho⟩ : ∃ o, o = s.openBatch cfgTag.toNat := ⟨_, rfl⟩
  obtain ⟨ms, hlink⟩ := openBatch_link (planReady_current hready) cfgTag.toNat
  have hopened := openBatch_inner s cfgTag.toNat
  rw [← ho] at hlink hopened
  obtain ⟨a, ha⟩ : ∃ a, a = o.answered tag 0x28 .ok o.batch.executeBytes := ⟨_, rfl⟩
  have hanswer : a = { o with link := a.link } := by rw [ha, answered_eq]
  have hcontrol : a.link.control = [] := by rw [ha, answered_control, hlink]; exact hc
  have hplan : a.link.plan = [] := by
    rw [ha, answered_eq]
    exact (enter_plan _ _).trans (by rw [hlink]; exact hp (planReady_moves hready))
  have hhand := Inner.handFirstLegs a (s.admittedSlots cfgTag.toNat)
  have hinner := hhand.trans (Inner.settle (Config.settleFuel - 1) (a.handFirstLegs (s.admittedSlots cfgTag.toNat))
    (hhand.control.trans hcontrol) (hhand.plan.trans hplan))
  refine ⟨(a.handFirstLegs (s.admittedSlots cfgTag.toNat)).settle (Config.settleFuel - 1), ?_, ?_, ?_, ?_⟩
  · refine (exec_plan hready tag (.execute cfgTag) rfl (by simp [Request.payload, bw])).trans
      (congrArg Host.Outcome.next ?_)
    show State.settle _ (s.takeExecute tag cfgTag) = _
    rw [takeExecute_opens hcheck hsome, ← ho, reply_answered (by rw [outputRoom_iff, hlink]; exact (outputRoom_iff s).1 hroom),
      ha]
    rfl
  · have hbatch : a.batch = o.batch := by rw [hanswer]
    rw [hinner.batch, hbatch, hopened.batch]
    rfl
  · have hpins : a.pins = o.pins := by rw [hanswer]
    rw [hinner.pins, hpins, hopened.pins]
    rfl
  · rw [← ho, ← answered_output_congr (s := s) (t := o) (by rw [hlink]) (by rw [hlink]), ← ha]
    exact hinner.output

/-- Settles O37. -/
theorem batchRequests : Obligations.BatchRequests := by
  refine ⟨fun s tag cfgTag hready => ⟨fun htag => ?tag, fun hlow hhigh => ⟨fun b hb => ?busy, fun hfree =>
      ⟨fun hstop => ?stopped, fun hstop => ⟨fun hnone => ?nothing, fun hsome => ?opens⟩⟩⟩⟩,
    fun s tag hready => ?await, fun b close => ⟨rfl, rfl, rfl, rfl⟩⟩
  case tag =>
    exact exec_plan_reply hready (planReady_ready hready) tag (q := .execute cfgTag) rfl
      (by simp [Request.payload, bw]) (takeExecute_refused (executeCheck_tag htag) tag)
  case busy =>
    refine exec_plan_reply hready (planReady_ready hready) tag (q := .execute cfgTag) rfl
      (by simp [Request.payload, bw]) (takeExecute_refused ?_ tag)
    rw [executeCheck_range hlow hhigh, hb]
    rfl
  case stopped =>
    refine exec_plan_reply hready (planReady_ready hready) tag (q := .execute cfgTag) rfl
      (by simp [Request.payload, bw]) (takeExecute_refused ?_ tag)
    rw [executeCheck_range hlow hhigh, hfree]
    exact if_pos hstop
  case nothing =>
    refine exec_plan_reply hready (planReady_ready hready) tag (q := .execute cfgTag) rfl
      (by simp [Request.payload, bw]) (takeExecute_nothing ?_ (admittedSlots_eq_nil hnone) tag)
    rw [executeCheck_range hlow hhigh, hfree]
    exact (if_neg (by simp)).trans (if_neg (by simp [State.stopInForce, hstop]))
  case opens =>
    obtain ⟨n, hn, hadm⟩ := hsome
    have hcheck : s.executeCheck cfgTag.toNat = none := by
      rw [executeCheck_range hlow hhigh, hfree]
      exact (if_neg (by simp)).trans (if_neg (by simp [State.stopInForce, hstop]))
    obtain ⟨t, hexec, hheader, hpins, hout⟩ :=
      exec_execute_opens hready hcheck (List.ne_nil_of_mem (mem_admittedSlots.2 ⟨hn, hadm⟩)) tag
    obtain ⟨h1, h2, h3, h4, h5⟩ := record_of_header hheader
    obtain ⟨k1, k2, k3, _, _⟩ := record_of_header (openBatch_inner s cfgTag.toNat).batch
    refine ⟨t, hexec, h1, h2, h3, h4, h5, hpins, ?_⟩
    have hbytes : (s.openBatch cfgTag.toNat).batch.executeBytes =
        b2 cfgTag.toNat ++ b2 (s.admittedSlots cfgTag.toNat).length ++ b2 (s.skippedCount cfgTag.toNat) ++
          b2 (s.openBatch cfgTag.toNat).batch.record.arrived ++ b2 (s.openBatch cfgTag.toNat).batch.record.blocked ++
          b1 (s.openBatch cfgTag.toNat).batch.code := by
      unfold Batch.executeBytes
      rw [k1, k2, k3]
      rfl
    rw [← hbytes]
    exact hout
  case await =>
    have hs := planReady_ready hready
    refine (exec_plan hready tag .awaitBatch rfl (by simp [Request.payload])).trans (congrArg Host.Outcome.next ?_)
    show State.settle _ (s.takeAwaitBatch tag) = _
    unfold State.takeAwaitBatch
    rw [apply_ite (State.settle (Config.settleFuel - 1))]
    refine ite_congr rfl (fun _ => ?_) fun _ => settle_reply hs _ tag .awaitBatch _ _
    obtain ⟨hh, hr, hw, hn, hc, hp⟩ := ready_spec hs
    refine settle_quiet _ _ (quiet_of hh hw hn hc fun hmoves => ?_)
    exact hp (planReady_moves hready)

end Sys2Proof.Machine
end

