-- ==== Sys2Proof/Proofs/Claims.lean ====
section
/-! PROOFS. The Claim Arbiter: a claim taken, a grant, a re-examination, and the Zone Table's report (R80 to R91). -/

namespace Sys2Proof.Machine

/-! ## Joining a list by class -/

/-- An entry joins behind those of its own and lower class numbers, ahead of the first of a higher one. -/
theorem joinByClass_spec {α : Type} (cls : α → Nat) (e : α) (l : List α) :
    ∃ front back, l = front ++ back ∧ joinByClass cls e l = front ++ e :: back ∧
      (∀ x ∈ front, cls x ≤ cls e) ∧ ∀ x, back.head? = some x → cls e < cls x := by
  induction l with
  | nil => exact ⟨[], [], rfl, rfl, by simp, by simp⟩
  | cons x xs ih =>
    unfold joinByClass
    by_cases hx : cls x ≤ cls e
    · obtain ⟨front, back, hl, hjoin, hfront, hback⟩ := ih
      rw [if_pos hx, hjoin]
      refine ⟨x :: front, back, by rw [hl, List.cons_append], rfl, fun y hy => ?_, hback⟩
      rcases List.mem_cons.1 hy with rfl | hy
      · exact hx
      · exact hfront y hy
    · rw [if_neg hx]
      refine ⟨[], x :: xs, rfl, rfl, by simp, fun y hy => ?_⟩
      obtain rfl : x = y := by simpa using hy
      omega

theorem joinByClass_split {α : Type} (cls : α → Nat) (e : α) (l : List α) :
    ∃ front back, l = front ++ back ∧ joinByClass cls e l = front ++ e :: back ∧
      (∀ x, front.getLast? = some x → cls x ≤ cls e) ∧ ∀ x, back.head? = some x → cls e < cls x := by
  obtain ⟨front, back, hl, hjoin, hfront, hback⟩ := joinByClass_spec cls e l
  exact ⟨front, back, hl, hjoin, fun x hx => hfront x (List.mem_of_getLast? hx), hback⟩

/-! ## Zones by their status -/

theorem zoneFree_iff (s : State) (z : Nat) : s.zoneFree z = true ↔ ∃ r, s.zone z = some r ∧ r.status = .free := by
  unfold State.zoneFree State.status
  cases s.zone z <;> simp

/-! ## A claim taken -/

theorem takeClaim_eq {s : State} {n : Nat} {g : Leg} {zs : List Nat} (hg : (s.slot n).leg = some g)
    (hz : g.claimSet = some zs) :
    s.takeClaim n =
      if s.pins.stop then s.recordOutcome n .stopped
      else if ∃ z ∈ zs, s.zoneFenced z = true then s.recordOutcome n (.blocked .fenced)
      else if ∀ z ∈ zs, s.zoneFree z = true ∧ ∀ e ∈ s.waitList, z ∉ e.wanted then s.grant n zs
      else s.joinWaitList n g.cls zs := by
  have hfree : (zs.all fun z => s.zoneFree z && !(s.waitList.any fun e => e.wanted.contains z)) = true ↔
      ∀ z ∈ zs, s.zoneFree z = true ∧ ∀ e ∈ s.waitList, z ∉ e.wanted := by
    simp
  unfold State.takeClaim
  rw [hg]
  dsimp only
  rw [hz]
  exact ite_congr_iff Iff.rfl rfl (ite_congr_iff List.any_eq_true rfl (ite_congr_iff hfree rfl rfl))

/-- A claim that joins the wait list: behind its own and more urgent classes, and the list is re-examined. -/
theorem joinWaitList_split (s : State) (n cls : Nat) (zs : List Nat) :
    ∃ front back, s.waitList = front ++ back ∧
      s.joinWaitList n cls zs = State.reexamine { s with waitList := front ++
        { slot := n, cls := cls, entryTime := s.now, deadline := s.now + 1000 * s.settings.claimTimeout
          wanted := zs } :: back } ∧
      (∀ e, front.getLast? = some e → e.cls ≤ cls) ∧ ∀ e, back.head? = some e → cls < e.cls := by
  obtain ⟨front, back, hl, hjoin, hfront, hback⟩ := joinByClass_split WaitEntry.cls
    { slot := n, cls := cls, entryTime := s.now, deadline := s.now + 1000 * s.settings.claimTimeout, wanted := zs }
    s.waitList
  refine ⟨front, back, hl, ?_, hfront, hback⟩
  unfold State.joinWaitList
  dsimp only
  rw [hjoin]

/-! ## A grant -/

/-- Zones held: nothing but the zones differs. -/
theorem holdZones_eq (n : Nat) (zs : List Nat) (s : State) : ∃ v, s.holdZones n zs = { s with zones := v } := by
  induction zs generalizing s with
  | nil => exact ⟨_, rfl⟩
  | cons z zs ih =>
    have hstep (t : State) (ht : ∃ v, t = { s with zones := v }) : ∃ v, t.holdZones n zs = { s with zones := v } := by
      obtain ⟨v, rfl⟩ := ht
      obtain ⟨v', hv⟩ := ih ({ s with zones := v } : State)
      exact ⟨v', hv⟩
    cases hz : s.zone z with
    | none =>
      refine hstep _ ?_
      dsimp only
      rw [hz]
      exact ⟨_, rfl⟩
    | some r =>
      refine hstep _ ?_
      dsimp only
      rw [hz]
      exact ⟨_, rfl⟩

/-- Each zone named is HELD by the claimant, any other stands. -/
theorem holdZones_zone (n : Nat) (zs : List Nat) (s : State) (z : Nat) :
    (s.holdZones n zs).zone z =
      if z ∈ zs then (s.zone z).map fun r => { r with status := .held (r.sideOf n) } else s.zone z := by
  induction zs generalizing s with
  | nil => rfl
  | cons a zs ih =>
    cases ha : s.zone a with
    | none =>
      have hcons : s.holdZones n (a :: zs) = s.holdZones n zs := by
        show State.holdZones (match s.zone a with | some r => s.setStatus a (.held (r.sideOf n)) | none => s) n zs = _
        rw [ha]
      rw [hcons, ih]
      by_cases hz : z = a
      · subst hz
        simp [ha]
      · simp [hz]
    | some r =>
      have hcons : s.holdZones n (a :: zs) = (s.setStatus a (.held (r.sideOf n))).holdZones n zs := by
        show State.holdZones (match s.zone a with | some r => s.setStatus a (.held (r.sideOf n)) | none => s) n zs = _
        rw [ha]
      rw [hcons, ih, setStatus_zone]
      by_cases hz : z = a
      · subst hz
        simp only [if_true, ha, Option.map_some, List.mem_cons, true_or]
        split <;> rfl
      · simp [hz]

/-- A grant, field by field. -/
theorem grant_eq (s : State) (n : Nat) (zs : List Nat) :
    s.grant n zs =
      (({ s.holdZones n zs with waitList := s.waitList.filter fun e => decide (e.slot ≠ n) } : State).modLeg n fun g =>
        { g with stage := .queued }).hand (.handOn n) := by
  obtain ⟨v, hv⟩ := holdZones_eq n zs s
  have hne : (fun e : WaitEntry => e.slot != n) = fun e => decide (e.slot ≠ n) := by
    funext e
    rw [bne, Bool.beq_eq_decide_eq, decide_not]
  unfold State.grant
  dsimp only
  rw [hne, hv]

/-! ## A re-examination -/

theorem examine_cons (s : State) (passed : List Nat) (e : WaitEntry) (rest : List WaitEntry) :
    examine s passed (e :: rest) =
      if ∀ z ∈ e.wanted, s.zoneFree z = true ∧ z ∉ passed then examine (s.grant e.slot e.wanted) passed rest
      else examine s (passed ++ e.wanted) rest := by
  rw [examine]
  refine ite_congr_iff ?_ rfl rfl
  simp

/-- An entry stands: it wants a zone that is not FREE or that an entry passed over wants. -/
def State.standsAt (s : State) (passed : List Nat) (e : WaitEntry) : Prop :=
  ∃ z ∈ e.wanted, s.zoneFree z = false ∨ z ∈ passed

theorem examine_stands {s : State} {passed : List Nat} {e : WaitEntry} (h : s.standsAt passed e)
    (rest : List WaitEntry) : examine s passed (e :: rest) = examine s (passed ++ e.wanted) rest := by
  rw [examine_cons, if_neg]
  intro hall
  obtain ⟨z, hz, hfree | hpassed⟩ := h
  · rw [(hall z hz).1] at hfree
    cases hfree
  · exact (hall z hz).2 hpassed

/-- Entries that stand are passed over. -/
theorem examine_prefix {s : State} {passed : List Nat} (front rest : List WaitEntry)
    (h : ∀ f₁ x f₂, front = f₁ ++ x :: f₂ → s.standsAt (passed ++ (f₁.map WaitEntry.wanted).flatten) x) :
    examine s passed (front ++ rest) = examine s (passed ++ (front.map WaitEntry.wanted).flatten) rest := by
  induction front generalizing passed with
  | nil => simp
  | cons e front ih =>
    have he : s.standsAt passed e := by simpa using h [] e front rfl
    rw [List.cons_append, examine_stands he, ih]
    · simp
    · intro f₁ x f₂ hf
      have hx := h (e :: f₁) x f₂ (by rw [hf, List.cons_append])
      simpa using hx

/-- The zones that the entries of a list want. -/
theorem mem_wanted_flatten (es : List WaitEntry) (z : Nat) :
    z ∈ (es.map WaitEntry.wanted).flatten ↔ ∃ x ∈ es, z ∈ x.wanted := by
  rw [← List.flatMap_def, List.mem_flatMap]

/-- Standing behind the entries before it, as the statement has it. -/
theorem standsAt_iff (s : State) (before : List WaitEntry) (e : WaitEntry) :
    s.standsAt ([] ++ (before.map WaitEntry.wanted).flatten) e ↔
      ∃ z ∈ e.wanted, s.zoneFree z = false ∨ ∃ x ∈ before, z ∈ x.wanted := by
  unfold State.standsAt
  simp only [List.nil_append, mem_wanted_flatten]

theorem reexamine_standing {s : State}
    (h : ∀ front e back, s.waitList = front ++ e :: back →
      ∃ z ∈ e.wanted, s.zoneFree z = false ∨ ∃ x ∈ front, z ∈ x.wanted) : s.reexamine = s := by
  have hall := examine_prefix (s := s) (passed := []) s.waitList []
    fun f₁ x f₂ hf => (standsAt_iff s f₁ x).2 (h f₁ x f₂ hf)
  rw [List.append_nil] at hall
  exact hall

theorem reexamine_grants {s : State} {front back : List WaitEntry} {e : WaitEntry}
    (hl : s.waitList = front ++ e :: back)
    (hfront : ∀ f₁ x f₂, front = f₁ ++ x :: f₂ → ∃ z ∈ x.wanted, s.zoneFree z = false ∨ ∃ y ∈ f₁, z ∈ y.wanted)
    (he : ¬ ∃ z ∈ e.wanted, s.zoneFree z = false ∨ ∃ x ∈ front, z ∈ x.wanted) :
    s.reexamine = examine (s.grant e.slot e.wanted) (front.map WaitEntry.wanted).flatten back := by
  have hprefix := examine_prefix (s := s) (passed := []) front (e :: back)
    fun f₁ x f₂ hf => (standsAt_iff s f₁ x).2 (hfront f₁ x f₂ hf)
  unfold State.reexamine
  rw [hl, hprefix, examine_cons, if_pos]
  · rfl
  · intro z hz
    refine ⟨?_, fun hp => he ?_⟩
    · refine Classical.byContradiction fun hfree => ?_
      exact he ⟨z, hz, .inl (by simpa using hfree)⟩
    · obtain ⟨x, hx, hzx⟩ : ∃ x ∈ front, z ∈ x.wanted := (mem_wanted_flatten front z).1 hp
      exact ⟨z, hz, .inr ⟨x, hx, hzx⟩⟩

/-! ## The Zone Table's report -/

/-- The entries that want a fenced zone. -/
theorem wantsFenced_iff (fenced : List Nat) (e : WaitEntry) :
    (e.wanted.any fun z => fenced.contains z) = true ↔ ∃ z ∈ e.wanted, z ∈ fenced := by
  simp

/-- A report that fences no zone an entry wants. -/
theorem zoneReport_unfenced {s : State} {freed fenced : List Nat}
    (h : ∀ e ∈ s.waitList, ∀ z ∈ e.wanted, z ∉ fenced) :
    s.zoneReport freed fenced = if freed = [] then s else s.reexamine := by
  have hnone : (s.waitList.filter fun e => e.wanted.any fun z => fenced.contains z) = [] := by
    rw [List.filter_eq_nil_iff]
    intro e he hany
    obtain ⟨z, hz, hf⟩ := (wantsFenced_iff fenced e).1 hany
    exact h e he z hz hf
  have hall : (s.waitList.filter fun e => !e.wanted.any fun z => fenced.contains z) = s.waitList := by
    rw [List.filter_eq_self]
    intro e he
    rw [Bool.not_eq_true', Bool.eq_false_iff]
    intro hany
    obtain ⟨z, hz, hf⟩ := (wantsFenced_iff fenced e).1 hany
    exact h e he z hz hf
  unfold State.zoneReport
  dsimp only
  rw [hnone, hall]
  exact ite_congr_iff (by simp) rfl rfl

/-- A report that fences a zone an entry wants. -/
theorem zoneReport_fenced {s : State} {freed fenced : List Nat} (h : ∃ e ∈ s.waitList, ∃ z ∈ e.wanted, z ∈ fenced) :
    s.zoneReport freed fenced =
      State.reexamine ((s.waitList.filter fun e => e.wanted.any fun z => fenced.contains z).foldl
        (fun t e => t.recordOutcome e.slot (.blocked .fenced))
        { s with waitList := s.waitList.filter fun e => e.wanted.all fun z => !fenced.contains z }) := by
  have hsome : (s.waitList.filter fun e => e.wanted.any fun z => fenced.contains z) ≠ [] := by
    obtain ⟨e, he, hwants⟩ := h
    exact List.ne_nil_of_mem (List.mem_filter.2 ⟨he, (wantsFenced_iff fenced e).2 hwants⟩)
  unfold State.zoneReport
  dsimp only
  rw [if_neg (by simpa using fun _ => by simpa using hsome)]
  simp only [List.not_any_eq_all_not]
  rfl

/-- Settles O41. -/
theorem claimsServed : Obligations.ClaimsServed := by
  refine ⟨fun s n g zs hg hz => ⟨fun hstop => ?stopped, fun hstop hf => ?fenced, fun hstop hfree => ?granted,
      fun hstop hnf hbusy => ?joins⟩, fun s n zs hn hzs => ?grant,
    fun s => ⟨reexamine_standing, fun front e back hl hfront he => reexamine_grants hl hfront he⟩,
    fun s freed fenced => ⟨zoneReport_unfenced, zoneReport_fenced⟩,
    fun s z => ⟨zoneFree_iff s z, zoneFenced_iff s z⟩,
    fun s passed e rest => ⟨rfl, rfl, examine_cons s passed e rest⟩⟩
  case stopped => rw [takeClaim_eq hg hz, if_pos hstop]
  case fenced => rw [takeClaim_eq hg hz, if_neg (by simp [hstop]), if_pos hf]
  case granted =>
    have hnf : ¬ ∃ z ∈ zs, s.zoneFenced z = true := by
      rintro ⟨z, hz', hfz⟩
      obtain ⟨r, hr, hst⟩ := (zoneFree_iff s z).1 (hfree z hz').1
      obtain ⟨r', h, i, hr', hst'⟩ := (zoneFenced_iff s z).1 hfz
      obtain rfl : r = r' := Option.some.inj (hr.symm.trans hr')
      rw [hst] at hst'
      cases hst'
    rw [takeClaim_eq hg hz, if_neg (by simp [hstop]), if_neg hnf, if_pos hfree]
  case joins =>
    have hnf' : ¬ ∃ z ∈ zs, s.zoneFenced z = true := by
      rintro ⟨z, hz', hfz⟩
      rw [hnf z hz'] at hfz
      cases hfz
    have hnot : ¬ ∀ z ∈ zs, s.zoneFree z = true ∧ ∀ e ∈ s.waitList, z ∉ e.wanted := by
      intro hall
      obtain ⟨z, hz', hfree | ⟨e, he, hw⟩⟩ := hbusy
      · rw [(hall z hz').1] at hfree
        cases hfree
      · exact (hall z hz').2 e he hw
    rw [takeClaim_eq hg hz, if_neg (by simp [hstop]), if_neg hnf', if_neg hnot]
    exact joinWaitList_split s n g.cls zs
  case grant =>
    obtain ⟨v, hv⟩ := holdZones_eq n zs s
    have hzone (z : Nat) : (s.grant n zs).zone z = (s.holdZones n zs).zone z := by rw [grant_eq]; rfl
    have hslot (m : Nat) : (s.grant n zs).slot m =
        (s.modSlot n fun r => { r with leg := r.leg.map fun g => { g with stage := .queued } }).slot m := by
      rw [grant_eq, hv]
      rfl
    refine ⟨by rw [grant_eq]; rfl, fun z r hz hr => ?_, fun z hz => ?_, ?_, fun m hm => ?_, by rw [grant_eq, hv]; rfl,
      by rw [grant_eq, hv]; rfl, by rw [grant_eq, hv]; rfl, by rw [grant_eq, hv]; rfl, by rw [grant_eq, hv]; rfl⟩
    · rw [hzone, holdZones_zone, if_pos hz, hr]
      rfl
    · rw [hzone, holdZones_zone, if_neg hz]
    · rw [hslot, slot_modSlot_same _ _ _ hn]
    · rw [hslot, slot_modSlot_other _ _ _ _ (Ne.symm hm)]

end Sys2Proof.Machine
end

