-- ==== Sys2Proof/Proofs/LegsBuilt.lean ====
section
/-! PROOFS. A leg built and handed on (R104, R105, R110), and a leg that becomes LAPSING (R111, R112, R115). -/

namespace Sys2Proof.Machine

/-! ## A leg built -/

/-- A leg built stands in its robot's record, and the robot is WAITING. -/
theorem buildLeg_slot (s : State) {n : Nat} (hn : n < 128) (kind : LegKind) (finish : Counts) (cls : Nat) :
    (s.buildLeg n kind finish cls).slot n =
      { s.slot n with state := .waiting, leg := some (s.newLeg n kind finish cls) } :=
  slot_modSlot_same { s with nextLegId := s.nextLegId + 1 } n _ hn

theorem axes_eq (kind : LegKind) : kind.axes = match kind with
    | .swing => .alpha
    | .direct => .both
    | .fold => .beta
    | .extend => .beta
    | .recover => .beta := by cases kind <;> rfl

theorem units_eq (kind : LegKind) : kind.axes.units = if kind = .direct then 2 else 1 := by cases kind <;> rfl

theorem speed_eq (kind : LegKind) : kind.speed = if kind = .recover then .slow else .normal := by cases kind <;> rfl

theorem claimSetOf_eq (s : State) (n : Nat) (kind : LegKind) (start : Option Counts) (finish : Counts) :
    s.claimSetOf n kind start finish =
      if kind = .extend then start.map fun a => s.meetSet n (pathBox a finish) else none := by cases kind <;> rfl

/-! ## A leg handed on -/

theorem handLeg_claiming {s : State} {n : Nat} {g : Leg} (h : (s.slot n).leg = some g) (hg : g.stage = .claiming) :
    s.handLeg n = s.takeClaim n := by
  unfold State.handLeg
  rw [h]
  dsimp only
  rw [hg]

theorem handLeg_queued {s : State} {n : Nat} {g : Leg} (h : (s.slot n).leg = some g) (hg : g.stage = .queued) :
    s.handLeg n = s.hand (.handOn n) := by
  unfold State.handLeg
  rw [h]
  dsimp only
  rw [hg]

theorem nextLeg_none {s : State} {n : Nat} (h : (s.slot n).remaining = []) :
    s.nextLeg n = s.recordOutcome n .arrived := by
  unfold State.nextLeg
  rw [h]

theorem nextLeg_some {s : State} {n : Nat} {l : RemLeg} {rest : List RemLeg} (h : (s.slot n).remaining = l :: rest) :
    s.nextLeg n = ((s.modSlot n fun r => { r with remaining := rest }).buildLeg n l.kind l.finish
      (s.slot n).pinnedClass).handLeg n := by
  unfold State.nextLeg
  rw [h]

/-- The class of the first pinned target. -/
theorem pinnedClass_eq {r : SlotRec} {x : Target} {front back : List Target} (h : r.targets = front ++ x :: back)
    (hfront : ∀ y ∈ front, y.pinned = false) (hx : x.pinned = true) : r.pinnedClass = x.cls := by
  have hfind : r.targets.find? Target.pinned = some x := by
    rw [h, List.find?_append, List.find?_eq_none.2 fun y hy => by rw [hfront y hy]; simp, Option.none_or,
      List.find?_cons_of_pos hx]
  unfold SlotRec.pinnedClass
  rw [hfind]
  rfl

/-- Settles O44. -/
theorem legsBuilt : Obligations.LegsBuilt := by
  refine ⟨fun s n kind finish cls hn => ⟨fun m hm => buildLeg_other hm kind finish cls, ?built⟩,
    fun s n l rest hn hrem => ⟨nextLeg_some hrem, fun hkind => ?next⟩,
    fun s n => ⟨nextLeg_none, fun g hg => ⟨handLeg_claiming hg, handLeg_queued hg⟩⟩,
    fun r x front back h hfront hx => pinnedClass_eq h hfront hx⟩
  case built =>
    exact ⟨s.newLeg n kind finish cls, buildLeg_slot s hn kind finish cls, rfl, rfl, rfl, rfl, rfl, rfl, rfl,
      axes_eq kind, units_eq kind, speed_eq kind, firstStage_eq kind, claimSetOf_eq s n kind _ finish⟩
  case next =>
    obtain ⟨v, hv⟩ : ∃ v, v = s.modSlot n fun r => { r with remaining := rest } := ⟨_, rfl⟩
    have hvslot : v.slot n = { s.slot n with remaining := rest } := by rw [hv, slot_modSlot_same _ _ _ hn]
    obtain ⟨b, hb⟩ : ∃ b, b = v.buildLeg n l.kind l.finish (s.slot n).pinnedClass := ⟨_, rfl⟩
    have hbslot := buildLeg_slot v hn l.kind l.finish (s.slot n).pinnedClass
    rw [← hb] at hbslot
    have hstage : (v.newLeg n l.kind l.finish (s.slot n).pinnedClass).stage = .queued :=
      (firstStage_eq l.kind).trans (if_neg hkind)
    have hnext : s.nextLeg n = b.hand (.handOn n) := by
      rw [nextLeg_some hrem, ← hv, ← hb, handLeg_queued (by rw [hbslot]) hstage]
    refine ⟨v.newLeg n l.kind l.finish (s.slot n).pinnedClass, ?_, rfl, rfl, rfl, hstage, ?_, ?_⟩
    · rw [hnext, hand_slot, hbslot, hvslot]
    · show (v.slot n).position.map Position.counts = _
      rw [hvslot]
      rfl
    · rw [hnext, hb, hv]
      rfl

/-! ## A leg that becomes LAPSING -/

theorem modLeg_slot {s : State} {n : Nat} (hn : n < 128) {g : Leg} (h : (s.slot n).leg = some g) (f : Leg → Leg) :
    (s.modLeg n f).slot n = { s.slot n with leg := some (f g) } := by
  rw [modLeg_of_leg h, slot_modSlot_same _ _ _ hn]

theorem modLeg_other {s : State} {n m : Nat} (h : m ≠ n) (f : Leg → Leg) : (s.modLeg n f).slot m = s.slot m :=
  slot_modSlot_other s n m _ h.symm

theorem answerFault_other {g : Leg} (h : g.kind ≠ .recover) (s : State) (n : Nat) (kind : FaultKind) :
    s.answerFault n g kind = s := by
  unfold State.answerFault
  exact if_neg (by simpa [Leg.isRecover] using h)

/-- A LAPSING leg whose deadline is ahead stays. -/
theorem endLapsed_early {s : State} {n d : Nat} {g : Leg} (h : (s.slot n).leg = some g) (hd : g.deadline = some d)
    (hlt : s.now < d) : s.endLapsed n = s := by
  unfold State.endLapsed
  rw [h]
  refine if_neg fun hc => ?_
  rw [hd] at hc
  have hle : d ≤ s.now := by simpa using hc.2
  omega

/-- A LAPSING leg whose deadline has passed is ended. -/
theorem endLapsed_due {s : State} {n d : Nat} {g : Leg} (h : (s.slot n).leg = some g) (hstage : g.stage = .lapsing)
    (hd : g.deadline = some d) (hle : d ≤ s.now) : s.endLapsed n = s.endLeg n g := by
  unfold State.endLapsed
  rw [h]
  refine if_pos ⟨hstage, ?_⟩
  rw [hd]
  simpa using hle

/-- A leg ended leaves its robot's record. -/
theorem endLeg_slot (s : State) {n : Nat} (hn : n < 128) (g : Leg) :
    (s.endLeg n g).slot n = { s.slot n with leg := none } :=
  slot_modSlot_same s n (fun r => { r with leg := none }) hn

theorem endLeg_other (s : State) {n m : Nat} (h : m ≠ n) (g : Leg) : (s.endLeg n g).slot m = s.slot m :=
  slot_modSlot_other s n m (fun r => { r with leg := none }) h.symm

theorem endLeg_gate (s : State) (n : Nat) (g : Leg) :
    (s.endLeg n g).gate = { s.gate with unitsInUse := s.gate.unitsInUse - g.units } := rfl

/-- A LAPSING leg with its deadline ahead or passed: it stays, or is ended and its units come back. -/
theorem endLapsed_spec {s : State} {n d : Nat} (hn : n < 128) {g : Leg} (h : (s.slot n).leg = some g)
    (hstage : g.stage = .lapsing) (hd : g.deadline = some d) :
    (s.endLapsed n).slot n = { s.slot n with leg := ((s.endLapsed n).slot n).leg } ∧
    (s.now < d → ((s.endLapsed n).slot n).leg = some g ∧ (s.endLapsed n).gate = s.gate) ∧
    (d ≤ s.now → ((s.endLapsed n).slot n).leg = none ∧
      (s.endLapsed n).gate = { s.gate with unitsInUse := s.gate.unitsInUse - g.units }) ∧
    (∀ m, m ≠ n → (s.endLapsed n).slot m = s.slot m) ∧ (s.endLapsed n).zones = s.zones ∧
    (s.endLapsed n).lines = s.lines := by
  rcases Nat.lt_or_ge s.now d with hlt | hle
  · rw [endLapsed_early h hd hlt]
    exact ⟨rfl, fun _ => ⟨h, rfl⟩, fun hge => absurd hlt (by omega), fun _ _ => rfl, rfl, rfl⟩
  · rw [endLapsed_due h hstage hd hle]
    refine ⟨?_, fun hlt => absurd hle (by omega), fun _ => ⟨?_, rfl⟩, fun m hm => endLeg_other s hm g, rfl, rfl⟩
    · rw [endLeg_slot s hn g]
    · rw [endLeg_slot s hn g]

/-- Settles O45. -/
theorem legLapses : Obligations.LegLapses := by
  refine ⟨fun s n g kind hn hg hkind hw hlimit => ?lapse, fun s n g hg => ⟨fun h => ?go, fun h => ?poll,
    fun h => ?readback, fun h => ?pollOther, fun h => ?lapsing⟩⟩
  case lapse =>
    obtain ⟨d, hd⟩ : ∃ d, d = g.deadline.getD (s.now + s.legDuration n g) := ⟨_, rfl⟩
    obtain ⟨v, hv⟩ : ∃ v, v = s.modLeg n fun g => { g with stage := .lapsing, deadline := some d } := ⟨_, rfl⟩
    have hvslot : v.slot n = { s.slot n with leg := some { g with stage := .lapsing, deadline := some d } } := by
      rw [hv, modLeg_slot hn hg]
    have hvrec : v = { s with slots := v.slots } := by rw [hv]; rfl
    obtain ⟨hrec, ⟨o, ts, leg, hslot, hleg, hout⟩, hothers, hzones, _⟩ :=
      faultReport_below (s := v) kind .unknown hn (by rw [hv]; exact hw)
        (by rw [hvslot, hvrec]; exact hlimit)
    obtain ⟨f, hf⟩ : ∃ f, f = v.faultReport n kind .unknown := ⟨_, rfl⟩
    rw [← hf] at hrec hslot hothers hzones
    have hlapse : s.lapse n g kind = f.endLapsed n := by
      unfold State.lapse
      dsimp only
      rw [← hd, ← hv, ← hf, answerFault_other hkind]
    have hfleg : (f.slot n).leg = some { g with stage := .lapsing, deadline := some d } := by
      rw [hslot]
      rcases hleg with h | h
      · exact h.trans (by rw [hvslot])
      · exact h.trans (by rw [hvslot]; rfl)
    have hnow : f.now = s.now := by rw [hrec, hvrec]
    have hgate : f.gate = s.gate := by rw [hrec, hvrec]
    have hfields : (f.slot n).state = .faulted ∧ (f.slot n).fault = some { kind := kind, time := s.now } ∧
        (f.slot n).faultCount = (s.slot n).faultCount + 1 ∧ (f.slot n).position = none ∧
        (f.slot n).remaining = [] ∧ (f.slot n).outcome = o := by
      rw [hslot, hvslot, hvrec]
      exact ⟨rfl, rfl, rfl, rfl, rfl, rfl⟩
    obtain ⟨tslot, tearly, tdue, tothers, tzones, tlines⟩ :=
      endLapsed_spec (g := { g with stage := .lapsing, deadline := some d }) hn hfleg rfl rfl
    rw [← hlapse] at tslot tearly tdue tothers tzones tlines
    rw [hnow, hgate] at tearly tdue
    obtain ⟨hstate, hfault, hcount, hposition, hremaining, houtcome⟩ := hfields
    obtain ⟨tleg, htleg⟩ : ∃ x, x = ((s.lapse n g kind).slot n).leg := ⟨_, rfl⟩
    rw [← htleg] at tslot tearly tdue
    rw [← hd]
    dsimp only
    rw [← htleg, tslot]
    refine ⟨hstate, hfault, hcount, hposition, hremaining, fun b hb hflag hnone => ?_, tearly, tdue, fun m hm => ?_, ?_,
      ?_⟩
    · rw [houtcome]
      refine hout b (by rw [hvrec]; exact hb) ?_ ?_
      · rw [hvslot]; exact hflag
      · rw [hvslot]; exact hnone
    · rw [tothers m hm, hothers m hm, hv, modLeg_other hm]
    · rw [tzones, hzones rfl, hvrec]
    · rw [tlines, hrec, hvrec]
  case go =>
    unfold State.goFailed
    rw [legOf_own hg]
    exact if_pos h
  case poll =>
    unfold State.pollFailed
    rw [legOf_own hg]
    exact if_pos h
  case readback =>
    unfold State.readbackFailed
    rw [legOf_own hg]
    exact if_pos h
  case pollOther =>
    unfold State.pollFailed
    rw [legOf_own hg]
    exact if_neg h
  case lapsing =>
    unfold State.readbackFailed
    rw [legOf_own hg]
    exact if_neg (by rw [h]; simp)

end Sys2Proof.Machine
end

