-- ==== Sys2Proof/Proofs/LegAnswers.lean ====
section
/-! PROOFS. What the robot bus reports for a leg that is no RECOVER (R107, R109, R110, R112, R114, R115, R120, R158). -/

namespace Sys2Proof.Machine

/-! ## A leg ended at a position -/

/-- The records besides a robot's own once its leg has ended at a position: its units are back, and its zones are
those of the occupancy update there. -/
def State.EndedAt (s : State) (n : Nat) (g : Leg) (t : State) (p : Option Position) : Prop :=
  t.gate = { s.gate with unitsInUse := s.gate.unitsInUse - g.units } ∧ t.lines = s.lines ∧
    (∀ m, m ≠ n → t.slot m = s.slot m) ∧
    t.zones = ((s.modSlot n fun q => { q with position := p }).updateZones n).zones

/-- The leg ended and the position reported, before the zones change. -/
theorem reportPosition_endLeg {s : State} {n : Nat} (hn : n < 128) (g : Leg) (a b : Nat) :
    (s.endLeg n g).reportPosition n a b =
      { s.modSlot n fun q => { q with leg := none, position := some { alpha := a, beta := b, source := .reported } } with
        gate := { s.gate with unitsInUse := s.gate.unitsInUse - g.units }
        handed := s.handed ++ [.scan] } := by
  have hslots := modSlot_modSlot (s := s) hn (fun q => { q with leg := none }) fun q => q.at a b .reported
  have hcommute : (s.endLeg n g).reportPosition n a b =
      { ((s.modSlot n fun q => { q with leg := none }).modSlot n fun q => q.at a b .reported) with
        gate := { s.gate with unitsInUse := s.gate.unitsInUse - g.units }
        handed := s.handed ++ [.scan] } := rfl
  rw [hcommute, hslots]
  rfl

/-- A leg ended at counts reported, its zones trimmed. -/
def State.endedReported (s : State) (n : Nat) (g : Leg) (a b : Nat) : State :=
  ((s.endLeg n g).reportPosition n a b).updateZones n

section Ended

variable {s : State} {n : Nat} {g : Leg}

theorem endedReported_eq (hn : n < 128) (hw : s.waitList = []) (a b : Nat) :
    ∃ z k, s.endedReported n g a b =
      { s.modSlot n fun q => { q with leg := none, position := some { alpha := a, beta := b, source := .reported } } with
        gate := { s.gate with unitsInUse := s.gate.unitsInUse - g.units }
        handed := s.handed ++ [.scan], zones := z, link := k } := by
  unfold State.endedReported
  rw [reportPosition_endLeg hn, updateZones_eq _ (by exact hw)]
  exact ⟨_, _, rfl⟩

theorem endedReported_slot (hn : n < 128) (hw : s.waitList = []) (a b : Nat) :
    (s.endedReported n g a b).slot n =
      { s.slot n with leg := none, position := some { alpha := a, beta := b, source := .reported } } := by
  obtain ⟨z, k, h⟩ := endedReported_eq (g := g) hn hw a b
  rw [h]
  exact slot_modSlot_same s n
    (fun q => { q with leg := none, position := some { alpha := a, beta := b, source := .reported } }) hn

theorem endedReported_endedAt (hn : n < 128) (hw : s.waitList = []) (a b : Nat) :
    s.EndedAt n g (s.endedReported n g a b) (some { alpha := a, beta := b, source := .reported }) := by
  obtain ⟨z, k, h⟩ := endedReported_eq (g := g) hn hw a b
  refine ⟨by rw [h], by rw [h]; rfl, fun m hm => ?_, ?_⟩
  · rw [h]
    exact slot_modSlot_other s n m
      (fun q => { q with leg := none, position := some { alpha := a, beta := b, source := .reported } }) hm.symm
  · obtain ⟨u, hu⟩ : ∃ u, u = (s.endLeg n g).reportPosition n a b := ⟨_, rfl⟩
    have hrec := reportPosition_endLeg (s := s) hn g a b
    rw [← hu] at hrec
    have huslot : u.slot n =
        { s.slot n with leg := none, position := some { alpha := a, beta := b, source := .reported } } := by
      rw [hrec]
      exact slot_modSlot_same s n
        (fun q => { q with leg := none, position := some { alpha := a, beta := b, source := .reported } }) hn
    unfold State.endedReported
    rw [← hu]
    refine updateZones_zones_congr hw (by rw [hrec]; exact hw) (by rw [hrec]; rfl) ?_ ?_ ?_ <;>
      rw [huslot, slot_modSlot_same _ _ _ hn]

/-- An outcome recorded leaves the other records. -/
theorem endedAt_recordOutcome {t : State} {p : Option Position} (h : s.EndedAt n g t p) (o : RobotOutcome) :
    s.EndedAt n g (t.recordOutcome n o) p := by
  obtain ⟨hgate, hlines, hslots, hzones⟩ := h
  refine ⟨by rw [recordOutcome_eq]; exact hgate, by rw [recordOutcome_eq]; exact hlines, fun m hm => ?_,
    by rw [recordOutcome_eq]; exact hzones⟩
  rw [recordOutcome_other _ _ _ _ hm, hslots m hm]

/-- The outcome of a robot of the open batch whose leg has ended at counts reported. -/
theorem endedReported_outcome (hn : n < 128) (hw : s.waitList = []) {o : BatchRec} (ho : s.batch = .opened o)
    (hflag : (s.slot n).batchFlag = true) (hnone : (s.slot n).outcome = .none) (a b : Nat) (out : RobotOutcome) :
    ((s.endedReported n g a b).recordOutcome n out).slot n =
      SlotRec.withOutcome
        { s.slot n with leg := none, position := some { alpha := a, beta := b, source := .reported } } out o.tag := by
  have hslot := endedReported_slot (g := g) hn hw a b
  have hbatch : (s.endedReported n g a b).batch = .opened o := by
    obtain ⟨z, k, h⟩ := endedReported_eq (g := g) hn hw a b
    rw [h]
    exact ho
  rw [recordOutcome_slot out hbatch (by rw [hslot]; exact ⟨hflag, hnone⟩), slot_modSlot_same _ _ _ hn, hslot]

/-! ## A STATE taken -/

theorem stateTaken_eq (h : (s.slot n).leg = some g) (readback : Bool) (run : RunState) (a b : Nat) :
    s.stateTaken n g.id readback run a b =
      match g.stage with
      | .running => s.runningState n g run a b
      | .stopping => s.stoppingState n g readback run a b
      | .lapsing => if readback then s.lapsedRead n g a b else s
      | .claiming => s
      | .queued => s
      | .issued => s := by
  unfold State.stateTaken
  rw [legOf_own h] <;> rfl

theorem isRecover_false (h : g.kind ≠ .recover) : g.isRecover = false := by
  simpa [Leg.isRecover] using h

/-- A leg that is no RECOVER is at its end when both counts are. -/
theorem atEnd_iff (h : g.kind ≠ .recover) (a b : Nat) :
    g.atEnd a b = true ↔ a = g.finish.alpha ∧ b = g.finish.beta := by
  simp [Leg.atEnd, isRecover_false h]

theorem halted_iff : g.halted = true ↔ g.haltCause = some .stop := by
  simp [Leg.halted]

theorem not_halted (h : g.haltCause ≠ some .stop) : g.halted = false :=
  Bool.eq_false_iff.2 fun ht => h (halted_iff.1 ht)

theorem legArrived_eq (h : g.kind ≠ .recover) (a b : Nat) :
    s.legArrived n g a b = (s.endedReported n g a b).nextLeg n := by
  unfold State.legArrived
  exact if_neg (by simp [isRecover_false h])

theorem legHalted_eq (h : g.kind ≠ .recover) (a b : Nat) :
    s.legHalted n g a b = (s.endedReported n g a b).recordOutcome n .stopped := by
  unfold State.legHalted State.legStopped
  exact if_neg (by simp [isRecover_false h])

/-- A STATE that settles a STOPPING leg with halt cause DEADLINE, or a RUNNING one, at its end counts. -/
theorem stateTaken_arrived (hg : (s.slot n).leg = some g) (hk : g.kind ≠ .recover) {readback : Bool} {run : RunState}
    {a b : Nat} (ha : a = g.finish.alpha) (hb : b = g.finish.beta)
    (h : (g.stage = .running ∧ (run = .arrived ∨ run = .idle)) ∨
      ((g.stage = .stopping ∧ (readback = true ∨ run ≠ .running)) ∧ g.haltCause = some .deadline)) :
    s.stateTaken n g.id readback run a b = (s.endedReported n g a b).nextLeg n := by
  have hend : g.atEnd a b = true := (atEnd_iff hk a b).2 ⟨ha, hb⟩
  rw [stateTaken_eq hg, ← legArrived_eq hk]
  rcases h with ⟨hstage, rfl | rfl⟩ | ⟨⟨hstage, hrun⟩, hcause⟩
  · rw [hstage]
    exact if_pos hend
  · rw [hstage]
    exact if_pos hend
  · rw [hstage]
    dsimp only
    unfold State.stoppingState
    rw [if_neg fun hc => hrun.elim (by rw [hc.1]; simp) fun hr => hr hc.2,
      if_neg (by simp [not_halted (g := g) (by rw [hcause]; simp)]), if_pos hend]

/-- A STATE that settles a STOPPING leg with halt cause STOP. -/
theorem stateTaken_halted (hg : (s.slot n).leg = some g) (hk : g.kind ≠ .recover) {readback : Bool} {run : RunState}
    (h : g.stage = .stopping ∧ (readback = true ∨ run ≠ .running)) (hcause : g.haltCause = some .stop) (a b : Nat) :
    s.stateTaken n g.id readback run a b = (s.endedReported n g a b).recordOutcome n .stopped := by
  rw [stateTaken_eq hg, h.1, ← legHalted_eq hk]
  dsimp only
  unfold State.stoppingState
  rw [if_neg fun hc => h.2.elim (by rw [hc.1]; simp) fun hr => hr hc.2, if_pos (halted_iff.2 hcause)]

/-! ## A leg that faults -/

theorem legFaulted_eq (h : g.kind ≠ .recover) (kind : FaultKind) (pos : PosChange) :
    s.legFaulted n g kind pos = (s.endLeg n g).faultReport n kind pos :=
  answerFault_other h _ n kind

/-- The targets and outcome that a fault report leaves a robot of the open batch. -/
theorem faultReport_batch {s : State} {n : Nat} (hn : n < 128) (hw : s.waitList = []) {o : BatchRec}
    (ho : s.batch = .opened o) (hflag : (s.slot n).batchFlag = true) (hnone : (s.slot n).outcome = .none)
    (kind : FaultKind) (pos : PosChange) (hl : (s.slot n).faultCount + 1 < s.settings.faultLimit) :
    ((s.faultReport n kind pos).slot n).outcome = .faulted ∧
      ((s.faultReport n kind pos).slot n).targets =
        (s.slot n).targets.map fun x => if x.tag = o.tag then { x with pinned := false } else x := by
  obtain ⟨b, k, hrec⟩ := faultUpdated_eq hw n kind pos
  have hslots (m : Nat) : ((s.faultRecorded n kind pos).updateZones n).slot m = (s.faultRecorded n kind pos).slot m := by
    rw [hrec]
    rfl
  have hreport : s.faultReport n kind pos = (s.faultRecorded n kind pos).updateZones n := by
    rw [faultReport_eq]
    unfold State.testFaultLimit
    refine if_neg ?_
    have hset : ((s.faultRecorded n kind pos).updateZones n).settings = s.settings := by rw [hrec]
    rw [hslots, (faultRecorded_slot s hn kind pos).2.2.1, hset]
    omega
  obtain ⟨u, hu⟩ : ∃ u, u = (s.raise (.robotFaulted 1 n)).modSlot n fun r =>
    { r with state := .faulted, fault := some { kind := kind, time := s.now }, remaining := [] } := ⟨_, rfl⟩
  have huslot : u.slot n =
      { s.slot n with state := .faulted, fault := some { kind := kind, time := s.now }, remaining := [] } := by
    rw [hu, slot_modSlot_same _ _ _ hn, raise_eq]
    rfl
  have hubatch : u.batch = .opened o := by
    rw [hu, modSlot_batch, raise_eq]
    exact ho
  rw [hreport, hslots]
  unfold State.faultRecorded
  rw [← hu, slot_modSlot_same _ _ _ hn, recordOutcome_slot _ hubatch (by rw [huslot]; exact ⟨hflag, hnone⟩),
    slot_modSlot_same _ _ _ hn, huslot]
  exact ⟨rfl, rfl⟩

end Ended

/-! ## The answers to a GO -/

theorem goRefused_issued {s : State} {n : Nat} {g : Leg} (h : (s.slot n).leg = some g) (hs : g.stage = .issued) :
    s.goRefused n g.id = if g.halted then s.legAbandoned n g else s.legFaulted n g .refused .unchanged := by
  unfold State.goRefused
  rw [legOf_own h]
  exact if_pos hs

theorem goTaken_legTaken {s : State} {n : Nat} {g : Leg} (h : (s.slot n).leg = some g) (hs : g.stage = .issued) :
    s.goTaken n g.id = s.legTaken n g := by
  unfold State.goTaken
  rw [legOf_own h]
  exact if_pos hs

theorem legOf_none {s : State} {n id : Nat} (h : ∀ g, (s.slot n).leg = some g → g.id ≠ id) : s.legOf n id = none := by
  unfold State.legOf
  cases hg : (s.slot n).leg with
  | none => rfl
  | some g => simp [Option.filter, h g hg]

/-- Settles O43. -/
theorem legAnswers : Obligations.LegAnswers := by
  refine ⟨fun s n g hn hg hk hw => ⟨fun readback run a b h => ?passed, fun readback run a b ha hb h => ⟨?arrives, ?outcome⟩,
      fun readback run a b hstage h => ?stall, fun readback run a b hset hcause hne => ?overdue,
      fun hstage => ⟨fun hcause => ?refused, fun hcause => ?discarded⟩,
      fun kind pos hlimit hret => ?faulted, fun readback run a b o hset hcause hin hret => ?stopped,
      fun run a b hstage hret => ?lapsing, fun hstage => ⟨fun hcause => ?taken, fun hcause => ?takenHalted⟩,
      fun hstage => ⟨?notTaken, ?notRefused⟩⟩,
    fun s n g => ⟨fun h => ?notUp, fun h hno => ?newReadback, fun h hmerge => ?merged⟩,
    fun s n id h => ?other⟩
  case passed =>
    rw [stateTaken_eq hg]
    rcases h with ⟨hs, rfl⟩ | ⟨hs, rfl, rfl⟩ | ⟨hs, rfl⟩ | hs | hs | hs
    · rw [hs]; rfl
    · rw [hs]; exact if_pos ⟨rfl, rfl⟩
    · rw [hs]; rfl
    · rw [hs]
    · rw [hs]
    · rw [hs]
  case arrives =>
    rw [stateTaken_arrived hg hk ha hb h]
    unfold State.endedReported
    rw [reportPosition_endLeg hn]
  case outcome =>
    intro o hin hrem hret
    obtain ⟨ho, hflag, hnone⟩ := hin
    have hslot := endedReported_slot (g := g) hn hw a b
    have hnext : s.stateTaken n g.id readback run a b = (s.endedReported n g a b).recordOutcome n .arrived := by
      rw [stateTaken_arrived hg hk ha hb h, nextLeg_none (by rw [hslot]; exact hrem)]
    dsimp only
    rw [hnext]
    refine ⟨?_, endedAt_recordOutcome (endedReported_endedAt hn hw a b) _⟩
    rw [endedReported_outcome hn hw ho hflag hnone]
    unfold SlotRec.withOutcome
    dsimp only
    rw [hrem]
    rfl
  case stall =>
    rw [stateTaken_eq hg, hstage]
    rcases h with rfl | ⟨hrun, hne⟩
    · rfl
    · have hend : ¬ g.atEnd a b = true := fun he => by
        obtain ⟨ha, hb⟩ := (atEnd_iff hk a b).1 he
        exact hne.elim (fun h => h ha) fun h => h hb
      rcases hrun with rfl | rfl
      · exact if_neg hend
      · exact if_neg hend
  case overdue =>
    have hend : ¬ g.atEnd a b = true := fun he => by
      obtain ⟨ha, hb⟩ := (atEnd_iff hk a b).1 he
      exact hne.elim (fun h => h ha) fun h => h hb
    obtain ⟨hstage, hrun⟩ := hset
    rw [stateTaken_eq hg, hstage]
    dsimp only
    unfold State.stoppingState
    rw [if_neg fun hc => hrun.elim (by rw [hc.1]; simp) fun hr => hr hc.2,
      if_neg (by simp [not_halted (g := g) (by rw [hcause]; simp)]), if_neg hend]
  case refused =>
    rw [goRefused_issued hg hstage, not_halted hcause]
    rfl
  case discarded =>
    rw [goRefused_issued hg hstage, if_pos (halted_iff.2 hcause)]
    unfold State.goDiscarded
    rw [legOf_own hg]
    exact (if_pos hstage).symm
  case faulted =>
    obtain ⟨e, he⟩ : ∃ e, e = s.endLeg n g := ⟨_, rfl⟩
    have heslot : e.slot n = { s.slot n with leg := none } := by rw [he, endLeg_slot s hn]
    have hewait : e.waitList = [] := by rw [he]; exact hw
    have heset : e.settings = s.settings := by rw [he]; rfl
    have henow : e.now = s.now := by rw [he]; rfl
    have hezones : e.zones = s.zones := by rw [he]; rfl
    have helimit : (e.slot n).faultCount + 1 < e.settings.faultLimit := by rw [heslot, heset]; exact hlimit
    obtain ⟨hbelow, _, _, hothers, hlines, _⟩ := faultReport e n kind pos hn hewait
    obtain ⟨hstate, hfault, hcount, hposition, hremaining, hgate, hzones⟩ := hbelow helimit
    obtain ⟨_, ⟨o', ts, leg', hslot, hleg, _⟩, _⟩ := faultReport_below kind pos hn hewait helimit
    have hleg' : leg' = none := by
      rcases hleg with h | h
      · rw [h, heslot]
      · rw [h, heslot]; rfl
    dsimp only
    rw [legFaulted_eq hk, ← he]
    refine ⟨by rw [hslot, hleg'], hstate, by rw [hfault, henow], by rw [hcount, heslot], hremaining,
      by rw [hposition, heslot], ⟨by rw [hgate, he]; rfl, by rw [hlines, he]; rfl, fun m hm => ?_, ?_⟩, fun o hin => ?_⟩
    · rw [hothers m hm, he, endLeg_other s hm]
    · rw [hzones]
      refine updateZones_zones_congr hw hewait hezones ?_ ?_ ?_
      · rw [slot_modSlot_same _ _ _ hn, slot_modSlot_same _ _ _ hn, heslot]
      · rw [slot_modSlot_same _ _ _ hn, slot_modSlot_same _ _ _ hn, heslot]
      · rw [slot_modSlot_same _ _ _ hn, slot_modSlot_same _ _ _ hn]
        exact iff_of_false (by simp) hret
    · obtain ⟨ho, hflag, hnone⟩ := hin
      have hbatch := faultReport_batch hn hewait (o := o) (by rw [he]; exact ho) (by rw [heslot]; exact hflag)
        (by rw [heslot]; exact hnone) kind pos helimit
      rw [heslot] at hbatch
      exact hbatch
  case stopped =>
    obtain ⟨ho, hflag, hnone⟩ := hin
    dsimp only
    rw [stateTaken_halted hg hk hset hcause]
    refine ⟨?_, endedAt_recordOutcome (endedReported_endedAt hn hw a b) _⟩
    rw [endedReported_outcome hn hw ho hflag hnone]
    rfl
  case lapsing =>
    have hread : s.stateTaken n g.id true run a b = s.endedReported n g a b := by
      rw [stateTaken_eq hg, hstage]
      rfl
    dsimp only
    rw [hread]
    exact ⟨endedReported_slot hn hw a b, endedReported_endedAt hn hw a b⟩
  case taken =>
    rw [goTaken_legTaken hg hstage]
    unfold State.legTaken
    dsimp only
    rw [if_neg (by simp [not_halted hcause]), modLeg_of_leg hg]
  case takenHalted =>
    rw [goTaken_legTaken hg hstage]
    unfold State.legTaken
    dsimp only
    rw [if_pos (halted_iff.2 hcause), modLeg_of_leg hg]
  case notTaken =>
    unfold State.goTaken
    rw [legOf_own hg]
    exact if_neg hstage
  case notRefused =>
    unfold State.goRefused
    rw [legOf_own hg]
    exact if_neg hstage
  case notUp =>
    unfold State.placeReadback
    cases hstate : (s.line (s.slot n).lineNo).state with
    | up => exact absurd hstate h
    | down => rfl
    | silent => rfl
  case newReadback => rw [placeReadback_up h, placeReadbackUp_new hno]
  case merged => rw [placeReadback_up h, placeReadbackUp_merge hmerge]
  case other =>
    have hnone := legOf_none h
    refine ⟨?_, ?_, ?_, ?_, ?_, ?_, fun readback run a b => ?_⟩
    · unfold State.goTaken; rw [hnone]
    · unfold State.goRefused; rw [hnone]
    · unfold State.goFailed; rw [hnone]
    · unfold State.goDiscarded; rw [hnone]
    · unfold State.pollFailed; rw [hnone]
    · unfold State.readbackFailed; rw [hnone]
    · unfold State.stateTaken; rw [hnone]

end Sys2Proof.Machine
end

