-- ==== Sys2Proof/Proofs/StartGateScans.lean ====
section
/-! PROOFS. The Start Gate: its scans, a hand-on, an entry blocked on a DOWN line and an entry issued (R128 to R132). -/

namespace Sys2Proof.Machine

/-! ## A scan -/

theorem scan_idle {s : State} (h : s.pins.stop = true ∨ s.pins.inhibit = true) : s.scan = s := by
  unfold State.scan
  exact if_pos (by simpa [State.stopInForce] using h)

theorem scanEntries_down {s : State} {e : StartEntry} (h : (s.line e.line).state = .down) (rest : List StartEntry) :
    scanEntries s (e :: rest) = scanEntries (s.blockEntry e) rest := by
  rw [scanEntries, if_pos h]

theorem scanEntries_full {s : State} {e : StartEntry} (hup : (s.line e.line).state = .up)
    (h : 24 ≤ (s.line e.line).normal.length) (rest : List StartEntry) :
    scanEntries s (e :: rest) = scanEntries s rest := by
  have hroom : (s.line e.line).hasRoom = false := decide_eq_false (Nat.not_lt.2 h)
  rw [scanEntries, if_neg (by simp [hup]), if_pos (by simp [State.passedOver, hroom])]

theorem hasRoom_iff (r : LineRec) : r.hasRoom = true ↔ r.normal.length < 24 := decide_eq_true_iff

theorem scanEntries_waits {s : State} {e : StartEntry} (hup : (s.line e.line).state = .up)
    (h : (s.line e.line).normal.length < 24) (hu : s.gate.budget < s.gate.unitsInUse + e.units)
    (rest : List StartEntry) : scanEntries s (e :: rest) = s := by
  have hroom := (hasRoom_iff _).2 h
  rw [scanEntries, if_neg (by simp [hup]), if_neg (by simp [State.passedOver, hup, hroom]), if_pos hu]

/-! ## A hand-on -/

theorem takeHandOn_queued {s : State} {n : Nat} {g : Leg} (h : (s.slot n).leg = some g) (hg : g.stage = .queued) :
    s.takeHandOn n = if s.pins.stop then s.turnAway n g else (s.joinStart n g).scan := by
  unfold State.takeHandOn
  rw [h]
  exact if_pos hg

/-- A leg joins the start queue behind its own and more urgent classes. -/
theorem joinStart_split (s : State) (n : Nat) (g : Leg) :
    ∃ front back, s.gate.startQueue = front ++ back ∧
      s.joinStart n g = { s with gate := { s.gate with startQueue := front ++
        { slot := n, kind := g.kind, units := g.units, line := (s.slot n).lineNo, cls := g.cls
          entryTime := s.now } :: back } } ∧
      (∀ e, front.getLast? = some e → e.cls ≤ g.cls) ∧ ∀ e, back.head? = some e → g.cls < e.cls := by
  obtain ⟨front, back, hq, hjoin, hfront, hback⟩ :=
    joinByClass_split StartEntry.cls (s.startEntry n g) s.gate.startQueue
  refine ⟨front, back, hq, ?_, hfront, hback⟩
  unfold State.joinStart State.modGate
  dsimp only
  rw [hjoin]
  rfl

/-! ## A leg ended before it ran -/

/-- A leg that leaves its slot with no units, its robot's zones trimmed. -/
def State.droppedLeg (s : State) (n : Nat) : State := (s.dropLeg n).updateZones n

section Dropped

variable {s : State} {n : Nat}

theorem droppedLeg_eq (hw : s.waitList = []) :
    ∃ z k, s.droppedLeg n = { s.dropLeg n with zones := z, link := k } := by
  unfold State.droppedLeg
  rw [updateZones_eq n (by exact hw)]
  exact ⟨_, _, rfl⟩

theorem dropLeg_slot (hn : n < 128) : (s.dropLeg n).slot n = { s.slot n with leg := none } :=
  slot_modSlot_same s n (fun r => { r with leg := none }) hn

theorem dropLeg_other {m : Nat} (h : m ≠ n) : (s.dropLeg n).slot m = s.slot m :=
  slot_modSlot_other s n m (fun r => { r with leg := none }) h.symm

theorem droppedLeg_slot (hn : n < 128) (hw : s.waitList = []) :
    (s.droppedLeg n).slot n = { s.slot n with leg := none } := by
  obtain ⟨z, k, h⟩ := droppedLeg_eq (n := n) hw
  rw [h]
  exact dropLeg_slot hn

theorem droppedLeg_other (hw : s.waitList = []) {m : Nat} (h : m ≠ n) : (s.droppedLeg n).slot m = s.slot m := by
  obtain ⟨z, k, he⟩ := droppedLeg_eq (n := n) hw
  rw [he]
  exact dropLeg_other h

/-- The trim on a leg's start is that of the robot with its leg. -/
theorem droppedLeg_zones (hn : n < 128) (hw : s.waitList = []) : (s.droppedLeg n).zones = (s.updateZones n).zones := by
  unfold State.droppedLeg
  refine updateZones_zones_congr hw (by exact hw) rfl ?_ ?_ ?_ <;> rw [dropLeg_slot hn]

/-- A robot of the open batch whose leg left its slot, with an outcome that is not ARRIVED. -/
theorem droppedLeg_outcome (hn : n < 128) (hw : s.waitList = []) {b : BatchRec} (hb : s.batch = .opened b)
    (hflag : (s.slot n).batchFlag = true) (hnone : (s.slot n).outcome = .none) (o : RobotOutcome) :
    ((s.droppedLeg n).recordOutcome n o).slot n = SlotRec.withOutcome { s.slot n with leg := none } o b.tag := by
  have hslot := droppedLeg_slot hn hw
  have hbatch : (s.droppedLeg n).batch = .opened b := by
    obtain ⟨z, k, h⟩ := droppedLeg_eq (n := n) hw
    rw [h]
    exact hb
  rw [recordOutcome_slot o hbatch (by rw [hslot]; exact ⟨hflag, hnone⟩), slot_modSlot_same _ _ _ hn, hslot]

/-- What an outcome of such a robot leaves. -/
theorem droppedLeg_recorded (hn : n < 128) (hw : s.waitList = []) (o : RobotOutcome) :
    (∀ m, m ≠ n → ((s.droppedLeg n).recordOutcome n o).slot m = s.slot m) ∧
    ((s.droppedLeg n).recordOutcome n o).gate = s.gate ∧
    ((s.droppedLeg n).recordOutcome n o).zones = (s.updateZones n).zones ∧
    ((s.droppedLeg n).recordOutcome n o).lines = s.lines ∧
    ((s.droppedLeg n).recordOutcome n o).handed = s.handed ∧
    ((s.droppedLeg n).recordOutcome n o).waitList = s.waitList := by
  obtain ⟨z, k, h⟩ := droppedLeg_eq (n := n) hw
  have hzones := droppedLeg_zones hn hw
  refine ⟨fun m hm => by rw [recordOutcome_other _ _ _ _ hm, droppedLeg_other hw hm], ?_, ?_, ?_, ?_, ?_⟩
  · rw [recordOutcome_eq, h]; rfl
  · rw [recordOutcome_eq]; exact hzones
  · rw [recordOutcome_eq, h]; rfl
  · rw [recordOutcome_eq, h]; rfl
  · rw [recordOutcome_eq, h]; rfl

end Dropped

/-! ## An entry blocked, an entry issued -/

theorem leaveStart_eq (s : State) (n : Nat) :
    s.leaveStart n =
      { s with gate := { s.gate with startQueue := s.gate.startQueue.filter fun x => decide (x.slot ≠ n) } } := by
  have hne : (fun e : StartEntry => e.slot != n) = fun e => decide (e.slot ≠ n) := by
    funext e
    rw [bne, Bool.beq_eq_decide_eq, decide_not]
  unfold State.leaveStart State.modGate
  rw [hne]

theorem blockEntry_eq {s : State} {e : StartEntry} {g : Leg} (h : (s.slot e.slot).leg = some g)
    (hk : g.kind ≠ .recover) :
    s.blockEntry e =
      (((s.leaveStart e.slot).droppedLeg e.slot).recordOutcome e.slot (.blocked .lineDown)).hand .scan := by
  have hslot : ((s.leaveStart e.slot).slot e.slot).leg = some g := h
  unfold State.blockEntry
  dsimp only
  rw [hslot]
  exact congrArg (State.hand · .scan) (if_neg (by simp [isRecover_false hk]))

/-- An entry issued, with the halt cause STOP where the Move Planner has taken a stop event (R119, R131). -/
theorem issueEntry_spec {s : State} {e : StartEntry} {g : Leg} (h : (s.slot e.slot).leg = some g) :
    s.issueEntry e =
      (((((s.leaveStart e.slot).modGate fun t => { t with unitsInUse := t.unitsInUse + e.units }).modLine e.line fun r =>
        { r with normal := r.normal ++ [s.goFrame e.slot g] }).hand (.choose e.line)).modSlot e.slot fun r =>
          { r with
            state := .moving
            leg := some
              { g with
                stage := .issued
                haltCause := if s.stopPassing = true then some .stop else g.haltCause
                stopTime := if s.stopPassing = true then some (g.stopTime.getD s.now) else g.stopTime } }) := by
  have hleg : ({ (if s.stopPassing then g.haltFor .stop s.now else g) with stage := .issued } : Leg) =
      { g with
        stage := .issued
        haltCause := if s.stopPassing = true then some .stop else g.haltCause
        stopTime := if s.stopPassing = true then some (g.stopTime.getD s.now) else g.stopTime } := by
    cases s.stopPassing <;> rfl
  rw [← hleg]
  unfold State.issueEntry
  rw [h] <;> rfl

theorem turnAway_stopEntry {s : State} {n : Nat} {g : Leg} (h : (s.slot n).leg = some g) :
    s.turnAway n g = s.stopEntry n := by
  unfold State.stopEntry
  rw [h]

/-- Settles O46. -/
theorem startGateScans : Obligations.StartGateScans := by
  refine ⟨fun s => ⟨scan_idle, fun e rest hstop hinh hq hup => ⟨fun hlen hu => ?waits, fun hlen => ?full,
      fun hlen hu => ?issued⟩, fun e rest hdown => scanEntries_down hdown rest⟩,
    fun s n g hg hstage => ⟨fun hstop => ?turned, fun hstop => ?joined⟩,
    fun s e g b hn hg hstage hk hw hb hflag hnone => ?blocked,
    fun s e n g => ⟨turnAway_stopEntry, rfl, fun hstop hinh => scan_eq hstop hinh, fun hg hn => ?issue⟩⟩
  case waits => rw [scan_eq hstop hinh, hq, scanEntries_waits hup hlen hu]
  case full => rw [scan_eq hstop hinh, hq, scanEntries_full hup hlen]
  case issued => rw [scan_eq hstop hinh, hq, scanEntries_issue hup ((hasRoom_iff _).2 hlen) hu]
  case turned => rw [takeHandOn_queued hg hstage, if_pos hstop]
  case joined =>
    obtain ⟨front, back, hq, hjoin, hfront, hback⟩ := joinStart_split s n g
    refine ⟨front, back, hq, ?_, hfront, hback⟩
    rw [takeHandOn_queued hg hstage, if_neg (by simp [hstop]), hjoin]
  case blocked =>
    obtain ⟨u, hu⟩ : ∃ u, u = s.leaveStart e.slot := ⟨_, rfl⟩
    have hrec := leaveStart_eq s e.slot
    rw [← hu] at hrec
    have hslot (m : Nat) : u.slot m = s.slot m := by rw [hrec]; rfl
    have hwait : u.waitList = [] := by rw [hrec]; exact hw
    obtain ⟨hothers, hgate, hzones, hlines, hhanded, _⟩ := droppedLeg_recorded (s := u) hn hwait (.blocked .lineDown)
    have hown := droppedLeg_outcome (s := u) hn hwait (b := b) (by rw [hrec]; exact hb)
      (by rw [hslot]; exact hflag) (by rw [hslot]; exact hnone) (.blocked .lineDown)
    have hupdated : (u.updateZones e.slot).zones = (s.updateZones e.slot).zones :=
      updateZones_zones_congr hw hwait (by rw [hrec]) (by rw [hslot]) (by rw [hslot]) (by rw [hslot])
    dsimp only
    rw [blockEntry_eq hg hk, ← hu]
    refine ⟨?_, fun m hm => ?_, ?_, ?_, ?_, ?_⟩
    · rw [hand_slot, hown, hslot]
      rfl
    · rw [hand_slot, hothers m hm, hslot]
    · rw [hand_gate, hgate, hrec]
    · rw [hand_zones, hzones, hupdated]
    · rw [hand_lines, hlines, hrec]
    · show _ ++ [Handed.scan] = _
      rw [hhanded, hrec]
  case issue =>
    dsimp only
    rw [issueEntry_spec hg, leaveStart_eq]
    rfl

end Sys2Proof.Machine
end

