-- ==== Sys2Proof/Proofs/StopBlocks.lean ====
section
/-! PROOFS. A stop event at each block, and the order of its blocks (R91, R119, R135, R137, R159, R205). -/

namespace Sys2Proof.Machine

/-! ## Events that reach neither the Start Gate nor the lines -/

/-- Neither the Start Gate nor a line differs. -/
structure GateKept (s t : State) : Prop where
  gate : t.gate = s.gate
  lines : t.lines = s.lines

namespace GateKept

theorem refl (s : State) : GateKept s s := ⟨rfl, rfl⟩

theorem trans {s t u : State} (h : GateKept s t) (k : GateKept t u) : GateKept s u :=
  ⟨k.gate.trans h.gate, k.lines.trans h.lines⟩

theorem recordOutcome (s : State) (n : Nat) (o : RobotOutcome) : GateKept s (s.recordOutcome n o) := by
  rw [recordOutcome_eq]
  exact ⟨rfl, rfl⟩

theorem handOutcomes (o : RobotOutcome) (es : List WaitEntry) (s : State) : GateKept s (s.handOutcomes o es) := by
  induction es generalizing s with
  | nil => exact refl s
  | cons e es ih => exact (recordOutcome s e.slot o).trans (ih _)

theorem grant (s : State) (n : Nat) (zs : List Nat) : GateKept s (s.grant n zs) := by
  obtain ⟨v, hv⟩ := holdZones_eq n zs s
  rw [grant_eq, hv]
  exact ⟨rfl, rfl⟩

theorem examine (l : List WaitEntry) (s : State) (passed : List Nat) : GateKept s (examine s passed l) := by
  induction l generalizing s passed with
  | nil => exact refl s
  | cons e rest ih =>
    rw [examine_cons]
    split
    · exact (grant s e.slot e.wanted).trans (ih _ _)
    · exact ih _ _

theorem zoneReport (s : State) (freed fenced : List Nat) : GateKept s (s.zoneReport freed fenced) := by
  unfold State.zoneReport
  dsimp only
  have hout := handOutcomes (.blocked .fenced) (s.waitList.filter fun e => e.wanted.any fun z => fenced.contains z)
    { s with waitList := s.waitList.filter fun e => !e.wanted.any fun z => fenced.contains z }
  split
  · exact ⟨hout.gate, hout.lines⟩
  · have hexamine := examine (({ s with waitList := s.waitList.filter fun e => !e.wanted.any fun z => fenced.contains z } :
      State).handOutcomes (.blocked .fenced) (s.waitList.filter fun e => e.wanted.any fun z => fenced.contains z)).waitList
      (({ s with waitList := s.waitList.filter fun e => !e.wanted.any fun z => fenced.contains z } :
      State).handOutcomes (.blocked .fenced) (s.waitList.filter fun e => e.wanted.any fun z => fenced.contains z)) []
    exact ⟨hexamine.gate.trans hout.gate, hexamine.lines.trans hout.lines⟩

theorem updateZones (s : State) (n : Nat) : GateKept s (s.updateZones n) := by
  unfold State.updateZones
  split
  · dsimp only
    rw [raiseContested_eq]
    have hreport := zoneReport (s.writeZones (s.zoneChanges n ZoneStatus.update))
      (freedZones (s.zoneChanges n ZoneStatus.update)) []
    have hwrite : GateKept s (s.writeZones (s.zoneChanges n ZoneStatus.update)) := by
      rw [writeZones_eq]
      exact ⟨rfl, rfl⟩
    exact ⟨hreport.gate.trans hwrite.gate, hreport.lines.trans hwrite.lines⟩
  · exact refl s

theorem recoverStopped (s : State) (n time : Nat) : GateKept s (s.recoverStopped n time) := by
  unfold State.recoverStopped
  rw [answerRecover_eq]
  exact ⟨rfl, rfl⟩

theorem legStopped (s : State) (n : Nat) (g : Leg) : GateKept s (s.legStopped n g) := by
  unfold State.legStopped
  split
  · exact recoverStopped s n _
  · exact recordOutcome s n _

theorem turnAway (s : State) (n : Nat) (g : Leg) : GateKept s (s.turnAway n g) :=
  trans (trans (s := s) (t := s.dropLeg n) ⟨rfl, rfl⟩ (updateZones _ n)) (legStopped _ n g)

theorem stopEntry (s : State) (n : Nat) : GateKept s (s.stopEntry n) := by
  unfold State.stopEntry
  split
  · exact refl s
  · exact turnAway s n _

end GateKept

/-- A GO discarded reaches no line. -/
theorem goDiscarded_lines (s : State) (n id : Nat) : (s.goDiscarded n id).lines = s.lines := by
  unfold State.goDiscarded
  split
  · rfl
  · split
    · exact (GateKept.legStopped _ n _).lines.trans (GateKept.updateZones _ n).lines
    · rfl

/-! ## The stop event at the Claim Arbiter and at the Start Gate -/

/-- The slots of entries, settled one after another. -/
def State.stopEntries (s : State) (ns : List Nat) : State := ns.foldl (fun s n => s.stopEntry n) s

theorem stopEntries_kept (ns : List Nat) (s : State) : GateKept s (s.stopEntries ns) := by
  induction ns generalizing s with
  | nil => exact GateKept.refl s
  | cons n ns ih => exact (GateKept.stopEntry s n).trans (ih _)

theorem stopBlock_startGate (s : State) :
    s.stopBlock .startGate =
      ({ s with stopPassing := false, gate := { s.gate with startQueue := [] } } : State).stopEntries
        (s.gate.startQueue.map StartEntry.slot) := rfl

theorem handOutcomes_waitList (o : RobotOutcome) (es : List WaitEntry) (s : State) :
    (s.handOutcomes o es).waitList = s.waitList := by
  induction es generalizing s with
  | nil => rfl
  | cons e es ih => exact (ih (s.recordOutcome e.slot o)).trans (by rw [recordOutcome_eq])

theorem handOutcomes_zones (o : RobotOutcome) (es : List WaitEntry) (s : State) :
    (s.handOutcomes o es).zones = s.zones := by
  induction es generalizing s with
  | nil => rfl
  | cons e es ih => exact (ih (s.recordOutcome e.slot o)).trans (by rw [recordOutcome_eq])

/-- Outcomes handed on reach the slots of their entries alone. -/
theorem handOutcomes_other (o : RobotOutcome) (es : List WaitEntry) (s : State) {m : Nat}
    (h : ∀ e ∈ es, e.slot ≠ m) : (s.handOutcomes o es).slot m = s.slot m := by
  induction es generalizing s with
  | nil => rfl
  | cons e es ih =>
    exact (ih (s.recordOutcome e.slot o) fun x hx => h x (List.mem_cons_of_mem e hx)).trans
      (recordOutcome_other s e.slot o m (Ne.symm (h e List.mem_cons_self)))

/-- A robot with an outcome is given none. -/
theorem recordOutcome_keeps {s : State} {m : Nat} (h : (s.slot m).outcome ≠ .none) (n : Nat) (o : RobotOutcome) :
    (s.recordOutcome n o).slot m = s.slot m := by
  by_cases hm : m = n
  · subst hm
    rw [recordOutcome_none o fun b _ hc => h hc.2]
  · exact recordOutcome_other s n o m hm

theorem handOutcomes_keeps (o : RobotOutcome) (es : List WaitEntry) {s : State} {m : Nat}
    (h : (s.slot m).outcome ≠ .none) : (s.handOutcomes o es).slot m = s.slot m := by
  induction es generalizing s with
  | nil => rfl
  | cons e es ih =>
    have hslot := recordOutcome_keeps h e.slot o
    exact (ih (s := s.recordOutcome e.slot o) (by rw [hslot]; exact h)).trans hslot

/-- A batch robot's record once a stop event has settled it. -/
def SlotRec.stopSettled (r : SlotRec) (tag : Nat) : SlotRec :=
  { r with
    leg := none, remaining := [], outcome := .stopped, state := .held
    targets := r.targets.map fun x => if x.tag = tag then { x with pinned := false } else x }

/-- The robot of a slot is in the open batch without an outcome. -/
def State.Unsettled (s : State) (n : Nat) : Prop :=
  n < 128 ∧ (s.slot n).batchFlag = true ∧ (s.slot n).outcome = .none

/-- The batch is OPEN with a tag and has room for a number of outcomes. -/
def State.Awaits (s : State) (tag k : Nat) : Prop :=
  ∃ b, s.batch = .opened b ∧ b.tag = tag ∧ b.settled + k ≤ b.admitted

/-- The batch is OPEN with a tag. -/
def State.OpenAs (s : State) (tag : Nat) : Prop := ∃ b, s.batch = .opened b ∧ b.tag = tag

theorem State.Awaits.openAs {s : State} {tag k : Nat} (h : s.Awaits tag k) : s.OpenAs tag := by
  obtain ⟨b, hb, htag, _⟩ := h
  exact ⟨b, hb, htag⟩

/-- An outcome leaves room for the others, unless it was the last. -/
theorem awaits_recordOutcome {s : State} {tag k : Nat} (h : s.Awaits tag (k + 1)) (n : Nat) {o : RobotOutcome}
    (ho : o ≠ .none) : k = 0 ∨ (s.recordOutcome n o).Awaits tag k := by
  obtain ⟨b, hb, htag, hcap⟩ := h
  by_cases hc : (s.slot n).batchFlag = true ∧ (s.slot n).outcome = .none
  · have hsettled := settled_count b ho
    have hadmitted := admitted_count b o
    rcases Nat.eq_zero_or_pos k with hk | hk
    · exact .inl hk
    · refine .inr ⟨b.count o, ?_, ?_, by omega⟩
      · rw [recordOutcome_counted hb hc.1 hc.2 (by omega)]
      · rw [← htag]
        cases o <;> rfl
  · rw [recordOutcome_none o fun _ _ h => hc h]
    exact .inr ⟨b, hb, htag, by omega⟩

/-- A robot of the open batch that a stop event settles, its leg gone. -/
theorem recordOutcome_stopped {s : State} {n tag : Nat} (h : s.OpenAs tag) (hu : s.Unsettled n)
    (hleg : ((s.slot n).leg.filter fun g => g.stage == .lapsing) = none) :
    (s.recordOutcome n .stopped).slot n = (s.slot n).stopSettled tag := by
  obtain ⟨b, hb, htag⟩ := h
  obtain ⟨hn, hflag, hnone⟩ := hu
  rw [recordOutcome_slot .stopped hb ⟨hflag, hnone⟩, slot_modSlot_same _ _ _ hn, ← htag]
  unfold SlotRec.withOutcome
  rw [hleg]
  rfl

/-- Each robot of the wait list that waits for an outcome is settled. -/
theorem handOutcomes_settles (tag : Nat) (es : List WaitEntry) {s : State} (h : s.Awaits tag es.length) {m : Nat}
    (hm : ∃ e ∈ es, e.slot = m) (hu : s.Unsettled m)
    (hleg : ((s.slot m).leg.filter fun g => g.stage == .lapsing) = none) :
    (s.handOutcomes .stopped es).slot m = (s.slot m).stopSettled tag := by
  induction es generalizing s with
  | nil =>
    obtain ⟨e, he, _⟩ := hm
    cases he
  | cons e es ih =>
    show ((s.recordOutcome e.slot .stopped).handOutcomes .stopped es).slot m = _
    by_cases hem : e.slot = m
    · have hslot := recordOutcome_stopped h.openAs hu hleg
      rw [hem, handOutcomes_keeps .stopped es (by rw [hslot]; simp [SlotRec.stopSettled]), hslot]
    · obtain ⟨x, hx, hxm⟩ := hm
      have hx' : x ∈ es := (List.mem_cons.1 hx).resolve_left fun hxe => hem (hxe ▸ hxm)
      have hslot := recordOutcome_other s e.slot .stopped m (Ne.symm hem)
      rcases awaits_recordOutcome (k := es.length) h e.slot (o := .stopped) (by simp) with hk | hrest
      · rw [List.length_eq_zero_iff.1 hk] at hx'
        cases hx'
      · rw [ih hrest ⟨x, hx', hxm⟩ (by unfold State.Unsettled; rw [hslot]; exact hu) (by rw [hslot]; exact hleg), hslot]

/-! ## One entry of the start queue -/

section Entry

variable {s : State} {n : Nat}

theorem stopEntry_none (h : (s.slot n).leg = none) : s.stopEntry n = s := by
  unfold State.stopEntry
  rw [h]

/-- An entry whose leg is no RECOVER: its leg ends, and its robot's outcome is STOPPED. -/
theorem stopEntry_leg {g : Leg} (h : (s.slot n).leg = some g) (hk : g.kind ≠ .recover) :
    s.stopEntry n = (s.droppedLeg n).recordOutcome n .stopped := by
  rw [← turnAway_stopEntry h]
  unfold State.turnAway State.legStopped
  exact if_neg (by simp [isRecover_false hk])

theorem stopEntry_recover {g : Leg} (h : (s.slot n).leg = some g) (hk : g.kind = .recover) :
    ∃ time, s.stopEntry n = (s.droppedLeg n).recoverStopped n time := by
  rw [← turnAway_stopEntry h]
  unfold State.turnAway State.legStopped
  exact ⟨_, if_pos (by simp [Leg.isRecover, hk])⟩

theorem recoverStopped_eq (s : State) (n time : Nat) :
    ∃ ss k, s.recoverStopped n time = { s with slots := ss, link := k } := by
  unfold State.recoverStopped
  rw [answerRecover_eq]
  exact ⟨_, _, rfl⟩

theorem recoverStopped_other (s : State) {n m : Nat} (h : m ≠ n) (time : Nat) :
    (s.recoverStopped n time).slot m = s.slot m := by
  have hanswer (t : State) (st : Status) (p : List Byte) : (t.answerRecover n st p).slot m = t.slot m := by
    rw [answerRecover_eq]
    rfl
  unfold State.recoverStopped
  rw [hanswer, slot_modSlot_other _ _ _ _ h.symm]

theorem stopEntry_other (hw : s.waitList = []) {m : Nat} (h : m ≠ n) : (s.stopEntry n).slot m = s.slot m := by
  cases hg : (s.slot n).leg with
  | none => rw [stopEntry_none hg]
  | some g =>
    by_cases hk : g.kind = .recover
    · obtain ⟨time, he⟩ := stopEntry_recover hg hk
      rw [he, recoverStopped_other _ h, droppedLeg_other hw h]
    · rw [stopEntry_leg hg hk, recordOutcome_other _ _ _ _ h, droppedLeg_other hw h]

theorem stopEntry_waitList (hw : s.waitList = []) : (s.stopEntry n).waitList = [] := by
  obtain ⟨z, k, hd⟩ := droppedLeg_eq (n := n) hw
  have hdw : (s.droppedLeg n).waitList = [] := by rw [hd]; exact hw
  cases hg : (s.slot n).leg with
  | none => rw [stopEntry_none hg, hw]
  | some g =>
    by_cases hk : g.kind = .recover
    · obtain ⟨time, he⟩ := stopEntry_recover hg hk
      obtain ⟨ss, k, hr⟩ := recoverStopped_eq (s.droppedLeg n) n time
      rw [he, hr]
      exact hdw
    · rw [stopEntry_leg hg hk, recordOutcome_eq]
      exact hdw

/-- A batch robot whose entry is stopped is settled. -/
theorem stopEntry_settles {tag : Nat} (hw : s.waitList = []) (h : s.OpenAs tag) (hu : s.Unsettled n) {g : Leg}
    (hg : (s.slot n).leg = some g) (hk : g.kind ≠ .recover) :
    (s.stopEntry n).slot n = (s.slot n).stopSettled tag := by
  obtain ⟨b, hb, htag⟩ := h
  obtain ⟨hn, hflag, hnone⟩ := hu
  rw [stopEntry_leg hg hk, droppedLeg_outcome hn hw hb hflag hnone, ← htag]
  rfl

theorem awaits_stopEntry {tag k : Nat} (hw : s.waitList = []) (h : s.Awaits tag (k + 1)) :
    k = 0 ∨ (s.stopEntry n).Awaits tag k := by
  obtain ⟨z, l, hd⟩ := droppedLeg_eq (n := n) hw
  have hbatch : (s.droppedLeg n).batch = s.batch := by rw [hd]; rfl
  have hdropped : (s.droppedLeg n).Awaits tag (k + 1) := by
    unfold State.Awaits
    rw [hbatch]
    exact h
  obtain ⟨b, hb, htag, hcap⟩ := h
  cases hg : (s.slot n).leg with
  | none =>
    rw [stopEntry_none hg]
    exact .inr ⟨b, hb, htag, by omega⟩
  | some g =>
    by_cases hk : g.kind = .recover
    · obtain ⟨time, he⟩ := stopEntry_recover hg hk
      obtain ⟨ss, k, hr⟩ := recoverStopped_eq (s.droppedLeg n) n time
      refine .inr ⟨b, ?_, htag, by omega⟩
      rw [he, hr]
      exact hbatch.trans hb
    · rw [stopEntry_leg hg hk]
      exact awaits_recordOutcome hdropped n (by simp)

end Entry

theorem stopEntries_other (ns : List Nat) {s : State} (hw : s.waitList = []) {m : Nat} (h : m ∉ ns) :
    (s.stopEntries ns).slot m = s.slot m := by
  induction ns generalizing s with
  | nil => rfl
  | cons n ns ih =>
    refine (ih (s := s.stopEntry n) (stopEntry_waitList hw) fun hm => h (List.mem_cons_of_mem n hm)).trans ?_
    exact stopEntry_other hw fun e => h (e ▸ List.mem_cons_self)

/-- A robot whose leg has ended is passed over by the entries behind. -/
theorem stopEntries_keeps (ns : List Nat) {s : State} (hw : s.waitList = []) {m : Nat} (h : (s.slot m).leg = none) :
    (s.stopEntries ns).slot m = s.slot m := by
  induction ns generalizing s with
  | nil => rfl
  | cons n ns ih =>
    have hslot : (s.stopEntry n).slot m = s.slot m := by
      by_cases hm : m = n
      · subst hm
        rw [stopEntry_none h]
      · exact stopEntry_other hw hm
    exact (ih (s := s.stopEntry n) (stopEntry_waitList hw) (by rw [hslot]; exact h)).trans hslot

/-- Each batch robot of an entry is settled. -/
theorem stopEntries_settles (tag : Nat) (ns : List Nat) {s : State} (hw : s.waitList = []) (h : s.Awaits tag ns.length)
    {m : Nat} (hm : m ∈ ns) (hu : s.Unsettled m) {g : Leg} (hg : (s.slot m).leg = some g) (hk : g.kind ≠ .recover) :
    (s.stopEntries ns).slot m = (s.slot m).stopSettled tag := by
  induction ns generalizing s with
  | nil => cases hm
  | cons n ns ih =>
    show ((s.stopEntry n).stopEntries ns).slot m = _
    by_cases hmn : m = n
    · subst hmn
      have hslot := stopEntry_settles hw h.openAs hu hg hk
      rw [stopEntries_keeps ns (stopEntry_waitList hw) (by rw [hslot]; rfl), hslot]
    · have hm' : m ∈ ns := (List.mem_cons.1 hm).resolve_left hmn
      have hslot := stopEntry_other (n := n) hw hmn
      rcases awaits_stopEntry (n := n) (k := ns.length) hw h with hlen | hrest
      · rw [List.length_eq_zero_iff.1 hlen] at hm'
        cases hm'
      · rw [ih (stopEntry_waitList hw) hrest hm' (by unfold State.Unsettled; rw [hslot]; exact hu)
          (by rw [hslot]; exact hg), hslot]

/-! ## The stop event at a line -/

/-- A GO that a stop event discards, the frame of another owner passed over. -/
def State.discardGo (t : State) (f : BusFrame) : State :=
  match f.owner with
  | .leg id => t.goDiscarded f.slot id
  | .poll _ => t
  | .readback _ => t
  | .probe => t
  | .measure => t
  | .noOne => t

theorem isGo_iff (f : BusFrame) : f.isGo = true ↔ ∃ id, f.owner = .leg id := by
  unfold BusFrame.isGo
  cases f.owner <;> simp

/-- The legs of the GOs of a queue are handed on in queue order. -/
theorem discardGos_eq (q : List BusFrame) (s : State) :
    (queuedGos q).foldl (fun s p => s.goDiscarded p.1 p.2) s = (q.filter BusFrame.isGo).foldl State.discardGo s := by
  induction q generalizing s with
  | nil => rfl
  | cons f q ih =>
    rw [List.filter_cons]
    cases ho : f.owner with
    | leg id =>
      have hgo : f.isGo = true := (isGo_iff f).2 ⟨id, ho⟩
      have hqueue : queuedGos (f :: q) = (f.slot, id) :: queuedGos q := by rw [queuedGos, ho]
      have hstep : s.discardGo f = s.goDiscarded f.slot id := by unfold State.discardGo; rw [ho]
      rw [if_pos hgo, hqueue, List.foldl_cons, List.foldl_cons, hstep]
      exact ih _
    | _ =>
      have hgo : ¬ f.isGo = true := fun h => by
        obtain ⟨id, hid⟩ := (isGo_iff f).1 h
        rw [ho] at hid
        cases hid
      have hqueue : queuedGos (f :: q) = queuedGos q := by rw [queuedGos, ho]
      rw [if_neg hgo, hqueue]
      exact ih _

theorem discardGo_lines (t : State) (f : BusFrame) : (t.discardGo f).lines = t.lines := by
  unfold State.discardGo
  split
  · exact goDiscarded_lines t f.slot _
  all_goals rfl

theorem discardGos_lines (q : List BusFrame) (t : State) : (q.foldl State.discardGo t).lines = t.lines := by
  induction q generalizing t with
  | nil => rfl
  | cons f q ih => exact (ih _).trans (discardGo_lines t f)

/-- The line of a state whose lines are those of another. -/
theorem line_congr {s t : State} (h : t.lines = s.lines) (l : Nat) : t.line l = s.line l := by
  unfold State.line
  rw [h]

/-- A stop event at a line that is UP. -/
theorem stopLine_up {s : State} {l : Nat} (h : (s.line l).state = .up) :
    s.stopLine l = ((s.line l).normal.filter BusFrame.isGo).foldl State.discardGo
      ((s.modLine l fun r => { r with normal := r.normal.filter fun f => !f.isGo }).placeUrgent l .haltAll) := by
  unfold State.stopLine
  rw [h]
  exact discardGos_eq _ _

theorem placeUrgent_line_same (s : State) {l : Nat} (hl : l < 8) (f : UrgentFrame) :
    (s.placeUrgent l f).line l = { s.line l with urgent := joinUrgent f (s.line l).urgent } := by
  unfold State.placeUrgent
  rw [hand_line, line_modLine, if_pos ⟨rfl, hl⟩]

theorem placeUrgent_line_other (s : State) {l m : Nat} (h : m ≠ l) (f : UrgentFrame) :
    (s.placeUrgent l f).line m = s.line m := by
  unfold State.placeUrgent
  rw [hand_line, line_modLine, if_neg fun hc => h hc.1.symm]

theorem mem_joinUrgent (f : UrgentFrame) (q : List UrgentFrame) : f ∈ joinUrgent f q := by
  rw [joinUrgent_eq]
  split
  · next h => exact h
  · exact List.mem_append_right _ (List.mem_singleton_self f)

/-! ## The stop event at the Move Planner and at the link -/

theorem stopLeg_halted {s : State} {n : Nat} {g : Leg} (h : (s.slot n).leg = some g)
    (hs : g.stage = .issued ∨ g.stage = .stopping) :
    s.stopLeg n = s.modSlot n fun r =>
      { r with leg := some { g with haltCause := some .stop, stopTime := some (g.stopTime.getD s.now) } } := by
  have hmod := modLeg_of_leg h fun g => g.haltFor .stop s.now
  unfold State.stopLeg
  rw [h]
  dsimp only
  refine Eq.trans ?_ hmod
  rcases hs with hs | hs <;> rw [hs]

theorem stopLeg_running {s : State} {n : Nat} {g : Leg} (h : (s.slot n).leg = some g) (hs : g.stage = .running) :
    s.stopLeg n = (s.modSlot n fun r =>
      { r with leg := some { g with
          stage := .stopping, haltCause := some .stop, stopTime := some (g.stopTime.getD s.now) } }).placeReadback n
      g := by
  have hmod := modLeg_of_leg h fun g => { g.haltFor .stop s.now with stage := .stopping }
  unfold State.stopLeg
  rw [h]
  dsimp only
  refine Eq.trans ?_ (congrArg (State.placeReadback · n g) hmod)
  rw [hs]
  rfl

theorem stopLeg_lapsing {s : State} {n d : Nat} {g : Leg} (h : (s.slot n).leg = some g) (hs : g.stage = .lapsing)
    (hd : g.deadline = some d) :
    s.stopLeg n = if (s.line (s.slot n).lineNo).state = .up ∧ s.now < d then s.placeReadback n g else s := by
  unfold State.stopLeg
  rw [h]
  dsimp only
  rw [hs, hd]
  exact ite_congr_iff (by simp) rfl rfl

theorem stopLeg_other {s : State} {n : Nat} {g : Leg} (h : (s.slot n).leg = some g)
    (hs : g.stage = .claiming ∨ g.stage = .queued) : s.stopLeg n = s := by
  unfold State.stopLeg
  rw [h]
  rcases hs with hs | hs <;> (dsimp only; rw [hs])

theorem stopLink_recover {s : State} {c : Current} {n : Nat} (hc : s.link.current = some c) (hw : c.work = .recover n) :
    s.stopLink = s.answerCurrent .stopped (b1 n) := by
  unfold State.stopLink
  rw [hc]
  dsimp only
  rw [hw]

theorem stopLink_other {s : State} (h : ∀ c n, s.link.current = some c → c.work ≠ .recover n) : s.stopLink = s := by
  unfold State.stopLink
  cases hc : s.link.current with
  | none => rfl
  | some c =>
    dsimp only
    cases hw : c.work with
    | recover n => exact absurd hw (h c n hc)
    | awaitBatch => rfl
    | probe p => rfl
    | measure m => rfl

/-! ## The order of the blocks -/

theorem nodup_foldl_addNew (bs : List StopBlock) {done : List StopBlock} (h : done.Nodup) :
    (bs.foldl (fun done b => if done.contains b then done else done ++ [b]) done).Nodup := by
  induction bs generalizing done with
  | nil => exact h
  | cons b bs ih =>
    rw [List.foldl_cons]
    apply ih
    split
    · exact h
    · next hb =>
      rw [List.nodup_append]
      refine ⟨h, List.pairwise_singleton _ _, fun x hx y hy => ?_⟩
      rintro rfl
      obtain rfl : x = b := by simpa using hy
      exact hb (by simpa using hx)

/-- Every block stands once in the order of a stop event. -/
theorem count_fullOrder (order : List StopBlock) (b : StopBlock) : (fullOrder order).count b = 1 :=
  (nodup_foldl_addNew _ List.nodup_nil).count.trans (if_pos (mem_fullOrder order b))

theorem stopBlocks_cons (s : State) (block : StopBlock) (rest : List StopBlock) :
    stopBlocks s (block :: rest) =
      stopBlocks ((({ s with
        stopPassing := decide (block = .planner ∧ .startGate ∈ rest) || s.stopPassing } : State).stopBlock
          block).drain Config.settleFuel) rest := by
  have hpassing : (block == .planner && rest.contains .startGate) = decide (block = .planner ∧ .startGate ∈ rest) := by
    rw [Bool.decide_and, List.contains_eq_mem, Bool.beq_eq_decide_eq]
  rw [stopBlocks, hpassing]

theorem drain_cons {s : State} {e : Handed} {rest : List Handed} (h : s.handed = e :: rest) (k : Nat) :
    s.drain (k + 1) = (({ s with handed := rest } : State).takeHanded e).drain k := by
  rw [State.drain, h]

theorem drain_nil {s : State} (h : s.handed = []) (k : Nat) : s.drain (k + 1) = s := by
  rw [State.drain, h]

/-- A leg whose GO a stop event discards. -/
theorem goDiscarded_eq {s : State} {n : Nat} {g : Leg} (hg : (s.slot n).leg = some g) (hs : g.stage = .issued)
    (hk : g.kind ≠ .recover) :
    s.goDiscarded n g.id = ((s.endLeg n g).updateZones n).recordOutcome n .stopped := by
  unfold State.goDiscarded
  rw [legOf_own hg]
  refine (if_pos hs).trans ?_
  unfold State.legAbandoned State.legStopped
  exact if_neg (by simp [isRecover_false hk])

end Sys2Proof.Machine
end

