-- ==== Sys2Proof/Proofs/StopAtBlocks.lean ====
section
/-! PROOFS. A stop event at the blocks: the statement assembled (R91, R119, R135, R137, R159, R205). -/

namespace Sys2Proof.Machine

/-! ## A leg whose GO is discarded -/

section Discarded

variable {s : State} {n : Nat} {g : Leg}

theorem endLeg_updateZones_eq (hw : s.waitList = []) :
    ∃ z k, (s.endLeg n g).updateZones n = { s.endLeg n g with zones := z, link := k } := by
  rw [updateZones_eq n (by exact hw)]
  exact ⟨_, _, rfl⟩

theorem endLeg_updateZones_slot (hn : n < 128) (hw : s.waitList = []) :
    ((s.endLeg n g).updateZones n).slot n = { s.slot n with leg := none } := by
  obtain ⟨z, k, h⟩ := endLeg_updateZones_eq (n := n) (g := g) hw
  rw [h]
  exact endLeg_slot s hn g

theorem endLeg_updateZones_other (hw : s.waitList = []) {m : Nat} (h : m ≠ n) :
    ((s.endLeg n g).updateZones n).slot m = s.slot m := by
  obtain ⟨z, k, he⟩ := endLeg_updateZones_eq (n := n) (g := g) hw
  rw [he]
  exact endLeg_other s h g

/-- The trim on the start of a leg ended is that of the robot with its leg. -/
theorem endLeg_updateZones_zones (hn : n < 128) (hw : s.waitList = []) :
    ((s.endLeg n g).updateZones n).zones = (s.updateZones n).zones := by
  refine updateZones_zones_congr hw (by exact hw) rfl ?_ ?_ ?_ <;> rw [endLeg_slot s hn g]

theorem openAs_congr {t u : State} (h : u.batch = t.batch) {tag : Nat} (ha : t.OpenAs tag) : u.OpenAs tag := by
  unfold State.OpenAs
  rw [h]
  exact ha

/-- A batch robot is settled by an event that ends its leg and then hands its outcome on. -/
theorem recordOutcome_settled {t : State} {tag : Nat} (h : t.OpenAs tag) (hu : s.Unsettled n)
    (hslot : t.slot n = { s.slot n with leg := none }) :
    (t.recordOutcome n .stopped).slot n = (s.slot n).stopSettled tag := by
  have hunsettled : t.Unsettled n := by
    unfold State.Unsettled
    rw [hslot]
    exact hu
  rw [recordOutcome_stopped h hunsettled (by rw [hslot]; rfl), hslot]
  rfl

theorem goDiscarded_settles {tag : Nat} (hw : s.waitList = []) (h : s.OpenAs tag) (hu : s.Unsettled n)
    (hg : (s.slot n).leg = some g) (hs : g.stage = .issued) (hk : g.kind ≠ .recover) :
    (s.goDiscarded n g.id).slot n = (s.slot n).stopSettled tag := by
  obtain ⟨z, k, he⟩ := endLeg_updateZones_eq (n := n) (g := g) hw
  rw [goDiscarded_eq hg hs hk]
  refine recordOutcome_settled (openAs_congr ?_ h) hu (endLeg_updateZones_slot hu.1 hw)
  rw [he]
  rfl

theorem goDiscarded_records (hn : n < 128) (hw : s.waitList = []) (hg : (s.slot n).leg = some g)
    (hs : g.stage = .issued) (hk : g.kind ≠ .recover) :
    (∀ m, m ≠ n → (s.goDiscarded n g.id).slot m = s.slot m) ∧
    (s.goDiscarded n g.id).gate = { s.gate with unitsInUse := s.gate.unitsInUse - g.units } ∧
    (s.goDiscarded n g.id).zones = (s.updateZones n).zones := by
  obtain ⟨z, k, he⟩ := endLeg_updateZones_eq (n := n) (g := g) hw
  rw [goDiscarded_eq hg hs hk]
  refine ⟨fun m hm => ?_, ?_, ?_⟩
  · rw [recordOutcome_other _ _ _ _ hm, endLeg_updateZones_other hw hm]
  · rw [recordOutcome_eq]
    dsimp only
    rw [he]
    exact endLeg_gate s n g
  · rw [recordOutcome_eq]
    exact endLeg_updateZones_zones hn hw

theorem stopEntry_zones (hn : n < 128) (hw : s.waitList = []) (hg : (s.slot n).leg = some g)
    (hk : g.kind ≠ .recover) : (s.stopEntry n).zones = (s.updateZones n).zones := by
  rw [stopEntry_leg hg hk]
  exact (droppedLeg_recorded hn hw .stopped).2.2.1

end Discarded

/-! ## The stop event at the Claim Arbiter and at a line -/

theorem handOutcomes_kept (o : RobotOutcome) (es : List WaitEntry) (s : State) :
    (s.handOutcomes o es).gate = s.gate ∧ (s.handOutcomes o es).lines = s.lines :=
  ⟨(GateKept.handOutcomes o es s).gate, (GateKept.handOutcomes o es s).lines⟩

theorem stopBlock_bus_line_same {s : State} (l : Fin 8) (h : (s.line l.val).state = .up) :
    (s.stopBlock (.bus l)).line l.val =
      { s.line l.val with
        urgent := joinUrgent .haltAll (s.line l.val).urgent
        normal := (s.line l.val).normal.filter fun f => !f.isGo } := by
  show (s.stopLine l.val).line l.val = _
  rw [stopLine_up h, line_congr (discardGos_lines _ _), placeUrgent_line_same _ l.isLt, line_modLine,
    if_pos ⟨rfl, l.isLt⟩]

theorem stopBlock_bus_line_other {s : State} (l : Fin 8) (h : (s.line l.val).state = .up) {m : Nat} (hm : m ≠ l.val) :
    (s.stopBlock (.bus l)).line m = s.line m := by
  show (s.stopLine l.val).line m = _
  rw [stopLine_up h, line_congr (discardGos_lines _ _), placeUrgent_line_other _ hm, line_modLine,
    if_neg fun hc => hm hc.1.symm]

/-- A claim leg is no LAPSING leg. -/
theorem no_lapsing_of_claiming {r : SlotRec} (h : ∀ g, r.leg = some g → g.stage = .claiming) :
    (r.leg.filter fun g => g.stage == .lapsing) = none := by
  cases hg : r.leg with
  | none => rfl
  | some g => simp [Option.filter, h g hg]

/-- Settles O47. -/
theorem stopAtBlocks : Obligations.StopAtBlocks := by
  refine ⟨fun s => ⟨⟨?arbiterEmpty, ?gateEmpty⟩, rfl, ?gate, rfl, fun l => ⟨fun hup => ⟨?same, fun m hm => ?other, ?bus⟩,
      fun hdown => ?down, fun hsilent => ?silent, ?halt⟩, fun c n hc hw hroom => ?recover, stopLink_other⟩,
    fun s b hb => ⟨fun hcap => ?arbiter, fun hcap hw => ?startGate, fun n g hu hg hk hw => ⟨fun hs => ?issued,
      fun hs => ?queued⟩⟩,
    fun s n g hn hg => ⟨stopLeg_halted hg, stopLeg_running hg, fun d => stopLeg_lapsing hg, stopLeg_other hg⟩,
    fun s e g he hg hp => ?passing,
    ⟨fun s source => ?event, count_fullOrder, fun s => rfl, stopBlocks_cons⟩,
    ⟨isGo_iff, fun s l f => rfl, joinUrgent_eq, fun s k => ⟨rfl, fun h => drain_nil h k, fun e rest h => drain_cons h k⟩⟩⟩
  case arbiterEmpty => exact handOutcomes_waitList .stopped s.waitList { s with waitList := [] }
  case gateEmpty => exact congrArg Gate.startQueue (stopEntries_kept (s.gate.startQueue.map StartEntry.slot)
      { s with stopPassing := false, gate := { s.gate with startQueue := [] } }).gate
  case gate =>
    rw [stopBlock_startGate]
    exact List.foldl_map
  case same => exact stopBlock_bus_line_same l hup
  case other => exact stopBlock_bus_line_other l hup hm
  case bus => exact stopLine_up hup
  case down =>
    show s.stopLine l.val = _
    unfold State.stopLine
    rw [hdown]
  case silent =>
    show s.stopLine l.val = _
    unfold State.stopLine
    rw [hsilent]
  case halt =>
    rw [placeUrgent_line_same s l.isLt]
    exact mem_joinUrgent _ _
  case recover =>
    exact (stopLink_recover hc hw).trans (answerCurrent_answered hc hroom .stopped (b1 n))
  case arbiter =>
    obtain ⟨hgate, hlines⟩ := handOutcomes_kept .stopped s.waitList { s with waitList := [] }
    refine ⟨handOutcomes_zones _ _ _, hgate, hlines, fun m hm => handOutcomes_other .stopped s.waitList _ hm,
      fun e he hu hclaiming => ?_⟩
    exact handOutcomes_settles b.tag s.waitList (s := { s with waitList := [] }) ⟨b, hb, rfl, hcap⟩ ⟨e, he, rfl⟩ hu
      (no_lapsing_of_claiming hclaiming)
  case startGate =>
    have hkept := stopEntries_kept (s.gate.startQueue.map StartEntry.slot)
      { s with stopPassing := false, gate := { s.gate with startQueue := [] } }
    refine ⟨hkept.gate, hkept.lines, fun m hm => ?_, fun e he hu hqueued => ?_⟩
    · refine stopEntries_other (s := { s with stopPassing := false, gate := { s.gate with startQueue := [] } }) _ hw
        fun hc => ?_
      obtain ⟨e, he, hem⟩ := List.mem_map.1 hc
      exact hm e he hem
    · obtain ⟨g, hg, hstage, hk⟩ := hqueued
      exact stopEntries_settles b.tag (s.gate.startQueue.map StartEntry.slot)
        (s := { s with stopPassing := false, gate := { s.gate with startQueue := [] } }) hw
        ⟨b, hb, rfl, by rw [List.length_map]; exact hcap⟩ (List.mem_map_of_mem he) hu hg hk
  case issued =>
    obtain ⟨hother, hgate, hzones⟩ := goDiscarded_records hu.1 hw hg hs hk
    have hslot := goDiscarded_settles hw ⟨b, hb, rfl⟩ hu hg hs hk
    exact ⟨hslot, hother, hgate, hzones, goDiscarded_lines s n g.id⟩
  case queued =>
    have hkept := GateKept.stopEntry s n
    have hslot := stopEntry_settles hw ⟨b, hb, rfl⟩ hu hg hk
    exact ⟨hslot, fun m hm => stopEntry_other hw hm, hkept.gate, stopEntry_zones hu.1 hw hg hk, hkept.lines⟩
  case passing =>
    rw [issueEntry_spec hg, slot_modSlot_same _ _ _ he, if_pos hp, if_pos hp]
  case event => cases source <;> rfl

end Sys2Proof.Machine
end

