-- ==== Sys2Proof/Proofs/BusAnswers.lean ====
section
/-! PROOFS. The frames and answers of the robot bus read back (R142 to R144, R213). -/

namespace Sys2Proof.Machine

/-! ## Check value -/

theorem crc8Bit_eq (c : Byte) : crc8Bit c = if c.getLsbD 7 = true then (c <<< 1) ^^^ 0x07#8 else c <<< 1 := by
  unfold crc8Bit
  rw [BitVec.msb_eq_getLsbD_last]

theorem crc8Byte_eq_repeat (c b : Byte) : crc8Byte c b = Nat.repeat crc8Bit 8 (c ^^^ b) := rfl

theorem crc8_append (bytes : List Byte) (b : Byte) :
    crc8 (bytes ++ [b]) =
      Nat.repeat (fun c : Byte => if c.getLsbD 7 = true then (c <<< 1) ^^^ 0x07#8 else c <<< 1) 8 (crc8 bytes ^^^ b) := by
  rw [← funext crc8Bit_eq, ← crc8Byte_eq_repeat]
  simp [crc8]

/-! ## An answer's kind and payload -/

theorem payload_length_lt (a : BusAnswer) : a.payload.length < 256 := by
  cases a <;> simp [BusAnswer.payload, b1, bw]

theorem runStateOf_runCode (run : RunState) : runStateOf (BitVec.ofNat 8 (runCode run)) = run := by
  cases run <;> rfl

/-- The kind and payload of an answer give it back. -/
theorem answerOf_payload (a : BusAnswer) : answerOf (BitVec.ofNat 8 a.code) a.payload = some a := by
  cases a with
  | taken => rfl
  | state run x y =>
    show some (BusAnswer.state (runStateOf (BitVec.ofNat 8 (runCode run)))
      (word (x.extractLsb' 8 8) (x.extractLsb' 0 8)) (word (y.extractLsb' 8 8) (y.extractLsb' 0 8))) = _
    rw [runStateOf_runCode, word_bw, word_bw]
  | pageData k d0 d1 d2 d3 d4 d5 d6 d7 => rfl
  | refused reason => rfl

/-- The payload length of each kind of answer. -/
theorem answerOf_length {kind : Byte} {payload : List Byte} (h : answerOf kind payload ≠ none) :
    (kind = 0x81 ∧ payload.length = 0) ∨ (kind = 0x82 ∧ payload.length = 5) ∨ (kind = 0x83 ∧ payload.length = 9) ∨
      (kind = 0x84 ∧ payload.length = 1) := by
  have hkind (n : Nat) (hn : kind.toNat = n) : kind = BitVec.ofNat 8 n := by rw [← hn, BitVec.ofNat_toNat, BitVec.setWidth_eq]
  unfold answerOf at h
  split at h
  · next hk => exact .inl ⟨hkind _ hk, rfl⟩
  · next hk => exact .inr (.inl ⟨hkind _ hk, rfl⟩)
  · next hk => exact .inr (.inr (.inl ⟨hkind _ hk, rfl⟩))
  · next hk => exact .inr (.inr (.inr ⟨hkind _ hk, rfl⟩))
  · exact absurd rfl h

/-! ## A frame received in an open window -/

/-- A received frame as its four header bytes and the rest. -/
theorem validAnswer_eq (f : BusFrame) (start drop kind len : Byte) (rest : List Byte) :
    validAnswer? f (start :: drop :: kind :: len :: rest) =
      if start = 0x96 ∧ rest.length = len.toNat + 1 ∧
          rest.drop len.toNat = [crc8 (drop :: kind :: len :: rest.take len.toNat)] ∧
          drop.getLsbD 7 = false ∧ drop.toNat % 16 = f.drop then
        (answerOf kind (rest.take len.toNat)).filter fun a => f.body.admits a
      else none := by
  unfold validAnswer?
  dsimp only
  refine ite_congr_iff Iff.rfl ?_ rfl
  cases answerOf kind (rest.take len.toNat) with
  | none => rfl
  | some a => rw [Option.filter_some]

theorem validAnswer_none_of_length (f : BusFrame) (start drop kind len : Byte) {rest : List Byte}
    (h : rest.length ≠ len.toNat + 1) : validAnswer? f (start :: drop :: kind :: len :: rest) = none := by
  rw [validAnswer_eq]
  exact if_neg fun hc => h hc.2.1

/-- A kind that is no answer's, or a length that is not the kind's. -/
theorem validAnswer_none_of_kind (f : BusFrame) (start drop : Byte) {kind len : Byte} (rest : List Byte)
    (h : (kind = 0x81 ∧ len ≠ 0) ∨ (kind = 0x82 ∧ len ≠ 5) ∨ (kind = 0x83 ∧ len ≠ 9) ∨ (kind = 0x84 ∧ len ≠ 1) ∨
      kind ∉ ([0x81, 0x82, 0x83, 0x84] : List Byte)) :
    validAnswer? f (start :: drop :: kind :: len :: rest) = none := by
  by_cases hlen : rest.length = len.toNat + 1
  · have htake : (rest.take len.toNat).length = len.toNat := by rw [List.length_take]; omega
    have hnone : answerOf kind (rest.take len.toNat) = none := by
      refine Classical.byContradiction fun hsome => ?_
      have hof := answerOf_length hsome
      rw [htake] at hof
      have hlen (n : Nat) (hn : len.toNat = n) : len = BitVec.ofNat 8 n := by
        rw [← hn, BitVec.ofNat_toNat, BitVec.setWidth_eq]
      rcases hof with ⟨rfl, hn⟩ | ⟨rfl, hn⟩ | ⟨rfl, hn⟩ | ⟨rfl, hn⟩ <;> simp [hlen _ hn] at h
    rw [validAnswer_eq, hnone]
    exact ite_self none
  · exact validAnswer_none_of_length f start drop kind len hlen

/-- A frame whose length byte is that of its payload. -/
theorem validAnswer_framed (f : BusFrame) (drop kind c : Byte) {payload : List Byte} (h : payload.length < 256) :
    validAnswer? f (0x96 :: drop :: kind :: BitVec.ofNat 8 payload.length :: (payload ++ [c])) =
      if c = crc8 (drop :: kind :: BitVec.ofNat 8 payload.length :: payload) ∧ drop.getLsbD 7 = false ∧
          drop.toNat % 16 = f.drop then
        (answerOf kind payload).filter fun a => f.body.admits a
      else none := by
  have hlen : (BitVec.ofNat 8 payload.length).toNat = payload.length := by
    rw [BitVec.toNat_ofNat]
    omega
  rw [validAnswer_eq, hlen, List.take_left' rfl, List.drop_left' rfl]
  exact ite_congr_iff (by simp) rfl rfl

/-- The bytes of an answer up to its check value. -/
theorem answer_bytes_eq (a : BusAnswer) (drop : Nat) :
    a.bytes drop = 0x96 :: BitVec.ofNat 8 (drop % 16) :: BitVec.ofNat 8 a.code :: BitVec.ofNat 8 a.payload.length ::
      (a.payload ++ [crc8 (BitVec.ofNat 8 (drop % 16) :: BitVec.ofNat 8 a.code ::
        BitVec.ofNat 8 a.payload.length :: a.payload)]) := rfl

/-- An answer received from a drop, its check value any byte. -/
theorem validAnswer_answer (f : BusFrame) (a : BusAnswer) {drop : Nat} (h : drop < 16) (c : Byte) :
    validAnswer? f ((a.bytes drop).dropLast ++ [c]) =
      if c = crc8 ((a.bytes drop).tail.dropLast) ∧ f.drop = drop ∧ f.body.admits a = true then some a else none := by
  have hbytes : (a.bytes drop).dropLast = 0x96 :: BitVec.ofNat 8 (drop % 16) :: BitVec.ofNat 8 a.code ::
      BitVec.ofNat 8 a.payload.length :: a.payload := by
    rw [answer_bytes_eq]
    simp only [← List.cons_append, List.dropLast_concat]
  have hcheck : (a.bytes drop).tail.dropLast = BitVec.ofNat 8 (drop % 16) :: BitVec.ofNat 8 a.code ::
      BitVec.ofNat 8 a.payload.length :: a.payload := by
    rw [answer_bytes_eq, List.tail_cons]
    simp only [← List.cons_append, List.dropLast_concat]
  have hmark : (BitVec.ofNat 8 (drop % 16)).getLsbD 7 = false := by
    rw [BitVec.getLsbD_ofNat, Nat.testBit_lt_two_pow (by omega)]
    rfl
  have hdrop : (BitVec.ofNat 8 (drop % 16)).toNat % 16 = drop := by
    rw [BitVec.toNat_ofNat]
    omega
  rw [hbytes, hcheck]
  refine (validAnswer_framed f _ _ c (payload_length_lt a)).trans ?_
  rw [answerOf_payload, Option.filter_some, hmark, hdrop, ← ite_conj]
  exact ite_congr_iff (by simp only [true_and, and_assoc, eq_comm (a := drop)]) rfl rfl

theorem dropLast_append_check (a : BusAnswer) (drop : Nat) :
    (a.bytes drop).dropLast ++ [crc8 ((a.bytes drop).tail.dropLast)] = a.bytes drop := by
  rw [answer_bytes_eq, List.tail_cons]
  simp only [← List.cons_append, List.dropLast_concat]

theorem validAnswer_bytes (f : BusFrame) (a : BusAnswer) {drop : Nat} (h : drop < 16) :
    validAnswer? f (a.bytes drop) = if f.drop = drop ∧ f.body.admits a = true then some a else none := by
  have hanswer := validAnswer_answer f a h (crc8 ((a.bytes drop).tail.dropLast))
  rw [dropLast_append_check] at hanswer
  exact hanswer.trans (ite_congr_iff (and_iff_right rfl) rfl rfl)

/-- Settles O48. -/
theorem busAnswerReadBack : Obligations.BusAnswerReadBack := by
  refine ⟨fun f a drop hdrop => ⟨fun hd ha => ?valid, fun hd => ?otherDrop, fun ha => ?otherKind, fun c hc => ?check⟩,
    fun f start drop kind len rest => ⟨fun h => ?start, fun h => ?mark, validAnswer_none_of_length f start drop kind len,
      validAnswer_none_of_kind f start drop rest⟩,
    fun f a drop kind first payload => ⟨rfl, rfl, rfl, rfl⟩, ⟨rfl, crc8_append⟩,
    fun axes alpha beta n speed kind => ⟨rfl, ?axes, ?speed⟩,
    fun run x y k d0 d1 d2 d3 d4 d5 d6 d7 reason => ⟨rfl, rfl, fun body => ?admits⟩⟩
  case valid => rw [validAnswer_bytes f a hdrop, if_pos ⟨hd, ha⟩]
  case otherDrop => rw [validAnswer_bytes f a hdrop, if_neg fun h => hd h.1]
  case otherKind => rw [validAnswer_bytes f a hdrop, if_neg fun h => by simp [ha] at h]
  case check => rw [validAnswer_answer f a hdrop, if_neg fun h => hc h.1]
  case start =>
    rw [validAnswer_eq]
    exact if_neg fun hc => h hc.1
  case mark =>
    rw [validAnswer_eq]
    refine if_neg fun hc => ?_
    obtain ⟨_, _, _, hclear, _⟩ := hc
    exact absurd (h.symm.trans hclear) (by decide)
  case axes => cases axes <;> rfl
  case speed => cases speed <;> rfl
  case admits => cases body <;> rfl

end Sys2Proof.Machine
end

