-- ==== Sys2Proof/Proofs/LineArbiter.lean ====
section
/-! PROOFS. The choice of a line's arbiter, and the events of a line (R143, R148 to R153). -/

namespace Sys2Proof.Machine

/-! ## Polls -/

theorem onLine_iff (r : SlotRec) (l : Nat) :
    r.onLine l = true ↔ r.state ≠ .vacant ∧ ∃ a, r.addr = some a ∧ a.line = l := by
  simp [SlotRec.onLine, Option.any_eq_true]

theorem pairwise_slotsOn (s : State) (l : Nat) : (s.slotsOn l).Pairwise (· < ·) :=
  List.pairwise_lt_range.filter _

theorem mem_slotsOn (s : State) (l n : Nat) : n ∈ s.slotsOn l ↔ n < 128 ∧ (s.slot n).onLine l = true := by
  unfold State.slotsOn
  rw [List.mem_filter, mem_slotNumbers]

theorem pairwise_pollsDue (s : State) (l : Nat) : (s.pollsDue l).Pairwise (· < ·) := (pairwise_slotsOn s l).filter _

theorem mem_pollsDue (s : State) (l n : Nat) :
    n ∈ s.pollsDue l ↔ n < 128 ∧ (s.slot n).onLine l = true ∧ s.pollDue l n = true := by
  unfold State.pollsDue
  rw [List.mem_filter, mem_slotsOn, and_assoc]

theorem pollDue_iff (s : State) (l n : Nat) :
    s.pollDue l n = true ↔
      (∃ g, (s.slot n).leg = some g ∧ g.stage = .running) ∧ ∀ t, (s.line l).lastAskOf n = some t → t + 25 ≤ s.now := by
  unfold State.pollDue
  rw [Bool.and_eq_true]
  refine and_congr (by simp [Option.any_eq_true]) ?_
  cases (s.line l).lastAskOf n with
  | none => simp
  | some t =>
    refine decide_eq_true_iff.trans ?_
    simp [Config.pollInterval]

theorem head_least {due : List Nat} (hs : due.Pairwise (· < ·)) {n : Nat} (h : due.head? = some n) :
    n ∈ due ∧ ∀ m ∈ due, n ≤ m := by
  cases due with
  | nil => cases h
  | cons a rest =>
    obtain rfl : a = n := by simpa using h
    refine ⟨List.mem_cons_self, fun m hm => ?_⟩
    rcases List.mem_cons.1 hm with rfl | hm
    · exact Nat.le_refl _
    · exact Nat.le_of_lt (List.rel_of_pairwise_cons hs hm)

/-- The first of an ascending list above a bound is the least above it. -/
theorem find_least {due : List Nat} (hs : due.Pairwise (· < ·)) {c n : Nat}
    (h : due.find? (fun n => decide (c < n)) = some n) : n ∈ due ∧ c < n ∧ ∀ m ∈ due, c < m → n ≤ m := by
  obtain ⟨habove, front, back, rfl, hfront⟩ := List.find?_eq_some_iff_append.1 h
  refine ⟨by simp, by simpa using habove, fun m hm hcm => ?_⟩
  rcases List.mem_append.1 hm with hm | hm
  · have := hfront m hm
    simp at this
    omega
  · exact (head_least (List.pairwise_append.1 hs).2.1 rfl).2 m hm

/-- A poll goes to the smallest due slot above the cursor, or to the smallest. -/
theorem nextPoll_above {due : List Nat} (hs : due.Pairwise (· < ·)) {c n : Nat} (h : nextPoll (some c) due = some n) :
    n ∈ due ∧ ((c < n ∧ ∀ m ∈ due, c < m → n ≤ m) ∨ ((∀ m ∈ due, m ≤ c) ∧ ∀ m ∈ due, n ≤ m)) := by
  unfold nextPoll at h
  dsimp only at h
  split at h
  · next k hfind =>
    obtain rfl : k = n := Option.some.inj h
    obtain ⟨hmem, habove, hleast⟩ := find_least hs hfind
    exact ⟨hmem, .inl ⟨habove, hleast⟩⟩
  · next hnone =>
    obtain ⟨hmem, hleast⟩ := head_least hs h
    exact ⟨hmem, .inr ⟨by simpa using hnone, hleast⟩⟩

theorem nextPoll_some {due : List Nat} (h : due ≠ []) (c : Option Nat) : ∃ n, nextPoll c due = some n :=
  Option.ne_none_iff_exists'.1 fun hn => h (nextPoll_none.1 hn)

/-! ## What each choice does -/

/-- Waiting frames join up to 24. -/
theorem fillNormal_eq (waiting normal : List BusFrame) :
    fillNormal normal waiting =
      (normal ++ waiting.take (24 - normal.length), waiting.drop (24 - normal.length)) := by
  induction waiting generalizing normal with
  | nil => simp [fillNormal]
  | cons f rest ih =>
    rw [fillNormal]
    by_cases h : normal.length < 24
    · obtain ⟨k, hk⟩ : ∃ k, 24 - normal.length = k + 1 := ⟨24 - normal.length - 1, by omega⟩
      have hk' : 24 - (normal ++ [f]).length = k := by rw [List.length_append, List.length_singleton]; omega
      refine (if_pos h).trans ?_
      rw [ih, hk, hk', List.take_succ_cons, List.drop_succ_cons, List.append_assoc, List.singleton_append]
    · have hzero : 24 - normal.length = 0 := by omega
      refine (if_neg h).trans ?_
      rw [hzero, List.take_zero, List.drop_zero, List.append_nil]

theorem fill_eq (r : LineRec) :
    r.fill = { r with
      normal := r.normal ++ r.waiting.take (24 - r.normal.length)
      waiting := r.waiting.drop (24 - r.normal.length) } := by
  unfold LineRec.fill
  rw [fillNormal_eq]

theorem takeNormal_eq (s : State) (l : Nat) (f : BusFrame) (rest : List BusFrame) :
    s.takeNormal l f rest = (s.modLine l fun r =>
      { r with
        normal := rest ++ r.waiting.take (24 - rest.length)
        waiting := r.waiting.drop (24 - rest.length)
        pollTurn := false
        txn := some { frame := f, attempt := .first, fromNormal := true, window := none } }).hand .scan := by
  unfold State.takeNormal
  refine congrArg (fun t : State => t.hand .scan) (modLine_congr ?_)
  rw [fill_eq]
  rfl

theorem takePoll_eq {s : State} {n : Nat} {g : Leg} (h : (s.slot n).leg = some g) (l : Nat) :
    s.takePoll l n = s.modLine l fun r =>
      { r with
        pollCursor := some n
        pollTurn := false
        txn := some
          { frame := { slot := n, drop := (s.slot n).dropNo, body := .ask, owner := .poll g.id }
            attempt := .first, fromNormal := false, window := none } } := by
  unfold State.takePoll
  rw [h]
  rfl

/-! ## The choice -/

section Choice

variable {s : State} {l : Nat}

theorem chooseUp_turn (hu : (s.line l).urgent = []) (ht : (s.line l).pollTurn = true) {n : Nat}
    (h : nextPoll (s.line l).pollCursor (s.pollsDue l) = some n) : s.chooseUp l = s.takePoll l n := by
  unfold State.chooseUp
  dsimp only
  rw [hu, ht, if_pos rfl, h]

/-- With no urgent and no normal frame a poll due is taken, whoever has the turn. -/
theorem chooseUp_poll (hu : (s.line l).urgent = []) (hn : (s.line l).normal = []) {n : Nat}
    (h : nextPoll (s.line l).pollCursor (s.pollsDue l) = some n) : s.chooseUp l = s.takePoll l n := by
  cases ht : (s.line l).pollTurn with
  | true => exact chooseUp_turn hu ht h
  | false =>
    unfold State.chooseUp
    dsimp only
    rw [hu, ht, if_neg (by simp), hn, h]

theorem choose_down_idle (hd : (s.line l).state = .down) (h : UrgentFrame.haltAll ∉ (s.line l).urgent) :
    s.choose l = s := by
  have hcontains : (s.line l).urgent.contains UrgentFrame.haltAll = false := by simpa using h
  unfold State.choose
  dsimp only
  rw [hd, hcontains]
  split <;> rfl

theorem choose_down_haltAll (hd : (s.line l).state = .down) (h : UrgentFrame.haltAll ∈ (s.line l).urgent)
    (ht : (s.line l).txn = none) (hs : (s.line l).sendingHaltAll = false) :
    s.choose l = s.modLine l fun r =>
      { r with urgent := r.urgent.filter fun f => decide (f ≠ .haltAll), sendingHaltAll := true } := by
  have hcontains : (s.line l).urgent.contains UrgentFrame.haltAll = true := by simpa using h
  have hne : (fun f : UrgentFrame => f != .haltAll) = fun f => decide (f ≠ .haltAll) := by
    funext f
    rw [bne, Bool.beq_eq_decide_eq, decide_not]
  unfold State.choose
  dsimp only
  rw [if_neg (by simp [ht, hs]), hd]
  refine (if_pos hcontains).trans ?_
  rw [hne]
  exact modLine_congr (f := fun r => { r with
    urgent := (s.line l).urgent.filter fun f => decide (f ≠ .haltAll), sendingHaltAll := true }) rfl

end Choice

/-- Settles O49. -/
theorem arbiterChoice : Obligations.ArbiterChoice := by
  refine fun s l hl => ⟨choose_busy, choose_silent, choose_down_idle, choose_down_haltAll, fun ht hs hup =>
      ⟨fun f rest hu => ?urgent, fun hu => ⟨fun n hturn hp => ?turn, fun f rest hp hn => ?normal, fun n hn hp => ?poll,
        fun hn hp => choose_nothing hu hn hp⟩⟩,
    fun c n => nextPoll_above (pairwise_pollsDue s l), nextPoll_some, fun n => head_least (pairwise_pollsDue s l),
    fun n => ?cursor, fun n g hg => takePoll_eq hg l, fun rest => rfl, fun d rest => rfl, takeNormal_eq s l⟩
  case urgent => rw [choose_up ht hs hup, chooseUp_urgent hu]
  case turn => rw [choose_up ht hs hup, chooseUp_turn hu hturn hp]
  case normal => rw [choose_up ht hs hup, chooseUp_normal hu (hp.imp_right nextPoll_none.2) hn]
  case poll => rw [choose_up ht hs hup, chooseUp_poll hu hn hp]
  case cursor =>
    unfold State.takePoll
    dsimp only
    rw [line_modLine, if_pos ⟨rfl, hl⟩]
    exact ⟨rfl, rfl⟩

/-! ## The events of a line -/

theorem writeLastAsk_find (n t m : Nat) (asks : List LastAsk) :
    ((writeLastAsk n t asks).find? fun a => a.slot == m).map LastAsk.time =
      if m = n then some t else (asks.find? fun a => a.slot == m).map LastAsk.time := by
  induction asks with
  | nil =>
    rw [writeLastAsk, List.find?_cons]
    by_cases h : m = n
    · simp [h]
    · have hbeq : (n == m) = false := by simpa using Ne.symm h
      simp [h, hbeq]
  | cons a rest ih =>
    rw [writeLastAsk]
    split
    · next ha =>
      by_cases h : m = n
      · simp [h]
      · have hne : ¬ a.slot = m := fun e => h (e.symm.trans ha)
        simp [h, Ne.symm h, hne]
    · next ha =>
      split
      · by_cases h : m = n
        · simp [h]
        · simp [List.find?_cons, h, Ne.symm h]
      · rw [List.find?_cons, List.find?_cons]
        by_cases ham : a.slot = m
        · have hmn : ¬ m = n := fun e => ha (ham.trans e)
          simp [ham, hmn]
        · have hbeq : (a.slot == m) = false := by simpa using ham
          rw [hbeq]
          exact ih

theorem lastAskOf_write (r : LineRec) (n t m : Nat) :
    ({ r with lastAsk := writeLastAsk n t r.lastAsk } : LineRec).lastAskOf m =
      if m = n then some t else r.lastAskOf m := writeLastAsk_find n t m r.lastAsk

theorem noteAsk_eq (r : LineRec) (f : BusFrame) (now : Nat) :
    r.noteAsk f now = { r with lastAsk := if f.body = .ask then writeLastAsk f.slot now r.lastAsk else r.lastAsk } := by
  unfold LineRec.noteAsk
  cases f.body <;> rfl

section Events

variable {s : State} {l : Nat}

theorem sendingEnds_begins {t : Txn} (ht : (s.line l).txn = some t) (hw : t.window = none) :
    s.sendingEnds l = s.modLine l fun r =>
      { r with
        txn := some { t with window := some (s.now + 4) }
        lastAsk := if t.frame.body = .ask then writeLastAsk t.frame.slot s.now r.lastAsk else r.lastAsk } := by
  unfold State.sendingEnds
  rw [ht]
  dsimp only
  rw [if_pos (by simp [hw])]
  exact modLine_congr (noteAsk_eq _ _ _)

theorem sendingEnds_nothing (h : ∀ t, (s.line l).txn = some t → t.window ≠ none) : s.sendingEnds l = s := by
  unfold State.sendingEnds
  cases ht : (s.line l).txn with
  | none => rfl
  | some t => exact if_neg (by simpa using h t ht)

/-- A frame received with no answer window open is discarded. -/
theorem receiveBus_discarded (h : ∀ t, (s.line l).txn = some t → t.window = none) (bytes : List Byte) :
    s.receiveBus l bytes = s := by
  unfold State.receiveBus
  cases ht : (s.line l).txn with
  | none => rfl
  | some t => exact if_neg (by simp [h t ht])

theorem haltAllSent_rest (hq : s.quiet = true) (hs : (s.line l).sendingHaltAll = true)
    (hc : (s.modLine l fun r => { r with sendingHaltAll := false }).choose l =
      s.modLine l fun r => { r with sendingHaltAll := false }) :
    (s.haltAllSent l).rest = s.modLine l fun r => { r with sendingHaltAll := false } := by
  have hquiet : (s.modLine l fun r => { r with sendingHaltAll := false }).quiet = true :=
    quiet_of_link hq rfl (quiet_handed hq)
  unfold State.haltAllSent
  rw [if_pos hs, rest_hand_quiet (quiet_handed hquiet) (.choose l) (by rw [State.takeHanded, hc]; exact hquiet)]
  exact hc

end Events

end Sys2Proof.Machine
end

