-- ==== Sys2Proof/Proofs/LineEvents.lean ====
section
/-! PROOFS. The commands of a line that begin and end no transaction's answer (R143, R148 to R150, R152, R153). -/

namespace Sys2Proof.Machine

/-- The polls due on a line depend on the slots, the time and the line's last-ASK times. -/
theorem pollsDue_congr {s t : State} {l : Nat} (hslots : t.slots = s.slots) (hnow : t.now = s.now)
    (hask : (t.line l).lastAsk = (s.line l).lastAsk) : t.pollsDue l = s.pollsDue l := by
  have hslot (n : Nat) : t.slot n = s.slot n := by
    unfold State.slot
    rw [hslots]
  have hdue (n : Nat) : t.pollDue l n = s.pollDue l n := by
    have hlast : (t.line l).lastAskOf n = (s.line l).lastAskOf n := by
      unfold LineRec.lastAskOf
      rw [hask]
    unfold State.pollDue
    rw [hslot, hlast, hnow]
  unfold State.pollsDue State.slotsOn
  rw [funext hdue, funext fun n => congrArg (SlotRec.onLine · l) (hslot n)]

section Events

variable {s : State} {l : Nat}

/-- A frame that waited joins a normal queue with room while a frame is in flight. -/
theorem waitingJoins_rest (hq : s.quiet = true) {f : BusFrame} {rest : List BusFrame}
    (hw : (s.line l).waiting = f :: rest) (hlen : (s.line l).normal.length < 24)
    (ht : (s.line l).txn.isSome = true) :
    (s.waitingJoins l).rest = s.modLine l fun r => { r with normal := r.normal ++ [f], waiting := rest } := by
  have hquiet : (s.modLine l fun r => { r with normal := r.normal ++ [f], waiting := rest }).quiet = true :=
    quiet_of_link hq rfl (quiet_handed hq)
  have hbusy : (s.modLine l fun r => { r with normal := r.normal ++ [f], waiting := rest }).choose l =
      s.modLine l fun r => { r with normal := r.normal ++ [f], waiting := rest } := by
    refine choose_busy (.inl ?_)
    rw [line_modLine]
    split
    · exact ht
    · exact ht
  unfold State.waitingJoins
  rw [hw]
  dsimp only
  rw [if_pos ((hasRoom_iff _).2 hlen),
    rest_hand_quiet (quiet_handed hquiet) (.choose l) (by rw [State.takeHanded, hbusy]; exact hquiet)]
  exact hbusy

theorem waitingJoins_full (h : 24 ≤ (s.line l).normal.length) : s.waitingJoins l = s := by
  unfold State.waitingJoins
  split
  · rfl
  · exact if_neg fun hc => absurd ((hasRoom_iff _).1 hc) (Nat.not_lt.2 h)

theorem haltAllSent_nothing (h : (s.line l).sendingHaltAll = false) : s.haltAllSent l = s := by
  unfold State.haltAllSent
  exact if_neg (by simp [h])

/-- A HALT_ALL sent on a line with nothing to choose. -/
theorem haltAllSent_idle (hq : s.quiet = true) (hs : (s.line l).sendingHaltAll = true)
    (hu : (s.line l).urgent = []) (hn : (s.line l).normal = []) (hp : s.pollsDue l = []) :
    (s.haltAllSent l).rest = s.modLine l fun r => { r with sendingHaltAll := false } := by
  refine haltAllSent_rest hq hs (choose_nothing ?_ ?_ ?_)
  · rw [line_modLine]
    split <;> exact hu
  · rw [line_modLine]
    split <;> exact hn
  · have hpolls : (s.modLine l fun r => { r with sendingHaltAll := false }).pollsDue l = s.pollsDue l := by
      refine pollsDue_congr ?_ ?_ ?_
      · rfl
      · rfl
      · rw [line_modLine]
        split <;> rfl
    rw [hpolls, hp]

theorem pollExpires_nothing {n : Nat} (h : s.pollDue (s.slot n).lineNo n = false) : s.pollExpires n = s := by
  unfold State.pollExpires
  dsimp only
  rw [h, Bool.and_false]
  exact if_neg (by simp)

/-- A poll due on a free UP line with nothing queued is taken. -/
theorem pollExpires_rest (hq : s.quiet = true) {n : Nat} (hn : n < 128)
    (hon : (s.slot n).onLine (s.slot n).lineNo = true) (hp : s.pollDue (s.slot n).lineNo n = true)
    (hup : (s.line (s.slot n).lineNo).state = .up) (ht : (s.line (s.slot n).lineNo).txn = none)
    (hs : (s.line (s.slot n).lineNo).sendingHaltAll = false) (hu : (s.line (s.slot n).lineNo).urgent = [])
    (hnormal : (s.line (s.slot n).lineNo).normal = []) :
    ∃ m, nextPoll (s.line (s.slot n).lineNo).pollCursor (s.pollsDue (s.slot n).lineNo) = some m ∧
      (s.pollExpires n).rest = s.takePoll (s.slot n).lineNo m := by
  have hdue : n ∈ s.pollsDue (s.slot n).lineNo := (mem_pollsDue s _ n).2 ⟨hn, hon, hp⟩
  obtain ⟨m, hm⟩ := nextPoll_some (List.ne_nil_of_mem hdue) (s.line (s.slot n).lineNo).pollCursor
  have hchoose : s.takeHanded (.choose (s.slot n).lineNo) = s.takePoll (s.slot n).lineNo m :=
    (choose_up ht hs hup).trans (chooseUp_poll hu hnormal hm)
  have hquiet : (s.takePoll (s.slot n).lineNo m).quiet = true := quiet_of_link hq rfl (quiet_handed hq)
  have hexpires : s.pollExpires n = s.hand (.choose (s.slot n).lineNo) := by
    unfold State.pollExpires
    exact if_pos (by rw [hon, hp]; rfl)
  refine ⟨m, hm, ?_⟩
  rw [hexpires, rest_hand_quiet (quiet_handed hq) _ (by rw [hchoose]; exact hquiet), hchoose]

end Events

/-- An event that changes nothing leaves a block at rest as it is. -/
theorem rest_same {s t : State} (hq : s.quiet = true) (h : t = s) : t.rest = s := by
  rw [h, rest_quiet s hq]

/-- Settles O50. -/
theorem lineEvents : Obligations.LineEvents := by
  refine ⟨fun s l => ⟨fun t ht hw => congrArg Host.Outcome.next (sendingEnds_begins ht hw),
      fun h => congrArg Host.Outcome.next (sendingEnds_nothing h)⟩,
    fun s hq => ⟨fun l => ⟨fun hs ht hu hn hp => congrArg Host.Outcome.next (haltAllSent_idle hq hs hu hn hp),
        fun h => congrArg Host.Outcome.next (rest_same hq (haltAllSent_nothing h))⟩,
      fun l f rest hw => ⟨fun hlen ht => congrArg Host.Outcome.next (waitingJoins_rest hq hw hlen ht),
        fun hlen => congrArg Host.Outcome.next (rest_same hq (waitingJoins_full hlen))⟩,
      fun n => ⟨fun hon hp hup ht hs hu hn => ?poll,
        fun hp => congrArg Host.Outcome.next (rest_same hq (pollExpires_nothing hp))⟩⟩,
    fun s l hq hw => ⟨fun bytes => congrArg Host.Outcome.next (rest_same hq (receiveBus_discarded hw bytes)),
      fun bytes => congrArg Host.Outcome.next (rest_same hq (receiveBus_discarded hw bytes)),
      fun drop a => congrArg Host.Outcome.next (rest_same hq (receiveBus_discarded hw (a.bytes drop.val)))⟩,
    fun s l n => ⟨pollDue_iff s l n, pairwise_pollsDue s l, mem_pollsDue s l n, onLine_iff _ l⟩, lastAskOf_write⟩
  case poll =>
    obtain ⟨m, hm, hrest⟩ := pollExpires_rest hq n.isLt hon hp hup ht hs hu hn
    exact ⟨m, hm, congrArg Host.Outcome.next hrest⟩

end Sys2Proof.Machine
end

