-- ==== Sys2Proof/Proofs/TurnsKept.lean ====
section
/-! PROOFS. What a frame's answer or failure leaves on the lines: whole line records, or the transaction and the poll
turn of each line (R150, R154, R155, R163). -/

namespace Sys2Proof.Machine

/-! ## Operations that reach no line -/

/-- No line record differs. -/
def LinesKept (s t : State) : Prop := t.lines = s.lines

namespace LinesKept

theorem refl (s : State) : LinesKept s s := rfl

theorem trans {s t u : State} (h : LinesKept s t) (k : LinesKept t u) : LinesKept s u := Eq.trans k h

theorem ite {s t u : State} {c : Prop} [Decidable c] (h : LinesKept s t) (k : LinesKept s u) :
    LinesKept s (if c then t else u) := by
  split
  · exact h
  · exact k

theorem foldl {α : Type} (f : State → α → State) (h : ∀ s a, LinesKept s (f s a)) (as : List α) (s : State) :
    LinesKept s (as.foldl f s) := by
  induction as generalizing s with
  | nil => exact refl s
  | cons a as ih => exact (h s a).trans (ih _)

theorem raise (s : State) (e : Summary) : LinesKept s (s.raise e) := by
  rw [raise_eq]
  exact refl s

theorem answerCurrent (s : State) (st : Status) (p : List Byte) : LinesKept s (s.answerCurrent st p) := by
  rw [answerCurrent_eq]
  exact refl s

theorem answerRecover (s : State) (n : Nat) (st : Status) (p : List Byte) :
    LinesKept s (s.answerRecover n st p) := by
  rw [answerRecover_eq]
  exact refl s

theorem recordOutcome (s : State) (n : Nat) (o : RobotOutcome) : LinesKept s (s.recordOutcome n o) :=
  (GateKept.recordOutcome s n o).lines

theorem grant (s : State) (n : Nat) (zs : List Nat) : LinesKept s (s.grant n zs) := (GateKept.grant s n zs).lines

theorem zoneReport (s : State) (freed fenced : List Nat) : LinesKept s (s.zoneReport freed fenced) :=
  (GateKept.zoneReport s freed fenced).lines

theorem updateZones (s : State) (n : Nat) : LinesKept s (s.updateZones n) := (GateKept.updateZones s n).lines

theorem legStopped (s : State) (n : Nat) (g : Leg) : LinesKept s (s.legStopped n g) :=
  (GateKept.legStopped s n g).lines

theorem writeZones (s : State) (cs : List (Nat × ZoneStatus × ZoneStatus)) : LinesKept s (s.writeZones cs) := by
  rw [writeZones_eq]
  exact refl s

theorem keepUnits (s : State) (n : Nat) (g : Option Leg) : LinesKept s (s.keepUnits n g) := by
  obtain ⟨u, hu⟩ : ∃ u, u = s.keepUnits n g := ⟨_, rfl⟩
  rw [← hu]
  rw [keepUnits_eq] at hu
  rw [hu]
  exact refl s

theorem retire (s : State) (n : Nat) (why : RetireReason) : LinesKept s (s.retire n why) :=
  trans (t := (s.modSlot n fun r => r.retired why).keepUnits n (s.slot n).leg) (keepUnits _ n _)
    (((writeZones _ _).trans (raise _ _)).trans (zoneReport _ _ _))

theorem testFaultLimit (s : State) (n : Nat) : LinesKept s (s.testFaultLimit n) := ite (retire s n _) (refl s)

theorem faultReport (s : State) (n : Nat) (kind : FaultKind) (pos : PosChange) :
    LinesKept s (s.faultReport n kind pos) := by
  have houtcome (t : State) (f : SlotRec → SlotRec) : LinesKept t ((t.modSlot n f).recordOutcome n .faulted) :=
    recordOutcome (t.modSlot n f) n .faulted
  have hzones (t : State) (f : SlotRec → SlotRec) : LinesKept t (((t.modSlot n f).updateZones n).testFaultLimit n) :=
    trans (s := t) (updateZones (t.modSlot n f) n) (testFaultLimit _ n)
  exact ((raise s (.robotFaulted 1 n)).trans (houtcome _ _)).trans (hzones _ _)

theorem answerFault (s : State) (n : Nat) (g : Leg) (kind : FaultKind) : LinesKept s (s.answerFault n g kind) := by
  have hrecover (b : Bool) : LinesKept s (s.recoverFaulted n kind b) := by
    unfold State.recoverFaulted
    exact ite (answerRecover (s.modSlot n fun r => { r with recoveryReturn := none }) n _ _)
      (answerRecover (s.modSlot n fun r => { r with recoveryReturn := none }) n _ _)
  exact ite (hrecover _) (refl s)

theorem legFaulted (s : State) (n : Nat) (g : Leg) (kind : FaultKind) (pos : PosChange) :
    LinesKept s (s.legFaulted n g kind pos) :=
  trans (t := (s.endLeg n g).faultReport n kind pos) (faultReport (s.endLeg n g) n kind pos)
    (answerFault _ n g kind)

theorem endLapsed (s : State) (n : Nat) : LinesKept s (s.endLapsed n) := by
  unfold State.endLapsed
  split
  · exact refl s
  · exact ite (refl s) (refl s)

theorem lapse (s : State) (n : Nat) (g : Leg) (kind : FaultKind) : LinesKept s (s.lapse n g kind) :=
  trans (s := s) (faultReport (s.modLeg n fun q =>
      { q with stage := .lapsing, deadline := some (g.deadline.getD (s.now + s.legDuration n g)) }) n kind .unknown)
    ((answerFault _ n g kind).trans (endLapsed _ n))

theorem lineDownLeg (s : State) (n : Nat) : LinesKept s (s.lineDownLeg n) := by
  unfold State.lineDownLeg
  split
  · exact refl s
  · next g _ =>
    cases g.stage with
    | issued => exact legFaulted s n g _ _
    | running => exact lapse s n g _
    | stopping => exact lapse s n g _
    | claiming => exact refl s
    | queued => exact refl s
    | lapsing => exact refl s

theorem readbackFailed (s : State) (n id : Nat) : LinesKept s (s.readbackFailed n id) := by
  unfold State.readbackFailed
  split
  · exact refl s
  · exact ite (lapse s n _ _) (refl s)

theorem goFailed (s : State) (n id : Nat) : LinesKept s (s.goFailed n id) := by
  unfold State.goFailed
  split
  · exact refl s
  · exact ite (lapse s n _ _) (refl s)

theorem pollFailed (s : State) (n id : Nat) : LinesKept s (s.pollFailed n id) := by
  unfold State.pollFailed
  split
  · exact refl s
  · exact ite (lapse s n _ _) (refl s)

theorem goRefused (s : State) (n id : Nat) : LinesKept s (s.goRefused n id) := by
  have habandoned (g : Leg) : LinesKept s (s.legAbandoned n g) :=
    trans (t := (s.endLeg n g).updateZones n) (updateZones (s.endLeg n g) n) (legStopped _ n g)
  unfold State.goRefused
  split
  · exact refl s
  · exact ite (ite (habandoned _) (legFaulted s n _ _ _)) (refl s)

theorem takeClaim (s : State) (n : Nat) : LinesKept s (s.takeClaim n) := by
  have hjoin (cls : Nat) (wanted : List Nat) : LinesKept s (s.joinWaitList n cls wanted) :=
    (GateKept.examine _ _ _).lines
  unfold State.takeClaim
  split
  · exact refl s
  · exact ite (recordOutcome s n _) (ite (recordOutcome s n _) (ite (grant s n _) (hjoin _ _)))

theorem handLeg (s : State) (n : Nat) : LinesKept s (s.handLeg n) := by
  unfold State.handLeg
  split
  · exact refl s
  · next g _ =>
    cases g.stage with
    | claiming => exact takeClaim s n
    | queued => exact refl s
    | issued => exact refl s
    | running => exact refl s
    | stopping => exact refl s
    | lapsing => exact refl s

theorem nextLeg (s : State) (n : Nat) : LinesKept s (s.nextLeg n) := by
  unfold State.nextLeg
  split
  · exact recordOutcome s n _
  · exact handLeg _ n

theorem legArrived (s : State) (n : Nat) (g : Leg) (a b : Nat) : LinesKept s (s.legArrived n g a b) := by
  have hended : LinesKept s (((s.endLeg n g).reportPosition n a b).updateZones n) :=
    updateZones ((s.endLeg n g).reportPosition n a b) n
  exact hended.trans (ite (answerRecover _ n _ _) (nextLeg _ n))

theorem stateTaken (s : State) (n id : Nat) (readback : Bool) (run : RunState) (a b : Nat) :
    LinesKept s (s.stateTaken n id readback run a b) := by
  have hread (g : Leg) : LinesKept s (s.lapsedRead n g a b) := updateZones ((s.endLeg n g).reportPosition n a b) n
  have hhalted (g : Leg) : LinesKept s (s.legHalted n g a b) :=
    trans (t := ((s.endLeg n g).reportPosition n a b).updateZones n) (hread g) (legStopped _ n g)
  have hrunning (g : Leg) : LinesKept s (s.runningState n g run a b) := by
    cases run with
    | running => exact refl s
    | stalled => exact legFaulted s n g _ _
    | arrived => exact ite (legArrived s n g a b) (legFaulted s n g _ _)
    | idle => exact ite (legArrived s n g a b) (legFaulted s n g _ _)
  have hstopping (g : Leg) : LinesKept s (s.stoppingState n g readback run a b) :=
    ite (refl s) (ite (hhalted g) (ite (legArrived s n g a b) (legFaulted s n g _ _)))
  unfold State.stateTaken
  split
  · exact refl s
  · next g _ =>
    cases g.stage with
    | running => exact hrunning g
    | stopping => exact hstopping g
    | lapsing => exact ite (hread g) (refl s)
    | claiming => exact refl s
    | queued => exact refl s
    | issued => exact refl s

/-! ### The probe and the measurement list on a line that is not UP -/

theorem modProbe (s : State) (f : ProbeRec → ProbeRec) : LinesKept s (s.modProbe f) := by
  unfold State.modProbe
  split <;> exact refl s

theorem probeFault (s : State) (n : Nat) (kind : FaultKind) : LinesKept s (s.probeFault n kind) :=
  (faultReport s n kind _).trans (modProbe _ _)

theorem probeBegin (s : State) (l n : Nat) (rest : List Nat) : LinesKept s (s.probeBegin l n rest) :=
  modProbe (s.modSlot n fun r => { r with state := .probing }) _

theorem probeCheck (s : State) : LinesKept s s.probeCheck := by
  unfold State.probeCheck
  split
  · exact refl s
  · exact ite (ite (answerCurrent s _ _) (answerCurrent s _ _)) (refl s)

/-- A line that is not UP turns every frame away. -/
theorem offer_none {s : State} {l : Nat} (h : (s.line l).state ≠ .up) (f : BusFrame) : s.offer? l f = none := by
  unfold State.offer?
  split
  · next hup => exact absurd hup h
  · rfl
  · rfl

theorem probeTakeUp_notUp (ns : List Nat) {s : State} {l : Nat} (h : (s.line l).state ≠ .up) :
    LinesKept s (probeTakeUp s l ns) := by
  have hline {t : State} (ht : LinesKept s t) : (t.line l).state ≠ .up := by
    rw [line_congr ht]
    exact h
  induction ns generalizing s with
  | nil => exact modProbe s _
  | cons n rest ih =>
    have hpass (f : ProbeRec → ProbeRec) : LinesKept s (probeTakeUp (s.modProbe f) l rest) := by
      have hmod := modProbe s f
      refine hmod.trans (ih (hline hmod) fun ht => ?_)
      exact hline (hmod.trans ht)
    have hbegin := (probeBegin s l n rest).trans (probeFault _ n .noAnswer)
    rw [probeTakeUp]
    refine ite (hpass _) (ite (hpass _) (ite ?_ (hpass _)))
    rw [offer_none (hline (probeBegin s l n rest))]
    exact hbegin.trans (ih (hline hbegin) fun ht => hline (hbegin.trans ht))

theorem probeFailed_notUp {s : State} {l : Nat} (h : (s.line l).state ≠ .up) (f : BusFrame) :
    LinesKept s (s.probeFailed l f) := by
  have hfault := probeFault s f.slot .noAnswer
  unfold State.probeFailed
  split
  · exact refl s
  · exact hfault.trans ((probeTakeUp_notUp _ (by rw [line_congr hfault]; exact h)).trans (probeCheck _))

theorem measureUnanswered (s : State) (m : MeasureRec) (e : MeasureEntry) : LinesKept s (s.measureUnanswered m e) :=
  (faultReport s _ _ _).trans (answerCurrent _ _ _)

theorem measureFailed (s : State) (f : BusFrame) : LinesKept s (s.measureFailed f) := by
  unfold State.measureFailed
  split
  · exact refl s
  · split
    · exact refl s
    · exact measureUnanswered s _ _

end LinesKept

/-! ## Operations that begin and end no transaction -/

/-- No line's transaction and no line's poll turn differs. -/
def TurnsKept (s t : State) : Prop :=
  ∀ l, (t.line l).txn = (s.line l).txn ∧ (t.line l).pollTurn = (s.line l).pollTurn

theorem LinesKept.turns {s t : State} (h : LinesKept s t) : TurnsKept s t := fun l => by
  rw [line_congr h]
  exact ⟨rfl, rfl⟩

namespace TurnsKept

theorem refl (s : State) : TurnsKept s s := fun _ => ⟨rfl, rfl⟩

theorem trans {s t u : State} (h : TurnsKept s t) (k : TurnsKept t u) : TurnsKept s u := fun l =>
  ⟨(k l).1.trans (h l).1, (k l).2.trans (h l).2⟩

theorem ite {s t u : State} {c : Prop} [Decidable c] (h : TurnsKept s t) (k : TurnsKept s u) :
    TurnsKept s (if c then t else u) := by
  split
  · exact h
  · exact k

theorem modLine (s : State) (l : Nat) {f : LineRec → LineRec}
    (h : ∀ r, (f r).txn = r.txn ∧ (f r).pollTurn = r.pollTurn) : TurnsKept s (s.modLine l f) := fun m => by
  rw [line_modLine]
  split
  · next hm => rw [← hm.1]; exact h _
  · exact ⟨rfl, rfl⟩

theorem offer_turn (r : LineRec) (f : BusFrame) : (r.offer f).txn = r.txn ∧ (r.offer f).pollTurn = r.pollTurn := by
  unfold LineRec.offer
  split <;> exact ⟨rfl, rfl⟩

theorem hand (s : State) (e : Handed) : TurnsKept s (s.hand e) := refl s

theorem placeUrgent (s : State) (l : Nat) (f : UrgentFrame) : TurnsKept s (s.placeUrgent l f) := by
  refine trans (modLine s l ?_) (hand _ _)
  exact fun _ => ⟨rfl, rfl⟩

theorem offer {s t : State} {l : Nat} {f : BusFrame} (h : s.offer? l f = some t) : TurnsKept s t := by
  unfold State.offer? at h
  split at h
  · cases h
    exact trans (modLine s l fun r => offer_turn r f) (hand _ _)
  · cases h
  · cases h

theorem placeReadback (s : State) (n : Nat) (g : Leg) : TurnsKept s (s.placeReadback n g) := by
  have hup (l id : Nat) : TurnsKept s (s.placeReadbackUp l n id) := by
    unfold State.placeReadbackUp
    refine ite (modLine s l ?_) (trans (modLine s l ?_) (hand _ _))
    · exact fun _ => ⟨rfl, rfl⟩
    · exact fun r => offer_turn _ _
  unfold State.placeReadback
  split
  · exact hup _ _
  · exact (LinesKept.readbackFailed s n _).turns
  · exact (LinesKept.readbackFailed s n _).turns

theorem goTaken (s : State) (n id : Nat) : TurnsKept s (s.goTaken n id) := by
  have htaken (g : Leg) : TurnsKept s (s.legTaken n g) :=
    ite (placeReadback (s.modLeg n fun q =>
      { q with stage := .stopping, deadline := some (s.now + s.legDuration n g) }) n g) (refl s)
  unfold State.goTaken
  split
  · exact refl s
  · exact ite (htaken _) (refl s)

/-! ### The probe -/

theorem probeTakeUp (ns : List Nat) (s : State) (l : Nat) : TurnsKept s (probeTakeUp s l ns) := by
  induction ns generalizing s with
  | nil => exact (LinesKept.modProbe s _).turns
  | cons n rest ih =>
    have hpass (f : ProbeRec → ProbeRec) : TurnsKept s (Machine.probeTakeUp (s.modProbe f) l rest) :=
      (LinesKept.modProbe s f).turns.trans (ih _)
    have hbegin := (LinesKept.probeBegin s l n rest).turns
    rw [Machine.probeTakeUp]
    refine ite (hpass _) (ite (hpass _) (ite ?_ (hpass _)))
    split
    · next ht => exact hbegin.trans (offer ht)
    · exact (hbegin.trans (LinesKept.probeFault _ n _).turns).trans (ih _)

theorem probeNext (s : State) (l : Nat) (rest : List Nat) : TurnsKept s (s.probeNext l rest) :=
  (probeTakeUp rest s l).trans (LinesKept.probeCheck _).turns

theorem probeFail (s : State) (l n : Nat) (kind : FaultKind) : TurnsKept s (s.probeFail l n kind) :=
  (LinesKept.probeFault s n kind).turns.trans (probeNext _ _ _)

theorem probeOffer (s : State) (l n : Nat) (body : FrameBody) : TurnsKept s (s.probeOffer l n body) := by
  unfold State.probeOffer
  split
  · next ht => exact offer ht
  · exact probeFail s l n _

theorem probeIdentify (s : State) (l n : Nat) (q : ProbeLine) : TurnsKept s (s.probeIdentify l n q) :=
  probeOffer (s.modSlot n fun r => { r with identity := some q.identity }) l n .ask

theorem probePageOn (s : State) (l n : Nat) (q : ProbeLine) (page : Nat) :
    TurnsKept s (s.probePageOn l n q page) := (LinesKept.modProbe s _).turns.trans (probeOffer _ l n _)

theorem probePage (s : State) (l n : Nat) (q : ProbeLine) (page : Nat) (kind d0 d1 d2 d3 d4 d5 : Byte) :
    TurnsKept s (s.probePage l n q page kind d0 d1 d2 d3 d4 d5) := by
  unfold State.probePage
  split
  · exact ite (ite (probePageOn s l n _ _) (probeFail s l n _)) (probeFail s l n _)
  · exact ite (probePageOn s l n _ _) (probeFail s l n _)
  · exact ite (probePageOn s l n _ _) (probeFail s l n _)
  · exact ite (probeIdentify s l n _) (ite (probePageOn s l n _ _) (probeIdentify s l n _))

theorem probeState (s : State) (l n : Nat) (q : ProbeLine) (run : RunState) (a b : Nat) :
    TurnsKept s (s.probeState l n q run a b) := by
  have hzones (f : SlotRec → SlotRec) : TurnsKept s ((s.modSlot n f).updateZones n) :=
    (LinesKept.updateZones (s.modSlot n f) n).turns
  have hsucceed : TurnsKept s (s.probeSucceed l n q a b) :=
    trans (s := s) (LinesKept.updateZones ((s.modSlot n fun r => r.at a b .reported).modSlot n fun r =>
      { r with state := .rest, fault := none }) n).turns ((LinesKept.modProbe _ _).turns.trans (probeNext _ l _))
  exact ite (((placeUrgent s l _).trans (LinesKept.modProbe _ _).turns).trans (probeOffer _ l n _)) hsucceed

theorem probeAnswered (s : State) (l : Nat) (f : BusFrame) (a : BusAnswer) :
    TurnsKept s (s.probeAnswered l f a) := by
  unfold State.probeAnswered
  split
  · exact refl s
  · split
    · exact probePage s l _ _ _ _ _ _ _ _ _ _
    · exact ite (probeFail s l _ _) (probeIdentify s l _ _)
    · exact probeState s l _ _ _ _ _
    · exact refl s

theorem probeFailed (s : State) (l : Nat) (f : BusFrame) : TurnsKept s (s.probeFailed l f) := by
  unfold State.probeFailed
  split
  · exact refl s
  · exact probeFail s l _ _

/-! ### The measurement list -/

theorem measureEntry (s : State) (m : MeasureRec) : TurnsKept s (s.measureEntry m) := by
  unfold State.measureEntry
  split
  · exact (LinesKept.answerCurrent s _ _).turns
  · split
    · exact (LinesKept.answerCurrent s _ _).turns
    · split
      · next ht => exact offer ht
      · exact (LinesKept.measureUnanswered s _ _).turns

theorem measureAnswered (s : State) (f : BusFrame) (a : BusAnswer) : TurnsKept s (s.measureAnswered f a) := by
  have hnext (t : State) (m : MeasureRec) : TurnsKept t (t.measureNext m) :=
    ite (LinesKept.answerCurrent t _ _).turns (measureEntry (t.setMeasure m) m)
  have htaken (m : MeasureRec) (e : MeasureEntry) : TurnsKept s (s.measureTaken m e) :=
    trans (s := s) (LinesKept.updateZones (s.modSlot e.slot.toNat fun r => r.at e.alpha.toNat e.beta.toNat .loaded)
      e.slot.toNat).turns (hnext _ _)
  have hrefused (m : MeasureRec) (e : MeasureEntry) : TurnsKept s (s.measureRefused m e) :=
    ((LinesKept.faultReport s _ _ _).trans (LinesKept.answerCurrent _ _ _)).turns
  unfold State.measureAnswered
  split
  · exact refl s
  · split
    · exact refl s
    · cases a with
      | taken => exact htaken _ _
      | refused reason => exact hrefused _ _
      | state run x y => exact refl s
      | pageData k d0 d1 d2 d3 d4 d5 d6 d7 => exact refl s

/-! ### The owner of a frame -/

/-- An answer handed to its frame's owner begins no transaction. -/
theorem ownerAnswered (s : State) (l : Nat) (f : BusFrame) (a : BusAnswer) :
    TurnsKept s (s.ownerAnswered l f a) := by
  unfold State.ownerAnswered
  split
  · exact goTaken s _ _
  · exact (LinesKept.goRefused s _ _).turns
  · exact (LinesKept.stateTaken s _ _ _ _ _ _).turns
  · exact (LinesKept.stateTaken s _ _ _ _ _ _).turns
  · exact probeAnswered s _ _ _
  · exact measureAnswered s _ _
  · exact refl s

theorem ownerFailed (s : State) (l : Nat) (f : BusFrame) : TurnsKept s (s.ownerFailed l f) := by
  unfold State.ownerFailed
  split
  · exact (LinesKept.goFailed s _ _).turns
  · exact (LinesKept.pollFailed s _ _).turns
  · exact (LinesKept.readbackFailed s _ _).turns
  · exact probeFailed s _ _
  · exact (LinesKept.measureFailed s _).turns
  · exact refl s

end TurnsKept

end Sys2Proof.Machine
end

