-- ==== Sys2Proof/Proofs/Transactions.lean ====
section
/-! PROOFS. A line going DOWN, an attempt that ends, and a valid answer (R143, R150, R152, R154, R155, R163). -/

namespace Sys2Proof.Machine

/-! ## A line goes DOWN -/

/-- A line that went DOWN, its lost frames handed to their owners. -/
def State.framesLost (s : State) (l : Nat) : State :=
  ((s.line l).normal ++ (s.line l).waiting).foldl (fun u f => u.frameLost l f) (s.modLine l LineRec.goneDown)

theorem lineGoesDown_eq (s : State) (l : Nat) :
    s.lineGoesDown l =
      (((((s.framesLost l).slotsOn l).foldl (fun u n => u.lineDownLeg n) (s.framesLost l)).raise
        (.lineDown (1#8 <<< l))).hand (.choose l)).hand .scan := rfl

theorem frameLost_kept {s : State} {l : Nat} (h : (s.line l).state ≠ .up) (f : BusFrame) :
    LinesKept s (s.frameLost l f) := by
  unfold State.frameLost
  split
  · exact LinesKept.probeFailed_notUp h f
  · exact LinesKept.measureFailed s f
  all_goals exact LinesKept.refl s

theorem framesLost_kept (fs : List BusFrame) {s : State} {l : Nat} (h : (s.line l).state ≠ .up) :
    LinesKept s (fs.foldl (fun u f => u.frameLost l f) s) := by
  induction fs generalizing s with
  | nil => exact LinesKept.refl s
  | cons f fs ih =>
    have hlost := frameLost_kept h f
    exact hlost.trans (ih (by rw [line_congr hlost]; exact h))

theorem goneDown_line (s : State) {l : Nat} (hl : l < 8) : (s.modLine l LineRec.goneDown).line l = (s.line l).goneDown := by
  rw [line_modLine, if_pos ⟨rfl, hl⟩]

/-- What follows a line's record going DOWN reaches no line. -/
theorem lineGoesDown_kept (s : State) {l : Nat} (hl : l < 8) :
    LinesKept (s.modLine l LineRec.goneDown) (s.lineGoesDown l) := by
  have hdown : ((s.modLine l LineRec.goneDown).line l).state ≠ .up := by
    rw [goneDown_line s hl]
    exact LineState.noConfusion
  have hlost : LinesKept (s.modLine l LineRec.goneDown) (s.framesLost l) := framesLost_kept _ hdown
  rw [lineGoesDown_eq]
  exact (hlost.trans (LinesKept.foldl (fun u n => u.lineDownLeg n) LinesKept.lineDownLeg _ _)).trans
    (LinesKept.raise _ _)

theorem lineGoesDown_line_same (s : State) {l : Nat} (hl : l < 8) :
    (s.lineGoesDown l).line l = (s.line l).goneDown := by
  rw [line_congr (lineGoesDown_kept s hl), goneDown_line s hl]

theorem lineGoesDown_line_other (s : State) {l m : Nat} (hl : l < 8) (h : m ≠ l) :
    (s.lineGoesDown l).line m = s.line m := by
  rw [line_congr (lineGoesDown_kept s hl), line_modLine, if_neg fun hc => h hc.1.symm]

/-- What follows a line's record going DOWN is internal. -/
theorem lineGoesDown_inner (s : State) (l : Nat) : Inner (s.modLine l LineRec.goneDown) (s.lineGoesDown l) :=
  ((((Inner.foldl _ (fun u f => Inner.frameLost u l f) _ _).trans
    (Inner.foldl _ (fun u n => Inner.lineDownLeg u n) _ _)).trans (Inner.raise _ _)).trans (Inner.hand _ _)).trans
    (Inner.hand _ _)

section LineDownLeg

variable {s : State} {n : Nat} {g : Leg}

theorem lineDownLeg_issued (h : (s.slot n).leg = some g) (hs : g.stage = .issued) :
    s.lineDownLeg n = s.legFaulted n g .lineDown .unchanged := by
  unfold State.lineDownLeg
  rw [h]
  dsimp only
  rw [hs]

theorem lineDownLeg_moving (h : (s.slot n).leg = some g) (hs : g.stage = .running ∨ g.stage = .stopping) :
    s.lineDownLeg n = s.lapse n g .lineDown := by
  unfold State.lineDownLeg
  rw [h]
  rcases hs with hs | hs <;> (dsimp only; rw [hs])

theorem lineDownLeg_other (h : (s.slot n).leg = some g)
    (hs : g.stage = .claiming ∨ g.stage = .queued ∨ g.stage = .lapsing) : s.lineDownLeg n = s := by
  unfold State.lineDownLeg
  rw [h]
  rcases hs with hs | hs | hs <;> (dsimp only; rw [hs])

end LineDownLeg

/-- Settles O53. -/
theorem lineGoesDown : Obligations.LineGoesDown := by
  refine ⟨fun s l hl => ⟨lineGoesDown_line_same s hl, fun m hm => lineGoesDown_line_other s hl hm,
      (lineGoesDown_inner s l).units⟩,
    fun s n g hg => ⟨lineDownLeg_issued hg, lineDownLeg_moving hg, lineDownLeg_other hg⟩, fun s l => ⟨rfl, ?_, ?_⟩⟩
  · exact pairwise_slotsOn _ l
  · intro n
    exact (mem_slotsOn _ l n).trans (and_congr_right fun _ => onLine_iff _ l)

/-! ## A transaction fails -/

section Fails

variable {s : State} {l : Nat} {t : Txn}

/-- A failed transaction handed to its owner, its line's record written before. -/
def State.failureHanded (s : State) (l : Nat) (t : Txn) : State :=
  (s.modLine l fun r => { r.endTxn t with failureRun := joinRun t.frame.drop r.failureRun }).ownerFailed l t.frame

theorem txnFails_eq (s : State) (l : Nat) (t : Txn) :
    s.txnFails l t = if 3 ≤ ((s.failureHanded l t).line l).failureRun.length then (s.failureHanded l t).lineGoesDown l
      else (s.failureHanded l t).hand (.choose l) := rfl

theorem joinRun_eq (d : Nat) (run : List Nat) : joinRun d run = if d ∈ run then run else run ++ [d] := by
  unfold joinRun
  exact ite_congr_iff (by simp) rfl rfl

theorem failureHanded_turn (s : State) {l : Nat} (hl : l < 8) (t : Txn) :
    ((s.failureHanded l t).line l).txn = none ∧
      ((s.failureHanded l t).line l).pollTurn = ((s.line l).pollTurn || t.fromNormal) := by
  obtain ⟨htxn, hturn⟩ := TurnsKept.ownerFailed
    (s.modLine l fun r => { r.endTxn t with failureRun := joinRun t.frame.drop r.failureRun }) l t.frame l
  rw [line_modLine, if_pos ⟨rfl, hl⟩] at htxn hturn
  exact ⟨htxn, hturn⟩

theorem txnFails_txn (s : State) {l : Nat} (hl : l < 8) (t : Txn) : ((s.txnFails l t).line l).txn = none := by
  obtain ⟨htxn, _⟩ := failureHanded_turn s hl t
  rw [txnFails_eq]
  split
  · rw [lineGoesDown_line_same _ hl]
    exact htxn
  · exact htxn

/-- The failure run and the state of the line and the other records as a transaction fails. -/
structure State.FailedTo (s : State) (l : Nat) (t : Txn) (u : State) : Prop where
  run : (u.line l).failureRun =
    if t.frame.drop ∈ (s.line l).failureRun then (s.line l).failureRun else (s.line l).failureRun ++ [t.frame.drop]
  state : (u.line l).state = if 3 ≤ (u.line l).failureRun.length then .down else (s.line l).state
  budget : u.gate.budget = s.gate.budget
  pins : u.pins = s.pins
  now : u.now = s.now
  control : u.link.control = s.link.control
  others : ∀ m, m ≠ l → (u.line m).state = (s.line m).state ∧ (u.line m).failureRun = (s.line m).failureRun

theorem txnFails_pollTurn (s : State) {l : Nat} (hl : l < 8) (t : Txn) :
    ((s.txnFails l t).line l).pollTurn =
      if 3 ≤ ((s.txnFails l t).line l).failureRun.length then false else (s.line l).pollTurn || t.fromNormal := by
  obtain ⟨_, hturn⟩ := failureHanded_turn s hl t
  rw [txnFails_eq]
  split
  · next hrun =>
    rw [lineGoesDown_line_same _ hl]
    exact (if_pos hrun).symm
  · next hrun => exact hturn.trans (if_neg hrun).symm

theorem failureHanded_inner (s : State) (l : Nat) (t : Txn) :
    Inner (s.modLine l fun r => { r.endTxn t with failureRun := joinRun t.frame.drop r.failureRun })
      (s.failureHanded l t) := Inner.ownerFailed _ l t.frame

theorem txnFails_failedTo (s : State) {l : Nat} (hl : l < 8) (t : Txn) : s.FailedTo l t (s.txnFails l t) := by
  have hinner := failureHanded_inner s l t
  have hrun := hinner.failureRun l
  have hstate := hinner.lineState l
  rw [line_modLine, if_pos ⟨rfl, hl⟩] at hrun hstate
  have hothers (m : Nat) (hm : m ≠ l) : ((s.failureHanded l t).line m).state = (s.line m).state ∧
      ((s.failureHanded l t).line m).failureRun = (s.line m).failureRun := by
    have hr := hinner.failureRun m
    have hs := hinner.lineState m
    rw [line_modLine, if_neg fun hc => hm hc.1.symm] at hr hs
    exact ⟨hs, hr⟩
  rw [txnFails_eq]
  split
  · next hlen =>
    have hdown := lineGoesDown_inner (s.failureHanded l t) l
    have hline := lineGoesDown_line_same (s.failureHanded l t) hl
    exact {
      run := by rw [hline, ← joinRun_eq]; exact hrun
      state := by rw [hline]; exact (if_pos hlen).symm
      budget := hdown.budget.trans hinner.budget
      pins := hdown.pins.trans hinner.pins
      now := hdown.now.trans hinner.now
      control := hdown.control.trans hinner.control
      others := fun m hm => by rw [lineGoesDown_line_other _ hl hm]; exact hothers m hm }
  · next hlen =>
    exact {
      run := hrun.trans (joinRun_eq _ _)
      state := hstate.trans (if_neg hlen).symm
      budget := hinner.budget
      pins := hinner.pins
      now := hinner.now
      control := hinner.control
      others := hothers }

/-- What a block runs to rest with no control frame waiting leaves them. -/
theorem failedTo_rest {u : State} (h : s.FailedTo l t u) (hc : s.link.control = []) : s.FailedTo l t u.rest := by
  have hkept := Kept.rest u (h.control.trans hc)
  exact {
    run := (hkept.failureRun l).trans h.run
    state := by rw [hkept.lineState, hkept.failureRun, h.state]
    budget := hkept.budget.trans h.budget
    pins := hkept.pins.trans h.pins
    now := hkept.now.trans h.now
    control := hkept.control.trans h.control
    others := fun m hm => ⟨(hkept.lineState m).trans (h.others m hm).1, (hkept.failureRun m).trans (h.others m hm).2⟩ }

end Fails

/-! ## An attempt ends -/

section Attempt

variable {s : State} {l : Fin 8} {t : Txn}

theorem windowExpires_early (ht : (s.line l.val).txn = some t) {d : Nat} (hw : t.window = some d) (hd : s.now < d) :
    s.windowExpires l.val = s := by
  unfold State.windowExpires
  rw [ht]
  exact if_neg (by simpa [hw] using hd)

/-- The window's expiry at its deadline and a corrupt answer end the attempt. -/
theorem exec_attemptEnds (ht : (s.line l.val).txn = some t) {d : Nat} (hw : t.window = some d) {c : Instr}
    (h : (c = .answerWindowExpiry l ∧ d ≤ s.now) ∨
      ∃ bytes, c = .corruptAnswer l bytes ∧ validAnswer? t.frame bytes = none) :
    exec c s = .next (s.attemptEnds l.val t).rest := by
  rcases h with ⟨rfl, hd⟩ | ⟨bytes, rfl, hbytes⟩
  · have hexpires : s.windowExpires l.val = s.attemptEnds l.val t := by
      unfold State.windowExpires
      rw [ht]
      exact if_pos (by simpa [hw] using hd)
    exact congrArg (fun u : State => Host.Outcome.next u.rest) hexpires
  · have hreceive : s.receiveBus l.val bytes = s.attemptEnds l.val t := by
      unfold State.receiveBus
      rw [ht]
      dsimp only
      rw [if_pos (by simp [hw]), hbytes]
    exact congrArg (fun u : State => Host.Outcome.next u.rest) hreceive

theorem attemptEnds_first (h : t.attempt = .first) :
    s.attemptEnds l.val t = s.modLine l.val fun r => { r with txn := some { t with attempt := .second, window := none } } := by
  unfold State.attemptEnds
  rw [h]

theorem attemptEnds_second (h : t.attempt = .second) : s.attemptEnds l.val t = s.txnFails l.val t := by
  unfold State.attemptEnds
  rw [h]

end Attempt

theorem ownerFailed_eq (s : State) (l : Nat) (f : BusFrame) :
    (∀ id, f.owner = .leg id → s.ownerFailed l f = s.goFailed f.slot id) ∧
    (∀ id, f.owner = .poll id → s.ownerFailed l f = s.pollFailed f.slot id) ∧
    (∀ id, f.owner = .readback id → s.ownerFailed l f = s.readbackFailed f.slot id) ∧
    (f.owner = .probe → s.ownerFailed l f = s.probeFailed l f) ∧
    (f.owner = .measure → s.ownerFailed l f = s.measureFailed f) ∧
    (f.owner = .noOne → s.ownerFailed l f = s) := by
  unfold State.ownerFailed
  refine ⟨?_, ?_, ?_, ?_, ?_, ?_⟩ <;> intros <;> simp_all only

/-- Settles O51. -/
theorem attemptEnds : Obligations.AttemptEnds := by
  refine ⟨fun s l t ht => ⟨fun d hq hw hd => ?early, fun d c hw hc => ⟨fun hfirst hq => ?first, fun hsecond => ?second,
      fun hsecond hcontrol => ?failed⟩⟩, fun s l t => ?fails, ownerFailed_eq⟩
  case early => exact congrArg Host.Outcome.next (rest_same hq (windowExpires_early ht hw hd))
  case first =>
    rw [exec_attemptEnds ht hw hc, attemptEnds_first hfirst]
    exact congrArg Host.Outcome.next (rest_quiet _ (quiet_of_link hq rfl (quiet_handed hq)))
  case second =>
    rw [exec_attemptEnds ht hw hc, attemptEnds_second hsecond]
    exact ⟨rfl, txnFails_txn s l.isLt t, txnFails_pollTurn s l.isLt t⟩
  case failed =>
    have hfailed := failedTo_rest (txnFails_failedTo s l.isLt t) hcontrol
    refine ⟨(s.txnFails l.val t).rest, ?_, hfailed.run, hfailed.state, hfailed.budget, hfailed.pins, hfailed.now,
      hfailed.others⟩
    rw [exec_attemptEnds ht hw hc, attemptEnds_second hsecond]
  case fails =>
    have hrun : (fun r : LineRec => { r.endTxn t with failureRun := joinRun t.frame.drop r.failureRun }) =
        fun r : LineRec =>
          { r with
            txn := none
            pollTurn := r.pollTurn || t.fromNormal
            failureRun := if t.frame.drop ∈ r.failureRun then r.failureRun else r.failureRun ++ [t.frame.drop] } := by
      funext r
      rw [joinRun_eq]
      rfl
    rw [txnFails_eq]
    unfold State.failureHanded
    rw [hrun]

end Sys2Proof.Machine
end

