-- ==== Sys2Proof/Proofs/ValidAnswers.lean ====
section
/-! PROOFS. A valid answer ends its transaction and reaches its owner (R107, R143, R150, R154). -/

namespace Sys2Proof.Machine

/-! ## A transaction succeeds -/

theorem noteRefusal_eq (r : LineRec) (f : BusFrame) (a : BusAnswer) :
    r.noteRefusal f a =
      { r with
        lastRefusal := match a with
          | .refused reason => some { drop := f.drop, kind := f.body.code, reason := reason.toNat }
          | .taken => r.lastRefusal
          | .state _ _ _ => r.lastRefusal
          | .pageData _ _ _ _ _ _ _ _ _ => r.lastRefusal } := by
  cases a <;> rfl

/-- The line record once a valid answer has ended its transaction. -/
def LineRec.answeredBy (r : LineRec) (t : Txn) (a : BusAnswer) : LineRec :=
  { r with
    txn := none
    failureRun := []
    pollTurn := r.pollTurn || t.fromNormal
    lastRefusal := match a with
      | .refused reason => some { drop := t.frame.drop, kind := t.frame.body.code, reason := reason.toNat }
      | .taken => r.lastRefusal
      | .state _ _ _ => r.lastRefusal
      | .pageData _ _ _ _ _ _ _ _ _ => r.lastRefusal }

theorem txnSucceeds_eq (s : State) (l : Nat) (t : Txn) (a : BusAnswer) :
    s.txnSucceeds l t a = ((s.modLine l fun r => r.answeredBy t a).ownerAnswered l t.frame a).hand (.choose l) := by
  unfold State.txnSucceeds
  rw [funext fun r => noteRefusal_eq ({ LineRec.endTxn r t with failureRun := [] } : LineRec) t.frame a]
  rfl

theorem txnSucceeds_turn (s : State) {l : Nat} (hl : l < 8) (t : Txn) (a : BusAnswer) :
    ((s.txnSucceeds l t a).line l).txn = none ∧
      ((s.txnSucceeds l t a).line l).pollTurn = ((s.line l).pollTurn || t.fromNormal) := by
  obtain ⟨htxn, hturn⟩ := TurnsKept.ownerAnswered (s.modLine l fun r => r.answeredBy t a) l t.frame a l
  rw [line_modLine, if_pos ⟨rfl, hl⟩] at htxn hturn
  rw [txnSucceeds_eq]
  exact ⟨htxn, hturn⟩

theorem txnSucceeds_inner (s : State) (l : Nat) (t : Txn) (a : BusAnswer) :
    Inner (s.modLine l fun r => r.answeredBy t a) (s.txnSucceeds l t a) := by
  rw [txnSucceeds_eq]
  exact (Inner.ownerAnswered _ l t.frame a).trans (Inner.hand _ _)

section Valid

variable {s : State} {l : Fin 8} {drop : Fin 16} {a : BusAnswer} {t : Txn}

theorem exec_validAnswer (ht : (s.line l.val).txn = some t) (hw : t.window.isSome = true)
    (hdrop : t.frame.drop = drop.val) (ha : t.frame.body.admits a = true) :
    exec (.validAnswer l drop a) s = .next (s.txnSucceeds l.val t a).rest := by
  have hreceive : s.receiveBus l.val (a.bytes drop.val) = s.txnSucceeds l.val t a := by
    unfold State.receiveBus
    rw [ht]
    dsimp only
    rw [if_pos hw, validAnswer_bytes t.frame a drop.isLt, if_pos ⟨hdrop, ha⟩]
  exact congrArg (fun u : State => Host.Outcome.next u.rest) hreceive

/-- With no control frame waiting an answer empties the failure run of its line and changes no line's state. -/
theorem validAnswer_lines (hc : s.link.control = []) :
    ((s.txnSucceeds l.val t a).rest.line l.val).failureRun = [] ∧
    ((s.txnSucceeds l.val t a).rest.line l.val).state = (s.line l.val).state ∧
    (s.txnSucceeds l.val t a).rest.gate.budget = s.gate.budget ∧ (s.txnSucceeds l.val t a).rest.pins = s.pins ∧
    (s.txnSucceeds l.val t a).rest.now = s.now ∧
    ∀ m, m ≠ l.val → ((s.txnSucceeds l.val t a).rest.line m).state = (s.line m).state ∧
      ((s.txnSucceeds l.val t a).rest.line m).failureRun = (s.line m).failureRun := by
  have hinner := txnSucceeds_inner s l.val t a
  have hkept := hinner.kept.trans (Kept.rest _ (hinner.control.trans hc))
  have hrun := hkept.failureRun
  have hstate := hkept.lineState
  refine ⟨?_, ?_, hkept.budget, hkept.pins, hkept.now, fun m hm => ⟨?_, ?_⟩⟩
  · rw [hrun, line_modLine, if_pos ⟨rfl, l.isLt⟩]
    rfl
  · rw [hstate, line_modLine, if_pos ⟨rfl, l.isLt⟩]
    rfl
  · rw [hstate, line_modLine, if_neg fun h => hm h.1.symm]
  · rw [hrun, line_modLine, if_neg fun h => hm h.1.symm]

/-- The answer handed to nobody, with nothing then to choose, changes its line alone. -/
theorem txnSucceeds_noOne (hq : s.quiet = true) (ho : t.frame.owner = .noOne) (hu : (s.line l.val).urgent = [])
    (hn : (s.line l.val).normal = []) (hp : s.pollsDue l.val = []) :
    (s.txnSucceeds l.val t a).rest = s.modLine l.val fun r => r.answeredBy t a := by
  obtain ⟨v, hv⟩ : ∃ v, v = s.modLine l.val fun r => r.answeredBy t a := ⟨_, rfl⟩
  have hline : v.line l.val = (s.line l.val).answeredBy t a := by rw [hv, line_modLine, if_pos ⟨rfl, l.isLt⟩]
  have hquiet : v.quiet = true := by
    rw [hv]
    exact quiet_of_link hq rfl (quiet_handed hq)
  have hpolls : v.pollsDue l.val = [] := by
    rw [← hp]
    refine pollsDue_congr ?_ ?_ ?_
    · rw [hv]; rfl
    · rw [hv]; rfl
    · rw [hline]; rfl
  have hchoose : v.choose l.val = v := by
    refine choose_nothing ?_ ?_ hpolls
    · rw [hline]; exact hu
    · rw [hline]; exact hn
  have howner : v.ownerAnswered l.val t.frame a = v := by
    unfold State.ownerAnswered
    rw [ho]
  rw [txnSucceeds_eq, ← hv, howner,
    rest_hand_quiet (quiet_handed hquiet) (.choose l.val) (by rw [State.takeHanded, hchoose]; exact hquiet)]
  exact hchoose

end Valid

/-- With no urgent and no normal frame an arbiter takes a poll at most, which its line alone shows. -/
theorem choose_no_frames {s : State} {l : Nat} (hu : (s.line l).urgent = []) (hn : (s.line l).normal = []) :
    ∃ ls, s.choose l = { s with lines := ls } := by
  unfold State.choose
  dsimp only
  split
  · exact ⟨_, rfl⟩
  · split
    · cases hp : nextPoll (s.line l).pollCursor (s.pollsDue l) with
      | none => exact ⟨_, chooseUp_idle hu hn (nextPoll_none.1 hp)⟩
      | some m => exact ⟨_, chooseUp_poll hu hn hp⟩
    · rw [hu]
      exact ⟨_, rfl⟩
    · exact ⟨_, rfl⟩

/-- TAKEN to a leg's GO that no stop event has reached: the leg runs, and its line's arbiter chooses. -/
theorem txnSucceeds_go {s : State} {l : Fin 8} {t : Txn} {n : Nat} {g : Leg} (hq : s.quiet = true)
    (hslot : t.frame.slot = n) (ho : t.frame.owner = .leg g.id) (hg : (s.slot n).leg = some g)
    (hstage : g.stage = .issued) (hcause : g.haltCause = none) (hu : (s.line l.val).urgent = [])
    (hn : (s.line l.val).normal = []) :
    ∃ ls, (s.txnSucceeds l.val t .taken).rest =
      { s.modSlot n fun r =>
          { r with leg := some { g with stage := .running, deadline := some (s.now + s.legDuration n g) } } with
        lines := ls } := by
  obtain ⟨v, hv⟩ : ∃ v, v = s.modLine l.val fun r => r.answeredBy t .taken := ⟨_, rfl⟩
  have howner : v.ownerAnswered l.val t.frame .taken = v.goTaken n g.id := by
    unfold State.ownerAnswered
    rw [ho, hslot]
  have htaken : v.goTaken n g.id = v.modSlot n fun r =>
      { r with leg := some { g with stage := .running, deadline := some (s.now + s.legDuration n g) } } := by
    rw [goTaken_issued (s := v) (by rw [hv]; exact hg) hstage hcause, hv]
    rfl
  obtain ⟨w, hw⟩ : ∃ w, w = v.modSlot n fun r =>
      { r with leg := some { g with stage := .running, deadline := some (s.now + s.legDuration n g) } } := ⟨_, rfl⟩
  have hline : w.line l.val = (s.line l.val).answeredBy t .taken := by
    rw [hw, modSlot_line, hv, line_modLine, if_pos ⟨rfl, l.isLt⟩]
  have hquiet : w.quiet = true := by
    rw [hw, hv]
    exact quiet_of_link hq rfl (quiet_handed hq)
  obtain ⟨ls, hchoose⟩ := choose_no_frames (s := w) (l := l.val) (by rw [hline]; exact hu) (by rw [hline]; exact hn)
  have hquiet' : (w.takeHanded (.choose l.val)).quiet = true := by
    rw [State.takeHanded, hchoose]
    exact quiet_of_link hquiet rfl (quiet_handed hquiet)
  refine ⟨ls, ?_⟩
  rw [txnSucceeds_eq, ← hv, howner, htaken, ← hw, rest_hand_quiet (quiet_handed hquiet) _ hquiet', State.takeHanded,
    hchoose, hw, hv]
  rfl

theorem ownerAnswered_eq (s : State) (l : Nat) (f : BusFrame) (a : BusAnswer) :
    (∀ id, f.owner = .leg id →
      s.ownerAnswered l f .taken = s.goTaken f.slot id ∧
        ∀ reason, s.ownerAnswered l f (.refused reason) = s.goRefused f.slot id) ∧
    (∀ id run x y, f.owner = .poll id →
      s.ownerAnswered l f (.state run x y) = s.stateTaken f.slot id false run x.toNat y.toNat) ∧
    (∀ id run x y, f.owner = .readback id →
      s.ownerAnswered l f (.state run x y) = s.stateTaken f.slot id true run x.toNat y.toNat) ∧
    (f.owner = .probe → s.ownerAnswered l f a = s.probeAnswered l f a) ∧
    (f.owner = .measure → s.ownerAnswered l f a = s.measureAnswered f a) ∧
    (f.owner = .noOne → s.ownerAnswered l f a = s) := by
  unfold State.ownerAnswered
  refine ⟨fun id h => ?_, fun id run x y h => ?_, fun id run x y h => ?_, fun h => ?_, fun h => ?_, fun h => ?_⟩
  · rw [h]
    exact ⟨rfl, fun _ => rfl⟩
  all_goals rw [h]

/-- Settles O52. -/
theorem validAnswer : Obligations.ValidAnswer := by
  refine ⟨fun s l drop a t ht hw hdrop ha => ⟨⟨exec_validAnswer ht hw hdrop ha, txnSucceeds_turn s l.isLt t a⟩,
      fun hc => ⟨_, exec_validAnswer ht hw hdrop ha, validAnswer_lines hc⟩, fun hq ho hbody hu hn hp => ?halt⟩,
    fun s l drop t n g hq ht hw hdrop hslot ho hbody hn hg hstage hcause hu hnormal hwaiting => ?go,
    txnSucceeds_eq, ownerAnswered_eq⟩
  case halt =>
    rw [exec_validAnswer ht hw hdrop ha, txnSucceeds_noOne hq ho hu hn hp]
    refine congrArg Host.Outcome.next (modLine_congr ?_)
    unfold LineRec.answeredBy
    rw [hdrop, hbody]
    rfl
  case go =>
    obtain ⟨ls, hrest⟩ := txnSucceeds_go hq hslot ho hg hstage hcause hu hnormal
    refine ⟨_, exec_validAnswer ht hw hdrop (by rw [hbody]; rfl), ?_⟩
    rw [hrest]
    exact ⟨slot_modSlot_same s n (fun r =>
      { r with leg := some { g with stage := .running, deadline := some (s.now + s.legDuration n g) } }) hn, fun m hm => slot_modSlot_other s n m (fun r =>
      { r with leg := some { g with stage := .running, deadline := some (s.now + s.legDuration n g) } }) hm.symm,
      rfl, rfl, rfl⟩

end Sys2Proof.Machine
end

