-- ==== Sys2Proof/Proofs/ProbeReading.lean ====
section
/-! PROOFS. How a probe reads the slot in hand (R154, R172 to R174). -/

namespace Sys2Proof.Machine

/-! ## The probe record -/

theorem probeRec_iff (s : State) (p : ProbeRec) :
    s.probeRec = some p ↔ ∃ c, s.link.current = some c ∧ c.work = .probe p := by
  unfold State.probeRec
  cases s.link.current with
  | none => simp
  | some c => cases hw : c.work <;> simp [hw]

/-- The state with the probe record of the current request written. -/
def State.withProbe (s : State) (c : Current) (p : ProbeRec) : State :=
  { s with link := { s.link with current := some { c with work := .probe p } } }

section Record

variable {s : State} {c : Current} {p : ProbeRec}

theorem probeRec_of (hc : s.link.current = some c) (hw : c.work = .probe p) : s.probeRec = some p :=
  (probeRec_iff s p).2 ⟨c, hc, hw⟩

theorem modProbe_eq (hc : s.link.current = some c) (hw : c.work = .probe p) (f : ProbeRec → ProbeRec) :
    s.modProbe f = s.withProbe c (f p) := by
  unfold State.modProbe
  rw [probeRec_of hc hw]
  exact modLink_work hc _

@[simp]
theorem withProbe_probeRec (s : State) (c : Current) (p : ProbeRec) : (s.withProbe c p).probeRec = some p := rfl

@[simp]
theorem withProbe_withProbe (s : State) (c : Current) (p q : ProbeRec) :
    (s.withProbe c p).withProbe c q = s.withProbe c q := rfl

@[simp]
theorem withProbe_modProbe (s : State) (c : Current) (p : ProbeRec) (f : ProbeRec → ProbeRec) :
    (s.withProbe c p).modProbe f = s.withProbe c (f p) := rfl

end Record

/-! ## Frames offered -/

section Reading

variable {s : State} {l n : Nat} {q : ProbeLine}

theorem offer_up (h : (s.line l).state = .up) (f : BusFrame) :
    s.offer? l f = some ((s.modLine l fun r => r.offer f).hand (.choose l)) := by
  unfold State.offer?
  rw [h]

theorem probeOffer_up (h : (s.line l).state = .up) (body : FrameBody) :
    s.probeOffer l n body =
      (s.modLine l fun r =>
        r.offer { slot := n, drop := (s.slot n).dropNo, body := body, owner := .probe }).hand (.choose l) := by
  unfold State.probeOffer
  rw [offer_up h]
  rfl

theorem modProbe_records (s : State) (f : ProbeRec → ProbeRec) : ∃ k, s.modProbe f = { s with link := k } := by
  unfold State.modProbe
  split
  · exact ⟨_, rfl⟩
  · exact ⟨_, rfl⟩

theorem modProbe_slot (s : State) (f : ProbeRec → ProbeRec) (n : Nat) : (s.modProbe f).slot n = s.slot n := by
  obtain ⟨k, h⟩ := modProbe_records s f
  rw [h]
  rfl

theorem modProbe_line (s : State) (f : ProbeRec → ProbeRec) (l : Nat) : (s.modProbe f).line l = s.line l := by
  obtain ⟨k, h⟩ := modProbe_records s f
  rw [h]
  rfl

/-- A page kept: the next one is offered. -/
theorem probePageOn_up (h : (s.line l).state = .up) (w : ProbeLine) (k : Nat) :
    s.probePageOn l n w k =
      ((s.modProbe fun p => p.setLine l { w with page := k + 1, pages := w.pages + 1 }).modLine l fun r =>
        r.offer { slot := n, drop := (s.slot n).dropNo, body := .page (k + 1), owner := .probe }).hand (.choose l) := by
  unfold State.probePageOn
  rw [probeOffer_up (by rw [modProbe_line]; exact h), modProbe_slot]

/-- Writing a robot's identity leaves its bus address. -/
theorem dropNo_identity (s : State) (n : Nat) (i : Identity) :
    ((s.modSlot n fun r => { r with identity := some i }).slot n).dropNo = (s.slot n).dropNo := by
  rw [slot_modSlot]
  split <;> rfl

/-- Page reading ended: the identity is written and the closing ASK is offered. -/
theorem probeIdentify_up (h : (s.line l).state = .up) (w : ProbeLine) :
    s.probeIdentify l n w =
      ((s.modSlot n fun r => { r with identity := some w.identity }).modLine l fun r =>
        r.offer { slot := n, drop := (s.slot n).dropNo, body := .ask, owner := .probe }).hand (.choose l) := by
  unfold State.probeIdentify
  rw [probeOffer_up (by exact h), dropNo_identity]

/-! ## Answers -/

theorem probeAnswered_page (h : s.probeInHand l n = some q) (drop k : Nat) (kind d0 d1 d2 d3 d4 d5 d6 d7 : Byte) :
    s.probeAnswered l { slot := n, drop := drop, body := .page k, owner := .probe }
      (.pageData kind d0 d1 d2 d3 d4 d5 d6 d7) = s.probePage l n q k kind d0 d1 d2 d3 d4 d5 := by
  unfold State.probeAnswered
  dsimp only
  rw [h]

theorem probeAnswered_refused (h : s.probeInHand l n = some q) (drop k : Nat) (reason : Byte) :
    s.probeAnswered l { slot := n, drop := drop, body := .page k, owner := .probe } (.refused reason) =
      s.probePageRefused l n q k := by
  unfold State.probeAnswered
  dsimp only
  rw [h]

theorem probeAnswered_state (h : s.probeInHand l n = some q) (drop : Nat) (run : RunState) (a b : Word) :
    s.probeAnswered l { slot := n, drop := drop, body := .ask, owner := .probe } (.state run a b) =
      s.probeState l n q run a.toNat b.toNat := by
  unfold State.probeAnswered
  dsimp only
  rw [h]

theorem probeFailed_inHand (h : s.probeInHand l n = some q) (drop : Nat) (body : FrameBody) :
    s.probeFailed l { slot := n, drop := drop, body := body, owner := .probe } = s.probeFail l n .noAnswer := by
  unfold State.probeFailed
  dsimp only
  rw [h]

/-- Page 0: the kind, then the serial, decide. -/
theorem probePage_zero (kind d0 d1 d2 d3 d4 d5 : Byte) :
    s.probePage l n q 0 kind d0 d1 d2 d3 d4 d5 =
      if kind ≠ 1 then s.probeFail l n .badPages
      else if (s.slot n).expectedSerial ≠ none ∧ (s.slot n).expectedSerial ≠ some (serial4 d0 d1 d2 d3) then
        s.probeFail l n .wrongRobot
      else s.probePageOn l n { q with serial := serial4 d0 d1 d2 d3, revision := (word d4 d5).toNat } 0 := by
  have hserial : ((s.slot n).expectedSerial.all fun e => e == serial4 d0 d1 d2 d3) = true ↔
      ¬ ((s.slot n).expectedSerial ≠ none ∧ (s.slot n).expectedSerial ≠ some (serial4 d0 d1 d2 d3)) := by
    cases (s.slot n).expectedSerial <;> simp
  unfold State.probePage
  dsimp only
  by_cases hk : kind = 1
  · rw [if_pos hk, if_neg (Decidable.not_not.2 hk), ite_congr_iff hserial rfl rfl, ite_not]
  · rw [if_neg hk, if_pos hk]

/-- Pages 3 to 7: END, and anything at page 7, ends page reading. -/
theorem probePage_late {k : Nat} (hk : 3 ≤ k) (kind d0 d1 d2 d3 d4 d5 : Byte) :
    s.probePage l n q k kind d0 d1 d2 d3 d4 d5 =
      if kind = 0 then s.probeIdentify l n q
      else if k < 7 then s.probePageOn l n q k
      else s.probeIdentify l n { q with pages := q.pages + 1 } := by
  obtain ⟨j, rfl⟩ : ∃ j, k = j + 3 := ⟨k - 3, by omega⟩
  rfl

theorem probeInHand_iff (s : State) (l n : Nat) (q : ProbeLine) :
    s.probeInHand l n = some q ↔
      ∃ c p, s.link.current = some c ∧ c.work = .probe p ∧ p.line l = q ∧ q.inHand = some n := by
  unfold State.probeInHand
  rw [Option.filter_eq_some_iff, Option.map_eq_some_iff]
  constructor
  · rintro ⟨⟨p, hp, rfl⟩, hin⟩
    obtain ⟨c, hc, hw⟩ := (probeRec_iff s p).1 hp
    exact ⟨c, p, hc, hw, rfl, by simpa using hin⟩
  · rintro ⟨c, p, hc, hw, rfl, hin⟩
    exact ⟨⟨p, probeRec_of hc hw, rfl⟩, by simpa using hin⟩

theorem probe_notInHand (h : s.probeInHand l n = none) (f : BusFrame) (a : BusAnswer) (hf : f.slot = n) :
    s.probeAnswered l f a = s ∧ s.probeFailed l f = s := by
  unfold State.probeAnswered State.probeFailed
  rw [hf, h]
  exact ⟨rfl, rfl⟩

end Reading

/-- Settles O55. -/
theorem probeProceeds : Obligations.ProbeProceeds := by
  refine ⟨fun s l n drop q hq hup => ⟨fun kind d0 d1 d2 d3 d4 d5 d6 d7 => ⟨?zero, ?one, ?two, fun k h3 h6 hk => ?next,
      fun k h3 h7 hk => ?ended, fun hk => ?last⟩, fun k reason hk => ?refused, fun run a b => ?state,
      probeFailed_inHand hq drop⟩,
    fun s l n q c p => ⟨probeInHand_iff s l n q, modProbe_eq, probe_notInHand⟩⟩
  case zero =>
    refine (probeAnswered_page hq drop 0 kind d0 d1 d2 d3 d4 d5 d6 d7).trans ?_
    rw [probePage_zero, probePageOn_up hup]
  case one =>
    refine (probeAnswered_page hq drop 1 kind d0 d1 d2 d3 d4 d5 d6 d7).trans ?_
    exact ite_congr rfl (fun _ => probePageOn_up hup _ 1) fun _ => rfl
  case two =>
    refine (probeAnswered_page hq drop 2 kind d0 d1 d2 d3 d4 d5 d6 d7).trans ?_
    exact ite_congr rfl (fun _ => probePageOn_up hup _ 2) fun _ => rfl
  case next =>
    refine (probeAnswered_page hq drop k kind d0 d1 d2 d3 d4 d5 d6 d7).trans ?_
    rw [probePage_late h3, if_neg hk, if_pos (by omega)]
    exact probePageOn_up hup q k
  case ended =>
    refine (probeAnswered_page hq drop k kind d0 d1 d2 d3 d4 d5 d6 d7).trans ?_
    rw [probePage_late h3, if_pos hk]
    exact probeIdentify_up hup q
  case last =>
    refine (probeAnswered_page hq drop 7 kind d0 d1 d2 d3 d4 d5 d6 d7).trans ?_
    rw [probePage_late (by omega), if_neg hk, if_neg (by omega)]
    exact probeIdentify_up hup { q with pages := q.pages + 1 }
  case refused =>
    refine (probeAnswered_refused hq drop k reason).trans ?_
    exact ite_congr rfl (fun _ => rfl) fun _ => probeIdentify_up hup q
  case state =>
    refine (probeAnswered_state hq drop run a b).trans ?_
    refine ite_congr rfl (fun _ => ?_) fun _ => rfl
    refine (probeOffer_up ?_ .ask).trans ?_
    · rw [modProbe_line, (Inner.placeUrgent s l _).lineState]
      exact hup
    · rw [modProbe_slot]
      rfl

end Sys2Proof.Machine
end

