-- ==== Sys2Proof/Proofs/ProbeEnding.lean ====
section
/-! PROOFS. The end of a probe's slot and of a probe (R170, R171, R173, R174, R176). -/

namespace Sys2Proof.Machine

/-! ## The lines of a probe record -/

theorem probeLine_setLine (p : ProbeRec) (l m : Nat) (q : ProbeLine) :
    (p.setLine l q).line m = if m = l ∧ l < 8 then q else p.line m := by
  unfold ProbeRec.setLine ProbeRec.line
  dsimp only
  rw [Vector.getElem?_setIfInBounds]
  by_cases hm : m = l
  · subst hm
    by_cases hl : m < 8
    · simp [hl]
    · simp [hl]
  · rw [if_neg (Ne.symm hm), if_neg fun h => hm h.1]

theorem probeLines_all (p : ProbeRec) (f : ProbeLine → Bool) :
    p.lines.toList.all f = true ↔ ∀ m, m < 8 → f (p.line m) = true := by
  rw [List.all_eq_true]
  constructor
  · intro h m hm
    have hget : p.lines[m]? = some p.lines[m] := Vector.getElem?_eq_getElem hm
    unfold ProbeRec.line
    rw [hget]
    exact h _ (by simp)
  · intro h q hq
    obtain ⟨m, hm, rfl⟩ := List.getElem_of_mem hq
    have hm8 : m < 8 := by simpa using hm
    have hline : p.line m = p.lines.toList[m] := by
      unfold ProbeRec.line
      rw [Vector.getElem?_eq_getElem hm8]
      simp
    rw [← hline]
    exact h m hm8

theorem done_iff (q : ProbeLine) : q.done = true ↔ q.inHand = none ∧ q.todo = [] := by
  unfold ProbeLine.done
  rw [Bool.and_eq_true, Option.isNone_iff_eq_none, List.isEmpty_iff]

/-! ## The answer of a probe -/

/-- The answer of a probe all of whose lines are done. -/
def ProbeRec.status (p : ProbeRec) : Status := if p.cancelled = true then .part else .ok

def ProbeRec.answer (p : ProbeRec) : List Byte := (if p.cancelled = true then [7] else []) ++ p.payload

section Check

variable {s : State} {c : Current} {p : ProbeRec}

theorem probeCheck_waits (hp : s.probeRec = some p)
    (h : ∃ m, m < 8 ∧ ((p.line m).inHand ≠ none ∨ (p.line m).todo ≠ [])) : s.probeCheck = s := by
  unfold State.probeCheck
  rw [hp]
  refine if_neg fun hall => ?_
  obtain ⟨m, hm, hbusy⟩ := h
  obtain ⟨hin, htodo⟩ := (done_iff _).1 ((probeLines_all p _).1 hall m hm)
  exact hbusy.elim (fun h => h hin) fun h => h htodo

theorem probeCheck_answers (hp : s.probeRec = some p)
    (h : ∀ m, m < 8 → (p.line m).inHand = none ∧ (p.line m).todo = []) :
    s.probeCheck = s.answerCurrent p.status p.answer := by
  have hall : p.lines.toList.all ProbeLine.done = true :=
    (probeLines_all p _).2 fun m hm => (done_iff _).2 (h m hm)
  unfold State.probeCheck ProbeRec.status ProbeRec.answer
  rw [hp]
  dsimp only
  rw [if_pos hall]
  split <;> rfl

/-- The last line's end answers the probe. -/
theorem probeNext_last (hc : s.link.current = some c) (hw : c.work = .probe p) {l : Nat} (hl : l < 8)
    (hothers : ∀ m, m < 8 → m ≠ l → (p.line m).inHand = none ∧ (p.line m).todo = [])
    (hroom : s.outputRoom = true) :
    s.probeNext l [] =
      ({ s with link := { s.link with current := none } } : State).answered c.tag c.code p.status p.answer := by
  have hidle (m : Nat) (hm : m < 8) :
      ((p.setLine l ProbeLine.idle).line m).inHand = none ∧ ((p.setLine l ProbeLine.idle).line m).todo = [] := by
    rw [probeLine_setLine]
    split
    · exact ⟨rfl, rfl⟩
    · next h => exact hothers m hm fun e => h ⟨e, hl⟩
  have hnext : s.probeNext l [] = (s.withProbe c (p.setLine l ProbeLine.idle)).probeCheck := by
    unfold State.probeNext
    rw [probeTakeUp, modProbe_eq hc hw]
  rw [hnext, probeCheck_answers (withProbe_probeRec _ _ _) hidle]
  exact answerCurrent_answered (s := s.withProbe c (p.setLine l ProbeLine.idle)) rfl hroom _ _

end Check

/-! ## A slot taken up -/

section TakeUp

variable {s : State} {l n : Nat} {rest : List Nat} {c : Current} {p : ProbeRec}

/-- A slot begun: its robot PROBING, the slot in hand on its line. -/
def State.begun (s : State) (l n : Nat) (rest : List Nat) (c : Current) (p : ProbeRec) : State :=
  (s.withProbe c (p.setLine l { ProbeLine.idle with todo := rest, inHand := some n })).modSlot n fun r =>
    { r with state := .probing }

theorem probeBegin_eq (hc : s.link.current = some c) (hw : c.work = .probe p) :
    s.probeBegin l n rest = s.begun l n rest c p := by
  unfold State.probeBegin
  rw [modProbe_eq (s := s.modSlot n fun r => { r with state := .probing }) hc hw]
  rfl

theorem probeTakeUp_nil (hc : s.link.current = some c) (hw : c.work = .probe p) :
    probeTakeUp s l [] = s.withProbe c (p.setLine l ProbeLine.idle) := by
  rw [probeTakeUp, modProbe_eq hc hw]

theorem probeTakeUp_cancelled (hc : s.link.current = some c) (hw : c.work = .probe p) (h : p.cancelled = true) :
    probeTakeUp s l (n :: rest) = probeTakeUp (s.withProbe c { p with skipped := p.skipped + 1 }) l rest := by
  rw [probeTakeUp, probeRec_of hc hw, if_pos (by simpa using h), modProbe_eq hc hw]

theorem probeTakeUp_silent (hc : s.link.current = some c) (hw : c.work = .probe p) (h : p.cancelled = false)
    (hl : (s.line l).state = .silent) :
    probeTakeUp s l (n :: rest) = probeTakeUp (s.withProbe c (p.noteFailure n .silent)) l rest := by
  rw [probeTakeUp, probeRec_of hc hw, if_neg (by simp [h]), if_pos hl, modProbe_eq hc hw]

theorem probeTakeUp_notReady (hc : s.link.current = some c) (hw : c.work = .probe p) (h : p.cancelled = false)
    (hl : (s.line l).state ≠ .silent) (hn : (s.slot n).probeable = false) :
    probeTakeUp s l (n :: rest) = probeTakeUp (s.withProbe c { p with skipped := p.skipped + 1 }) l rest := by
  rw [probeTakeUp, probeRec_of hc hw, if_neg (by simp [h]), if_neg hl, if_neg (by simp [hn]), modProbe_eq hc hw]

theorem probeTakeUp_up (hc : s.link.current = some c) (hw : c.work = .probe p) (h : p.cancelled = false)
    (hl : (s.line l).state = .up) (hn : (s.slot n).probeable = true) :
    probeTakeUp s l (n :: rest) =
      ((s.begun l n rest c p).modLine l fun r => r.offer
        { slot := n, drop := (s.slot n).dropNo, body := .page 0, owner := .probe }).hand (.choose l) := by
  rw [probeTakeUp, probeRec_of hc hw, if_neg (by simp [h]), if_neg (by simp [hl]), if_pos hn, probeBegin_eq hc hw,
    offer_up (by exact hl)]
  rfl

theorem probeTakeUp_down (hc : s.link.current = some c) (hw : c.work = .probe p) (h : p.cancelled = false)
    (hl : (s.line l).state = .down) (hn : (s.slot n).probeable = true) :
    probeTakeUp s l (n :: rest) =
      probeTakeUp (((s.begun l n rest c p).faultReport n .noAnswer .unknown).modProbe fun w =>
        w.noteFailure n (.fault .noAnswer)) l rest := by
  have hnotUp : ((s.begun l n rest c p).line l).state ≠ .up := by
    show (s.line l).state ≠ .up
    rw [hl]
    exact LineState.noConfusion
  rw [probeTakeUp, probeRec_of hc hw, if_neg (by simp [h]), if_neg (by simp [hl]), if_pos hn, probeBegin_eq hc hw,
    LinesKept.offer_none hnotUp]
  rfl

theorem probeable_iff (r : SlotRec) :
    r.probeable = true ↔
      r.state ∈ [RobotState.defined, .rest, .held, .faulted] ∧ ∀ g, r.leg = some g → g.stage ≠ .lapsing := by
  have hlapsing : (!r.lapsing) = true ↔ ∀ g, r.leg = some g → g.stage ≠ .lapsing := by
    unfold SlotRec.lapsing
    cases r.leg <;> simp
  unfold SlotRec.probeable
  rw [Bool.and_eq_true, hlapsing]
  refine and_congr_left' ?_
  cases r.state <;> simp

end TakeUp

/-! ## The ends of a slot -/

section Ends

variable {s : State} {l n : Nat} {q : ProbeLine} {c : Current} {p : ProbeRec}

/-- A robot probed with success, before its zones change. -/
def SlotRec.probed (r : SlotRec) (a b : Nat) : SlotRec :=
  { r with position := some { alpha := a, beta := b, source := .reported }, state := .rest, fault := none }

theorem probeSucceed_eq (hn : n < 128) (q : ProbeLine) (a b : Nat) :
    s.probeSucceed l n q a b =
      (((s.modSlot n fun r => r.probed a b).updateZones n).modProbe fun p => { p with ok := p.ok + 1 }).probeNext l
        q.todo := by
  unfold State.probeSucceed
  dsimp only
  rw [modSlot_modSlot hn]
  rfl

theorem probeFail_eq (hc : s.link.current = some c) (hw : c.work = .probe p) (hq : p.line l = q) (kind : FaultKind) :
    s.probeFail l n kind =
      ((s.faultReport n kind .unknown).modProbe fun p => p.noteFailure n (.fault kind)).probeNext l q.todo := by
  unfold State.probeFail
  rw [probeRec_of hc hw, Option.map_some, Option.getD_some, hq]
  rfl

/-- What remains as a probe is answered with a count changed: the records of the state before, and the answer. -/
theorem probeNext_counted {v : State} (hc : v.link.current = some c) (hw : c.work = .probe p) (hl : l < 8)
    (f : ProbeRec → ProbeRec) (hf : (f p).lines = p.lines)
    (hothers : ∀ m, m < 8 → m ≠ l → (p.line m).inHand = none ∧ (p.line m).todo = [])
    (hroom : v.outputRoom = true) :
    (v.modProbe f).probeNext l [] =
      ({ v with link := { v.link with current := none } } : State).answered c.tag c.code (f p).status (f p).answer := by
  rw [modProbe_eq hc hw]
  refine probeNext_last (s := v.withProbe c (f p)) (c := { c with work := .probe (f p) }) rfl rfl hl (fun m hm hne => ?_)
    hroom
  have hline : (f p).line m = p.line m := by
    unfold ProbeRec.line
    rw [hf]
  rw [hline]
  exact hothers m hm hne

/-- A slot counted as failed leaves a first failure: it, or a lower one. -/
theorem noteFailure_first (p : ProbeRec) (n : Nat) (k : ProbeFailure) :
    (p.noteFailure n k).firstFailure =
      some (match p.firstFailure with
        | none => { slot := n, kind := k }
        | some f => if n < f.slot then { slot := n, kind := k } else f) := by
  unfold ProbeRec.noteFailure
  dsimp only
  cases p.firstFailure with
  | none => rfl
  | some f => exact (apply_ite some _ _ _).symm

theorem answered_slot (s : State) (tag code : Byte) (st : Status) (x : List Byte) (m : Nat) :
    (s.answered tag code st x).slot m = s.slot m := by
  rw [answered_eq]
  rfl

theorem answered_zones (s : State) (tag code : Byte) (st : Status) (x : List Byte) :
    (s.answered tag code st x).zones = s.zones := by
  rw [answered_eq]

theorem answered_lines (s : State) (tag code : Byte) (st : Status) (x : List Byte) :
    (s.answered tag code st x).lines = s.lines := by
  rw [answered_eq]

/-- Writing a robot's record and its zones leaves the current request and the output queue. -/
theorem updateZones_probed (hw : s.waitList = []) (n a b : Nat) :
    ∃ z k, (s.modSlot n fun r => r.probed a b).updateZones n =
      { s.modSlot n fun r => r.probed a b with zones := z, link := { s.link with notices := k } } := by
  rw [updateZones_eq n (by exact hw)]
  exact ⟨_, _, rfl⟩

end Ends

/-- Settles O56. -/
theorem probeEnds : Obligations.ProbeEnds := by
  refine ⟨fun s l n q p c hn hl hc hw hq hin htodo hothers hwait hroom => ⟨fun a b => ?succeeds, fun kind hlimit => ?fails⟩,
    fun s l n q c p hc hw hq hn => ⟨fun a b => probeSucceed_eq hn q a b, probeFail_eq hc hw hq⟩,
    fun s l n rest c p hc hw => ⟨⟨rfl, probeCheck_waits (probeRec_of hc hw)⟩, probeTakeUp_nil hc hw,
      probeTakeUp_cancelled hc hw, probeTakeUp_silent hc hw, probeTakeUp_notReady hc hw, probeTakeUp_up hc hw,
      probeTakeUp_down hc hw⟩, fun p n k => rfl, probeable_iff⟩
  case succeeds =>
    obtain ⟨v, hv⟩ : ∃ v, v = (s.modSlot n fun r => r.probed a b).updateZones n := ⟨_, rfl⟩
    obtain ⟨z, k, hvs⟩ := updateZones_probed (s := s) hwait n a b
    rw [← hv] at hvs
    have hvslot (m : Nat) : v.slot m = (s.modSlot n fun r => r.probed a b).slot m := by rw [hvs]; rfl
    have hend := probeNext_counted (v := v) (by rw [hvs]; exact hc) hw hl (fun p => { p with ok := p.ok + 1 }) rfl
      hothers (by rw [hvs]; exact hroom)
    dsimp only
    rw [probeSucceed_eq hn, htodo, ← hv, hend]
    refine ⟨?_, ?_, fun m hm => ?_, ?_, ?_, ?_, ?_⟩
    · rw [answered_slot]
      exact (hvslot n).trans (slot_modSlot_same s n _ hn)
    · rw [answered_zones]
      have hrec : (s.modSlot n fun r => r.probed a b) = s.modSlot n fun _ => (s.slot n).probed a b := modSlot_congr rfl
      show v.zones = _
      rw [hv, hrec]
      rfl
    · rw [answered_slot]
      exact (hvslot m).trans (slot_modSlot_other s n m _ hm.symm)
    · rw [answered_lines]
      show v.lines = s.lines
      rw [hvs]
      rfl
    · rw [answered_gate]
      show v.gate = s.gate
      rw [hvs]
      rfl
    · rw [answered_current]
    · refine answered_output_congr ?_ ?_ _ _ _ _
      · show v.link.output = s.link.output
        rw [hvs]
      · show v.link.plan = s.link.plan
        rw [hvs]
  case fails =>
    obtain ⟨v, hv⟩ : ∃ v, v = s.faultReport n kind .unknown := ⟨_, rfl⟩
    have hbelow := faultReport_below kind .unknown hn hwait hlimit
    rw [← hv] at hbelow
    obtain ⟨hrecords, ⟨o, ts, g, hslot, _⟩, hsame, hzones, hlink⟩ := hbelow
    have hvlink := hlink fun w hw' => by
      rw [hc] at hw'
      obtain rfl := Option.some.inj hw'
      rw [hw]
      exact Work.noConfusion
    have hend := probeNext_counted (v := v) (by rw [hvlink]; exact hc) hw hl (fun p => p.noteFailure n (.fault kind)) rfl
      hothers (by rw [outputRoom_iff, hvlink]; exact (outputRoom_iff s).1 hroom)
    dsimp only
    rw [probeFail_eq hc hw hq, htodo, ← hv, hend]
    refine ⟨?_, ?_, ?_, ?_, ?_, fun m hm => ?_, ?_, ?_, ?_, ?_, ?_⟩
    · rw [answered_slot]
      exact congrArg SlotRec.state hslot
    · rw [answered_slot]
      exact congrArg SlotRec.fault hslot
    · rw [answered_slot]
      exact congrArg SlotRec.faultCount hslot
    · rw [answered_slot]
      exact congrArg SlotRec.position hslot
    · rw [answered_slot]
      show (v.slot n).identity = (s.slot n).identity
      rw [hslot]
    · rw [answered_slot]
      exact hsame m hm
    · rw [answered_lines]
      show v.lines = s.lines
      rw [hrecords]
    · rw [answered_gate]
      show v.gate = s.gate
      rw [hrecords]
    · rw [answered_zones]
      exact hzones rfl
    · rw [answered_current]
    · refine (answered_output_congr (s := s) ?_ ?_ _ _ _ _).trans ?_
      · show v.link.output = s.link.output
        rw [hvlink]
      · show v.link.plan = s.link.plan
        rw [hvlink]
      · unfold ProbeRec.status ProbeRec.answer ProbeRec.payload
        rw [noteFailure_first]
        rfl

end Sys2Proof.Machine
end

