-- ==== Sys2Proof/Proofs/FramesSent.lean ====
section
/-! PROOFS. Frames offered to idle UP lines are sent in the same event (R151, R152). -/

namespace Sys2Proof.Machine

/-- The line record as its arbiter takes the one frame queued. -/
def LineRec.sending (r : LineRec) (f : BusFrame) : LineRec :=
  { r with
    normal := [], waiting := [], pollTurn := false
    txn := some { frame := f, attempt := .first, fromNormal := true, window := none } }

/-- The line is UP and free, with one normal frame to take. -/
structure LineRec.Offers (r : LineRec) (f : BusFrame) : Prop where
  up : r.state = .up
  txn : r.txn = none
  sending : r.sendingHaltAll = false
  urgent : r.urgent = []
  normal : r.normal = [f]
  waiting : r.waiting = []
  turn : r.pollTurn = false

theorem choose_offers {s : State} {l : Nat} {f : BusFrame} (h : (s.line l).Offers f) :
    s.choose l = (s.modLine l fun r => r.sending f).hand .scan := by
  rw [choose_up h.txn h.sending h.up, chooseUp_normal h.urgent (.inl h.turn) h.normal, takeNormal_eq]
  refine congrArg (fun t : State => t.hand .scan) (modLine_congr ?_)
  unfold LineRec.sending
  rw [h.waiting]
  rfl

/-- Scans handed on with no leg queued. -/
theorem settle_scans_idle (j k : Nat) {s : State} (hh : s.handed = List.replicate j .scan)
    (hq : s.gate.startQueue = []) : s.settle (j + k) = ({ s with handed := [] } : State).settle k := by
  induction j generalizing s with
  | zero =>
    have hs : ({ s with handed := [] } : State) = s := by
      have hnil : s.handed = [] := hh
      rw [← hnil]
    rw [hs, Nat.zero_add]
  | succ j ih =>
    have hscan : ({ s with handed := List.replicate j .scan } : State).takeHanded .scan =
        { s with handed := List.replicate j .scan } := scan_empty hq
    rw [Nat.add_right_comm, settle_handed hh, hscan]
    exact ih (s := { s with handed := List.replicate j .scan }) rfl hq

/-- The frames of lines sent, each line's first. -/
def State.sendAll (s : State) (f : Nat → BusFrame) (ls : List Nat) : State :=
  ls.foldl (fun t l => t.modLine l fun r => r.sending (f l)) s

theorem sendAll_eq (f : Nat → BusFrame) (ls : List Nat) (s : State) : ∃ x, s.sendAll f ls = { s with lines := x } := by
  induction ls generalizing s with
  | nil => exact ⟨_, rfl⟩
  | cons l ls ih =>
    obtain ⟨x, hx⟩ := ih (s.modLine l fun r => r.sending (f l))
    exact ⟨x, hx⟩

theorem sendAll_line (f : Nat → BusFrame) {ls : List Nat} (hnodup : ls.Nodup) (hls : ∀ l ∈ ls, l < 8) (s : State)
    (m : Nat) : (s.sendAll f ls).line m = if m ∈ ls then (s.line m).sending (f m) else s.line m := by
  induction ls generalizing s with
  | nil => rfl
  | cons l ls ih =>
    obtain ⟨hl, hnodup'⟩ := List.nodup_cons.1 hnodup
    have hrest := ih hnodup' (fun m hm => hls m (List.mem_cons_of_mem l hm)) (s.modLine l fun r => r.sending (f l))
    refine hrest.trans ?_
    rw [line_modLine]
    by_cases hml : m = l
    · subst hml
      rw [if_neg hl, if_pos ⟨rfl, hls m List.mem_cons_self⟩, if_pos List.mem_cons_self]
    · have hne : ¬ (l = m ∧ l < 8) := fun h => hml h.1.symm
      rw [if_neg hne]
      exact ite_congr_iff (by simp [hml]) rfl rfl

/-- The lines of frames sent depend on the lines alone. -/
theorem sendAll_lines_congr (f : Nat → BusFrame) (ls : List Nat) {s t : State} (h : t.lines = s.lines) :
    (t.sendAll f ls).lines = (s.sendAll f ls).lines := by
  induction ls generalizing s t with
  | nil => exact h
  | cons l ls ih =>
    apply ih (s := s.modLine l fun r => r.sending (f l)) (t := t.modLine l fun r => r.sending (f l))
    unfold State.modLine State.setLine State.line
    dsimp only
    rw [h]

/-- The arbiters that may choose each take their line's frame, and the scans that follow find nothing. -/
theorem settle_sends (f : Nat → BusFrame) (ls : List Nat) (j k : Nat) {s : State}
    (hh : s.handed = ls.map Handed.choose ++ List.replicate j .scan) (hq : s.gate.startQueue = [])
    (hnodup : ls.Nodup) (hoffers : ∀ l ∈ ls, l < 8 ∧ (s.line l).Offers (f l)) :
    s.settle (2 * ls.length + j + k) = ({ s.sendAll f ls with handed := [] } : State).settle k := by
  induction ls generalizing s j with
  | nil =>
    rw [List.length_nil, Nat.mul_zero, Nat.zero_add]
    exact settle_scans_idle j k hh hq
  | cons l ls ih =>
    obtain ⟨hl, hnodup'⟩ := List.nodup_cons.1 hnodup
    obtain ⟨hlt, hline⟩ := hoffers l List.mem_cons_self
    obtain ⟨u, hu⟩ : ∃ u : State, u = { s with handed := ls.map Handed.choose ++ List.replicate j .scan } := ⟨_, rfl⟩
    have huline (m : Nat) : u.line m = s.line m := by rw [hu]; rfl
    obtain ⟨v, hv⟩ : ∃ v : State, v = (u.modLine l fun r => r.sending (f l)).hand .scan := ⟨_, rfl⟩
    have hchoose : u.takeHanded (.choose l) = v := by
      rw [hv]
      exact choose_offers (by rw [huline]; exact hline)
    have hvhanded : v.handed = ls.map Handed.choose ++ List.replicate (j + 1) .scan := by
      rw [hv, hu]
      show (ls.map Handed.choose ++ List.replicate j .scan) ++ [Handed.scan] = _
      rw [List.append_assoc, List.replicate_succ']
    have hvline (m : Nat) (hm : m ∈ ls) : m < 8 ∧ (v.line m).Offers (f m) := by
      obtain ⟨hm8, hoff⟩ := hoffers m (List.mem_cons_of_mem l hm)
      refine ⟨hm8, ?_⟩
      have hne : ¬ (l = m ∧ l < 8) := fun h => hl (h.1 ▸ hm)
      rw [hv, hand_line, line_modLine, if_neg hne, huline]
      exact hoff
    have hfuel : 2 * (l :: ls).length + j + k = (2 * ls.length + (j + 1) + k) + 1 := by
      rw [List.length_cons]
      omega
    have hend : ({ v.sendAll f ls with handed := [] } : State) = { s.sendAll f (l :: ls) with handed := [] } := by
      obtain ⟨x, hx⟩ := sendAll_eq f ls v
      obtain ⟨y, hy⟩ := sendAll_eq f ls (s.modLine l fun r => r.sending (f l))
      have hxy := sendAll_lines_congr f ls (s := s.modLine l fun r => r.sending (f l)) (t := v) (by rw [hv, hu]; rfl)
      rw [hx, hy] at hxy
      have hsend : s.sendAll f (l :: ls) = (s.modLine l fun r => r.sending (f l)).sendAll f ls := rfl
      obtain rfl : x = y := hxy
      rw [hsend, hx, hy, hv, hu]
      rfl
    rw [hfuel, settle_handed (e := .choose l) (rest := ls.map Handed.choose ++ List.replicate j .scan) hh, ← hu, hchoose,
      ih (j + 1) hvhanded (by rw [hv, hu]; exact hq) hnodup' hvline, hend]

end Sys2Proof.Machine
end

