-- ==== Sys2Proof/Proofs/MeasureTaking.lean ====
section
/-! PROOFS. MEASURE_LIST (R178, R179, R183). -/

namespace Sys2Proof.Machine

/-! ## Checks -/

theorem measurable_iff (r : SlotRec) :
    (!r.measurable) = true ↔
      r.state ∉ [RobotState.rest, .held, .faulted] ∨ ∃ g ∈ r.leg, g.stage = .lapsing := by
  have hlapsing : r.lapsing = true ↔ ∃ g ∈ r.leg, g.stage = .lapsing := by
    unfold SlotRec.lapsing
    cases r.leg <;> simp
  unfold SlotRec.measurable
  rw [Bool.not_and, Bool.not_not, Bool.or_eq_true, hlapsing]
  refine or_congr_left ?_
  cases r.state <;> simp

theorem measureCheck_eq (s : State) (e : MeasureEntry) :
    s.measureCheck e =
      if 127 < e.slot.toNat then some .badRequest
      else if (s.slot e.slot.toNat).state = .vacant then some .noRobot
      else if (s.slot e.slot.toNat).state ∉ [RobotState.rest, .held, .faulted] ∨
          ∃ g ∈ (s.slot e.slot.toNat).leg, g.stage = .lapsing then some .state
      else if ¬ (e.alpha.toNat ≤ (s.slot e.slot.toNat).calib.alphaMax ∧
          (s.slot e.slot.toNat).calib.betaFold ≤ e.beta.toNat ∧
          e.beta.toNat ≤ (s.slot e.slot.toNat).calib.betaMax) then some .outOfRange
      else none := by
  unfold State.measureCheck
  dsimp only
  refine ite_congr rfl (fun _ => rfl) fun _ => ite_congr rfl (fun _ => rfl) fun _ => ?_
  refine ite_congr_iff (measurable_iff _) rfl (ite_congr_iff ?_ rfl rfl)
  unfold Calibration.inRange
  rw [← decide_not, decide_eq_true_iff]

/-- An entry in hand that fails a check stops the list. -/
theorem measureEntry_fails {s : State} {m : MeasureRec} {e : MeasureEntry} {st : Status}
    (he : m.entries[m.index]? = some e) (h : s.measureCheck e = some st) :
    s.measureEntry m = s.answerCurrent .part (b2 m.applied ++ b2 m.index ++ b1 st.code) := by
  unfold State.measureEntry
  rw [he]
  dsimp only
  rw [h]
  rfl

/-- An entry in hand that passes on an UP line is offered. -/
theorem measureEntry_offers {s : State} {m : MeasureRec} {e : MeasureEntry} (he : m.entries[m.index]? = some e)
    (h : s.measureCheck e = none) (hup : (s.line (s.slot e.slot.toNat).lineNo).state = .up) :
    s.measureEntry m =
      (s.modLine (s.slot e.slot.toNat).lineNo fun r => r.offer (s.setCountFrame e)).hand
        (.choose (s.slot e.slot.toNat).lineNo) := by
  unfold State.measureEntry
  rw [he]
  dsimp only
  rw [h]
  dsimp only
  rw [offer_up hup]

/-- On a line that is not UP it is settled as one without an answer. -/
theorem measureEntry_turnedAway {s : State} {m : MeasureRec} {e : MeasureEntry} (he : m.entries[m.index]? = some e)
    (h : s.measureCheck e = none) (hup : (s.line (s.slot e.slot.toNat).lineNo).state ≠ .up) :
    s.measureEntry m = s.measureUnanswered m e := by
  unfold State.measureEntry
  rw [he]
  dsimp only
  rw [h]
  dsimp only
  rw [LinesKept.offer_none hup]

theorem measureEntry_past {s : State} {m : MeasureRec} (he : m.entries[m.index]? = none) :
    s.measureEntry m = s.answerCurrent .ok (b2 m.applied) := by
  unfold State.measureEntry
  rw [he]

/-! ## The request -/

/-- A request that becomes current and is answered in its own event. -/
theorem answerCurrent_taken {s : State} (hc : s.link.current = none) (hroom : s.outputRoom = true) (tag code : Byte)
    (w : Work) (st : Status) (p : List Byte) :
    (s.modLink fun k => { k with current := some { code := code, tag := tag, work := w } }).answerCurrent st p =
      s.answered tag code st p := by
  have hlink : ({ s.link with current := none } : Link) = s.link := by rw [← hc]
  have hanswered := answerCurrent_answered
    (s := s.modLink fun k => { k with current := some { code := code, tag := tag, work := w } }) rfl hroom st p
  refine hanswered.trans ?_
  show (({ s with link := { s.link with current := none } } : State).answered tag code st p) = _
  rw [hlink]

theorem measureBytes_length (entries : List MeasureEntry) :
    (Request.measureList entries).payload.length = 5 * entries.length := by
  show ((entries.map MeasureEntry.bytes).flatten).length = _
  induction entries with
  | nil => rfl
  | cons e rest ih =>
    rw [List.map_cons, List.flatten_cons, List.length_append, ih, List.length_cons]
    have hbytes : e.bytes.length = 5 := rfl
    omega

section Taken

variable {s : State}

theorem exec_measureList (h : s.planReady = true) (tag : Byte) {entries : List MeasureEntry}
    (hlen : entries.length ≤ 400) :
    exec (.measureList tag entries) s = .next ((s.takeMeasureList tag entries).settle (Config.settleFuel - 1)) :=
  exec_plan h tag (.measureList entries) rfl (by rw [measureBytes_length]; omega)

theorem takeMeasureList_starts {entries : List MeasureEntry} (h : ¬ (entries = [] ∨ 128 < entries.length)) (tag : Byte) :
    s.takeMeasureList tag entries = s.startMeasure tag 0x31 entries := by
  unfold State.takeMeasureList
  exact if_pos ((listSized_iff entries).2 h)

/-- The first entry fails a check. -/
theorem startMeasure_refused (h : s.planReady = true) {e : MeasureEntry} {rest : List MeasureEntry} {st : Status}
    (hcheck : s.measureCheck e = some st) (tag code : Byte) :
    s.startMeasure tag code (e :: rest) = s.answered tag code .part (b2 0 ++ b2 0 ++ b1 st.code) := by
  obtain ⟨_, hroom, _⟩ := ready_spec (planReady_ready h)
  unfold State.startMeasure
  refine (measureEntry_fails (s := s.modLink fun k =>
    { k with current := some { code := code, tag := tag, work := .measure (newMeasure (e :: rest)) } }) (m := newMeasure (e :: rest)) (e := e) (st := st) rfl hcheck).trans ?_
  exact answerCurrent_taken (planReady_current h) hroom tag code _ .part _

/-- The first entry passes: its SETCOUNT is offered. -/
theorem startMeasure_offers {e : MeasureEntry} {rest : List MeasureEntry} (hcheck : s.measureCheck e = none)
    (hup : (s.line (s.slot e.slot.toNat).lineNo).state = .up) (tag code : Byte) :
    s.startMeasure tag code (e :: rest) =
      (({ s with link := s.link.doing { code := code, tag := tag, work := .measure (newMeasure (e :: rest)) } } :
        State).modLine (s.slot e.slot.toNat).lineNo fun r => r.offer (s.setCountFrame e)).hand
          (.choose (s.slot e.slot.toNat).lineNo) := by
  unfold State.startMeasure
  exact measureEntry_offers (s := s.modLink fun k =>
    { k with current := some { code := code, tag := tag, work := .measure (newMeasure (e :: rest)) } }) (m := newMeasure (e :: rest)) (e := e) rfl hcheck hup

end Taken

/-- A frame offered to an idle UP line without poll turn is the one it offers to its arbiter. -/
theorem offers_of_idle {s : State} {l : Nat} (hup : (s.line l).state = .up) (hidle : s.lineIdle l)
    (hturn : (s.line l).pollTurn = false) (f : BusFrame) : ((s.line l).offer f).Offers f := by
  obtain ⟨htxn, hsending, hurgent, hnormal, hwaiting, _⟩ := hidle
  have hoffer : (s.line l).offer f = { s.line l with normal := [f] } := by
    rw [offer_eq, hnormal]
    rfl
  rw [hoffer]
  exact ⟨hup, htxn, hsending, hurgent, rfl, hwaiting, hturn⟩

/-- Settles O57. -/
theorem measureList : Obligations.MeasureList := by
  refine ⟨measureCheck_eq, fun s tag entries h hlen => ⟨fun hbad => ?bad, fun e rest st he h128 hcheck => ?refused,
    fun e rest l he h128 hcheck hline hl hup hidle hturn hqueue => ?sent⟩⟩
  case bad =>
    refine exec_plan_reply (q := .measureList entries) h (planReady_ready h) tag rfl
      (by rw [measureBytes_length]; omega) ?_
    show s.takeMeasureList tag entries = _
    unfold State.takeMeasureList
    exact if_neg fun hc => (listSized_iff entries).1 hc hbad
  case refused =>
    have hsized : ¬ (entries = [] ∨ 128 < entries.length) := by
      rw [he] at h128 ⊢
      simpa using h128
    rw [exec_measureList h tag hlen, takeMeasureList_starts hsized, he, startMeasure_refused h hcheck]
    exact congrArg Host.Outcome.next (settle_answered (planReady_ready h) _ _ _ _ _)
  case sent =>
    have hsized : ¬ (entries = [] ∨ 128 < entries.length) := by
      rw [he] at h128 ⊢
      simpa using h128
    have hup' : (s.line (s.slot e.slot.toNat).lineNo).state = .up := by rw [hline]; exact hup
    obtain ⟨u, hu⟩ : ∃ u : State,
        u = { s with link := s.link.doing { code := 0x31, tag := tag, work := .measure (newMeasure entries) } } :=
      ⟨_, rfl⟩
    have hready : u.ready = true := by
      rw [hu]
      exact ready_doing (planReady_ready h) _
    obtain ⟨v, hv⟩ : ∃ v : State, v = (u.modLine l fun r => r.offer (s.setCountFrame e)).hand (.choose l) := ⟨_, rfl⟩
    have hstart : s.takeMeasureList tag entries = v := by
      rw [takeMeasureList_starts hsized, he, startMeasure_offers hcheck hup', hline, hv, hu, he]
    have huhanded : u.handed = [] := (ready_spec hready).1
    have hvline : (v.line l).Offers (s.setCountFrame e) := by
      rw [hv, hand_line, line_modLine, if_pos ⟨rfl, hl⟩, hu]
      exact offers_of_idle hup hidle hturn _
    have hsettle := settle_sends (fun _ => s.setCountFrame e) [l] 0 99997 (s := v)
      (by rw [hv]; show u.handed ++ [Handed.choose l] = _; rw [huhanded]; rfl) (by rw [hv, hu]; exact hqueue)
      (List.pairwise_singleton _ _) (fun m hm => by
        obtain rfl : m = l := by simpa using hm
        exact ⟨hl, hvline⟩)
    obtain ⟨x, hx⟩ := sendAll_eq (fun _ => s.setCountFrame e) [l] v
    have hline' := sendAll_line (fun _ => s.setCountFrame e) (List.pairwise_singleton _ _)
      (fun m hm => by obtain rfl : m = l := by simpa using hm
                      exact hl) v l
    rw [if_pos (List.mem_singleton_self l), hx] at hline'
    have hquiet : ({ v with lines := x, handed := [] } : State).quiet = true := by
      rw [hv]
      exact quiet_of_link (s := u) (by simp only [State.ready, Bool.and_eq_true] at hready; exact hready.1) rfl rfl
    rw [hx, List.length_singleton] at hsettle
    refine ⟨{ v with lines := x, handed := [] }, ?_, ?_, ?_, ?_, ?_, ?_⟩
    · rw [exec_measureList h tag hlen, hstart]
      exact congrArg Host.Outcome.next (hsettle.trans (settle_quiet _ _ hquiet))
    · rw [hv, hu]
      rfl
    · exact congrArg LineRec.txn hline'
    · rw [hv, hu]
      rfl
    · rw [hv, hu]
      rfl
    · rw [hv, hu]
      rfl

end Sys2Proof.Machine
end

