-- ==== Sys2Proof/Proofs/ProbeSilent.lean ====
section
/-! PROOFS. PROBE: its refusals, and a probe whose every slot stands on a SILENT line (R169, R170, R176). -/

namespace Sys2Proof.Machine

/-! ## A slot list on a SILENT line -/

/-- Slots counted as failed SILENT, in list order. -/
def ProbeRec.noteSilent (p : ProbeRec) (ns : List Nat) : ProbeRec := ns.foldl (fun p n => p.noteFailure n .silent) p

theorem noteSilent_counts (ns : List Nat) (p : ProbeRec) :
    p.noteSilent ns =
      { p with
        failed := p.failed + ns.length, silent := p.silent + ns.length
        firstFailure := (p.noteSilent ns).firstFailure } := by
  induction ns generalizing p with
  | nil => rfl
  | cons n ns ih =>
    refine (ih (p.noteFailure n .silent)).trans ?_
    have hfailed : p.failed + 1 + ns.length = p.failed + (n :: ns).length := by rw [List.length_cons]; omega
    have hsilent : p.silent + 1 + ns.length = p.silent + (n :: ns).length := by rw [List.length_cons]; omega
    rw [← hfailed, ← hsilent]
    rfl

/-- No slot below one is the first failure; with the slot counted, it is. -/
def ProbeRec.FirstIs (p : ProbeRec) (n : Nat) (counted : Prop) : Prop :=
  (∀ f, p.firstFailure = some f → f.kind = .silent ∧ n ≤ f.slot) ∧
    (counted → p.firstFailure = some { slot := n, kind := .silent })

theorem firstIs_noteFailure {p : ProbeRec} {n m : Nat} {counted : Prop} (h : p.FirstIs n counted) (hm : n ≤ m) :
    (p.noteFailure m .silent).FirstIs n (counted ∨ m = n) := by
  obtain ⟨hlow, hcounted⟩ := h
  unfold ProbeRec.FirstIs
  rw [noteFailure_first]
  cases hf : p.firstFailure with
  | none =>
    refine ⟨fun f hf' => ?_, fun hc => ?_⟩
    · obtain rfl : ({ slot := m, kind := .silent } : FirstFailure) = f := Option.some.inj hf'
      exact ⟨rfl, hm⟩
    · rcases hc with hc | rfl
      · rw [hcounted hc] at hf
        cases hf
      · rfl
  | some g =>
    obtain ⟨hkind, hslot⟩ := hlow g hf
    have hg : g = { slot := g.slot, kind := .silent } := by rw [← hkind]
    dsimp only
    refine ⟨fun f hf' => ?_, fun hc => ?_⟩
    · obtain rfl := Option.some.inj hf'
      split
      · exact ⟨rfl, hm⟩
      · exact ⟨hkind, hslot⟩
    · rcases hc with hc | rfl
      · obtain rfl : g = { slot := n, kind := .silent } := Option.some.inj (hf.symm.trans (hcounted hc))
        rw [if_neg (Nat.not_lt.2 hm)]
      · split
        · rfl
        · next hlt =>
          have heq : g.slot = m := by omega
          rw [hg, heq]

theorem firstIs_noteSilent (ns : List Nat) {p : ProbeRec} {n : Nat} {counted : Prop} (h : p.FirstIs n counted)
    (hns : ∀ m ∈ ns, n ≤ m) : (p.noteSilent ns).FirstIs n (counted ∨ n ∈ ns) := by
  induction ns generalizing p counted with
  | nil =>
    show p.FirstIs n (counted ∨ n ∈ [])
    simpa using h
  | cons m ns ih =>
    obtain ⟨hlow, hcounted⟩ := ih (firstIs_noteFailure h (hns m List.mem_cons_self)) fun k hk =>
      hns k (List.mem_cons_of_mem m hk)
    refine ⟨hlow, fun hc => hcounted ?_⟩
    rcases hc with hc | hc
    · exact .inl (.inl hc)
    · rcases List.mem_cons.1 hc with rfl | hc
      · exact .inl (.inr rfl)
      · exact .inr hc

/-- A SILENT line's slots all fail, and the line is done. -/
theorem probeTakeUp_allSilent (ns : List Nat) {s : State} {l : Nat} {c : Current} {p : ProbeRec}
    (hc : s.link.current = some c) (hw : c.work = .probe p) (h : p.cancelled = false)
    (hl : ns ≠ [] → (s.line l).state = .silent) :
    probeTakeUp s l ns = s.withProbe c ((p.noteSilent ns).setLine l ProbeLine.idle) := by
  induction ns generalizing s c p with
  | nil => exact probeTakeUp_nil hc hw
  | cons n rest ih =>
    have hsilent := hl (List.cons_ne_nil n rest)
    rw [probeTakeUp_silent hc hw h hsilent]
    exact ih (s := s.withProbe c (p.noteFailure n .silent)) (c := { c with work := .probe (p.noteFailure n .silent) })
      rfl rfl h fun _ => hsilent

/-! ## The lists of a probe -/

/-- The probe record once lines with every slot SILENT have been taken up. -/
def ProbeRec.silentLines (p : ProbeRec) (L : Nat → List Nat) (ls : List Nat) : ProbeRec :=
  ls.foldl (fun p l => (p.noteSilent (L l)).setLine l ProbeLine.idle) p

theorem silentLines_counts (L : Nat → List Nat) (ls : List Nat) (p : ProbeRec) :
    p.silentLines L ls =
      { p with
        lines := (p.silentLines L ls).lines
        failed := p.failed + (ls.map fun l => (L l).length).sum
        silent := p.silent + (ls.map fun l => (L l).length).sum
        firstFailure := (p.silentLines L ls).firstFailure } := by
  induction ls generalizing p with
  | nil => rfl
  | cons l ls ih =>
    obtain ⟨w, hw⟩ : ∃ w, w = (p.noteSilent (L l)).setLine l ProbeLine.idle := ⟨_, rfl⟩
    have hcounts : w = { p with
        lines := w.lines, failed := p.failed + (L l).length, silent := p.silent + (L l).length
        firstFailure := w.firstFailure } := by
      rw [hw]
      unfold ProbeRec.setLine
      rw [noteSilent_counts]
    have hrest : p.silentLines L (l :: ls) = w.silentLines L ls := by rw [hw]; rfl
    have hsum : ((l :: ls).map fun l => (L l).length).sum = (L l).length + (ls.map fun l => (L l).length).sum := rfl
    have hfailed : w.failed = p.failed + (L l).length := by rw [hcounts]
    have hsilent : w.silent = p.silent + (L l).length := by rw [hcounts]
    have hsame : w.all = p.all ∧ w.ok = p.ok ∧ w.skipped = p.skipped ∧ w.cancelled = p.cancelled := by
      rw [hcounts]
      exact ⟨rfl, rfl, rfl, rfl⟩
    obtain ⟨hall, hok, hskipped, hcancelled⟩ := hsame
    rw [hrest, hsum, ← Nat.add_assoc, ← Nat.add_assoc, ← hfailed, ← hsilent, ← hall, ← hok, ← hskipped, ← hcancelled]
    exact ih w

theorem silentLines_firstIs (L : Nat → List Nat) (ls : List Nat) {p : ProbeRec} {n : Nat} {counted : Prop}
    (h : p.FirstIs n counted) (hns : ∀ l ∈ ls, ∀ m ∈ L l, n ≤ m) :
    (p.silentLines L ls).FirstIs n (counted ∨ ∃ l ∈ ls, n ∈ L l) := by
  induction ls generalizing p counted with
  | nil => simpa [ProbeRec.silentLines] using h
  | cons l ls ih =>
    have hline : ((p.noteSilent (L l)).setLine l ProbeLine.idle).FirstIs n (counted ∨ n ∈ L l) :=
      firstIs_noteSilent (L l) h (hns l List.mem_cons_self)
    obtain ⟨hlow, hcounted⟩ := ih hline fun k hk => hns k (List.mem_cons_of_mem l hk)
    refine ⟨hlow, fun hc => hcounted ?_⟩
    rcases hc with hc | ⟨k, hk, hnk⟩
    · exact .inl (.inl hc)
    · rcases List.mem_cons.1 hk with rfl | hk
      · exact .inl (.inr hnk)
      · exact .inr ⟨k, hk, hnk⟩

theorem silentLines_line (L : Nat → List Nat) (ls : List Nat) (p : ProbeRec) (m : Nat) :
    (p.silentLines L ls).line m = if m ∈ ls ∧ m < 8 then ProbeLine.idle else p.line m := by
  induction ls generalizing p with
  | nil => exact (if_neg fun h => by cases h.1).symm
  | cons l ls ih =>
    have hnoted : (p.noteSilent (L l)).line m = p.line m := by rw [noteSilent_counts]; rfl
    refine (ih _).trans ?_
    rw [probeLine_setLine, hnoted]
    by_cases hm : m ∈ ls ∧ m < 8
    · rw [if_pos hm, if_pos ⟨List.mem_cons_of_mem l hm.1, hm.2⟩]
    · rw [if_neg hm]
      refine ite_congr_iff ⟨fun h => ?_, fun h => ?_⟩ rfl rfl
      · obtain ⟨rfl, h8⟩ := h
        exact ⟨List.mem_cons_self, h8⟩
      · obtain ⟨hmem, h8⟩ := h
        rcases List.mem_cons.1 hmem with rfl | hmem
        · exact ⟨rfl, h8⟩
        · exact absurd ⟨hmem, h8⟩ hm

theorem takeUp_silentLines (L : Nat → List Nat) (ls : List Nat) {s : State} {c : Current} {p : ProbeRec}
    (hc : s.link.current = some c) (hw : c.work = .probe p) (h : p.cancelled = false)
    (hl : ∀ l ∈ ls, L l ≠ [] → (s.line l).state = .silent) :
    ls.foldl (fun t l => probeTakeUp t l (L l)) s = s.withProbe c (p.silentLines L ls) := by
  induction ls generalizing s c p with
  | nil =>
    show s = s.withProbe c p
    unfold State.withProbe
    rw [← hw, ← hc]
  | cons l ls ih =>
    obtain ⟨w, hw'⟩ : ∃ w, w = (p.noteSilent (L l)).setLine l ProbeLine.idle := ⟨_, rfl⟩
    have hcancelled : w.cancelled = false := by
      rw [hw']
      unfold ProbeRec.setLine
      rw [noteSilent_counts]
      exact h
    rw [List.foldl_cons, probeTakeUp_allSilent (L l) hc hw h (hl l List.mem_cons_self), ← hw']
    rw [ih (s := s.withProbe c w) (c := { c with work := .probe w }) rfl rfl hcancelled fun k hk =>
      hl k (List.mem_cons_of_mem l hk), hw']
    rfl

/-! ## The probe taken -/

theorem newProbe_line (s : State) (only : Option Nat) {l : Nat} (hl : l < 8) :
    (s.newProbe only).line l = { ProbeLine.idle with todo := s.probeLists only l } := by
  unfold ProbeRec.line
  have hsize : l < 8 := hl
  rw [Vector.getElem?_eq_getElem hsize]
  simp [State.newProbe, lineNumbers]

theorem startProbe_eq (s : State) (tag code : Byte) (only : Option Nat) :
    s.startProbe tag code only =
      (lineNumbers.foldl (fun t l => probeTakeUp t l (s.probeLists only l))
        ({ s with link := s.link.doing { code := code, tag := tag, work := .probe (s.newProbe only) } } :
          State)).probeCheck := by
  have hlists (ls : List Nat) (hls : ∀ l ∈ ls, l < 8) (t : State) :
      ls.foldl (fun t l => probeTakeUp t l ((s.newProbe only).line l).todo) t =
        ls.foldl (fun t l => probeTakeUp t l (s.probeLists only l)) t := by
    induction ls generalizing t with
    | nil => rfl
    | cons l ls ih =>
      rw [List.foldl_cons, List.foldl_cons, newProbe_line s only (hls l List.mem_cons_self)]
      exact ih (fun k hk => hls k (List.mem_cons_of_mem l hk)) _
  unfold State.startProbe
  exact congrArg State.probeCheck (hlists lineNumbers (fun l hl => mem_lineNumbers.1 hl) _)

/-- A probe all of whose slots stand on SILENT lines is answered at once. -/
theorem startProbe_silent {s : State} (h : s.planReady = true) (tag code : Byte) (only : Option Nat)
    (hsilent : ∀ l, l < 8 → s.probeLists only l ≠ [] → (s.line l).state = .silent) {n : Nat}
    (hn : ∃ l, l < 8 ∧ n ∈ s.probeLists only l) (hleast : ∀ l m, l < 8 → m ∈ s.probeLists only l → n ≤ m) :
    let k := (lineNumbers.map fun l => (s.probeLists only l).length).sum
    s.startProbe tag code only =
      s.answered tag code .ok (b2 0 ++ b2 k ++ b2 0 ++ b2 k ++ [1, BitVec.ofNat 8 n, 8]) := by
  obtain ⟨_, hroom, _⟩ := ready_spec (planReady_ready h)
  obtain ⟨w, hw⟩ : ∃ w, w = (s.newProbe only).silentLines (s.probeLists only) lineNumbers := ⟨_, rfl⟩
  have hcounts := silentLines_counts (s.probeLists only) lineNumbers (s.newProbe only)
  have hfirst := (silentLines_firstIs (s.probeLists only) lineNumbers (p := s.newProbe only) (n := n)
    (counted := False) ⟨fun f hf => (by cases hf), False.elim⟩ fun l hl m hm => hleast l m (mem_lineNumbers.1 hl) hm).2
    (.inr (by obtain ⟨l, hl, hnl⟩ := hn
              exact ⟨l, mem_lineNumbers.2 hl, hnl⟩))
  have hidle (m : Nat) (hm : m < 8) : (w.line m).inHand = none ∧ (w.line m).todo = [] := by
    rw [hw, silentLines_line, if_pos ⟨mem_lineNumbers.2 hm, hm⟩]
    exact ⟨rfl, rfl⟩
  rw [← hw] at hcounts hfirst
  have htake := takeUp_silentLines (s.probeLists only) lineNumbers
    (s := { s with link := s.link.doing { code := code, tag := tag, work := .probe (s.newProbe only) } })
    (c := { code := code, tag := tag, work := .probe (s.newProbe only) }) rfl rfl rfl
    (fun l hl => hsilent l (mem_lineNumbers.1 hl))
  rw [← hw] at htake
  dsimp only
  rw [startProbe_eq, htake, probeCheck_answers (withProbe_probeRec _ _ _) hidle]
  refine (answerCurrent_taken (planReady_current h) hroom tag code (.probe w) _ _).trans ?_
  have hstatus : w.status = .ok := by
    rw [hcounts]
    rfl
  have hanswer : w.answer = b2 0 ++ b2 (lineNumbers.map fun l => (s.probeLists only l).length).sum ++ b2 0 ++
      b2 (lineNumbers.map fun l => (s.probeLists only l).length).sum ++ [1, BitVec.ofNat 8 n, 8] := by
    unfold ProbeRec.answer ProbeRec.payload
    rw [hfirst, hcounts]
    show [] ++ (b2 0 ++ b2 (0 + _) ++ b2 0 ++ b2 (0 + _) ++ _) = _
    rw [Nat.zero_add]
    rfl
  rw [hstatus, hanswer]

end Sys2Proof.Machine
end

