-- ==== Sys2Proof/Proofs/ProbeTaking.lean ====
section
/-! PROOFS. PROBE taken with its lines UP and idle: the first slot of each line is begun (R169 to R171). -/

namespace Sys2Proof.Machine

/-- The PAGE(0) frame of a slot. -/
def State.pageFrame (s : State) (n : Nat) : BusFrame :=
  { slot := n, drop := (s.slot n).dropNo, body := .page 0, owner := .probe }

/-- A line that takes up its list: UP and idle without poll turn, its first slot ready and its own. -/
structure State.BeginsOn (s : State) (l n : Nat) : Prop where
  up : (s.line l).state = .up
  idle : s.lineIdle l
  turn : (s.line l).pollTurn = false
  ready : (s.slot n).probeable = true
  own : (s.slot n).lineNo = l

/-- Every line with a list takes up its first slot. -/
def State.BeginsAll (s : State) (L : Nat → List Nat) : Prop :=
  ∀ l n rest, l < 8 → L l = n :: rest → s.BeginsOn l n

theorem lt_of_probeable {s : State} {n : Nat} (h : (s.slot n).probeable = true) : n < 128 := by
  refine Classical.byContradiction fun hn => ?_
  rw [slot_beyond s hn] at h
  cases h

/-- What stands once some lines have taken up their first slots. -/
structure State.BegunTo (s : State) (L : Nat → List Nat) (c : Current) (p₀ : ProbeRec) (ls : List Nat) (t : State)
    (p : ProbeRec) : Prop where
  records : t = { s.withProbe c p with slots := t.slots, lines := t.lines, handed := t.handed }
  counts : p = { p₀ with lines := p.lines }
  taken : ∀ l ∈ ls, p.line l = { ProbeLine.idle with todo := (L l).tail, inHand := (L l).head? }
  others : ∀ l, l ∉ ls → p.line l = p₀.line l
  begun : ∀ l ∈ ls, ∀ n, (L l).head? = some n → t.slot n = { s.slot n with state := .probing }
  slots : ∀ n, (∀ l ∈ ls, (L l).head? ≠ some n) → t.slot n = s.slot n
  offered : ∀ l ∈ ls, ∀ n, (L l).head? = some n → t.line l = (s.line l).offer (s.pageFrame n)
  lines : ∀ l, (l ∉ ls ∨ L l = []) → t.line l = s.line l
  handed : t.handed = s.handed ++ (ls.filter fun l => decide (L l ≠ [])).map Handed.choose

section Step

variable {s t : State} {L : Nat → List Nat} {c : Current} {p₀ p : ProbeRec} {ls : List Nat} {l : Nat}

theorem begunTo_current (h : s.BegunTo L c p₀ ls t p) : t.link.current = some { c with work := .probe p } := by
  rw [h.records]
  rfl

/-- A line with nothing to visit is done. -/
theorem begunTo_nil (h : s.BegunTo L c p₀ ls t p) (hl : l < 8) (hnil : L l = []) :
    s.BegunTo L c p₀ (ls ++ [l]) (probeTakeUp t l (L l)) (p.setLine l ProbeLine.idle) := by
  have htake : probeTakeUp t l (L l) = t.withProbe { c with work := .probe p } (p.setLine l ProbeLine.idle) := by
    rw [hnil]
    exact probeTakeUp_nil (begunTo_current h) rfl
  have hslots (n : Nat) : (probeTakeUp t l (L l)).slot n = t.slot n := by rw [htake]; rfl
  have hlines (m : Nat) : (probeTakeUp t l (L l)).line m = t.line m := by rw [htake]; rfl
  refine ⟨?_, ?_, fun m hm => ?_, fun m hm => ?_, fun m hm n hn => ?_, fun n hn => ?_, fun m hm n hn => ?_,
    fun m hm => ?_, ?_⟩
  · rw [htake]
    conv => lhs; rw [h.records]
    rfl
  · rw [h.counts]
    rfl
  · rw [probeLine_setLine]
    split
    · next hml =>
      rw [hml.1, hnil]
      rfl
    · next hml =>
      rcases List.mem_append.1 hm with hm | hm
      · exact h.taken m hm
      · exact absurd ⟨List.mem_singleton.1 hm, hl⟩ hml
  · rw [probeLine_setLine, if_neg fun hml => hm (by simp [hml.1])]
    exact h.others m fun hmem => hm (List.mem_append_left _ hmem)
  · rw [hslots]
    rcases List.mem_append.1 hm with hm | hm
    · exact h.begun m hm n hn
    · rw [List.mem_singleton.1 hm, hnil] at hn
      cases hn
  · rw [hslots]
    exact h.slots n fun m hm => hn m (List.mem_append_left _ hm)
  · rw [hlines]
    rcases List.mem_append.1 hm with hm | hm
    · exact h.offered m hm n hn
    · rw [List.mem_singleton.1 hm, hnil] at hn
      cases hn
  · rw [hlines]
    exact h.lines m (hm.imp_left fun hnot hmem => hnot (List.mem_append_left _ hmem))
  · rw [htake, List.filter_append, List.filter_cons_of_neg (by simpa using hnil), List.filter_nil, List.append_nil]
    exact h.handed

/-- A line's first slot is begun. -/
theorem begunTo_cons (h : s.BegunTo L c p₀ ls t p) (hbegins : s.BeginsAll L) (hls : ∀ m ∈ ls, m < 8) (hl : l < 8)
    (hnew : l ∉ ls) (hcancelled : p₀.cancelled = false) {n : Nat} {rest : List Nat} (hcons : L l = n :: rest) :
    s.BegunTo L c p₀ (ls ++ [l]) (probeTakeUp t l (L l))
      (p.setLine l { ProbeLine.idle with todo := rest, inHand := some n }) := by
  obtain ⟨hup, hidle, hturn, hready, hown⟩ := hbegins l n rest hl hcons
  have hn : n < 128 := lt_of_probeable hready
  have hfresh : ∀ m ∈ ls, (L m).head? ≠ some n := by
    intro m hm hhead
    obtain ⟨rest', hrest'⟩ := List.head?_eq_some_iff.1 hhead
    have hownm := (hbegins m n rest' (hls m hm) hrest').own
    exact hnew (hown.symm.trans hownm ▸ hm)
  have hslot : t.slot n = s.slot n := h.slots n hfresh
  have hline : t.line l = s.line l := h.lines l (.inl hnew)
  obtain ⟨u, hu⟩ : ∃ u, u = t.begun l n rest { c with work := .probe p } p := ⟨_, rfl⟩
  have huslot (m : Nat) : u.slot m = if n = m ∧ n < 128 then { t.slot n with state := .probing } else t.slot m := by
    rw [hu]
    exact slot_modSlot (t.withProbe { c with work := .probe p } _) n m fun r => { r with state := .probing }
  have huline (m : Nat) : u.line m = t.line m := by rw [hu]; rfl
  have htake : probeTakeUp t l (L l) = (u.modLine l fun r => r.offer (s.pageFrame n)).hand (.choose l) := by
    rw [hcons, probeTakeUp_up (begunTo_current h) rfl (by rw [h.counts]; exact hcancelled) (by rw [hline]; exact hup)
      (by rw [hslot]; exact hready), hslot, ← hu]
    rfl
  obtain ⟨v, hv⟩ : ∃ v, v = (u.modLine l fun r => r.offer (s.pageFrame n)).hand (.choose l) := ⟨_, rfl⟩
  have hvslot (m : Nat) : v.slot m = u.slot m := by rw [hv]; rfl
  have hvline (m : Nat) : v.line m = if l = m ∧ l < 8 then (u.line l).offer (s.pageFrame n) else u.line m := by
    rw [hv]
    exact line_modLine u l m fun r => r.offer (s.pageFrame n)
  rw [htake, ← hv]
  refine ⟨?_, ?_, fun m hm => ?_, fun m hm => ?_, fun m hm k hk => ?_, fun k hk => ?_, fun m hm k hk => ?_,
    fun m hm => ?_, ?_⟩
  · have hvt : v = { t.withProbe { c with work := .probe p } (p.setLine l { ProbeLine.idle with
        todo := rest, inHand := some n }) with slots := v.slots, lines := v.lines, handed := v.handed } := by
      rw [hv, hu]
      rfl
    conv => lhs; rw [hvt, h.records]
    rfl
  · rw [h.counts]
    rfl
  · rw [probeLine_setLine]
    split
    · next hml =>
      rw [hml.1, hcons]
      rfl
    · next hml =>
      rcases List.mem_append.1 hm with hm | hm
      · exact h.taken m hm
      · exact absurd ⟨List.mem_singleton.1 hm, hl⟩ hml
  · rw [probeLine_setLine, if_neg fun hml => hm (by simp [hml.1])]
    exact h.others m fun hmem => hm (List.mem_append_left _ hmem)
  · rw [hvslot, huslot]
    rcases List.mem_append.1 hm with hm | hm
    · have hne : ¬ (n = k ∧ n < 128) := fun hc => hfresh m hm (hc.1 ▸ hk)
      rw [if_neg hne]
      exact h.begun m hm k hk
    · rw [List.mem_singleton.1 hm, hcons] at hk
      obtain rfl : n = k := Option.some.inj hk
      rw [if_pos ⟨rfl, hn⟩, hslot]
  · have hne : n ≠ k := fun he => hk l (List.mem_append_right _ (List.mem_singleton_self l)) (by rw [hcons, he]; rfl)
    rw [hvslot, huslot, if_neg fun hc => hne hc.1]
    exact h.slots k fun m hm => hk m (List.mem_append_left _ hm)
  · rw [hvline]
    rcases List.mem_append.1 hm with hm | hm
    · have hne : ¬ (l = m ∧ l < 8) := fun hc => hnew (hc.1 ▸ hm)
      rw [if_neg hne, huline]
      exact h.offered m hm k hk
    · rw [List.mem_singleton.1 hm] at hk ⊢
      rw [hcons] at hk
      obtain rfl : n = k := Option.some.inj hk
      rw [if_pos ⟨rfl, hl⟩, huline, hline]
  · have hne : l ≠ m := by
      rintro rfl
      rcases hm with hm | hm
      · exact hm (List.mem_append_right _ (List.mem_singleton_self l))
      · rw [hcons] at hm
        cases hm
    rw [hvline, if_neg fun hc => hne hc.1, huline]
    exact h.lines m (hm.imp_left fun hnot hmem => hnot (List.mem_append_left _ hmem))
  · have hvhanded : v.handed = t.handed ++ [.choose l] := by rw [hv, hu]; rfl
    rw [hvhanded, h.handed, List.filter_append, List.filter_cons_of_pos (by simp [hcons]), List.filter_nil,
      List.map_append, List.append_assoc]
    rfl

/-- Every line takes up its list. -/
theorem begunTo_all (hbegins : s.BeginsAll L) (hcancelled : p₀.cancelled = false) (more : List Nat)
    (h : s.BegunTo L c p₀ ls t p) (hls : ∀ m ∈ ls ++ more, m < 8) (hnodup : (ls ++ more).Nodup) :
    ∃ w, s.BegunTo L c p₀ (ls ++ more) (more.foldl (fun u l => probeTakeUp u l (L l)) t) w := by
  induction more generalizing ls t p with
  | nil =>
    rw [List.append_nil]
    exact ⟨p, h⟩
  | cons l more ih =>
    have hl : l < 8 := hls l (List.mem_append_right _ List.mem_cons_self)
    have hnew : l ∉ ls := fun hmem =>
      (List.nodup_append.1 hnodup).2.2 l hmem l List.mem_cons_self rfl
    have happend : ls ++ l :: more = (ls ++ [l]) ++ more := by rw [List.append_assoc]; rfl
    rw [happend] at hls hnodup ⊢
    cases hL : L l with
    | nil => exact ih (begunTo_nil h hl hL) hls hnodup
    | cons n rest =>
      exact ih (begunTo_cons h hbegins (fun m hm => hls m (by simp [hm])) hl hnew hcancelled hL) hls hnodup

end Step

/-! ## The probe under way -/

/-- A probe under way, its first frames sent. -/
structure State.Probing (s : State) (L : Nat → List Nat) (tag code : Byte) (p₀ : ProbeRec) (t : State)
    (p : ProbeRec) : Prop where
  link : t.link = s.link.doing { code := code, tag := tag, work := .probe p }
  counts : p = { p₀ with lines := p.lines }
  lines : ∀ l, l < 8 → p.line l = { ProbeLine.idle with todo := (L l).tail, inHand := (L l).head? }
  begun : ∀ l, l < 8 → ∀ n, (L l).head? = some n → t.slot n = { s.slot n with state := .probing }
  slots : ∀ n, (∀ l, l < 8 → (L l).head? ≠ some n) → t.slot n = s.slot n
  sent : ∀ l, l < 8 → ∀ n, (L l).head? = some n →
    (t.line l).txn = some { frame := s.pageFrame n, attempt := .first, fromNormal := true, window := none }
  idle : ∀ l, L l = [] → t.line l = s.line l
  gate : t.gate = s.gate
  zones : t.zones = s.zones

/-- The lines that took up a slot are those whose arbiters may choose. -/
def beginLines (L : Nat → List Nat) : List Nat := lineNumbers.filter fun l => decide (L l ≠ [])

theorem mem_beginLines (L : Nat → List Nat) (l : Nat) : l ∈ beginLines L ↔ l < 8 ∧ L l ≠ [] := by
  unfold beginLines
  rw [List.mem_filter, mem_lineNumbers, decide_eq_true_iff]

/-- The front of a line's list, as a number. -/
def frontOf (L : Nat → List Nat) (l : Nat) : Nat := ((L l).head?).getD 0

/-- A PROBE whose lines with a list are UP and idle runs to rest with the first frame of each in transaction. -/
theorem startProbe_begins {s : State} (h : s.planReady = true) (hq : s.gate.startQueue = []) (tag code : Byte)
    (only : Option Nat) (hbegins : s.BeginsAll (s.probeLists only)) (hsome : ∃ l, l < 8 ∧ s.probeLists only l ≠ []) :
    ∃ t p, (s.startProbe tag code only).settle (Config.settleFuel - 1) = t ∧
      s.Probing (s.probeLists only) tag code (s.newProbe only) t p := by
  obtain ⟨L, hL⟩ : ∃ L, L = s.probeLists only := ⟨_, rfl⟩
  obtain ⟨c, hc⟩ : ∃ c : Current, c = { code := code, tag := tag, work := .probe (s.newProbe only) } := ⟨_, rfl⟩
  obtain ⟨u₀, hu₀⟩ : ∃ u : State, u = { s with link := s.link.doing c } := ⟨_, rfl⟩
  have hready : u₀.ready = true := by
    rw [hu₀]
    exact ready_doing (planReady_ready h) c
  have hhanded : s.handed = [] := (ready_spec (planReady_ready h)).1
  have hstart : s.BegunTo L c (s.newProbe only) [] u₀ (s.newProbe only) :=
    { records := by rw [hu₀, hc]; rfl
      counts := rfl
      taken := fun l hl => by cases hl
      others := fun l _ => rfl
      begun := fun l hl => by cases hl
      slots := fun n _ => by rw [hu₀]; rfl
      offered := fun l hl => by cases hl
      lines := fun l _ => by rw [hu₀]; rfl
      handed := by rw [hu₀]; exact (List.append_nil _).symm }
  rw [← hL] at hbegins hsome ⊢
  obtain ⟨p, hbegun⟩ := begunTo_all hbegins rfl lineNumbers hstart (fun m hm => mem_lineNumbers.1 hm)
    (List.nodup_range (n := 8))
  rw [List.nil_append] at hbegun
  obtain ⟨v, hv⟩ : ∃ v, v = lineNumbers.foldl (fun u l => probeTakeUp u l (L l)) u₀ := ⟨_, rfl⟩
  rw [← hv] at hbegun
  have hvhanded : v.handed = (beginLines L).map Handed.choose ++ List.replicate 0 .scan := by
    rw [hbegun.handed, hhanded]
    exact (List.append_nil _).symm
  have hcheck : s.startProbe tag code only = v := by
    rw [startProbe_eq, ← hL, ← hc, ← hu₀, ← hv]
    obtain ⟨l, hl, hne⟩ := hsome
    refine probeCheck_waits (p := p) (probeRec_of (begunTo_current hbegun) rfl) ⟨l, hl, .inl ?_⟩
    rw [hbegun.taken l (mem_lineNumbers.2 hl)]
    show (L l).head? ≠ none
    rw [ne_eq, List.head?_eq_none_iff]
    exact hne
  have hoffers : ∀ l ∈ beginLines L, l < 8 ∧ (v.line l).Offers (s.pageFrame (frontOf L l)) := by
    intro l hl
    obtain ⟨hl8, hne⟩ := (mem_beginLines L l).1 hl
    obtain ⟨n, rest, hcons⟩ := List.exists_cons_of_ne_nil hne
    obtain ⟨hup, hidle, hturn, _, _⟩ := hbegins l n rest hl8 hcons
    have hfront : frontOf L l = n := by unfold frontOf; rw [hcons]; rfl
    rw [hfront, hbegun.offered l (mem_lineNumbers.2 hl8) n (by rw [hcons]; rfl)]
    exact ⟨hl8, offers_of_idle hup hidle hturn _⟩
  have hnodup : (beginLines L).Nodup := (List.nodup_range (n := 8)).filter _
  have hlength : (beginLines L).length ≤ 8 := List.length_filter_le _ _
  obtain ⟨x, hx⟩ := sendAll_eq (fun l => s.pageFrame (frontOf L l)) (beginLines L) v
  have hline := sendAll_line (fun l => s.pageFrame (frontOf L l)) hnodup (fun l hl => ((mem_beginLines L l).1 hl).1) v
  rw [hx] at hline
  have hvrecords : v = { s with
      link := s.link.doing { code := code, tag := tag, work := .probe p }
      slots := v.slots, lines := v.lines, handed := v.handed } := by
    conv => lhs; rw [hbegun.records, hc]
    rfl
  obtain ⟨t, ht⟩ : ∃ t : State, t = { v with lines := x, handed := [] } := ⟨_, rfl⟩
  have htrecords : t = { s with
      link := s.link.doing { code := code, tag := tag, work := .probe p }
      slots := v.slots, lines := x, handed := [] } := by
    rw [ht]
    conv => lhs; rw [hvrecords]
  have hquiet : t.quiet = true := by
    have hdoing := ready_doing (planReady_ready h) { code := code, tag := tag, work := .probe p }
    simp only [State.ready, Bool.and_eq_true] at hdoing
    rw [htrecords]
    exact quiet_of_link hdoing.1 rfl rfl
  have hfuel : Config.settleFuel - 1 = 2 * (beginLines L).length + 0 + (99999 - 2 * (beginLines L).length) := by
    have hvalue : Config.settleFuel - 1 = 99999 := rfl
    omega
  have htslot (n : Nat) : t.slot n = v.slot n := by rw [ht]; rfl
  have htline (l : Nat) : t.line l =
      if l ∈ beginLines L then (v.line l).sending (s.pageFrame (frontOf L l)) else v.line l := by
    rw [← hline l, ht]
    rfl
  refine ⟨t, p, ?_, ?_⟩
  · rw [hcheck, hfuel, settle_sends (fun l => s.pageFrame (frontOf L l)) (beginLines L) 0 _ hvhanded
      (by rw [hvrecords]; exact hq) hnodup hoffers, hx, ← ht, settle_quiet _ _ hquiet]
  · refine ⟨by rw [htrecords], hbegun.counts, fun l hl => hbegun.taken l (mem_lineNumbers.2 hl), fun l hl n hn => ?_,
      fun n hn => ?_, fun l hl n hn => ?_, fun l hnil => ?_, by rw [htrecords], by rw [htrecords]⟩
    · rw [htslot]
      exact hbegun.begun l (mem_lineNumbers.2 hl) n hn
    · rw [htslot]
      exact hbegun.slots n fun l hl => hn l (mem_lineNumbers.1 hl)
    · have hmem : l ∈ beginLines L := (mem_beginLines L l).2 ⟨hl, fun hnil => by simp [hnil] at hn⟩
      have hfront : frontOf L l = n := by unfold frontOf; rw [hn]; rfl
      rw [htline, if_pos hmem, hfront]
      rfl
    · rw [htline, if_neg fun hmem => ((mem_beginLines L l).1 hmem).2 hnil]
      exact hbegun.lines l (.inr hnil)

/-! ## The statement -/

section Requests

variable {s : State}

theorem exec_probe (h : s.planReady = true) (tag slot : Byte) :
    exec (.probe tag slot) s = .next ((s.takeProbe tag slot).settle (Config.settleFuel - 1)) :=
  exec_plan h tag (.probe slot) rfl (by show 1 ≤ 2048; omega)

theorem takeProbe_all (h : ∃ n, n < 128 ∧ (s.slot n).state ≠ .vacant) (tag : Byte) :
    s.takeProbe tag 255 = s.startProbe tag 0x30 none := by
  obtain ⟨n, hn, hstate⟩ := h
  have hvacant : ¬ s.allVacant = true := fun hall => by
    unfold State.allVacant at hall
    rw [List.all_eq_true] at hall
    exact hstate (by simpa using hall n (mem_slotNumbers.2 hn))
  unfold State.takeProbe
  exact (if_pos rfl).trans (if_neg hvacant)

theorem takeProbe_nothing (h : ∀ n, n < 128 → (s.slot n).state = .vacant) (tag : Byte) :
    s.takeProbe tag 255 = s.reply tag (.probe 255) .nothing [] := by
  have hvacant : s.allVacant = true := by
    unfold State.allVacant
    rw [List.all_eq_true]
    exact fun n hn => decide_eq_true (h n (mem_slotNumbers.1 hn))
  unfold State.takeProbe
  exact (if_pos rfl).trans (if_pos hvacant)

theorem takeProbe_refused {slot : Byte} (h : slot ≠ 255) {st : Status}
    (hcheck : s.probeRequestCheck slot.toNat = some st) (tag : Byte) :
    s.takeProbe tag slot = s.reply tag (.probe slot) st [] := by
  unfold State.takeProbe
  rw [hcheck]
  exact if_neg h

theorem takeProbe_one {slot : Byte} (h : slot ≠ 255) (hcheck : s.probeRequestCheck slot.toNat = none) (tag : Byte) :
    s.takeProbe tag slot = s.startProbe tag 0x30 (some slot.toNat) := by
  unfold State.takeProbe
  rw [hcheck]
  exact if_neg h

theorem ne_all {slot : Byte} (h : slot.toNat ≤ 127) : slot ≠ 255 := by
  rintro rfl
  exact absurd h (by decide)

theorem not_vacant_of_probeable {r : SlotRec} (h : r.probeable = true) : r.state ≠ .vacant := by
  obtain ⟨hstate, _⟩ := (probeable_iff r).1 h
  rintro hv
  rw [hv] at hstate
  simp at hstate

theorem probeRequestCheck_ready {n : Nat} (hn : n ≤ 127) (h : (s.slot n).probeable = true) :
    s.probeRequestCheck n = none := by
  unfold State.probeRequestCheck
  rw [if_neg (by omega), if_neg (not_vacant_of_probeable h), if_neg (by simp [h])]

theorem probeLists_one (s : State) (n l : Nat) :
    s.probeLists (some n) l = if (s.slot n).lineNo = l then [n] else [] := rfl

/-- A slot on a line stands on the line of its bus address. -/
theorem lineNo_of_onLine {r : SlotRec} {l : Nat} (h : r.onLine l = true) : r.lineNo = l := by
  obtain ⟨_, a, ha, hl⟩ := (onLine_iff r l).1 h
  unfold SlotRec.lineNo
  rw [ha]
  exact hl

theorem not_vacant_of_onLine {r : SlotRec} {l : Nat} (h : r.onLine l = true) : r.state ≠ .vacant :=
  ((onLine_iff r l).1 h).1

end Requests

end Sys2Proof.Machine
end

