-- ==== Sys2Proof/Proofs/ProbeRequest.lean ====
section
/-! PROOFS. PROBE: the statement assembled (R169 to R171, R176). -/

namespace Sys2Proof.Machine

section Cases

variable {s : State}

theorem exec_probe_answered (h : s.planReady = true) (tag slot : Byte) {st : Status} {p : List Byte}
    (htake : s.takeProbe tag slot = s.answered tag 0x30 st p) :
    exec (.probe tag slot) s = .next (s.answered tag 0x30 st p) := by
  rw [exec_probe h, htake, settle_answered (planReady_ready h)]

theorem exec_probe_refused (h : s.planReady = true) (tag : Byte) {slot : Byte} (hslot : slot ≠ 255) {st : Status}
    (hcheck : s.probeRequestCheck slot.toNat = some st) :
    exec (.probe tag slot) s = .next (s.answered tag 0x30 st []) :=
  exec_plan_reply (q := .probe slot) h (planReady_ready h) tag rfl (by show 1 ≤ 2048; omega)
    (takeProbe_refused hslot hcheck tag)

/-- One slot is on one line of a probe's lists. -/
theorem probeLists_one_sum {n l : Nat} (hline : (s.slot n).lineNo = l) (hl : l < 8) :
    (lineNumbers.map fun m => (s.probeLists (some n) m).length).sum = 1 := by
  have hlists : (fun m => (s.probeLists (some n) m).length) = fun m => if l = m then 1 else 0 := by
    funext m
    rw [probeLists_one, hline]
    split <;> rfl
  rw [hlists]
  exact (by decide : ∀ k, k < 8 → (lineNumbers.map fun m => if k = m then 1 else 0).sum = 1) l hl

/-- A PROBE of one slot on a SILENT line. -/
theorem exec_probe_oneSilent (h : s.planReady = true) (tag : Byte) {slot : Byte} (hslot : slot.toNat ≤ 127)
    (hready : (s.slot slot.toNat).probeable = true) {l : Nat} (hline : (s.slot slot.toNat).lineNo = l) (hl : l < 8)
    (hsilent : (s.line l).state = .silent) :
    exec (.probe tag slot) s =
      .next (s.answered tag 0x30 .ok (b2 0 ++ b2 1 ++ b2 0 ++ b2 1 ++ [1, slot, 8])) := by
  have hmem (m k : Nat) : k ∈ s.probeLists (some slot.toNat) m ↔ l = m ∧ k = slot.toNat := by
    rw [probeLists_one, hline]
    by_cases hm : l = m <;> simp [hm]
  have hstart := startProbe_silent h tag 0x30 (some slot.toNat)
    (fun m _ hne => by
      obtain ⟨k, hk⟩ := List.exists_mem_of_ne_nil _ hne
      rw [← ((hmem m k).1 hk).1]
      exact hsilent)
    (n := slot.toNat) ⟨l, hl, (hmem l _).2 ⟨rfl, rfl⟩⟩ fun m k _ hk => Nat.le_of_eq ((hmem m k).1 hk).2.symm
  dsimp only at hstart
  rw [probeLists_one_sum hline hl, BitVec.ofNat_toNat, BitVec.setWidth_eq] at hstart
  exact exec_probe_answered h tag slot
    ((takeProbe_one (ne_all hslot) (probeRequestCheck_ready hslot hready) tag).trans hstart)

/-- A PROBE of all with every line SILENT. -/
theorem exec_probe_allSilent (h : s.planReady = true) (tag : Byte)
    (hsilent : ∀ l, l < 8 → (s.line l).state = .silent) {n : Nat} (hn : n < 128)
    (hon : ∃ l, l < 8 ∧ (s.slot n).onLine l = true)
    (hleast : ∀ m l, m < n → l < 8 → (s.slot m).onLine l = false) :
    exec (.probe tag 255) s =
      .next (s.answered tag 0x30 .ok (b2 0 ++ b2 (lineNumbers.map fun l => (s.slotsOn l).length).sum ++ b2 0 ++
        b2 (lineNumbers.map fun l => (s.slotsOn l).length).sum ++ [1, BitVec.ofNat 8 n, 8])) := by
  obtain ⟨l, hl, honl⟩ := hon
  have hstart := startProbe_silent h tag 0x30 none (fun m hm _ => hsilent m hm) (n := n)
    ⟨l, hl, (mem_slotsOn s l n).2 ⟨hn, honl⟩⟩ fun k m hk hm => by
      refine Classical.byContradiction fun hlt => ?_
      have hoff := hleast m k (Nat.lt_of_not_le hlt) hk
      rw [((mem_slotsOn s k m).1 hm).2] at hoff
      cases hoff
  exact exec_probe_answered h tag 255 ((takeProbe_all ⟨n, hn, not_vacant_of_onLine honl⟩ tag).trans hstart)

/-- A PROBE of one slot on an idle UP line is under way. -/
theorem exec_probe_one (h : s.planReady = true) (hq : s.gate.startQueue = []) (tag : Byte) {slot : Byte}
    (hslot : slot.toNat ≤ 127) (hready : (s.slot slot.toNat).probeable = true) {l : Nat}
    (hline : (s.slot slot.toNat).lineNo = l) (hl : l < 8) (hup : (s.line l).state = .up) (hidle : s.lineIdle l)
    (hturn : (s.line l).pollTurn = false) :
    ∃ t p, exec (.probe tag slot) s = .next t ∧
      s.Probing (s.probeLists (some slot.toNat)) tag 0x30 (s.newProbe (some slot.toNat)) t p := by
  have hbegins : s.BeginsAll (s.probeLists (some slot.toNat)) := by
    intro m k rest _ hcons
    rw [probeLists_one, hline] at hcons
    split at hcons
    · next hm =>
      subst hm
      obtain rfl : slot.toNat = k := (List.cons.inj hcons).1
      exact ⟨hup, hidle, hturn, hready, hline⟩
    · cases hcons
  obtain ⟨t, p, hsettle, hprobing⟩ := startProbe_begins h hq tag 0x30 (some slot.toNat) hbegins
    ⟨l, hl, by rw [probeLists_one, hline, if_pos rfl]; simp⟩
  refine ⟨t, p, ?_, hprobing⟩
  rw [exec_probe h, takeProbe_one (ne_all hslot) (probeRequestCheck_ready hslot hready), hsettle]

/-- A PROBE of all with every line UP and idle is under way. -/
theorem exec_probe_all (h : s.planReady = true) (hq : s.gate.startQueue = []) (tag : Byte)
    (hsome : ∃ l, l < 8 ∧ s.slotsOn l ≠ [])
    (hlines : ∀ l, l < 8 → (s.line l).state = .up ∧ s.lineIdle l ∧ (s.line l).pollTurn = false ∧
      ∀ n ∈ s.slotsOn l, (s.slot n).probeable = true) :
    ∃ t p, exec (.probe tag 255) s = .next t ∧ s.Probing s.slotsOn tag 0x30 (s.newProbe none) t p := by
  have hbegins : s.BeginsAll (s.probeLists none) := by
    intro l n rest hl hcons
    obtain ⟨hup, hidle, hturn, hready⟩ := hlines l hl
    have hmem : n ∈ s.slotsOn l := by
      show n ∈ s.probeLists none l
      rw [hcons]
      exact List.mem_cons_self
    exact ⟨hup, hidle, hturn, hready n hmem, lineNo_of_onLine ((mem_slotsOn s l n).1 hmem).2⟩
  obtain ⟨l, hl, hne⟩ := hsome
  obtain ⟨n, hn⟩ := List.exists_mem_of_ne_nil _ hne
  obtain ⟨hn128, hon⟩ := (mem_slotsOn s l n).1 hn
  obtain ⟨t, p, hsettle, hprobing⟩ := startProbe_begins h hq tag 0x30 none hbegins ⟨l, hl, hne⟩
  refine ⟨t, p, ?_, hprobing⟩
  rw [exec_probe h, takeProbe_all ⟨n, hn128, not_vacant_of_onLine hon⟩, hsettle]

end Cases

/-- Settles O54. -/
theorem probe : Obligations.Probe := by
  refine fun s tag slot h => ⟨fun hall hvacant => ?nothing, fun hslot hbig => ?bad, fun hslot hvacant => ?noRobot,
    fun hslot hvacant hready => ?state, fun l hslot hready hline hl hup hidle hturn hq => ?one,
    fun l hslot hready hline hl hsilent => exec_probe_oneSilent h tag hslot hready hline hl hsilent,
    fun n hall hsilent hn hon hleast => ?allSilent, fun hall hsome hq hlines => ?all⟩
  case nothing =>
    rw [hall]
    exact exec_plan_reply (q := .probe 255) h (planReady_ready h) tag rfl (by show 1 ≤ 2048; omega)
      (takeProbe_nothing hvacant tag)
  case bad =>
    refine exec_probe_refused h tag hslot ?_
    unfold State.probeRequestCheck
    exact if_pos hbig
  case noRobot =>
    refine exec_probe_refused h tag (ne_all hslot) ?_
    unfold State.probeRequestCheck
    rw [if_neg (by omega), if_pos hvacant]
  case state =>
    refine exec_probe_refused h tag (ne_all hslot) ?_
    unfold State.probeRequestCheck
    rw [if_neg (by omega), if_neg hvacant, if_pos hready]
  case one =>
    obtain ⟨t, p, hexec, hprobing⟩ := exec_probe_one h hq tag hslot hready hline hl hup hidle hturn
    have hhead (m : Nat) : (s.probeLists (some slot.toNat) m).head? = some slot.toNat ↔ l = m := by
      rw [probeLists_one, hline]
      by_cases hm : l = m <;> simp [hm]
    have hcounts := hprobing.counts
    refine ⟨t, p, hexec, hprobing.link, ?_, by rw [hcounts]; rfl, by rw [hcounts]; rfl, by rw [hcounts]; rfl,
      by rw [hcounts]; rfl, hprobing.begun l hl _ ((hhead l).2 rfl), fun n hn => hprobing.slots n fun m _ hc => ?_,
      hprobing.sent l hl _ ((hhead l).2 rfl), hprobing.gate, hprobing.zones⟩
    · rw [hprobing.lines l hl]
      exact (hhead l).2 rfl
    · rw [probeLists_one] at hc
      split at hc
      · exact hn (Option.some.inj hc).symm
      · cases hc
  case allSilent =>
    rw [hall]
    exact exec_probe_allSilent h tag hsilent hn hon hleast
  case all =>
    obtain ⟨t, p, hexec, hprobing⟩ := exec_probe_all h hq tag hsome hlines
    have hcounts := hprobing.counts
    rw [hall]
    refine ⟨t, p, hexec, hprobing.link, by rw [hcounts]; rfl, by rw [hcounts]; rfl, by rw [hcounts]; rfl,
      by rw [hcounts]; rfl, by rw [hcounts]; rfl, by rw [hcounts]; rfl, fun l hl => ⟨?_, ?_, ?_⟩,
      fun n _ ⟨l, hl, hn⟩ => hprobing.begun l hl n hn, hprobing.slots, hprobing.gate, hprobing.zones⟩
    · rw [hprobing.lines l hl]
    · rw [hprobing.lines l hl]
    · cases hhead : (s.slotsOn l).head? with
      | none =>
        obtain ⟨htxn, _⟩ := (hlines l hl).2.1
        rw [hprobing.idle l (List.head?_eq_none_iff.1 hhead), htxn]
        rfl
      | some n => exact hprobing.sent l hl n hhead

end Sys2Proof.Machine
end

