-- ==== Sys2Proof/Proofs/MeasureSettling.lean ====
section
/-! PROOFS. The settlement of a measurement entry (R161, R180 to R183). -/

namespace Sys2Proof.Machine

/-! ## The entry in hand -/

section InHand

variable {s : State} {c : Current} {m : MeasureRec} {e : MeasureEntry}

theorem measureRec_of (hc : s.link.current = some c) (hw : c.work = .measure m) : s.measureRec = some m := by
  unfold State.measureRec
  rw [hc]
  dsimp only
  rw [hw]

theorem inHand_of (he : m.entries[m.index]? = some e) : m.inHand e.slot.toNat = some e := by
  unfold MeasureRec.inHand
  rw [he, Option.filter_some, if_pos (by simp)]

theorem setMeasure_eq (hc : s.link.current = some c) (w : MeasureRec) :
    s.setMeasure w = { s with link := { s.link with current := some { c with work := .measure w } } } :=
  modLink_work hc _

theorem measureAnswered_taken (hc : s.link.current = some c) (hw : c.work = .measure m)
    (he : m.entries[m.index]? = some e) {f : BusFrame} (hf : f.slot = e.slot.toNat) :
    s.measureAnswered f .taken = s.measureTaken m e := by
  unfold State.measureAnswered
  rw [measureRec_of hc hw, hf]
  dsimp only
  rw [inHand_of he]

theorem measureAnswered_refused (hc : s.link.current = some c) (hw : c.work = .measure m)
    (he : m.entries[m.index]? = some e) {f : BusFrame} (hf : f.slot = e.slot.toNat) (reason : Byte) :
    s.measureAnswered f (.refused reason) = s.measureRefused m e := by
  unfold State.measureAnswered
  rw [measureRec_of hc hw, hf]
  dsimp only
  rw [inHand_of he]

theorem measureFailed_inHand (hc : s.link.current = some c) (hw : c.work = .measure m)
    (he : m.entries[m.index]? = some e) {f : BusFrame} (hf : f.slot = e.slot.toNat) :
    s.measureFailed f = s.measureUnanswered m e := by
  unfold State.measureFailed
  rw [measureRec_of hc hw, hf]
  dsimp only
  rw [inHand_of he]

end InHand

/-! ## The next entry -/

section Next

variable {s : State} {c : Current} {w : MeasureRec}

/-- The answer of the current request in a state that has a place free. -/
theorem answerCurrent_room (hc : s.link.current = some c) (hroom : s.outputRoom = true) (st : Status) (p : List Byte) :
    s.answerCurrent st p =
      ({ s with link := { s.link with current := none } } : State).answered c.tag c.code st p :=
  answerCurrent_answered hc hroom st p

theorem measureNext_cancelled (h : w.cancelled = true) (hlen : w.index < w.entries.length) :
    s.measureNext w = s.answerCurrent .part (b2 w.applied ++ b2 w.index ++ [7]) := by
  unfold State.measureNext
  exact if_pos ⟨h, hlen⟩

theorem measureNext_goesOn (h : ¬ (w.cancelled = true ∧ w.index < w.entries.length)) :
    s.measureNext w = (s.setMeasure w).measureEntry w := by
  unfold State.measureNext
  exact if_neg h

/-- Past the last entry the list is answered. -/
theorem measureNext_past (h : w.entries.length = w.index) :
    s.measureNext w = (s.setMeasure w).answerCurrent .ok (b2 w.applied) := by
  rw [measureNext_goesOn fun hc => absurd hc.2 (by omega), measureEntry_past (List.getElem?_eq_none (by omega))]

theorem measureNext_fails (h : w.cancelled = false) {x : MeasureEntry} (hx : w.entries[w.index]? = some x)
    {st : Status} (hcheck : s.measureCheck x = some st) :
    s.measureNext w = (s.setMeasure w).answerCurrent .part (b2 w.applied ++ b2 w.index ++ b1 st.code) := by
  rw [measureNext_goesOn fun hc => by simp [h] at hc]
  exact measureEntry_fails (s := s.setMeasure w) hx hcheck

theorem measureNext_offers (h : w.cancelled = false) {x : MeasureEntry} (hx : w.entries[w.index]? = some x)
    (hcheck : s.measureCheck x = none) (hup : (s.line (s.slot x.slot.toNat).lineNo).state = .up) :
    s.measureNext w =
      ((s.setMeasure w).modLine (s.slot x.slot.toNat).lineNo fun r => r.offer (s.setCountFrame x)).hand
        (.choose (s.slot x.slot.toNat).lineNo) := by
  rw [measureNext_goesOn fun hc => by simp [h] at hc]
  exact measureEntry_offers (s := s.setMeasure w) hx hcheck hup

theorem measureNext_turnedAway (h : w.cancelled = false) {x : MeasureEntry} (hx : w.entries[w.index]? = some x)
    (hcheck : s.measureCheck x = none) (hup : (s.line (s.slot x.slot.toNat).lineNo).state ≠ .up) :
    s.measureNext w = (s.setMeasure w).measureUnanswered w x := by
  rw [measureNext_goesOn fun hc => by simp [h] at hc]
  exact measureEntry_turnedAway (s := s.setMeasure w) hx hcheck hup

/-- With the next entry's line UP, the next entry reaches the link, one line and what is handed on. -/
theorem measureNext_records (hup : ∀ x, w.entries[w.index]? = some x →
    (s.line (s.slot x.slot.toNat).lineNo).state = .up) :
    ∃ ls hd k, s.measureNext w = { s with lines := ls, handed := hd, link := k } := by
  have hanswer (t : State) (ht : ∃ k, t = { s with link := k }) (st : Status) (p : List Byte) :
      ∃ ls hd k, t.answerCurrent st p = { s with lines := ls, handed := hd, link := k } := by
    obtain ⟨k, rfl⟩ := ht
    rw [answerCurrent_eq]
    exact ⟨_, _, _, rfl⟩
  have hset : ∃ k, s.setMeasure w = { s with link := k } := ⟨_, rfl⟩
  by_cases hc : w.cancelled = true ∧ w.index < w.entries.length
  · rw [measureNext_cancelled hc.1 hc.2]
    exact hanswer s ⟨_, rfl⟩ _ _
  · rw [measureNext_goesOn hc]
    cases hx : w.entries[w.index]? with
    | none =>
      rw [measureEntry_past hx]
      exact hanswer _ hset _ _
    | some x =>
      cases hcheck : s.measureCheck x with
      | some st =>
        rw [measureEntry_fails (s := s.setMeasure w) hx hcheck]
        exact hanswer _ hset _ _
      | none =>
        rw [measureEntry_offers (s := s.setMeasure w) hx hcheck (hup x hx)]
        exact ⟨_, _, _, rfl⟩

end Next

/-! ## An entry taken -/

/-- The state once an entry's counts are loaded and the robot's zones updated. -/
def State.loaded (s : State) (e : MeasureEntry) : State :=
  (s.modSlot e.slot.toNat fun r =>
    { r with position := some { alpha := e.alpha.toNat, beta := e.beta.toNat, source := .loaded } }).updateZones
      e.slot.toNat

section Loaded

variable {s : State} {c : Current} {m : MeasureRec} {e : MeasureEntry}

theorem measureTaken_eq (s : State) (m : MeasureRec) (e : MeasureEntry) :
    s.measureTaken m e = (s.loaded e).measureNext { m with applied := m.applied + 1, index := m.index + 1 } := rfl

theorem loaded_eq (hwait : s.waitList = []) (e : MeasureEntry) :
    ∃ z k, s.loaded e = { s.modSlot e.slot.toNat fun r =>
        { r with position := some { alpha := e.alpha.toNat, beta := e.beta.toNat, source := .loaded } } with
      zones := z, link := { s.link with notices := k } } := by
  unfold State.loaded
  rw [updateZones_eq _ (by exact hwait)]
  exact ⟨_, _, rfl⟩

theorem loaded_slot (hwait : s.waitList = []) (hn : e.slot.toNat ≤ 127) :
    (s.loaded e).slot e.slot.toNat =
      { s.slot e.slot.toNat with
        position := some { alpha := e.alpha.toNat, beta := e.beta.toNat, source := .loaded } } := by
  obtain ⟨z, k, h⟩ := loaded_eq hwait e
  rw [h]
  exact slot_modSlot_same s e.slot.toNat (fun r =>
    { r with position := some { alpha := e.alpha.toNat, beta := e.beta.toNat, source := .loaded } }) (by omega)

theorem loaded_other (hwait : s.waitList = []) {n : Nat} (hn : n ≠ e.slot.toNat) : (s.loaded e).slot n = s.slot n := by
  obtain ⟨z, k, h⟩ := loaded_eq hwait e
  rw [h]
  exact slot_modSlot_other s e.slot.toNat n (fun r =>
    { r with position := some { alpha := e.alpha.toNat, beta := e.beta.toNat, source := .loaded } }) hn.symm

/-- Loading counts leaves every bus address. -/
theorem loaded_addr (hwait : s.waitList = []) (n : Nat) : ((s.loaded e).slot n).addr = (s.slot n).addr := by
  obtain ⟨z, k, h⟩ := loaded_eq hwait e
  rw [h]
  show ((s.modSlot e.slot.toNat fun r =>
    { r with position := some { alpha := e.alpha.toNat, beta := e.beta.toNat, source := .loaded } }).slot n).addr = _
  rw [slot_modSlot]
  split
  · next hn => rw [← hn.1]
  · rfl

theorem loaded_lines (hwait : s.waitList = []) : (s.loaded e).lines = s.lines := by
  obtain ⟨z, k, h⟩ := loaded_eq hwait e
  rw [h]
  rfl

theorem loaded_gate (hwait : s.waitList = []) : (s.loaded e).gate = s.gate := by
  obtain ⟨z, k, h⟩ := loaded_eq hwait e
  rw [h]
  rfl

theorem loaded_link (hwait : s.waitList = []) : ∃ k, (s.loaded e).link = { s.link with notices := k } := by
  obtain ⟨z, k, h⟩ := loaded_eq hwait e
  rw [h]
  exact ⟨k, rfl⟩

/-- An answer of the list from a state with the link of another, but for notices, and any current request of the same
tag and code. -/
theorem answerCurrent_output {t : State} {k : List Notice} {c' : Current}
    (ht : t.link = { s.link with notices := k, current := some c' }) (htag : c'.tag = c.tag) (hcode : c'.code = c.code)
    (hroom : s.outputRoom = true) (st : Status) (p : List Byte) :
    (t.answerCurrent st p).lines = t.lines ∧ (t.answerCurrent st p).link.current = none ∧
      (t.answerCurrent st p).link.output = (s.answered c.tag c.code st p).link.output := by
  have hcurrent : t.link.current = some c' := by rw [ht]
  have hroom' : t.outputRoom = true := by
    rw [outputRoom_iff, ht]
    exact (outputRoom_iff s).1 hroom
  rw [answerCurrent_answered hcurrent hroom', htag, hcode]
  refine ⟨answered_lines _ _ _ _ _, answered_current _ _ _ _ _, answered_output_congr ?_ ?_ _ _ _ _⟩
  · show t.link.output = s.link.output
    rw [ht]
  · show t.link.plan = s.link.plan
    rw [ht]

end Loaded

end Sys2Proof.Machine
end

