-- ==== Sys2Proof/Proofs/MeasureSettled.lean ====
section
/-! PROOFS. The settlement of a measurement entry: the statement assembled (R161, R180 to R183). -/

namespace Sys2Proof.Machine

section Settled

variable {s : State} {c : Current} {m : MeasureRec} {e : MeasureEntry} {f : BusFrame}

/-- The list once the entry in hand is taken. -/
def MeasureRec.onward (m : MeasureRec) : MeasureRec := { m with applied := m.applied + 1, index := m.index + 1 }

theorem measureAnswered_onward (hc : s.link.current = some c) (hw : c.work = .measure m)
    (he : m.entries[m.index]? = some e) (hf : f.slot = e.slot.toNat) :
    s.measureAnswered f .taken = (s.loaded e).measureNext m.onward := by
  rw [measureAnswered_taken hc hw he hf, measureTaken_eq]
  rfl

/-- The current request of a state with an entry loaded, with its list in progress written or not. -/
theorem loaded_setMeasure_link (hc : s.link.current = some c) (hwait : s.waitList = []) (w : MeasureRec) :
    ∃ k, ((s.loaded e).setMeasure w).link =
      { s.link with notices := k, current := some { c with work := .measure w } } := by
  obtain ⟨k, hk⟩ := loaded_link (e := e) hwait
  refine ⟨k, ?_⟩
  rw [setMeasure_eq (s := s.loaded e) (by rw [hk]; exact hc)]
  dsimp only
  rw [hk]

/-- An answer of the list once its entry in hand is taken. -/
theorem loaded_answers (hc : s.link.current = some c) (hwait : s.waitList = []) (hroom : s.outputRoom = true)
    (w : MeasureRec) (st : Status) (p : List Byte) :
    (((s.loaded e).setMeasure w).answerCurrent st p).lines = s.lines ∧
      (((s.loaded e).setMeasure w).answerCurrent st p).link.current = none ∧
      (((s.loaded e).setMeasure w).answerCurrent st p).link.output = (s.answered c.tag c.code st p).link.output := by
  obtain ⟨k, hk⟩ := loaded_setMeasure_link (e := e) hc hwait w
  obtain ⟨hlines, hcurrent, houtput⟩ := answerCurrent_output (c := c) hk rfl rfl hroom st p
  exact ⟨hlines.trans (loaded_lines hwait), hcurrent, houtput⟩

theorem loaded_line (hwait : s.waitList = []) (n : Nat) :
    (s.loaded e).line ((s.loaded e).slot n).lineNo = s.line (s.slot n).lineNo := by
  rw [line_congr (loaded_lines hwait)]
  unfold SlotRec.lineNo
  rw [loaded_addr hwait]

/-- The records of slots, zones and gate once the entry in hand is taken, the next entry's line being UP. -/
theorem measureAnswered_records (hc : s.link.current = some c) (hw : c.work = .measure m)
    (he : m.entries[m.index]? = some e) (hf : f.slot = e.slot.toNat) (hwait : s.waitList = [])
    (hup : ∀ x, m.entries[m.index + 1]? = some x → (s.line (s.slot x.slot.toNat).lineNo).state = .up) :
    ∃ ls hd k, s.measureAnswered f .taken = { s.loaded e with lines := ls, handed := hd, link := k } := by
  rw [measureAnswered_onward hc hw he hf]
  refine measureNext_records fun x hx => ?_
  rw [loaded_line hwait]
  exact hup x hx

/-- A fault of the entry in hand stops the list. -/
theorem measureStops_fault (hc : s.link.current = some c) (hw : c.work = .measure m) (hwait : s.waitList = [])
    (hroom : s.outputRoom = true) (hn : e.slot.toNat ≤ 127)
    (hlimit : (s.slot e.slot.toNat).faultCount + 1 < s.settings.faultLimit) (kind : FaultKind) (pos : PosChange)
    (p : List Byte) :
    let t := (s.faultReport e.slot.toNat kind pos).answerCurrent .part p
    (t.slot e.slot.toNat).state = .faulted ∧ (t.slot e.slot.toNat).fault = some { kind := kind, time := s.now } ∧
      (t.slot e.slot.toNat).faultCount = (s.slot e.slot.toNat).faultCount + 1 ∧
      (t.slot e.slot.toNat).position = pos.apply (s.slot e.slot.toNat).position ∧
      (∀ k, k ≠ e.slot.toNat → t.slot k = s.slot k) ∧ t.lines = s.lines ∧ t.gate = s.gate ∧
      t.link.current = none ∧ t.link.output = (s.answered c.tag c.code .part p).link.output := by
  obtain ⟨v, hv⟩ : ∃ v, v = s.faultReport e.slot.toNat kind pos := ⟨_, rfl⟩
  have hbelow := faultReport_below kind pos (by omega) hwait hlimit
  dsimp only at hbelow ⊢
  rw [← hv] at hbelow ⊢
  obtain ⟨hrecords, ⟨o, ts, g, hslot, _⟩, hsame, _, hlink⟩ := hbelow
  have hvlink := hlink fun w hw' => by
    rw [hc] at hw'
    obtain rfl := Option.some.inj hw'
    rw [hw]
    exact Work.noConfusion
  have hcurrent : v.link = { s.link with notices := v.link.notices, current := some c } := by
    rw [hvlink, ← hc]
  obtain ⟨hlines, hnone, houtput⟩ := answerCurrent_output (c := c) hcurrent rfl rfl hroom .part p
  have htslot (k : Nat) : (v.answerCurrent .part p).slot k = v.slot k := by
    rw [answerCurrent_eq]
    rfl
  refine ⟨?_, ?_, ?_, ?_, fun k hk => ?_, ?_, ?_, hnone, houtput⟩
  · rw [htslot, hslot]
  · rw [htslot, hslot]
  · rw [htslot, hslot]
  · rw [htslot, hslot]
  · rw [htslot]
    exact hsame k hk
  · rw [hlines, hrecords]
  · rw [answerCurrent_eq]
    show v.gate = s.gate
    rw [hrecords]

end Settled

/-- Settles O58. -/
theorem measureEntrySettled : Obligations.MeasureEntrySettled := by
  refine ⟨fun s f c m e hn hc hw he hf hwait hroom => ⟨fun hup => ⟨?slot, fun k hk => ?other, ?zones, ?gate,
      fun hlen => ?past, fun hcancelled hlen => ?cancelled, fun x st hgoes hx hcheck => ?fails,
      fun x hgoes hx hcheck => ?offers⟩, fun x hgoes hx hcheck hdown => ?turnedAway,
      fun hlimit => ⟨?unanswered, fun reason => ?refused⟩⟩,
    fun s m e c => ⟨fun hc => setMeasure_eq hc m, fun hc hw he f hf => measureFailed_inHand hc hw he hf, rfl⟩⟩
  all_goals have honward := measureAnswered_onward (f := f) hc hw he hf
  case slot =>
    obtain ⟨ls, hd, k, hrecords⟩ := measureAnswered_records hc hw he hf hwait hup
    dsimp only
    rw [hrecords]
    exact loaded_slot hwait hn
  case other =>
    obtain ⟨ls, hd, k', hrecords⟩ := measureAnswered_records hc hw he hf hwait hup
    rw [hrecords]
    exact loaded_other hwait hk
  case zones =>
    obtain ⟨ls, hd, k, hrecords⟩ := measureAnswered_records hc hw he hf hwait hup
    dsimp only
    rw [hrecords]
    rfl
  case gate =>
    obtain ⟨ls, hd, k, hrecords⟩ := measureAnswered_records hc hw he hf hwait hup
    rw [hrecords]
    exact loaded_gate hwait
  case past =>
    rw [honward, measureNext_past (by exact hlen)]
    exact loaded_answers hc hwait hroom _ _ _
  case cancelled =>
    obtain ⟨k, hk⟩ := loaded_link (e := e) hwait
    dsimp only
    rw [honward, measureNext_cancelled (by exact hcancelled) (by exact hlen)]
    obtain ⟨hlines, hcurrent, houtput⟩ := answerCurrent_output (s := s) (c := c) (c' := c) (t := s.loaded e) (k := k)
      (by rw [hk, ← hc]) rfl rfl hroom .part (b2 m.onward.applied ++ b2 m.onward.index ++ [7])
    exact ⟨hlines.trans (loaded_lines hwait), hcurrent, houtput⟩
  case fails =>
    dsimp only
    rw [honward, measureNext_fails (by exact hgoes) (by exact hx) (by exact hcheck)]
    exact loaded_answers hc hwait hroom _ _ _
  case offers =>
    obtain ⟨k, hk⟩ := loaded_setMeasure_link (e := e) hc hwait m.onward
    have hup' : ((s.loaded e).line ((s.loaded e).slot x.slot.toNat).lineNo).state = .up := by
      rw [loaded_line hwait]
      exact hup x hx
    have haddr := loaded_addr (e := e) hwait x.slot.toNat
    have hlineNo : ((s.loaded e).slot x.slot.toNat).lineNo = (s.slot x.slot.toNat).lineNo := by
      unfold SlotRec.lineNo
      rw [haddr]
    have hframe : (s.loaded e).setCountFrame x =
        { slot := x.slot.toNat, drop := (s.slot x.slot.toNat).dropNo
          body := .setCount x.alpha.toNat x.beta.toNat, owner := .measure } := by
      unfold State.setCountFrame SlotRec.dropNo
      rw [haddr]
    rw [honward, measureNext_offers (by exact hgoes) (by exact hx) (by exact hcheck) hup', hlineNo, hframe]
    refine ⟨?_, ?_, ?_⟩
    · have hlines : ((s.loaded e).setMeasure m.onward).lines = s.lines := loaded_lines hwait
      unfold State.modLine State.setLine State.line State.hand
      dsimp only
      rw [hlines]
    · show ((s.loaded e).setMeasure m.onward).link.output = s.link.output
      rw [hk]
    · show ((s.loaded e).setMeasure m.onward).link.current = _
      rw [hk]
      rfl
  case turnedAway =>
    rw [honward]
    exact measureNext_turnedAway (by exact hgoes) (by exact hx) (by exact hcheck) (by rw [loaded_line hwait]; exact hdown)
  case unanswered =>
    dsimp only
    rw [measureFailed_inHand hc hw he hf]
    exact measureStops_fault hc hw hwait hroom hn hlimit .noAnswer _ _
  case refused =>
    dsimp only
    rw [measureAnswered_refused hc hw he hf]
    exact measureStops_fault hc hw hwait hroom hn hlimit .refused .unchanged _

end Sys2Proof.Machine
end

