-- ==== Sys2Proof/Proofs/RecoverTaking.lean ====
section
/-! PROOFS. RECOVER (R184 to R186). -/

namespace Sys2Proof.Machine

/-! ## Checks -/

theorem atFold_iff (r : SlotRec) : r.atFold = true ↔ ∃ p, r.position = some p ∧ p.beta = r.calib.betaFold := by
  simp [SlotRec.atFold, Option.any_eq_true]

theorem returnState_none (st : RobotState) : st.returnState = none ↔ st ∉ [RobotState.faulted, .held, .rest] := by
  cases st <;> simp [RobotState.returnState]

section Checks

variable {s : State} {n : Nat}

theorem recoverCheck_bad (h : 127 < n) : s.recoverCheck n = some .badRequest := by
  unfold State.recoverCheck
  exact if_pos h

theorem recoverCheck_vacant (hn : n ≤ 127) (h : (s.slot n).state = .vacant) : s.recoverCheck n = some .noRobot := by
  unfold State.recoverCheck
  dsimp only
  rw [if_neg (Nat.not_lt.2 hn), if_pos h]

theorem recoverCheck_state (hn : n ≤ 127) (h : (s.slot n).state ≠ .vacant)
    (hbad : (s.slot n).state ∉ [RobotState.faulted, .held, .rest] ∨ (s.slot n).leg ≠ none) :
    s.recoverCheck n = some .state := by
  unfold State.recoverCheck
  dsimp only
  rw [if_neg (Nat.not_lt.2 hn), if_neg h, if_pos (hbad.imp_left (returnState_none _).2)]

/-- A robot in a state that RECOVER is taken in, without a leg: the checks that are left. -/
theorem recoverCheck_ready (hn : n ≤ 127) (h : (s.slot n).state ∈ [RobotState.faulted, .held, .rest])
    (hleg : (s.slot n).leg = none) :
    s.recoverCheck n =
      if (s.slot n).identity = none then some .state
      else if s.pins.stop = true then some .stopped
      else if (s.line (s.slot n).lineNo).state ≠ .up then some .state
      else none := by
  have hvacant : (s.slot n).state ≠ .vacant := by
    intro hv
    rw [hv] at h
    simp at h
  have hreturn : ¬ ((s.slot n).state.returnState = none ∨ (s.slot n).leg ≠ none) := by
    rintro (hc | hc)
    · exact (returnState_none _).1 hc h
    · exact hc hleg
  unfold State.recoverCheck
  dsimp only
  rw [if_neg (Nat.not_lt.2 hn), if_neg hvacant, if_neg hreturn]
  rfl

theorem exec_recover_refused (h : s.planReady = true) (tag slot : Byte) {st : Status}
    (hcheck : s.recoverCheck slot.toNat = some st) :
    exec (.recover tag slot) s = .next (s.answered tag 0x32 st []) := by
  refine exec_plan_reply (q := .recover slot) h (planReady_ready h) tag rfl (by show 1 ≤ 2048; omega) ?_
  show s.takeRecover tag slot = _
  unfold State.takeRecover
  dsimp only
  rw [hcheck]

/-- A RECOVER that becomes current. -/
def State.recoverCurrent (s : State) (tag : Byte) (n : Nat) : State :=
  { s with link := s.link.doing { code := 0x32, tag := tag, work := .recover n } }

theorem exec_recover_taken (h : s.planReady = true) (tag slot : Byte) (hcheck : s.recoverCheck slot.toNat = none) :
    exec (.recover tag slot) s =
      .next ((if (s.slot slot.toNat).atFold = true then
          ((s.recoverCurrent tag slot.toNat).updateZones slot.toNat).recoverSucceeds slot.toNat
        else (s.recoverCurrent tag slot.toNat).startRecover slot.toNat).settle (Config.settleFuel - 1)) := by
  rw [show exec (.recover tag slot) s = _ from exec_plan h tag (.recover slot) rfl (by show 1 ≤ 2048; omega)]
  refine congrArg (fun u : State => Host.Outcome.next (u.settle (Config.settleFuel - 1))) ?_
  show s.takeRecover tag slot = _
  unfold State.takeRecover
  dsimp only
  rw [hcheck]
  rfl

end Checks

/-! ## A robot at fold -/

section AtFold

variable {s : State} {n : Nat} {c : Current} {p : Position}

theorem answerRecover_current (hc : s.link.current = some c) (hw : c.work = .recover n) (hroom : s.outputRoom = true)
    (st : Status) (x : List Byte) :
    s.answerRecover n st x =
      ({ s with link := { s.link with current := none } } : State).answered c.tag c.code st x := by
  have hrecovering : s.recovering n = true := by
    unfold State.recovering
    rw [hc]
    exact decide_eq_true hw
  unfold State.answerRecover
  rw [if_pos hrecovering]
  exact answerCurrent_answered hc hroom st x

/-- A RECOVER ended successfully, its robot's position known. -/
theorem recoverSucceeds_eq (hn : n < 128) (hp : (s.slot n).position = some p) :
    s.recoverSucceeds n =
      (s.modSlot n fun r => { r with state := .rest, fault := none, recoveryReturn := none }).answerRecover n .ok
        (b2 p.alpha ++ b2 p.beta) := by
  have hposition : ((s.modSlot n fun r => { r with state := .rest, fault := none, recoveryReturn := none }).slot
      n).position = some p := by
    rw [slot_modSlot_same _ _ _ hn]
    exact hp
  unfold State.recoverSucceeds
  dsimp only
  rw [hposition]

end AtFold

end Sys2Proof.Machine
end

