-- ==== Sys2Proof/Proofs/RecoverRequest.lean ====
section
/-! PROOFS. RECOVER: the statement assembled (R19, R184 to R186). -/

namespace Sys2Proof.Machine

section Taken

variable {s : State} {n : Nat}

/-- A RECOVER of a robot at fold, before what follows runs to rest. -/
theorem recoverCurrent_atFold (h : s.planReady = true) (hn : n < 128) (hwait : s.waitList = []) {p : Position}
    (hp : (s.slot n).position = some p) (tag : Byte) :
    ∃ z k, ((s.recoverCurrent tag n).updateZones n).recoverSucceeds n =
      ({ s.modSlot n fun r => { r with state := .rest, fault := none, recoveryReturn := none } with
        zones := z, link := { s.link with notices := k } } : State).answered tag 0x32 .ok (b2 p.alpha ++ b2 p.beta) := by
  obtain ⟨_, hroom, _⟩ := ready_spec (planReady_ready h)
  obtain ⟨v, hv⟩ : ∃ v, v = (s.recoverCurrent tag n).updateZones n := ⟨_, rfl⟩
  obtain ⟨z, k, hzk⟩ : ∃ z k, v = { s.recoverCurrent tag n with
      zones := z, link := { (s.recoverCurrent tag n).link with notices := k } } := by
    rw [hv, updateZones_eq n (by exact hwait)]
    exact ⟨_, _, rfl⟩
  have hslot : v.slot n = s.slot n := by rw [hzk]; rfl
  have hlink : ({ s.link with notices := k, current := none } : Link) = { s.link with notices := k } := by
    rw [← planReady_current h]
  refine ⟨z, k, ?_⟩
  rw [← hv, recoverSucceeds_eq hn (by rw [hslot]; exact hp)]
  obtain ⟨x, hx⟩ : ∃ x, x = v.modSlot n fun r => { r with state := .rest, fault := none, recoveryReturn := none } :=
    ⟨_, rfl⟩
  rw [← hx, answerRecover_current (c := { code := 0x32, tag := tag, work := .recover n }) (by rw [hx, hzk]; rfl) rfl
    (by rw [hx, hzk]; exact hroom), ← hlink, hx, hzk]
  rfl

/-- The robot's RECOVER leg as it is built. -/
def State.recoverLeg (s : State) (n : Nat) : Leg :=
  s.newLeg n .recover (s.slot n).recoverEnd 0

/-- A RECOVER leg built for a robot, with its recovery return state. -/
def State.recoverBuilt (s : State) (n : Nat) : State :=
  { s.modSlot n fun r =>
      { r with state := .waiting, leg := some (s.recoverLeg n), recoveryReturn := r.state.returnState } with
    nextLegId := s.nextLegId + 1 }

/-- Writing the recovery return state leaves what a leg is built from. -/
theorem newLeg_recoveryReturn (s : State) {n : Nat} (hn : n < 128) :
    (s.modSlot n fun r => { r with recoveryReturn := r.state.returnState }).newLeg n .recover (s.slot n).recoverEnd 0 =
      s.recoverLeg n := by
  have hslot : (s.modSlot n fun r => { r with recoveryReturn := r.state.returnState }).slot n =
      { s.slot n with recoveryReturn := (s.slot n).state.returnState } := slot_modSlot_same s n _ hn
  unfold State.recoverLeg State.newLeg
  rw [hslot]
  rfl

theorem startRecover_eq (s : State) {n : Nat} (hn : n < 128) : s.startRecover n = (s.recoverBuilt n).hand (.handOn n) := by
  have hbuilt : (s.modSlot n fun r => { r with recoveryReturn := r.state.returnState }).buildLeg n .recover
      (s.slot n).recoverEnd 0 = s.recoverBuilt n := by
    unfold State.buildLeg State.recoverBuilt
    rw [newLeg_recoveryReturn s hn]
    have hmod := modSlot_modSlot (s := s) hn (fun r => { r with recoveryReturn := r.state.returnState }) fun r =>
      { r with leg := some (s.recoverLeg n), state := .waiting }
    exact congrArg (fun t : State => ({ t with nextLegId := s.nextLegId + 1 } : State)) hmod
  have hleg : ((s.recoverBuilt n).slot n).leg = some (s.recoverLeg n) :=
    congrArg SlotRec.leg (slot_modSlot_same s n (fun r =>
      { r with state := .waiting, leg := some (s.recoverLeg n), recoveryReturn := r.state.returnState }) hn)
  unfold State.startRecover
  rw [hbuilt, handLeg_queued hleg rfl]

/-- Under INHIBIT the leg stays in the start queue. -/
theorem settle_recoverBuilt (hh : s.handed = []) (hn : n < 128) (hstop : s.pins.stop = false)
    (hinhibit : s.pins.inhibit = true)
    (hq : ((s.recoverBuilt n).joinStart n (s.recoverLeg n)).quiet = true) (k : Nat) :
    (s.startRecover n).settle (k + 1) = (s.recoverBuilt n).joinStart n (s.recoverLeg n) := by
  have hleg : ((s.recoverBuilt n).slot n).leg = some (s.recoverLeg n) :=
    congrArg SlotRec.leg (slot_modSlot_same s n (fun r =>
      { r with state := .waiting, leg := some (s.recoverLeg n), recoveryReturn := r.state.returnState }) hn)
  have htake : (s.recoverBuilt n).takeHanded (.handOn n) = (s.recoverBuilt n).joinStart n (s.recoverLeg n) := by
    refine (takeHandOn_queued hleg rfl).trans ?_
    have hnostop : ¬ (s.recoverBuilt n).pins.stop = true := by
      show ¬ s.pins.stop = true
      simp [hstop]
    rw [if_neg hnostop]
    exact scan_idle (.inr hinhibit)
  rw [startRecover_eq s hn, settle_hand_quiet (s := s.recoverBuilt n) hh _ (by rw [htake]; exact hq), htake]

end Taken

/-- Settles O59. -/
theorem recover : Obligations.Recover := by
  refine ⟨fun s tag slot h => ⟨fun hbig => exec_recover_refused h tag slot (recoverCheck_bad hbig), fun hslot =>
      ⟨fun hv => exec_recover_refused h tag slot (recoverCheck_vacant hslot hv),
        fun hv hbad => exec_recover_refused h tag slot (recoverCheck_state hslot hv hbad),
        fun hstate hleg => ?ready⟩⟩,
    fun r => ⟨atFold_iff r, rfl⟩, fun s n g e q => ⟨rfl, joinByClass_spec StartEntry.cls e q⟩⟩
  case ready =>
    have hcheck := recoverCheck_ready hslot hstate hleg
    have hn : slot.toNat < 128 := by omega
    refine ⟨fun hid => exec_recover_refused h tag slot ?_, fun hid hstop => exec_recover_refused h tag slot ?_,
      fun hid hstop hline => exec_recover_refused h tag slot ?_, fun hid hstop hline =>
        ⟨fun p hp hbeta hwait => ?_, fun hfold hinhibit => ?_⟩⟩
    · rw [hcheck, if_pos hid]
    · rw [hcheck, if_neg hid, if_pos hstop]
    · rw [hcheck, if_neg hid, if_neg (by simp [hstop]), if_pos hline]
    · have hpass : s.recoverCheck slot.toNat = none := by
        rw [hcheck, if_neg hid, if_neg (by simp [hstop]), if_neg (Decidable.not_not.2 hline)]
      have hfold : (s.slot slot.toNat).atFold = true := (atFold_iff _).2 ⟨p, hp, hbeta⟩
      obtain ⟨hhanded, _, _, _, hcontrol, hplan⟩ := ready_spec (planReady_ready h)
      obtain ⟨z, k, heq⟩ := recoverCurrent_atFold h hn hwait hp tag
      obtain ⟨w, hw⟩ : ∃ w, w = ({ s.modSlot slot.toNat fun r =>
          { r with state := .rest, fault := none, recoveryReturn := none } with
        zones := z, link := { s.link with notices := k } } : State).answered tag 0x32 .ok (b2 p.alpha ++ b2 p.beta) :=
        ⟨_, rfl⟩
      have hwplan : w.link.plan = [] := by
        rw [hw, answered_eq]
        exact (enter_plan _ _).trans (hplan (planReady_moves h))
      have hwcontrol : w.link.control = [] := by rw [hw, answered_control]; exact hcontrol
      have hwhanded : w.handed = [] := by rw [hw, answered_eq]; exact hhanded
      have hrecords := sameRecords_settle (Config.settleFuel - 1) w hwhanded hwcontrol hwplan
      have hprefix := (Inner.settle (Config.settleFuel - 1) w hwcontrol hwplan).output
      obtain ⟨t, ht⟩ : ∃ t, t = w.settle (Config.settleFuel - 1) := ⟨_, rfl⟩
      rw [← ht] at hrecords hprefix
      have htslot (m : Nat) : t.slot m = (s.modSlot slot.toNat fun r =>
          { r with state := .rest, fault := none, recoveryReturn := none }).slot m := by
        have hwslot : w.slot m = (s.modSlot slot.toNat fun r =>
            { r with state := .rest, fault := none, recoveryReturn := none }).slot m := by rw [hw, answered_slot]; rfl
        rw [← hwslot, hrecords]
        rfl
      refine ⟨t, ?_, ?_, fun m hm => ?_, ?_, ?_, ?_⟩
      · rw [exec_recover_taken h tag slot hpass, if_pos hfold, heq, ← hw, ← ht]
      · rw [htslot, slot_modSlot_same _ _ _ hn]
      · rw [htslot, slot_modSlot_other _ _ _ _ hm.symm]
      · rw [hrecords]
        show w.gate = s.gate
        rw [hw, answered_gate]
        rfl
      · rw [hrecords]
        show w.lines = s.lines
        rw [hw, answered_lines]
        rfl
      · have houtput : w.link.output =
            (s.answered tag 0x32 .ok (b2 p.alpha ++ b2 p.beta)).link.output := by
          rw [hw]
          exact answered_output_congr (t := { s.modSlot slot.toNat fun r =>
            { r with state := .rest, fault := none, recoveryReturn := none } with
              zones := z, link := { s.link with notices := k } }) (s := s) rfl rfl _ _ _ _
        rw [← houtput]
        exact hprefix
    · have hpass : s.recoverCheck slot.toNat = none := by
        rw [hcheck, if_neg hid, if_neg (by simp [hstop]), if_neg (Decidable.not_not.2 hline)]
      obtain ⟨u, hu⟩ : ∃ u, u = s.recoverCurrent tag slot.toNat := ⟨_, rfl⟩
      have hready : u.ready = true := by
        rw [hu]
        exact ready_doing (planReady_ready h) _
      have hquiet : u.quiet = true := by
        simp only [State.ready, Bool.and_eq_true] at hready
        exact hready.1
      have huslot (m : Nat) : u.slot m = s.slot m := by rw [hu]; rfl
      have hsettle := settle_recoverBuilt (s := u) (n := slot.toNat) (ready_spec hready).1 hn
        (by rw [hu]; exact hstop) (by rw [hu]; exact hinhibit)
        (quiet_of_link (s := u) hquiet rfl (ready_spec hready).1) 99998
      refine ⟨(u.recoverBuilt slot.toNat).joinStart slot.toNat (u.recoverLeg slot.toNat), u.recoverLeg slot.toNat, ?_,
        ?_, fun m hm => ?_, rfl, rfl, rfl, rfl, rfl, rfl, ?_, ?_, ?_, ?_⟩
      · rw [exec_recover_taken h tag slot hpass, if_neg (by simp [hfold]), ← hu]
        exact congrArg Host.Outcome.next hsettle
      · have hslot := slot_modSlot_same u slot.toNat (fun r =>
          { r with state := .waiting, leg := some (u.recoverLeg slot.toNat), recoveryReturn := r.state.returnState }) hn
        rw [huslot] at hslot
        exact hslot
      · have hother := slot_modSlot_other u slot.toNat m (fun r =>
          { r with state := .waiting, leg := some (u.recoverLeg slot.toNat), recoveryReturn := r.state.returnState })
          hm.symm
        rw [huslot] at hother
        exact hother
      · rw [← huslot]
        rfl
      · rw [← huslot]
        rfl
      · have hslot := slot_modSlot_same u slot.toNat (fun r =>
          { r with state := .waiting, leg := some (u.recoverLeg slot.toNat), recoveryReturn := r.state.returnState }) hn
        have hlineNo : ((u.recoverBuilt slot.toNat).slot slot.toNat).lineNo = (s.slot slot.toNat).lineNo := by
          rw [← huslot]
          have hbuilt : (u.recoverBuilt slot.toNat).slot slot.toNat = _ := hslot
          rw [hbuilt]
          rfl
        have hentry : (u.recoverBuilt slot.toNat).startEntry slot.toNat (u.recoverLeg slot.toNat) =
            s.startEntry slot.toNat (u.recoverLeg slot.toNat) := by
          unfold State.startEntry
          rw [hlineNo, hu]
          rfl
        unfold State.joinStart
        rw [hentry, hu]
        rfl
      · rw [hu]
        rfl

end Sys2Proof.Machine
end

