-- ==== Sys2Proof/Proofs/RecoverFaults.lean ====
section
/-! PROOFS. A fault of a RECOVER leg: what a fault report leaves, at the fault limit too, and its answer
(R31, R32, R187, R188). -/

namespace Sys2Proof.Machine

/-! ## A fault report, below the limit or at it -/

/-- Nothing but a robot's leg, the gate and what is handed on differs. -/
structure State.LegWritten (s : State) (n : Nat) (g : Option Leg) (t : State) : Prop where
  own : t.slot n = { s.slot n with leg := g }
  others : ∀ m, m ≠ n → t.slot m = s.slot m
  lines : t.lines = s.lines
  now : t.now = s.now
  settings : t.settings = s.settings
  waitList : t.waitList = s.waitList
  link : t.link = s.link

/-- What a fault report for a robot leaves, besides its leg. -/
structure State.FaultReported (s : State) (n : Nat) (kind : FaultKind) (pos : Option Position) (t : State) :
    Prop where
  state : (t.slot n).state = if (s.slot n).faultCount + 1 < s.settings.faultLimit then .faulted else .retired
  fault : (t.slot n).fault = some { kind := kind, time := s.now }
  count : (t.slot n).faultCount = (s.slot n).faultCount + 1
  position : (t.slot n).position = pos
  remaining : (t.slot n).remaining = []
  others : ∀ m, m ≠ n → t.slot m = s.slot m
  lines : t.lines = s.lines
  now : t.now = s.now
  link : (∀ w, s.link.current = some w → w.work ≠ .awaitBatch) → ∃ k, t.link = { s.link with notices := k }

section Report

variable {s : State} {n : Nat} {kind : FaultKind} {pos : PosChange}

theorem faultRecorded_link (h : ∀ w, s.link.current = some w → w.work ≠ .awaitBatch) :
    ∃ k, (s.faultRecorded n kind pos).link = { s.link with notices := k } := by
  obtain ⟨u, hu⟩ : ∃ u, u = (s.raise (.robotFaulted 1 n)).modSlot n fun r =>
    { r with state := .faulted, fault := some { kind := kind, time := s.now }, remaining := [] } := ⟨_, rfl⟩
  have hulink : u.link = { s.link with notices := (s.raise (.robotFaulted 1 n)).link.notices } := by
    rw [hu, raise_eq]
    rfl
  have hrecord := recordOutcome_link (s := u) n .faulted (by rw [hulink]; exact h)
  rw [hulink] at hrecord
  refine ⟨(u.recordOutcome n .faulted).link.notices, ?_⟩
  unfold State.faultRecorded
  rw [← hu]
  exact hrecord

/-- The robot with the fault recorded and its zones updated, before the test of the fault limit. -/
theorem faultUpdated_link (hw : s.waitList = []) (h : ∀ w, s.link.current = some w → w.work ≠ .awaitBatch) :
    ∃ k, ((s.faultRecorded n kind pos).updateZones n).link = { s.link with notices := k } := by
  obtain ⟨k, hk⟩ := faultRecorded_link (n := n) (kind := kind) (pos := pos) h
  obtain ⟨ss, b, l, hrec⟩ := faultRecorded_eq s n kind pos
  rw [updateZones_eq n (by rw [hrec]; exact hw)]
  dsimp only
  rw [hk]
  exact ⟨_, rfl⟩

theorem faultReport_cases (hn : n < 128) (hw : s.waitList = []) :
    s.faultReport n kind pos =
      if (s.slot n).faultCount + 1 < s.settings.faultLimit then (s.faultRecorded n kind pos).updateZones n
      else ((s.faultRecorded n kind pos).updateZones n).retire n .faultLimit := by
  obtain ⟨_, _, hcount, _⟩ := faultRecorded_slot s hn kind pos
  obtain ⟨b, k, hrec⟩ := faultUpdated_eq hw n kind pos
  have hslot : ((s.faultRecorded n kind pos).updateZones n).slot n = (s.faultRecorded n kind pos).slot n := by
    rw [hrec]
    rfl
  have hset : ((s.faultRecorded n kind pos).updateZones n).settings = s.settings := by rw [hrec]
  rw [faultReport_eq]
  unfold State.testFaultLimit
  rw [hslot, hcount, hset, ← ite_not]
  exact ite_congr_iff Nat.not_le rfl rfl

/-- Retirement with no claim waiting leaves the lines, the time and the link but for its notices. -/
theorem retire_records (hw : s.waitList = []) (n : Nat) (why : RetireReason) :
    ∃ z g hd k, s.retire n why =
      { s.modSlot n fun r => r.retired why with
        zones := z, gate := g, handed := hd, link := { s.link with notices := k } } := by
  obtain ⟨g, hd, hretiring⟩ := retiring_eq s n why
  rw [retire_idle hw, raise_eq, writeZones_eq, hretiring]
  exact ⟨_, _, _, _, rfl⟩

theorem faultReport_reported (hn : n < 128) (hw : s.waitList = []) :
    s.FaultReported n kind (pos.apply (s.slot n).position) (s.faultReport n kind pos) := by
  obtain ⟨hstate, hfault, hcount, hposition, hremaining, _⟩ := faultRecorded_slot s hn kind pos
  obtain ⟨u, hu⟩ : ∃ u, u = (s.faultRecorded n kind pos).updateZones n := ⟨_, rfl⟩
  obtain ⟨b, k, hrec⟩ := faultUpdated_eq hw n kind pos
  have hlink := faultUpdated_link (n := n) (kind := kind) (pos := pos) hw
  rw [← hu] at hrec hlink
  have hslot (m : Nat) : u.slot m = (s.faultRecorded n kind pos).slot m := by rw [hrec]; rfl
  have hother (m : Nat) (hm : m ≠ n) : u.slot m = s.slot m := (hslot m).trans (faultRecorded_other s hm kind pos)
  rw [faultReport_cases hn hw, ← hu]
  by_cases hlimit : (s.slot n).faultCount + 1 < s.settings.faultLimit
  · rw [if_pos hlimit]
    refine ⟨?_, ?_, ?_, ?_, ?_, hother, by rw [hrec], by rw [hrec], hlink⟩
    · rw [hslot, if_pos hlimit, hstate]
    · rw [hslot, hfault]
    · rw [hslot, hcount]
    · rw [hslot, hposition]
    · rw [hslot, hremaining]
  · obtain ⟨z, g, hd, k', hretire⟩ := retire_records (s := u) (by rw [hrec]; exact hw) n .faultLimit
    have htslot (m : Nat) : (u.retire n .faultLimit).slot m = (u.modSlot n fun r => r.retired .faultLimit).slot m := by
      rw [hretire]
      rfl
    have hown : (u.retire n .faultLimit).slot n = (u.slot n).retired .faultLimit := by
      rw [htslot, slot_modSlot_same _ _ _ hn]
    rw [if_neg hlimit]
    refine ⟨?_, ?_, ?_, ?_, ?_, fun m hm => ?_, ?_, ?_, fun h => ?_⟩
    · rw [hown, if_neg hlimit]
      rfl
    · rw [hown]
      exact (congrArg SlotRec.fault (hslot n)).trans hfault
    · rw [hown]
      exact (congrArg SlotRec.faultCount (hslot n)).trans hcount
    · rw [hown]
      exact (congrArg SlotRec.position (hslot n)).trans hposition
    · rw [hown]
      rfl
    · rw [htslot, slot_modSlot_other _ _ _ _ hm.symm, hother m hm]
    · rw [hretire]
      show u.lines = s.lines
      rw [hrec]
    · rw [hretire]
      show u.now = s.now
      rw [hrec]
    · obtain ⟨k'', hk⟩ := hlink h
      rw [hretire]
      dsimp only
      rw [hk]
      exact ⟨_, rfl⟩

/-- A fault recorded gives a robot without a leg none. -/
theorem faultRecorded_noLeg (hn : n < 128) (hleg : (s.slot n).leg = none) :
    ((s.faultRecorded n kind pos).slot n).leg = none := by
  obtain ⟨u, hu⟩ : ∃ u, u = (s.raise (.robotFaulted 1 n)).modSlot n fun r =>
    { r with state := .faulted, fault := some { kind := kind, time := s.now }, remaining := [] } := ⟨_, rfl⟩
  have huleg : (u.slot n).leg = none := by
    rw [hu, slot_modSlot_same _ _ _ hn, raise_eq]
    exact hleg
  have houtcome : ((u.recordOutcome n .faulted).slot n).leg = none := by
    by_cases hb : ∃ b, u.batch = .opened b ∧ (u.slot n).batchFlag = true ∧ (u.slot n).outcome = .none
    · obtain ⟨b, hb, hc⟩ := hb
      rw [recordOutcome_slot _ hb hc, slot_modSlot_same _ _ _ hn]
      show (u.slot n).leg.filter _ = none
      rw [huleg]
      rfl
    · rw [recordOutcome_none _ fun b e hc => hb ⟨b, e, hc⟩]
      exact huleg
  unfold State.faultRecorded
  rw [← hu, slot_modSlot_same _ _ _ hn]
  exact houtcome

/-- A robot without a leg reports a fault: it has none after it, and the Start Gate stands. -/
theorem faultReport_noLeg (hn : n < 128) (hw : s.waitList = []) (hleg : (s.slot n).leg = none) :
    ((s.faultReport n kind pos).slot n).leg = none ∧ (s.faultReport n kind pos).gate = s.gate := by
  obtain ⟨u, hu⟩ : ∃ u, u = (s.faultRecorded n kind pos).updateZones n := ⟨_, rfl⟩
  obtain ⟨b, k, hrec⟩ := faultUpdated_eq hw n kind pos
  rw [← hu] at hrec
  have hgate : u.gate = s.gate := by rw [hrec]
  have huleg : (u.slot n).leg = none := by
    have hslot : u.slot n = (s.faultRecorded n kind pos).slot n := by rw [hrec]; rfl
    rw [hslot]
    exact faultRecorded_noLeg hn hleg
  rw [faultReport_cases hn hw, ← hu]
  split
  · exact ⟨huleg, hgate⟩
  · have hretiring : u.retiring n .faultLimit = u.modSlot n fun r => r.retired .faultLimit := by
      unfold State.retiring State.keepUnits
      rw [huleg]
    rw [retire_idle (by rw [hrec]; exact hw), raise_eq, writeZones_eq, hretiring]
    refine ⟨?_, hgate⟩
    show ((u.modSlot n fun r => r.retired .faultLimit).slot n).leg = none
    rw [slot_modSlot_same _ _ _ hn]
    show (u.slot n).leg.filter _ = none
    rw [huleg]
    rfl

end Report

end Sys2Proof.Machine
end

