-- ==== Sys2Proof/Proofs/RecoverFailing.lean ====
section
/-! PROOFS. A RECOVER leg that faults, and one that lapses: what it leaves, and the answer of its RECOVER
(R111, R112, R114, R115, R187, R188). -/

namespace Sys2Proof.Machine

/-! ## The answer of a RECOVER -/

section Answer

variable {s t : State} {n : Nat} {c : Current} {st : Status} {x : List Byte}

theorem answerRecover_idle (h : t.link.current = none) : t.answerRecover n st x = t := by
  have hrecovering : ¬ t.recovering n = true := by
    unfold State.recovering
    rw [h]
    exact Bool.false_ne_true
  unfold State.answerRecover
  exact if_neg hrecovering

theorem answerRecover_slot (t : State) (n : Nat) (st : Status) (x : List Byte) (m : Nat) :
    (t.answerRecover n st x).slot m = t.slot m := by
  rw [answerRecover_eq]
  rfl

/-- The answer of the RECOVER that is current, from a state whose link differs in its notices only. -/
theorem answerRecover_sends (hlink : ∃ k, t.link = { s.link with notices := k }) (hc : s.link.current = some c)
    (hw : c.work = .recover n) (hroom : s.outputRoom = true) (st : Status) (x : List Byte) :
    (t.answerRecover n st x).link.current = none ∧
      (t.answerRecover n st x).link.output = (s.answered c.tag c.code st x).link.output := by
  obtain ⟨k, hlink⟩ := hlink
  have hcurrent : t.link.current = some c := by rw [hlink]; exact hc
  have houtput : t.link.output = s.link.output := by rw [hlink]
  have hplan : t.link.plan = s.link.plan := by rw [hlink]
  have htroom : t.outputRoom = true := by
    unfold State.outputRoom
    rw [houtput]
    exact hroom
  rw [answerRecover_current hcurrent hw htroom]
  exact ⟨answered_current _ _ _ _ _,
    answered_output_congr (s := s) (t := { t with link := { t.link with current := none } }) houtput hplan _ _ _ _⟩

end Answer

/-! ## A leg written after the fault, and before it -/

/-- A fault of a RECOVER leg as its RECOVER's endings state it. -/
def State.RecoverFails (s : State) (n : Nat) (g : Leg) (c : Current) (kind : FaultKind) (pos : Option Position)
    (t : State) : Prop :=
  (t.slot n).state = (if (s.slot n).faultCount + 1 < s.settings.faultLimit then .faulted else .retired) ∧
    (t.slot n).fault = some { kind := kind, time := s.now } ∧ (t.slot n).faultCount = (s.slot n).faultCount + 1 ∧
    (t.slot n).position = pos ∧ (t.slot n).recoveryReturn = none ∧ (t.slot n).remaining = [] ∧
    (∀ m, m ≠ n → t.slot m = s.slot m) ∧ t.lines = s.lines ∧
    (s.link.current = some c ∧ c.work = .recover n → g.haltCause ≠ some .stop →
      t.link.current = none ∧
        t.link.output = (s.answered c.tag c.code .faulted [BitVec.ofNat 8 kind.code]).link.output) ∧
    (s.link.current = some c ∧ c.work = .recover n → g.haltCause = some .stop →
      t.link.current = none ∧ t.link.output = (s.answered c.tag c.code .stopped [BitVec.ofNat 8 n]).link.output)

section Written

variable {s t u : State} {n : Nat} {g : Leg} {c : Current} {kind : FaultKind} {pos : Option Position} {l : Option Leg}

/-- A report from a state that differs in the robot's leg is one from the state itself. -/
theorem faultReported_of_legWritten (hv : s.LegWritten n l t) (h : t.FaultReported n kind pos u) :
    s.FaultReported n kind pos u where
  state := by rw [h.state, hv.own, hv.settings]
  fault := by rw [h.fault, hv.now]
  count := by rw [h.count, hv.own]
  position := h.position
  remaining := h.remaining
  others m hm := (h.others m hm).trans (hv.others m hm)
  lines := h.lines.trans hv.lines
  now := h.now.trans hv.now
  link := by
    have hlink := h.link
    rw [hv.link] at hlink
    exact hlink

/-- Writing the robot's leg leaves what its fault left. -/
theorem recoverFails_legWritten (hu : t.LegWritten n l u) (h : s.RecoverFails n g c kind pos t) :
    s.RecoverFails n g c kind pos u := by
  obtain ⟨hstate, hfault, hcount, hposition, hreturn, hremaining, hothers, hlines, hfaulted, hstopped⟩ := h
  unfold State.RecoverFails
  rw [hu.own, hu.link]
  exact ⟨hstate, hfault, hcount, hposition, hreturn, hremaining,
    fun m hm => (hu.others m hm).trans (hothers m hm), hu.lines.trans hlines, hfaulted, hstopped⟩

theorem endLeg_legWritten (s : State) (hn : n < 128) (g : Leg) : s.LegWritten n none (s.endLeg n g) where
  own := endLeg_slot s hn g
  others _ hm := endLeg_other s hm g
  lines := rfl
  now := rfl
  settings := rfl
  waitList := rfl
  link := rfl

theorem modLeg_legWritten (hn : n < 128) (hg : (s.slot n).leg = some g) (f : Leg → Leg) :
    s.LegWritten n (some (f g)) (s.modLeg n f) where
  own := modLeg_slot hn hg f
  others _ hm := modLeg_other hm f
  lines := rfl
  now := rfl
  settings := rfl
  waitList := rfl
  link := rfl

theorem endLapsed_legWritten (s : State) (hn : n < 128) : ∃ l, s.LegWritten n l (s.endLapsed n) := by
  have hself : s.LegWritten n (s.slot n).leg s := ⟨rfl, fun _ _ => rfl, rfl, rfl, rfl, rfl, rfl⟩
  unfold State.endLapsed
  split
  · exact ⟨_, hself⟩
  · split
    · exact ⟨none, endLeg_legWritten s hn _⟩
    · exact ⟨_, hself⟩

end Written

/-! ## The fault answered -/

section Answered

variable {s f : State} {n : Nat} {g : Leg} {c : Current} {kind : FaultKind} {pos : Option Position}

theorem answerFault_recover (hk : g.kind = .recover) :
    f.answerFault n g kind = (f.modSlot n fun r => { r with recoveryReturn := none }).answerRecover n
      (if g.halted = true then .stopped else .faulted) (if g.halted = true then b1 n else b1 kind.code) := by
  unfold State.answerFault State.recoverFaulted
  rw [if_pos (by simp [Leg.isRecover, hk])]
  split <;> rfl

/-- The answer of a fault writes the recovery return state and the link alone. -/
theorem answerFault_records (hk : g.kind = .recover) :
    f.answerFault n g kind = { f.modSlot n fun r => { r with recoveryReturn := none } with
      link := (f.answerFault n g kind).link } := by
  rw [answerFault_recover hk, answerRecover_eq]

theorem answerFault_slot (hn : n < 128) (hk : g.kind = .recover) :
    (f.answerFault n g kind).slot n = { f.slot n with recoveryReturn := none } := by
  rw [answerFault_records hk]
  exact slot_modSlot_same f n (fun r => { r with recoveryReturn := none }) hn

theorem recoverFails_of_reported (hn : n < 128) (hk : g.kind = .recover) (hroom : s.outputRoom = true)
    (hf : s.FaultReported n kind pos f) : s.RecoverFails n g c kind pos (f.answerFault n g kind) := by
  have hrec := answerFault_records (f := f) (n := n) (kind := kind) hk
  have hlink (hc : s.link.current = some c) (hw : c.work = .recover n) :
      ∃ k, (f.modSlot n fun r => { r with recoveryReturn := none }).link = { s.link with notices := k } := by
    refine hf.link fun w hcur => ?_
    obtain rfl : c = w := Option.some.inj (hc.symm.trans hcur)
    rw [hw]
    simp
  unfold State.RecoverFails
  rw [answerFault_slot hn hk]
  refine ⟨hf.state, hf.fault, hf.count, hf.position, rfl, hf.remaining, fun m hm => ?_, ?_, fun hcur hcause => ?_,
    fun hcur hcause => ?_⟩
  · rw [hrec]
    exact (slot_modSlot_other f n m (fun r => { r with recoveryReturn := none }) hm.symm).trans (hf.others m hm)
  · rw [hrec]
    exact hf.lines
  · rw [answerFault_recover hk, if_neg (by simp [not_halted hcause]), if_neg (by simp [not_halted hcause])]
    exact answerRecover_sends (hlink hcur.1 hcur.2) hcur.1 hcur.2 hroom _ _
  · rw [answerFault_recover hk, if_pos (halted_iff.2 hcause), if_pos (halted_iff.2 hcause)]
    exact answerRecover_sends (hlink hcur.1 hcur.2) hcur.1 hcur.2 hroom _ _

end Answered

/-! ## A RECOVER leg that faults, and one that lapses -/

section Fails

variable {s : State} {n : Nat} {g : Leg} {c : Current} {kind : FaultKind}

theorem legFaulted_recover (hn : n < 128) (hk : g.kind = .recover) (hw : s.waitList = [])
    (hroom : s.outputRoom = true) (pos : PosChange) :
    s.RecoverFails n g c kind (pos.apply (s.slot n).position) (s.legFaulted n g kind pos) ∧
      ((s.legFaulted n g kind pos).slot n).leg = none ∧
      (s.legFaulted n g kind pos).gate = { s.gate with unitsInUse := s.gate.unitsInUse - g.units } := by
  have hend := endLeg_legWritten s hn g
  have hreport := faultReport_reported (kind := kind) (pos := pos) hn (hend.waitList.trans hw)
  obtain ⟨hleg, hgate⟩ := faultReport_noLeg (kind := kind) (pos := pos) hn (hend.waitList.trans hw)
    (by rw [hend.own])
  have hposition : ((s.endLeg n g).slot n).position = (s.slot n).position := by rw [hend.own]
  rw [hposition] at hreport
  unfold State.legFaulted
  refine ⟨recoverFails_of_reported hn hk hroom (faultReported_of_legWritten hend hreport), ?_, ?_⟩
  · rw [answerFault_slot hn hk]
    exact hleg
  · rw [answerFault_records hk]
    exact hgate

/-- The deadline a lapsing leg stands with. -/
def State.lapseDeadline (s : State) (n : Nat) (g : Leg) : Nat := g.deadline.getD (s.now + s.legDuration n g)

/-- A leg LAPSING with its deadline. -/
def Leg.lapsing (g : Leg) (d : Nat) : Leg := { g with stage := .lapsing, deadline := some d }

/-- A leg that lapses, its fault reported. -/
def State.lapseReported (s : State) (n : Nat) (g : Leg) (kind : FaultKind) : State :=
  (s.modLeg n fun x => x.lapsing (s.lapseDeadline n g)).faultReport n kind .unknown

theorem lapse_eq (s : State) (n : Nat) (g : Leg) (kind : FaultKind) :
    s.lapse n g kind = ((s.lapseReported n g kind).answerFault n g kind).endLapsed n := rfl

theorem lapse_fails (hn : n < 128) (hg : (s.slot n).leg = some g) (hk : g.kind = .recover) (hw : s.waitList = [])
    (hroom : s.outputRoom = true) : s.RecoverFails n g c kind none (s.lapse n g kind) := by
  have hmod := modLeg_legWritten hn hg fun x => x.lapsing (s.lapseDeadline n g)
  have hreport := faultReport_reported (kind := kind) (pos := .unknown) hn (hmod.waitList.trans hw)
  obtain ⟨l, hl⟩ := endLapsed_legWritten ((s.lapseReported n g kind).answerFault n g kind) hn
  rw [lapse_eq]
  exact recoverFails_legWritten hl
    (recoverFails_of_reported hn hk hroom (faultReported_of_legWritten hmod hreport))

/-- Below the fault limit a leg that lapses stands in its robot's record; the zones and the Start Gate are as they
were. -/
theorem lapseReported_below (hn : n < 128) (hg : (s.slot n).leg = some g) (hw : s.waitList = [])
    (hlimit : (s.slot n).faultCount + 1 < s.settings.faultLimit) :
    ((s.lapseReported n g kind).slot n).leg = some (g.lapsing (s.lapseDeadline n g)) ∧
      (s.lapseReported n g kind).gate = s.gate ∧ (s.lapseReported n g kind).zones = s.zones ∧
      (s.lapseReported n g kind).now = s.now := by
  obtain ⟨v, hv⟩ : ∃ v, v = s.modLeg n fun x => x.lapsing (s.lapseDeadline n g) := ⟨_, rfl⟩
  have hmod := modLeg_legWritten hn hg fun x => x.lapsing (s.lapseDeadline n g)
  rw [← hv] at hmod
  have hvrec : v = { s with slots := v.slots } := by rw [hv]; rfl
  obtain ⟨hrec, ⟨o, ts, leg, hslot, hleg, _⟩, _, hzones, _⟩ :=
    faultReport_below kind .unknown hn (hmod.waitList.trans hw) (by rw [hmod.own, hmod.settings]; exact hlimit)
  unfold State.lapseReported
  rw [← hv]
  refine ⟨?_, ?_, ?_, ?_⟩
  · rw [hslot]
    rcases hleg with h | h
    · exact h.trans (by rw [hmod.own])
    · exact h.trans (by rw [hmod.own]; rfl)
  · rw [hrec, hvrec]
  · rw [hzones rfl, hvrec]
  · rw [hrec, hvrec]

theorem lapse_below (hn : n < 128) (hg : (s.slot n).leg = some g) (hk : g.kind = .recover) (hw : s.waitList = [])
    (hlimit : (s.slot n).faultCount + 1 < s.settings.faultLimit) :
    (s.lapse n g kind).zones = s.zones ∧
      (s.now < s.lapseDeadline n g →
        ((s.lapse n g kind).slot n).leg = some (g.lapsing (s.lapseDeadline n g)) ∧ (s.lapse n g kind).gate = s.gate) ∧
      (s.lapseDeadline n g ≤ s.now → ((s.lapse n g kind).slot n).leg = none ∧
        (s.lapse n g kind).gate = { s.gate with unitsInUse := s.gate.unitsInUse - g.units }) := by
  obtain ⟨hleg, hgate, hzones, hnow⟩ := lapseReported_below (kind := kind) hn hg hw hlimit
  have hrec := answerFault_records (f := s.lapseReported n g kind) (n := n) (kind := kind) hk
  have hslot := answerFault_slot (f := s.lapseReported n g kind) (kind := kind) hn hk
  rw [lapse_eq]
  obtain ⟨u, hu⟩ : ∃ u, u = (s.lapseReported n g kind).answerFault n g kind := ⟨_, rfl⟩
  rw [← hu] at hrec hslot ⊢
  have hunow : u.now = s.now := by rw [hrec]; exact hnow
  have hugate : u.gate = s.gate := by rw [hrec]; exact hgate
  have huzones : u.zones = s.zones := by rw [hrec]; exact hzones
  obtain ⟨_, hearly, hdue, _, hlapsed, _⟩ :=
    endLapsed_spec (g := g.lapsing (s.lapseDeadline n g)) hn (by rw [hslot]; exact hleg) rfl rfl
  rw [hunow, hugate] at hearly hdue
  exact ⟨hlapsed.trans huzones, hearly, hdue⟩

end Fails

end Sys2Proof.Machine
end

