-- ==== Sys2Proof/Proofs/RecoverEnding.lean ====
section
/-! PROOFS. The endings of a RECOVER leg: arrived, stopped and blocked, and the statement assembled
(R34, R114, R120, R132, R186 to R189). -/

namespace Sys2Proof.Machine

section Recover

variable {s : State} {n : Nat} {g : Leg} {c : Current}

theorem isRecover_true (h : g.kind = .recover) : g.isRecover = true := by simp [Leg.isRecover, h]

/-- A RECOVER leg is at its end by beta alone. -/
theorem recover_atEnd_iff (h : g.kind = .recover) (a b : Nat) : g.atEnd a b = true ↔ b = g.finish.beta := by
  simp [Leg.atEnd, isRecover_true h]

/-! ## A STATE for a STOPPING leg -/

/-- A STATE that is not passed over ends a STOPPING leg by its halt cause. -/
theorem stateTaken_stopping (hg : (s.slot n).leg = some g) (hstage : g.stage = .stopping) {readback : Bool}
    {run : RunState} (h : readback = true ∨ run ≠ .running) (a b : Nat) :
    s.stateTaken n g.id readback run a b =
      if g.halted = true then s.legHalted n g a b
      else if g.atEnd a b = true then s.legArrived n g a b
      else s.legFaulted n g .overdue (.counts a b .reported) := by
  rw [stateTaken_eq hg, hstage]
  dsimp only
  unfold State.stoppingState
  exact if_neg fun hc => h.elim (by rw [hc.1]; simp) fun hr => hr hc.2

/-! ## A RECOVER leg that arrives -/

theorem endedReported_link (hw : s.waitList = []) (a b : Nat) :
    ∃ k, (s.endedReported n g a b).link = { s.link with notices := k } := by
  unfold State.endedReported
  rw [updateZones_eq n (by exact hw)]
  exact ⟨_, rfl⟩

/-- A STATE that settles a RECOVER leg at its end beta. -/
theorem stateTaken_recovered (hg : (s.slot n).leg = some g) (hk : g.kind = .recover) {readback : Bool}
    {run : RunState} {a b : Nat} (hb : b = g.finish.beta)
    (h : (g.stage = .running ∧ (run = .arrived ∨ run = .idle)) ∨
      (g.stage = .stopping ∧ g.haltCause = some .deadline ∧ (readback = true ∨ run ≠ .running))) :
    s.stateTaken n g.id readback run a b = (s.endedReported n g a b).recoverSucceeds n := by
  have hend : g.atEnd a b = true := (recover_atEnd_iff hk a b).2 hb
  have harrived : s.legArrived n g a b = (s.endedReported n g a b).recoverSucceeds n := by
    unfold State.legArrived
    exact if_pos (isRecover_true hk)
  rw [← harrived]
  rcases h with ⟨hstage, rfl | rfl⟩ | ⟨hstage, hcause, hrun⟩
  · rw [stateTaken_eq hg, hstage]
    exact if_pos hend
  · rw [stateTaken_eq hg, hstage]
    exact if_pos hend
  · rw [stateTaken_stopping hg hstage hrun, if_neg (by simp [not_halted (g := g) (by rw [hcause]; simp)]),
      if_pos hend]

theorem recoverSucceeds_records (hn : n < 128) (hw : s.waitList = []) (hroom : s.outputRoom = true) (a b : Nat) :
    let t := (s.endedReported n g a b).recoverSucceeds n
    t.slot n =
        { s.slot n with
          leg := none, position := some { alpha := a, beta := b, source := .reported }, state := .rest
          fault := none, recoveryReturn := none } ∧
      (∀ m, m ≠ n → t.slot m = s.slot m) ∧
      t.gate = { s.gate with unitsInUse := s.gate.unitsInUse - g.units } ∧ t.lines = s.lines ∧
      (s.link.current = some c ∧ c.work = .recover n →
        t.link.current = none ∧ t.link.output = (s.answered c.tag c.code .ok (b2 a ++ b2 b)).link.output) ∧
      (s.link.current = none → t.link.current = none ∧ t.link.output = s.link.output) := by
  obtain ⟨e, he⟩ : ∃ e, e = s.endedReported n g a b := ⟨_, rfl⟩
  have hslot := endedReported_slot (g := g) hn hw a b
  have hended := endedReported_endedAt (g := g) hn hw a b
  have hlink := endedReported_link (n := n) (g := g) hw a b
  rw [← he] at hslot hended hlink
  obtain ⟨hgate, hlines, hothers, _⟩ := hended
  dsimp only
  rw [← he, recoverSucceeds_eq hn (p := { alpha := a, beta := b, source := .reported }) (by rw [hslot])]
  obtain ⟨u, hu⟩ : ∃ u, u = e.modSlot n fun r => { r with state := .rest, fault := none, recoveryReturn := none } :=
    ⟨_, rfl⟩
  have hulink : ∃ k, u.link = { s.link with notices := k } := by rw [hu]; exact hlink
  rw [← hu]
  refine ⟨?_, fun m hm => ?_, ?_, ?_, fun hcur => answerRecover_sends hulink hcur.1 hcur.2 hroom _ _, fun hidle => ?_⟩
  · rw [answerRecover_slot, hu, slot_modSlot_same _ _ _ hn, hslot]
  · rw [answerRecover_slot, hu, slot_modSlot_other _ _ _ _ hm.symm, hothers m hm]
  · rw [answerRecover_eq, hu]
    exact hgate
  · rw [answerRecover_eq, hu]
    exact hlines
  · obtain ⟨k, hk⟩ := hulink
    have hnone : u.link.current = none := by rw [hk]; exact hidle
    rw [answerRecover_idle hnone]
    exact ⟨hnone, by rw [hk]⟩

/-! ## A RECOVER leg ended by a stop event -/

/-- The fault record of a robot whose RECOVER leg a stop event ended. -/
def State.stopFault (s : State) (n : Nat) (g : Leg) : FaultRec :=
  (s.slot n).fault.getD { kind := .none, time := g.stopTime.getD s.now }

/-- The end of a RECOVER leg by a stop event, from a state that differs in the leg, the position, the gate, the zones
and the notices. -/
theorem legStopped_recover {v : State} {p : Option Position} (hn : n < 128) (hk : g.kind = .recover)
    (hroom : s.outputRoom = true) (hslot : v.slot n = { s.slot n with leg := none, position := p })
    (hnow : v.now = s.now) (hlink : ∃ k, v.link = { s.link with notices := k }) (hc : s.link.current = some c)
    (hwork : c.work = .recover n) :
    (v.legStopped n g).slot n =
        { s.slot n with
          leg := none, position := p, state := .faulted, fault := some (s.stopFault n g), recoveryReturn := none } ∧
      (v.legStopped n g).gate = v.gate ∧ (v.legStopped n g).link.current = none ∧
      (v.legStopped n g).link.output = (s.answered c.tag c.code .stopped [BitVec.ofNat 8 n]).link.output := by
  unfold State.legStopped
  rw [if_pos (isRecover_true hk)]
  unfold State.recoverStopped
  refine ⟨?_, ?_, ?_⟩
  · rw [answerRecover_slot, slot_modSlot_same _ _ _ hn, hslot, hnow]
    unfold State.stopFault
    cases (s.slot n).fault <;> rfl
  · rw [answerRecover_eq]
    rfl
  · exact answerRecover_sends (s := s) (by exact hlink) hc hwork hroom _ _

theorem stateTaken_recoverHalted (hg : (s.slot n).leg = some g) (hstage : g.stage = .stopping)
    (hcause : g.haltCause = some .stop) {readback : Bool} {run : RunState} (h : readback = true ∨ run ≠ .running)
    (a b : Nat) : s.stateTaken n g.id readback run a b = (s.endedReported n g a b).legStopped n g := by
  rw [stateTaken_stopping hg hstage h, if_pos (halted_iff.2 hcause)]
  rfl

theorem goDiscarded_legAbandoned (hg : (s.slot n).leg = some g) (hstage : g.stage = .issued) :
    s.goDiscarded n g.id = ((s.endLeg n g).updateZones n).legStopped n g := by
  unfold State.goDiscarded
  rw [legOf_own hg]
  exact if_pos hstage

theorem stopEntry_legStopped (hg : (s.slot n).leg = some g) : s.stopEntry n = (s.droppedLeg n).legStopped n g :=
  (turnAway_stopEntry hg).symm

/-! ## A RECOVER leg blocked on a DOWN line -/

theorem blockEntry_recover {e : StartEntry} (h : (s.slot e.slot).leg = some g) (hk : g.kind = .recover) :
    s.blockEntry e =
      ((((s.leaveStart e.slot).droppedLeg e.slot).recoverReturns e.slot).answerRecover e.slot .state []).hand .scan := by
  have hslot : ((s.leaveStart e.slot).slot e.slot).leg = some g := h
  unfold State.blockEntry
  dsimp only
  rw [hslot]
  exact congrArg (State.hand · .scan) (if_pos (isRecover_true hk))

theorem blockEntry_returns {e : StartEntry} {v : ReturnState} (hn : n < 128) (hg : (s.slot n).leg = some g)
    (hk : g.kind = .recover) (hw : s.waitList = []) (hroom : s.outputRoom = true) (he : e.slot = n)
    (hv : (s.slot n).recoveryReturn = some v) (hc : s.link.current = some c) (hwork : c.work = .recover n) :
    (s.blockEntry e).slot n = { s.slot n with leg := none, state := v.toState, recoveryReturn := none } ∧
      (s.blockEntry e).gate =
        { s.gate with startQueue := s.gate.startQueue.filter fun x => decide (x.slot ≠ n) } ∧
      (s.blockEntry e).link.current = none ∧
      (s.blockEntry e).link.output = (s.answered c.tag c.code .state []).link.output := by
  subst he
  rw [blockEntry_recover hg hk]
  obtain ⟨w, hleave⟩ : ∃ w, w = s.leaveStart e.slot := ⟨_, rfl⟩
  have hwslot : w.slot e.slot = s.slot e.slot := by rw [hleave]; rfl
  have hwwait : w.waitList = [] := by rw [hleave]; exact hw
  have hwlink : w.link = s.link := by rw [hleave]; rfl
  have hdropped := droppedLeg_slot hn hwwait
  have hlink : ∃ k, (w.droppedLeg e.slot).link = { s.link with notices := k } := by
    unfold State.droppedLeg
    rw [updateZones_eq e.slot (by exact hwwait), ← hwlink]
    exact ⟨_, rfl⟩
  have hgate : (w.droppedLeg e.slot).gate =
      { s.gate with startQueue := s.gate.startQueue.filter fun x => decide (x.slot ≠ e.slot) } := by
    obtain ⟨z, k, hrec⟩ := droppedLeg_eq (n := e.slot) hwwait
    rw [hrec, hleave, leaveStart_eq]
    rfl
  rw [← hleave]
  refine ⟨?_, ?_, answerRecover_sends (s := s) (by exact hlink) hc hwork hroom _ _⟩
  · rw [hand_slot, answerRecover_slot]
    unfold State.recoverReturns
    rw [slot_modSlot_same _ _ _ hn, hdropped, hwslot]
    dsimp only
    rw [hv]
  · show (((w.droppedLeg e.slot).recoverReturns e.slot).answerRecover e.slot .state []).gate = _
    rw [answerRecover_eq]
    exact hgate

end Recover

/-- Settles O60. -/
theorem recoverEnds : Obligations.RecoverEnds := by
  intro s n g c hn hg hk hw hroom
  refine ⟨fun readback run a b hb h => ?arrived, fun kind pos => legFaulted_recover hn hk hw hroom pos,
    fun kind => ⟨lapse_fails hn hg hk hw hroom, lapse_below hn hg hk hw⟩,
    fun hstage => ⟨?goFailed, lineDownLeg_issued hg hstage, fun hcause => ?goRefused, fun hcause => ?goHalted⟩,
    fun hstage => ⟨?pollFailed, lineDownLeg_moving hg (.inl hstage), fun run a b h => ?stall⟩,
    fun hstage => ⟨?readbackFailed, lineDownLeg_moving hg (.inr hstage), fun readback run a b hcause hb h => ?overdue⟩,
    fun hcur => ⟨fun readback run a b hstage hcause h => ?halted, fun hstage => ?discarded, fun hstage => ?turned,
      fun e v hstage he hv => ?blocked⟩⟩
  case arrived =>
    dsimp only
    rw [stateTaken_recovered hg hk hb h]
    exact recoverSucceeds_records hn hw hroom a b
  case goFailed =>
    unfold State.goFailed
    rw [legOf_own hg]
    exact if_pos hstage
  case goRefused =>
    rw [goRefused_issued hg hstage, if_neg (by simp [not_halted hcause])]
  case goHalted =>
    rw [goRefused_issued hg hstage, if_pos (halted_iff.2 hcause), goDiscarded_legAbandoned hg hstage]
    rfl
  case pollFailed =>
    unfold State.pollFailed
    rw [legOf_own hg]
    exact if_pos hstage
  case stall =>
    rw [stateTaken_eq hg, hstage]
    rcases h with rfl | ⟨rfl | rfl, hb⟩
    · rfl
    · exact if_neg (mt (recover_atEnd_iff hk a b).1 hb)
    · exact if_neg (mt (recover_atEnd_iff hk a b).1 hb)
  case readbackFailed =>
    unfold State.readbackFailed
    rw [legOf_own hg]
    exact if_pos hstage
  case overdue =>
    rw [stateTaken_stopping hg hstage h, if_neg (by simp [not_halted (g := g) (by rw [hcause]; simp)]),
      if_neg (mt (recover_atEnd_iff hk a b).1 hb)]
  case halted =>
    obtain ⟨hgate, _⟩ := endedReported_endedAt (g := g) hn hw a b
    dsimp only
    rw [stateTaken_recoverHalted hg hstage hcause h, ← hgate]
    refine legStopped_recover hn hk hroom (endedReported_slot hn hw a b) ?_ (endedReported_link hw a b) hcur.1 hcur.2
    obtain ⟨z, k, hrec⟩ := endedReported_eq (g := g) hn hw a b
    rw [hrec]
    rfl
  case discarded =>
    obtain ⟨z, k, hrec⟩ := endLeg_updateZones_eq (n := n) (g := g) hw
    have hgate : ((s.endLeg n g).updateZones n).gate =
        { s.gate with unitsInUse := s.gate.unitsInUse - g.units } := by rw [hrec]; rfl
    have hnow : ((s.endLeg n g).updateZones n).now = s.now := by rw [hrec]; rfl
    have hlink : ∃ k, ((s.endLeg n g).updateZones n).link = { s.link with notices := k } := by
      rw [updateZones_eq n (by exact hw)]
      exact ⟨_, rfl⟩
    dsimp only
    rw [goDiscarded_legAbandoned hg hstage, ← hgate]
    exact legStopped_recover hn hk hroom (endLeg_updateZones_slot hn hw) hnow hlink hcur.1 hcur.2
  case turned =>
    obtain ⟨z, k, hrec⟩ := droppedLeg_eq (n := n) hw
    have hgate : (s.droppedLeg n).gate = s.gate := by rw [hrec]; rfl
    have hnow : (s.droppedLeg n).now = s.now := by rw [hrec]; rfl
    have hlink : ∃ k, (s.droppedLeg n).link = { s.link with notices := k } := by
      unfold State.droppedLeg
      rw [updateZones_eq n (by exact hw)]
      exact ⟨_, rfl⟩
    dsimp only
    rw [stopEntry_legStopped hg, ← hgate]
    exact legStopped_recover hn hk hroom (droppedLeg_slot hn hw) hnow hlink hcur.1 hcur.2
  case blocked => exact blockEntry_returns hn hg hk hw hroom he hv hcur.1 hcur.2

end Sys2Proof.Machine
end
